-- ==== Sys2Proof/Word.lean ====
section
/-! DEFINITION. The word and byte types, the two register widths and the privilege modes. -/

namespace Sys2Proof

/-- A physical integer register, address or CSR word: MAXLEN is at most 64 (00_scope R7, 10_state R21). -/
abbrev Word := BitVec 64

/-- A byte of memory (20_memory R140). -/
abbrev Byte := BitVec 8

/-- The number of an integer register, x0 to x31 (10_state R20). -/
abbrev Reg := BitVec 5

/-- A three-bit register field of a compressed instruction: it names x8 to x15 (30_encoding R203). -/
abbrev CReg := BitVec 3

/-- XLEN, "the native integer width (32 or 64) the hart currently operates in" (10_state R29). -/
inductive Xlen where
  | x32
  | x64
deriving DecidableEq, Repr

/-- The width as a number of bits. -/
def Xlen.bits : Xlen → Nat
  | .x32 => 32
  | .x64 => 64

/-- The privilege mode, one of USER, SUPERVISOR, MACHINE (10_state R28). -/
inductive Priv where
  | U
  | S
  | M
deriving DecidableEq, Repr

/-- The encoding of a mode: U = 0, S = 1, M = 3 (10_state R28). -/
def Priv.code : Priv → BitVec 2
  | .U => 0#2
  | .S => 1#2
  | .M => 3#2

/-- "exceeds current privilege" compares these numbers (15_csr R61). -/
def Priv.toNat (p : Priv) : Nat := p.code.toNat

end Sys2Proof
end

