-- ==== Sys2Proof/Syntax.lean ====
section
/-! DEFINITION. The instructions: one constructor for each of the 132 rows of spec/opcode_table.json. Operands are the
fields of the encoding; an immediate or offset is held as the byte value the assembler writes, before its extension to XLEN. -/

namespace Sys2Proof

/-- An instruction as syntax. `rd`, `rs1`, `rs2` are register numbers (a `CReg` names x8 to x15), `aq` and `rl` the ordering
bits of an atomic (45_atomics R391), `csr` a CSR address. Offsets and scaled immediates are byte counts. -/
inductive Instr where
  -- 41_integer_alu
  /-- `LUI`, R262. -/
  | lui (rd : Reg) (imm : BitVec 20)
  /-- `AUIPC`, R263. -/
  | auipc (rd : Reg) (imm : BitVec 20)
  /-- `ADDI`, R264. -/
  | addi (rd rs1 : Reg) (imm : BitVec 12)
  /-- `SLTI`, R265. -/
  | slti (rd rs1 : Reg) (imm : BitVec 12)
  /-- `SLTIU`, R266. -/
  | sltiu (rd rs1 : Reg) (imm : BitVec 12)
  /-- `XORI`, R267. -/
  | xori (rd rs1 : Reg) (imm : BitVec 12)
  /-- `ORI`, R268. -/
  | ori (rd rs1 : Reg) (imm : BitVec 12)
  /-- `ANDI`, R269. -/
  | andi (rd rs1 : Reg) (imm : BitVec 12)
  /-- `SLLI`, R270. -/
  | slli (rd rs1 : Reg) (shamt : BitVec 6)
  /-- `SRLI`, R271. -/
  | srli (rd rs1 : Reg) (shamt : BitVec 6)
  /-- `SRAI`, R272. -/
  | srai (rd rs1 : Reg) (shamt : BitVec 6)
  /-- `ADD`, R273. -/
  | add (rd rs1 rs2 : Reg)
  /-- `SUB`, R274. -/
  | sub (rd rs1 rs2 : Reg)
  /-- `SLL`, R275. -/
  | sll (rd rs1 rs2 : Reg)
  /-- `SLT`, R276. -/
  | slt (rd rs1 rs2 : Reg)
  /-- `SLTU`, R277. -/
  | sltu (rd rs1 rs2 : Reg)
  /-- `XOR`, R278. -/
  | xor (rd rs1 rs2 : Reg)
  /-- `SRL`, R279. -/
  | srl (rd rs1 rs2 : Reg)
  /-- `SRA`, R280. -/
  | sra (rd rs1 rs2 : Reg)
  /-- `OR`, R281. -/
  | or (rd rs1 rs2 : Reg)
  /-- `AND`, R282. -/
  | and (rd rs1 rs2 : Reg)
  /-- `ADDIW`, R283. -/
  | addiw (rd rs1 : Reg) (imm : BitVec 12)
  /-- `SLLIW`, R284. -/
  | slliw (rd rs1 : Reg) (shamt : BitVec 5)
  /-- `SRLIW`, R285. -/
  | srliw (rd rs1 : Reg) (shamt : BitVec 5)
  /-- `SRAIW`, R286. -/
  | sraiw (rd rs1 : Reg) (shamt : BitVec 5)
  /-- `ADDW`, R287. -/
  | addw (rd rs1 rs2 : Reg)
  /-- `SUBW`, R288. -/
  | subw (rd rs1 rs2 : Reg)
  /-- `SLLW`, R289. -/
  | sllw (rd rs1 rs2 : Reg)
  /-- `SRLW`, R290. -/
  | srlw (rd rs1 rs2 : Reg)
  /-- `SRAW`, R291. -/
  | sraw (rd rs1 rs2 : Reg)
  -- 42_control_transfer
  /-- `JAL`, R321. -/
  | jal (rd : Reg) (offset : BitVec 21)
  /-- `JALR`, R322. -/
  | jalr (rd rs1 : Reg) (imm : BitVec 12)
  /-- `BEQ`, R324. -/
  | beq (rs1 rs2 : Reg) (offset : BitVec 13)
  /-- `BNE`, R325. -/
  | bne (rs1 rs2 : Reg) (offset : BitVec 13)
  /-- `BLT`, R326. -/
  | blt (rs1 rs2 : Reg) (offset : BitVec 13)
  /-- `BGE`, R327. -/
  | bge (rs1 rs2 : Reg) (offset : BitVec 13)
  /-- `BLTU`, R328. -/
  | bltu (rs1 rs2 : Reg) (offset : BitVec 13)
  /-- `BGEU`, R329. -/
  | bgeu (rs1 rs2 : Reg) (offset : BitVec 13)
  -- 43_load_store
  /-- `LB`, R343. -/
  | lb (rd rs1 : Reg) (imm : BitVec 12)
  /-- `LH`, R344. -/
  | lh (rd rs1 : Reg) (imm : BitVec 12)
  /-- `LW`, R345. -/
  | lw (rd rs1 : Reg) (imm : BitVec 12)
  /-- `LBU`, R346. -/
  | lbu (rd rs1 : Reg) (imm : BitVec 12)
  /-- `LHU`, R347. -/
  | lhu (rd rs1 : Reg) (imm : BitVec 12)
  /-- `LWU`, R348. -/
  | lwu (rd rs1 : Reg) (imm : BitVec 12)
  /-- `LD`, R349. -/
  | ld (rd rs1 : Reg) (imm : BitVec 12)
  /-- `SB`, R350. -/
  | sb (rs1 rs2 : Reg) (imm : BitVec 12)
  /-- `SH`, R351. -/
  | sh (rs1 rs2 : Reg) (imm : BitVec 12)
  /-- `SW`, R352. -/
  | sw (rs1 rs2 : Reg) (imm : BitVec 12)
  /-- `SD`, R353. -/
  | sd (rs1 rs2 : Reg) (imm : BitVec 12)
  /-- `FENCE`, R356. -/
  | fence (fm pred succ : BitVec 4) (rs1 rd : Reg)
  /-- `FENCE.I`, R357. -/
  | fenceI (imm : BitVec 12) (rs1 rd : Reg)
  -- 44_muldiv
  /-- `MUL`, R371. -/
  | mul (rd rs1 rs2 : Reg)
  /-- `MULH`, R372. -/
  | mulh (rd rs1 rs2 : Reg)
  /-- `MULHSU`, R373. -/
  | mulhsu (rd rs1 rs2 : Reg)
  /-- `MULHU`, R374. -/
  | mulhu (rd rs1 rs2 : Reg)
  /-- `MULW`, R375. -/
  | mulw (rd rs1 rs2 : Reg)
  /-- `DIV`, R376. -/
  | div (rd rs1 rs2 : Reg)
  /-- `DIVU`, R377. -/
  | divu (rd rs1 rs2 : Reg)
  /-- `REM`, R378. -/
  | rem (rd rs1 rs2 : Reg)
  /-- `REMU`, R379. -/
  | remu (rd rs1 rs2 : Reg)
  /-- `DIVW`, R380. -/
  | divw (rd rs1 rs2 : Reg)
  /-- `DIVUW`, R381. -/
  | divuw (rd rs1 rs2 : Reg)
  /-- `REMW`, R382. -/
  | remw (rd rs1 rs2 : Reg)
  /-- `REMUW`, R383. -/
  | remuw (rd rs1 rs2 : Reg)
  -- 45_atomics
  /-- `LR.W`, R393. -/
  | lrW (rd rs1 : Reg) (aq rl : Bool)
  /-- `LR.D`, R393. -/
  | lrD (rd rs1 : Reg) (aq rl : Bool)
  /-- `SC.W`, R395. -/
  | scW (rd rs1 rs2 : Reg) (aq rl : Bool)
  /-- `SC.D`, R396. -/
  | scD (rd rs1 rs2 : Reg) (aq rl : Bool)
  /-- `AMOSWAP.W`, R398. -/
  | amoswapW (rd rs1 rs2 : Reg) (aq rl : Bool)
  /-- `AMOADD.W`, R399. -/
  | amoaddW (rd rs1 rs2 : Reg) (aq rl : Bool)
  /-- `AMOXOR.W`, R400. -/
  | amoxorW (rd rs1 rs2 : Reg) (aq rl : Bool)
  /-- `AMOAND.W`, R401. -/
  | amoandW (rd rs1 rs2 : Reg) (aq rl : Bool)
  /-- `AMOOR.W`, R402. -/
  | amoorW (rd rs1 rs2 : Reg) (aq rl : Bool)
  /-- `AMOMIN.W`, R403. -/
  | amominW (rd rs1 rs2 : Reg) (aq rl : Bool)
  /-- `AMOMAX.W`, R404. -/
  | amomaxW (rd rs1 rs2 : Reg) (aq rl : Bool)
  /-- `AMOMINU.W`, R405. -/
  | amominuW (rd rs1 rs2 : Reg) (aq rl : Bool)
  /-- `AMOMAXU.W`, R406. -/
  | amomaxuW (rd rs1 rs2 : Reg) (aq rl : Bool)
  /-- `AMOSWAP.D`, R407. -/
  | amoswapD (rd rs1 rs2 : Reg) (aq rl : Bool)
  /-- `AMOADD.D`, R408. -/
  | amoaddD (rd rs1 rs2 : Reg) (aq rl : Bool)
  /-- `AMOXOR.D`, R409. -/
  | amoxorD (rd rs1 rs2 : Reg) (aq rl : Bool)
  /-- `AMOAND.D`, R410. -/
  | amoandD (rd rs1 rs2 : Reg) (aq rl : Bool)
  /-- `AMOOR.D`, R411. -/
  | amoorD (rd rs1 rs2 : Reg) (aq rl : Bool)
  /-- `AMOMIN.D`, R412. -/
  | amominD (rd rs1 rs2 : Reg) (aq rl : Bool)
  /-- `AMOMAX.D`, R413. -/
  | amomaxD (rd rs1 rs2 : Reg) (aq rl : Bool)
  /-- `AMOMINU.D`, R414. -/
  | amominuD (rd rs1 rs2 : Reg) (aq rl : Bool)
  /-- `AMOMAXU.D`, R415. -/
  | amomaxuD (rd rs1 rs2 : Reg) (aq rl : Bool)
  -- 46_zicsr
  /-- `CSRRW`, R422. -/
  | csrrw (rd : Reg) (csr : BitVec 12) (rs1 : Reg)
  /-- `CSRRS`, R423. -/
  | csrrs (rd : Reg) (csr : BitVec 12) (rs1 : Reg)
  /-- `CSRRC`, R424. -/
  | csrrc (rd : Reg) (csr : BitVec 12) (rs1 : Reg)
  /-- `CSRRWI`, R425. -/
  | csrrwi (rd : Reg) (csr : BitVec 12) (uimm : BitVec 5)
  /-- `CSRRSI`, R426. -/
  | csrrsi (rd : Reg) (csr : BitVec 12) (uimm : BitVec 5)
  /-- `CSRRCI`, R427. -/
  | csrrci (rd : Reg) (csr : BitVec 12) (uimm : BitVec 5)
  -- 47_system
  /-- `ECALL`, R431. -/
  | ecall
  /-- `EBREAK`, R432. -/
  | ebreak
  /-- `MRET`, R434. -/
  | mret
  /-- `SRET`, R435. -/
  | sret
  /-- `WFI`, R436. -/
  | wfi
  /-- `SFENCE.VMA`, R437. -/
  | sfenceVma (rs1 rs2 : Reg)
  -- 48_compressed
  /-- `C.ADDI4SPN`, R452. -/
  | cAddi4spn (rd : CReg) (nzuimm : BitVec 10)
  /-- `C.LW`, R453. -/
  | cLw (rd rs1 : CReg) (uimm : BitVec 7)
  /-- `C.LD`, R454. -/
  | cLd (rd rs1 : CReg) (uimm : BitVec 8)
  /-- `C.SW`, R455. -/
  | cSw (rs1 rs2 : CReg) (uimm : BitVec 7)
  /-- `C.SD`, R456. -/
  | cSd (rs1 rs2 : CReg) (uimm : BitVec 8)
  /-- `C.NOP`, R457. -/
  | cNop (imm : BitVec 6)
  /-- `C.ADDI`, R458. -/
  | cAddi (rd : Reg) (imm : BitVec 6)
  /-- `C.JAL`, R459. -/
  | cJal (offset : BitVec 12)
  /-- `C.ADDIW`, R460. -/
  | cAddiw (rd : Reg) (imm : BitVec 6)
  /-- `C.LI`, R461. -/
  | cLi (rd : Reg) (imm : BitVec 6)
  /-- `C.ADDI16SP`, R462. -/
  | cAddi16sp (nzimm : BitVec 10)
  /-- `C.LUI`, R463. -/
  | cLui (rd : Reg) (nzimm : BitVec 6)
  /-- `C.SRLI`, R464. -/
  | cSrli (rd : CReg) (shamt : BitVec 6)
  /-- `C.SRAI`, R465. -/
  | cSrai (rd : CReg) (shamt : BitVec 6)
  /-- `C.ANDI`, R466. -/
  | cAndi (rd : CReg) (imm : BitVec 6)
  /-- `C.SUB`, R467. -/
  | cSub (rd rs2 : CReg)
  /-- `C.XOR`, R468. -/
  | cXor (rd rs2 : CReg)
  /-- `C.OR`, R469. -/
  | cOr (rd rs2 : CReg)
  /-- `C.AND`, R470. -/
  | cAnd (rd rs2 : CReg)
  /-- `C.SUBW`, R471. -/
  | cSubw (rd rs2 : CReg)
  /-- `C.ADDW`, R472. -/
  | cAddw (rd rs2 : CReg)
  /-- `C.J`, R473. -/
  | cJ (offset : BitVec 12)
  /-- `C.BEQZ`, R474. -/
  | cBeqz (rs1 : CReg) (offset : BitVec 9)
  /-- `C.BNEZ`, R475. -/
  | cBnez (rs1 : CReg) (offset : BitVec 9)
  /-- `C.SLLI`, R476. -/
  | cSlli (rd : Reg) (shamt : BitVec 6)
  /-- `C.LWSP`, R477. -/
  | cLwsp (rd : Reg) (uimm : BitVec 8)
  /-- `C.LDSP`, R478. -/
  | cLdsp (rd : Reg) (uimm : BitVec 9)
  /-- `C.JR`, R479. -/
  | cJr (rs1 : Reg)
  /-- `C.MV`, R480. -/
  | cMv (rd rs2 : Reg)
  /-- `C.EBREAK`, R481. -/
  | cEbreak
  /-- `C.JALR`, R482. -/
  | cJalr (rs1 : Reg)
  /-- `C.ADD`, R483. -/
  | cAdd (rd rs2 : Reg)
  /-- `C.SWSP`, R484. -/
  | cSwsp (rs2 : Reg) (uimm : BitVec 8)
  /-- `C.SDSP`, R485. -/
  | cSdsp (rs2 : Reg) (uimm : BitVec 9)
deriving DecidableEq, Repr

end Sys2Proof
end

