-- ==== Sys2Proof/WellFormed.lean ====
section
/-! DEFINITION. Which instruction terms an encoding exists for, at each XLEN (30_encoding R202, R205, R222, R227). -/

namespace Sys2Proof

/-- The byte value is even: a jump or branch offset (30_encoding R204, R205: bit 0 is not encoded). -/
def evenBits {n : Nat} (v : BitVec n) : Bool := !(v.getLsbD 0)

/-- The byte value is a multiple of 4. -/
def mult4 {n : Nat} (v : BitVec n) : Bool := v.extractLsb' 0 2 == 0#2

/-- The byte value is a multiple of 8. -/
def mult8 {n : Nat} (v : BitVec n) : Bool := v.extractLsb' 0 3 == 0#3

/-- The byte value is a multiple of 16. -/
def mult16 {n : Nat} (v : BitVec n) : Bool := v.extractLsb' 0 4 == 0#4

/-- The shift amount exists at this XLEN: with XLEN = 32, `inst[25]` (`inst[12]` of a compressed word) must be 0
(30_encoding R222, R227). -/
def shamtFits (x : Xlen) (shamt : BitVec 6) : Bool :=
  match x with
  | .x64 => true
  | .x32 => !(shamt.getLsbD 5)

/-- `XLEN = 64`. -/
def Xlen.is64 (x : Xlen) : Bool := x == .x64

/-- Some word encodes the term at XLEN `x`. -/
def Instr.wf (x : Xlen) : Instr → Bool
  | .lui _ _ => true
  | .auipc _ _ => true
  | .addi _ _ _ => true
  | .slti _ _ _ => true
  | .sltiu _ _ _ => true
  | .xori _ _ _ => true
  | .ori _ _ _ => true
  | .andi _ _ _ => true
  | .slli _ _ shamt => shamtFits x shamt
  | .srli _ _ shamt => shamtFits x shamt
  | .srai _ _ shamt => shamtFits x shamt
  | .add _ _ _ => true
  | .sub _ _ _ => true
  | .sll _ _ _ => true
  | .slt _ _ _ => true
  | .sltu _ _ _ => true
  | .xor _ _ _ => true
  | .srl _ _ _ => true
  | .sra _ _ _ => true
  | .or _ _ _ => true
  | .and _ _ _ => true
  | .addiw _ _ _ => x.is64
  | .slliw _ _ _ => x.is64
  | .srliw _ _ _ => x.is64
  | .sraiw _ _ _ => x.is64
  | .addw _ _ _ => x.is64
  | .subw _ _ _ => x.is64
  | .sllw _ _ _ => x.is64
  | .srlw _ _ _ => x.is64
  | .sraw _ _ _ => x.is64
  | .jal _ offset => evenBits offset
  | .jalr _ _ _ => true
  | .beq _ _ offset => evenBits offset
  | .bne _ _ offset => evenBits offset
  | .blt _ _ offset => evenBits offset
  | .bge _ _ offset => evenBits offset
  | .bltu _ _ offset => evenBits offset
  | .bgeu _ _ offset => evenBits offset
  | .lb _ _ _ => true
  | .lh _ _ _ => true
  | .lw _ _ _ => true
  | .lbu _ _ _ => true
  | .lhu _ _ _ => true
  | .lwu _ _ _ => x.is64
  | .ld _ _ _ => x.is64
  | .sb _ _ _ => true
  | .sh _ _ _ => true
  | .sw _ _ _ => true
  | .sd _ _ _ => x.is64
  | .fence _ _ _ _ _ => true
  | .fenceI _ _ _ => true
  | .mul _ _ _ => true
  | .mulh _ _ _ => true
  | .mulhsu _ _ _ => true
  | .mulhu _ _ _ => true
  | .mulw _ _ _ => x.is64
  | .div _ _ _ => true
  | .divu _ _ _ => true
  | .rem _ _ _ => true
  | .remu _ _ _ => true
  | .divw _ _ _ => x.is64
  | .divuw _ _ _ => x.is64
  | .remw _ _ _ => x.is64
  | .remuw _ _ _ => x.is64
  | .lrW _ _ _ _ => true
  | .lrD _ _ _ _ => x.is64
  | .scW _ _ _ _ _ => true
  | .scD _ _ _ _ _ => x.is64
  | .amoswapW _ _ _ _ _ => true
  | .amoaddW _ _ _ _ _ => true
  | .amoxorW _ _ _ _ _ => true
  | .amoandW _ _ _ _ _ => true
  | .amoorW _ _ _ _ _ => true
  | .amominW _ _ _ _ _ => true
  | .amomaxW _ _ _ _ _ => true
  | .amominuW _ _ _ _ _ => true
  | .amomaxuW _ _ _ _ _ => true
  | .amoswapD _ _ _ _ _ => x.is64
  | .amoaddD _ _ _ _ _ => x.is64
  | .amoxorD _ _ _ _ _ => x.is64
  | .amoandD _ _ _ _ _ => x.is64
  | .amoorD _ _ _ _ _ => x.is64
  | .amominD _ _ _ _ _ => x.is64
  | .amomaxD _ _ _ _ _ => x.is64
  | .amominuD _ _ _ _ _ => x.is64
  | .amomaxuD _ _ _ _ _ => x.is64
  | .csrrw _ _ _ => true
  | .csrrs _ _ _ => true
  | .csrrc _ _ _ => true
  | .csrrwi _ _ _ => true
  | .csrrsi _ _ _ => true
  | .csrrci _ _ _ => true
  | .ecall => true
  | .ebreak => true
  | .mret => true
  | .sret => true
  | .wfi => true
  | .sfenceVma _ _ => true
  | .cAddi4spn _ nzuimm => mult4 nzuimm && nzuimm != 0#10
  | .cLw _ _ uimm => mult4 uimm
  | .cLd _ _ uimm => x.is64 && mult8 uimm
  | .cSw _ _ uimm => mult4 uimm
  | .cSd _ _ uimm => x.is64 && mult8 uimm
  | .cNop _ => true
  | .cAddi rd _ => rd != 0#5
  | .cJal offset => !x.is64 && evenBits offset
  | .cAddiw rd _ => x.is64 && rd != 0#5
  | .cLi _ _ => true
  | .cAddi16sp nzimm => mult16 nzimm && nzimm != 0#10
  | .cLui rd nzimm => rd != 2#5 && nzimm != 0#6
  | .cSrli _ shamt => shamtFits x shamt
  | .cSrai _ shamt => shamtFits x shamt
  | .cAndi _ _ => true
  | .cSub _ _ => true
  | .cXor _ _ => true
  | .cOr _ _ => true
  | .cAnd _ _ => true
  | .cSubw _ _ => x.is64
  | .cAddw _ _ => x.is64
  | .cJ offset => evenBits offset
  | .cBeqz _ offset => evenBits offset
  | .cBnez _ offset => evenBits offset
  | .cSlli _ shamt => shamtFits x shamt
  | .cLwsp rd uimm => rd != 0#5 && mult4 uimm
  | .cLdsp rd uimm => x.is64 && rd != 0#5 && mult8 uimm
  | .cJr rs1 => rs1 != 0#5
  | .cMv _ rs2 => rs2 != 0#5
  | .cEbreak => true
  | .cJalr rs1 => rs1 != 0#5
  | .cAdd _ rs2 => rs2 != 0#5
  | .cSwsp _ uimm => mult4 uimm
  | .cSdsp _ uimm => x.is64 && mult8 uimm

end Sys2Proof
end

