-- ==== Sys2Proof/Decode.lean ====
section
/-! DEFINITION. From instruction bits to an instruction, or a rejection by name, and back (30_encoding; the match and
mask columns of spec/opcode_table.json). -/

namespace Sys2Proof

/-- The bits of one instruction: 16 of them, or 32 (30_encoding R200). -/
inductive Encoded where
  | c16 (w : BitVec 16)
  | c32 (w : BitVec 32)
deriving DecidableEq, Repr

/-- `len`, in bytes (30_encoding R200). -/
def Encoded.len : Encoded → Nat
  | .c16 _ => 2
  | .c32 _ => 4

/-- The instruction word as the trap value of an illegal instruction shows it: "all 32 bits of a 32-bit encoding, or the
16 bits of a compressed encoding zero-extended" (30_encoding R220). -/
def Encoded.bits : Encoded → BitVec 32
  | .c16 w => w.zeroExtend 32
  | .c32 w => w

/-- The bytes in memory, the lowest address first: little-endian (20_memory R142). -/
def Encoded.bytes : Encoded → List Byte
  | .c16 w => [w.extractLsb' 0 8, w.extractLsb' 8 8]
  | .c32 w => [w.extractLsb' 0 8, w.extractLsb' 8 8, w.extractLsb' 16 8, w.extractLsb' 24 8]

/-- Why bits are no instruction. Each raises illegal instruction (30_encoding R220), but `floatingPoint` where an FPU is
present (R226), and `truncated`, which a list of bytes can show and a fetch cannot. -/
inductive Reject where
  /-- The bytes end before the instruction does. -/
  | truncated
  /-- No row of the opcode table (R210 to R212, R225, R228). -/
  | unrecognised
  /-- A reserved encoding (R222). -/
  | reserved
  /-- custom-0 to custom-3 (R224). -/
  | custom
  /-- A floating-point encoding (R226). -/
  | floatingPoint
  /-- An encoding of the other XLEN (R227). -/
  | wrongXlen
deriving DecidableEq, Repr

/-! ### Fields of a 32-bit word (R201, R202) -/

def fOpcode (w : BitVec 32) : BitVec 7 := w.extractLsb' 0 7
def fRd (w : BitVec 32) : Reg := w.extractLsb' 7 5
def fFunct3 (w : BitVec 32) : BitVec 3 := w.extractLsb' 12 3
def fRs1 (w : BitVec 32) : Reg := w.extractLsb' 15 5
def fRs2 (w : BitVec 32) : Reg := w.extractLsb' 20 5
def fFunct7 (w : BitVec 32) : BitVec 7 := w.extractLsb' 25 7
def fFunct6 (w : BitVec 32) : BitVec 6 := w.extractLsb' 26 6
def fShamt (w : BitVec 32) : BitVec 6 := w.extractLsb' 20 6
def fFunct5 (w : BitVec 32) : BitVec 5 := w.extractLsb' 27 5
def fAq (w : BitVec 32) : Bool := w.getLsbD 26
def fRl (w : BitVec 32) : Bool := w.getLsbD 25
def fCsr (w : BitVec 32) : BitVec 12 := w.extractLsb' 20 12

/-! ### Immediates of a 32-bit word, before sign extension (R204) -/

/-- `inst[31:20]`. -/
def immI (w : BitVec 32) : BitVec 12 := w.extractLsb' 20 12

/-- `inst[31:25], inst[11:7]`. -/
def immS (w : BitVec 32) : BitVec 12 := w.extractLsb' 25 7 ++ w.extractLsb' 7 5

/-- `inst[31], inst[7], inst[30:25], inst[11:8], 0`. -/
def immB (w : BitVec 32) : BitVec 13 :=
  w.extractLsb' 31 1 ++ w.extractLsb' 7 1 ++ w.extractLsb' 25 6 ++ w.extractLsb' 8 4 ++ 0#1

/-- `inst[31:12]`: the 20-bit field. -/
def immU (w : BitVec 32) : BitVec 20 := w.extractLsb' 12 20

/-- `inst[31], inst[19:12], inst[20], inst[30:21], 0`. -/
def immJ (w : BitVec 32) : BitVec 21 :=
  w.extractLsb' 31 1 ++ w.extractLsb' 12 8 ++ w.extractLsb' 20 1 ++ w.extractLsb' 21 10 ++ 0#1

/-! ### Fields and immediates of a 16-bit word (R203, R205) -/

def gOp (w : BitVec 16) : BitVec 2 := w.extractLsb' 0 2
def gFunct3 (w : BitVec 16) : BitVec 3 := w.extractLsb' 13 3
/-- The unprimed `rd/rs1` field, `inst[11:7]`. -/
def gRd (w : BitVec 16) : Reg := w.extractLsb' 7 5
/-- The unprimed `rs2` field, `inst[6:2]`. -/
def gRs2 (w : BitVec 16) : Reg := w.extractLsb' 2 5
/-- The primed field at `inst[9:7]`. -/
def gRs1c (w : BitVec 16) : CReg := w.extractLsb' 7 3
/-- The primed field at `inst[4:2]`. -/
def gRs2c (w : BitVec 16) : CReg := w.extractLsb' 2 3
def gBit12 (w : BitVec 16) : BitVec 1 := w.extractLsb' 12 1
/-- `inst[11:10]`, which selects within quadrant 1, funct3 = 100. -/
def gSel (w : BitVec 16) : BitVec 2 := w.extractLsb' 10 2
/-- funct2, `inst[6:5]`. -/
def gFunct2 (w : BitVec 16) : BitVec 2 := w.extractLsb' 5 2

/-- `inst[12], inst[6:2]`: imm[5:0], shamt[5:0], nzimm[17:12]. -/
def cImm6 (w : BitVec 16) : BitVec 6 := w.extractLsb' 12 1 ++ w.extractLsb' 2 5

/-- `C.ADDI4SPN`: `inst[10:7], inst[12:11], inst[5], inst[6], 00`. -/
def cImmAddi4spn (w : BitVec 16) : BitVec 10 :=
  w.extractLsb' 7 4 ++ w.extractLsb' 11 2 ++ w.extractLsb' 5 1 ++ w.extractLsb' 6 1 ++ 0#2

/-- `C.LW`, `C.SW`: `inst[5], inst[12:10], inst[6], 00`. -/
def cImmW (w : BitVec 16) : BitVec 7 :=
  w.extractLsb' 5 1 ++ w.extractLsb' 10 3 ++ w.extractLsb' 6 1 ++ 0#2

/-- `C.LD`, `C.SD`: `inst[6:5], inst[12:10], 000`. -/
def cImmD (w : BitVec 16) : BitVec 8 := w.extractLsb' 5 2 ++ w.extractLsb' 10 3 ++ 0#3

/-- `C.ADDI16SP`: `inst[12], inst[4:3], inst[5], inst[2], inst[6], 0000`. -/
def cImmAddi16sp (w : BitVec 16) : BitVec 10 :=
  w.extractLsb' 12 1 ++ w.extractLsb' 3 2 ++ w.extractLsb' 5 1 ++ w.extractLsb' 2 1 ++ w.extractLsb' 6 1 ++ 0#4

/-- `C.J`, `C.JAL`: `inst[12], inst[8], inst[10:9], inst[6], inst[7], inst[2], inst[11], inst[5:3], 0`. -/
def cOffJ (w : BitVec 16) : BitVec 12 :=
  w.extractLsb' 12 1 ++ w.extractLsb' 8 1 ++ w.extractLsb' 9 2 ++ w.extractLsb' 6 1 ++ w.extractLsb' 7 1
    ++ w.extractLsb' 2 1 ++ w.extractLsb' 11 1 ++ w.extractLsb' 3 3 ++ 0#1

/-- `C.BEQZ`, `C.BNEZ`: `inst[12], inst[6:5], inst[2], inst[11:10], inst[4:3], 0`. -/
def cOffB (w : BitVec 16) : BitVec 9 :=
  w.extractLsb' 12 1 ++ w.extractLsb' 5 2 ++ w.extractLsb' 2 1 ++ w.extractLsb' 10 2 ++ w.extractLsb' 3 2 ++ 0#1

/-- `C.LWSP`: `inst[3:2], inst[12], inst[6:4], 00`. -/
def cImmLwsp (w : BitVec 16) : BitVec 8 :=
  w.extractLsb' 2 2 ++ w.extractLsb' 12 1 ++ w.extractLsb' 4 3 ++ 0#2

/-- `C.LDSP`: `inst[4:2], inst[12], inst[6:5], 000`. -/
def cImmLdsp (w : BitVec 16) : BitVec 9 :=
  w.extractLsb' 2 3 ++ w.extractLsb' 12 1 ++ w.extractLsb' 5 2 ++ 0#3

/-- `C.SWSP`: `inst[8:7], inst[12:9], 00`. -/
def cImmSwsp (w : BitVec 16) : BitVec 8 := w.extractLsb' 7 2 ++ w.extractLsb' 9 4 ++ 0#2

/-- `C.SDSP`: `inst[9:7], inst[12:10], 000`. -/
def cImmSdsp (w : BitVec 16) : BitVec 9 := w.extractLsb' 7 3 ++ w.extractLsb' 10 3 ++ 0#3

/-! ### The 32-bit opcode map (R210, R211) -/

/-- An encoding of XLEN = 64 only (R227). -/
def only64 (x : Xlen) (i : Instr) : Except Reject Instr := if x.is64 then .ok i else .error .wrongXlen

/-- Opcode 0000011, LOAD. -/
def decodeLoad (x : Xlen) (w : BitVec 32) : Except Reject Instr :=
  match fFunct3 w with
  | 0#3 => .ok (.lb (fRd w) (fRs1 w) (immI w))
  | 1#3 => .ok (.lh (fRd w) (fRs1 w) (immI w))
  | 2#3 => .ok (.lw (fRd w) (fRs1 w) (immI w))
  | 3#3 => only64 x (.ld (fRd w) (fRs1 w) (immI w))
  | 4#3 => .ok (.lbu (fRd w) (fRs1 w) (immI w))
  | 5#3 => .ok (.lhu (fRd w) (fRs1 w) (immI w))
  | 6#3 => only64 x (.lwu (fRd w) (fRs1 w) (immI w))
  | _   => .error .unrecognised

/-- Opcode 0001111, MISC-MEM; `FENCE` takes any `fm`, `pred`, `succ`, `rd`, `rs1` (R223). -/
def decodeMiscMem (w : BitVec 32) : Except Reject Instr :=
  match fFunct3 w with
  | 0#3 => .ok (.fence (w.extractLsb' 28 4) (w.extractLsb' 24 4) (w.extractLsb' 20 4) (fRs1 w) (fRd w))
  | 1#3 => .ok (.fenceI (immI w) (fRs1 w) (fRd w))
  | _   => .error .unrecognised

/-- A shift by an immediate, once its funct6 has named it (R202, R222, R227). -/
def decodeShift (x : Xlen) (shamt : BitVec 6) (i : Instr) : Except Reject Instr :=
  if shamtFits x shamt then .ok i else .error .reserved

/-- Opcode 0010011, OP-IMM. -/
def decodeOpImm (x : Xlen) (w : BitVec 32) : Except Reject Instr :=
  match fFunct3 w with
  | 0#3 => .ok (.addi (fRd w) (fRs1 w) (immI w))
  | 1#3 =>
    match fFunct6 w with
    | 0x00#6 => decodeShift x (fShamt w) (.slli (fRd w) (fRs1 w) (fShamt w))
    | _      => .error .reserved
  | 2#3 => .ok (.slti (fRd w) (fRs1 w) (immI w))
  | 3#3 => .ok (.sltiu (fRd w) (fRs1 w) (immI w))
  | 4#3 => .ok (.xori (fRd w) (fRs1 w) (immI w))
  | 5#3 =>
    match fFunct6 w with
    | 0x00#6 => decodeShift x (fShamt w) (.srli (fRd w) (fRs1 w) (fShamt w))
    | 0x10#6 => decodeShift x (fShamt w) (.srai (fRd w) (fRs1 w) (fShamt w))
    | _      => .error .reserved
  | 6#3 => .ok (.ori (fRd w) (fRs1 w) (immI w))
  | _   => .ok (.andi (fRd w) (fRs1 w) (immI w))

/-- Opcode 0011011, OP-IMM-32. -/
def decodeOpImm32 (x : Xlen) (w : BitVec 32) : Except Reject Instr :=
  match fFunct3 w with
  | 0#3 => only64 x (.addiw (fRd w) (fRs1 w) (immI w))
  | 1#3 =>
    match fFunct7 w with
    | 0x00#7 => only64 x (.slliw (fRd w) (fRs1 w) (fRs2 w))
    | _      => .error .reserved
  | 5#3 =>
    match fFunct7 w with
    | 0x00#7 => only64 x (.srliw (fRd w) (fRs1 w) (fRs2 w))
    | 0x20#7 => only64 x (.sraiw (fRd w) (fRs1 w) (fRs2 w))
    | _      => .error .reserved
  | _   => .error .unrecognised

/-- Opcode 0100011, STORE. -/
def decodeStore (x : Xlen) (w : BitVec 32) : Except Reject Instr :=
  match fFunct3 w with
  | 0#3 => .ok (.sb (fRs1 w) (fRs2 w) (immS w))
  | 1#3 => .ok (.sh (fRs1 w) (fRs2 w) (immS w))
  | 2#3 => .ok (.sw (fRs1 w) (fRs2 w) (immS w))
  | 3#3 => only64 x (.sd (fRs1 w) (fRs2 w) (immS w))
  | _   => .error .unrecognised

/-- Opcode 0101111, AMO, funct3 010: the word forms by funct5 (45_atomics). -/
def decodeAmoW (w : BitVec 32) : Except Reject Instr :=
  match fFunct5 w with
  | 0x00#5 => .ok (.amoaddW (fRd w) (fRs1 w) (fRs2 w) (fAq w) (fRl w))
  | 0x01#5 => .ok (.amoswapW (fRd w) (fRs1 w) (fRs2 w) (fAq w) (fRl w))
  | 0x02#5 => if fRs2 w = 0#5 then .ok (.lrW (fRd w) (fRs1 w) (fAq w) (fRl w)) else .error .reserved
  | 0x03#5 => .ok (.scW (fRd w) (fRs1 w) (fRs2 w) (fAq w) (fRl w))
  | 0x04#5 => .ok (.amoxorW (fRd w) (fRs1 w) (fRs2 w) (fAq w) (fRl w))
  | 0x08#5 => .ok (.amoorW (fRd w) (fRs1 w) (fRs2 w) (fAq w) (fRl w))
  | 0x0C#5 => .ok (.amoandW (fRd w) (fRs1 w) (fRs2 w) (fAq w) (fRl w))
  | 0x10#5 => .ok (.amominW (fRd w) (fRs1 w) (fRs2 w) (fAq w) (fRl w))
  | 0x14#5 => .ok (.amomaxW (fRd w) (fRs1 w) (fRs2 w) (fAq w) (fRl w))
  | 0x18#5 => .ok (.amominuW (fRd w) (fRs1 w) (fRs2 w) (fAq w) (fRl w))
  | 0x1C#5 => .ok (.amomaxuW (fRd w) (fRs1 w) (fRs2 w) (fAq w) (fRl w))
  | _      => .error .unrecognised

/-- Opcode 0101111, AMO, funct3 011: the doubleword forms by funct5. -/
def decodeAmoD (x : Xlen) (w : BitVec 32) : Except Reject Instr :=
  match fFunct5 w with
  | 0x00#5 => only64 x (.amoaddD (fRd w) (fRs1 w) (fRs2 w) (fAq w) (fRl w))
  | 0x01#5 => only64 x (.amoswapD (fRd w) (fRs1 w) (fRs2 w) (fAq w) (fRl w))
  | 0x02#5 => if fRs2 w = 0#5 then only64 x (.lrD (fRd w) (fRs1 w) (fAq w) (fRl w)) else .error .reserved
  | 0x03#5 => only64 x (.scD (fRd w) (fRs1 w) (fRs2 w) (fAq w) (fRl w))
  | 0x04#5 => only64 x (.amoxorD (fRd w) (fRs1 w) (fRs2 w) (fAq w) (fRl w))
  | 0x08#5 => only64 x (.amoorD (fRd w) (fRs1 w) (fRs2 w) (fAq w) (fRl w))
  | 0x0C#5 => only64 x (.amoandD (fRd w) (fRs1 w) (fRs2 w) (fAq w) (fRl w))
  | 0x10#5 => only64 x (.amominD (fRd w) (fRs1 w) (fRs2 w) (fAq w) (fRl w))
  | 0x14#5 => only64 x (.amomaxD (fRd w) (fRs1 w) (fRs2 w) (fAq w) (fRl w))
  | 0x18#5 => only64 x (.amominuD (fRd w) (fRs1 w) (fRs2 w) (fAq w) (fRl w))
  | 0x1C#5 => only64 x (.amomaxuD (fRd w) (fRs1 w) (fRs2 w) (fAq w) (fRl w))
  | _      => .error .unrecognised

/-- Opcode 0101111, AMO. -/
def decodeAmo (x : Xlen) (w : BitVec 32) : Except Reject Instr :=
  match fFunct3 w with
  | 2#3 => decodeAmoW w
  | 3#3 => decodeAmoD x w
  | _   => .error .unrecognised

/-- Opcode 0110011, OP, funct7 0000000. -/
def decodeOpBase (w : BitVec 32) : Except Reject Instr :=
  match fFunct3 w with
  | 0#3 => .ok (.add (fRd w) (fRs1 w) (fRs2 w))
  | 1#3 => .ok (.sll (fRd w) (fRs1 w) (fRs2 w))
  | 2#3 => .ok (.slt (fRd w) (fRs1 w) (fRs2 w))
  | 3#3 => .ok (.sltu (fRd w) (fRs1 w) (fRs2 w))
  | 4#3 => .ok (.xor (fRd w) (fRs1 w) (fRs2 w))
  | 5#3 => .ok (.srl (fRd w) (fRs1 w) (fRs2 w))
  | 6#3 => .ok (.or (fRd w) (fRs1 w) (fRs2 w))
  | _   => .ok (.and (fRd w) (fRs1 w) (fRs2 w))

/-- Opcode 0110011, OP, funct7 0000001. -/
def decodeMulDiv (w : BitVec 32) : Except Reject Instr :=
  match fFunct3 w with
  | 0#3 => .ok (.mul (fRd w) (fRs1 w) (fRs2 w))
  | 1#3 => .ok (.mulh (fRd w) (fRs1 w) (fRs2 w))
  | 2#3 => .ok (.mulhsu (fRd w) (fRs1 w) (fRs2 w))
  | 3#3 => .ok (.mulhu (fRd w) (fRs1 w) (fRs2 w))
  | 4#3 => .ok (.div (fRd w) (fRs1 w) (fRs2 w))
  | 5#3 => .ok (.divu (fRd w) (fRs1 w) (fRs2 w))
  | 6#3 => .ok (.rem (fRd w) (fRs1 w) (fRs2 w))
  | _   => .ok (.remu (fRd w) (fRs1 w) (fRs2 w))

/-- Opcode 0110011, OP. -/
def decodeOp (w : BitVec 32) : Except Reject Instr :=
  match fFunct7 w with
  | 0x00#7 => decodeOpBase w
  | 0x01#7 => decodeMulDiv w
  | 0x20#7 =>
    match fFunct3 w with
    | 0#3 => .ok (.sub (fRd w) (fRs1 w) (fRs2 w))
    | 5#3 => .ok (.sra (fRd w) (fRs1 w) (fRs2 w))
    | _   => .error .unrecognised
  | _      => .error .unrecognised

/-- Opcode 0111011, OP-32. -/
def decodeOp32 (x : Xlen) (w : BitVec 32) : Except Reject Instr :=
  match fFunct7 w with
  | 0x00#7 =>
    match fFunct3 w with
    | 0#3 => only64 x (.addw (fRd w) (fRs1 w) (fRs2 w))
    | 1#3 => only64 x (.sllw (fRd w) (fRs1 w) (fRs2 w))
    | 5#3 => only64 x (.srlw (fRd w) (fRs1 w) (fRs2 w))
    | _   => .error .unrecognised
  | 0x01#7 =>
    match fFunct3 w with
    | 0#3 => only64 x (.mulw (fRd w) (fRs1 w) (fRs2 w))
    | 4#3 => only64 x (.divw (fRd w) (fRs1 w) (fRs2 w))
    | 5#3 => only64 x (.divuw (fRd w) (fRs1 w) (fRs2 w))
    | 6#3 => only64 x (.remw (fRd w) (fRs1 w) (fRs2 w))
    | 7#3 => only64 x (.remuw (fRd w) (fRs1 w) (fRs2 w))
    | _   => .error .unrecognised
  | 0x20#7 =>
    match fFunct3 w with
    | 0#3 => only64 x (.subw (fRd w) (fRs1 w) (fRs2 w))
    | 5#3 => only64 x (.sraw (fRd w) (fRs1 w) (fRs2 w))
    | _   => .error .unrecognised
  | _      => .error .unrecognised

/-- Opcode 1100011, BRANCH. -/
def decodeBranch (w : BitVec 32) : Except Reject Instr :=
  match fFunct3 w with
  | 0#3 => .ok (.beq (fRs1 w) (fRs2 w) (immB w))
  | 1#3 => .ok (.bne (fRs1 w) (fRs2 w) (immB w))
  | 4#3 => .ok (.blt (fRs1 w) (fRs2 w) (immB w))
  | 5#3 => .ok (.bge (fRs1 w) (fRs2 w) (immB w))
  | 6#3 => .ok (.bltu (fRs1 w) (fRs2 w) (immB w))
  | 7#3 => .ok (.bgeu (fRs1 w) (fRs2 w) (immB w))
  | _   => .error .unrecognised

/-- Opcode 1110011, SYSTEM, funct3 = 000: the exact patterns of R211. -/
def decodePriv (w : BitVec 32) : Except Reject Instr :=
  if w = 0x00000073#32 then .ok .ecall
  else if w = 0x00100073#32 then .ok .ebreak
  else if w = 0x10200073#32 then .ok .sret
  else if w = 0x30200073#32 then .ok .mret
  else if w = 0x10500073#32 then .ok .wfi
  else if fFunct7 w = 0x09#7 ∧ fRd w = 0#5 then .ok (.sfenceVma (fRs1 w) (fRs2 w))
  else .error .unrecognised

/-- Opcode 1110011, SYSTEM. -/
def decodeSystem (w : BitVec 32) : Except Reject Instr :=
  match fFunct3 w with
  | 0#3 => decodePriv w
  | 1#3 => .ok (.csrrw (fRd w) (fCsr w) (fRs1 w))
  | 2#3 => .ok (.csrrs (fRd w) (fCsr w) (fRs1 w))
  | 3#3 => .ok (.csrrc (fRd w) (fCsr w) (fRs1 w))
  | 5#3 => .ok (.csrrwi (fRd w) (fCsr w) (fRs1 w))
  | 6#3 => .ok (.csrrsi (fRd w) (fCsr w) (fRs1 w))
  | 7#3 => .ok (.csrrci (fRd w) (fCsr w) (fRs1 w))
  | _   => .error .unrecognised

/-- A 32-bit word (R210). -/
def decode32 (x : Xlen) (w : BitVec 32) : Except Reject Instr :=
  match fOpcode w with
  | 0x03#7 => decodeLoad x w
  | 0x07#7 => .error .floatingPoint
  | 0x0B#7 => .error .custom
  | 0x0F#7 => decodeMiscMem w
  | 0x13#7 => decodeOpImm x w
  | 0x17#7 => .ok (.auipc (fRd w) (immU w))
  | 0x1B#7 => decodeOpImm32 x w
  | 0x23#7 => decodeStore x w
  | 0x27#7 => .error .floatingPoint
  | 0x2B#7 => .error .custom
  | 0x2F#7 => decodeAmo x w
  | 0x33#7 => decodeOp w
  | 0x37#7 => .ok (.lui (fRd w) (immU w))
  | 0x3B#7 => decodeOp32 x w
  | 0x43#7 => .error .floatingPoint
  | 0x47#7 => .error .floatingPoint
  | 0x4B#7 => .error .floatingPoint
  | 0x4F#7 => .error .floatingPoint
  | 0x53#7 => .error .floatingPoint
  | 0x5B#7 => .error .custom
  | 0x63#7 => decodeBranch w
  | 0x67#7 =>
    match fFunct3 w with
    | 0#3 => .ok (.jalr (fRd w) (fRs1 w) (immI w))
    | _   => .error .unrecognised
  | 0x6F#7 => .ok (.jal (fRd w) (immJ w))
  | 0x73#7 => decodeSystem w
  | 0x7B#7 => .error .custom
  | _      => .error .unrecognised

/-! ### The quadrants of 16-bit words (R212) -/

/-- Quadrant 0. -/
def decodeQ0 (x : Xlen) (w : BitVec 16) : Except Reject Instr :=
  match gFunct3 w with
  | 0#3 => if cImmAddi4spn w = 0#10 then .error .reserved else .ok (.cAddi4spn (gRs2c w) (cImmAddi4spn w))
  | 1#3 => .error .floatingPoint
  | 2#3 => .ok (.cLw (gRs2c w) (gRs1c w) (cImmW w))
  | 3#3 => if x.is64 then .ok (.cLd (gRs2c w) (gRs1c w) (cImmD w)) else .error .floatingPoint
  | 4#3 => .error .reserved
  | 5#3 => .error .floatingPoint
  | 6#3 => .ok (.cSw (gRs1c w) (gRs2c w) (cImmW w))
  | _   => if x.is64 then .ok (.cSd (gRs1c w) (gRs2c w) (cImmD w)) else .error .floatingPoint

/-- Quadrant 1, funct3 = 100. -/
def decodeQ1Alu (x : Xlen) (w : BitVec 16) : Except Reject Instr :=
  match gSel w with
  | 0#2 => decodeShift x (cImm6 w) (.cSrli (gRs1c w) (cImm6 w))
  | 1#2 => decodeShift x (cImm6 w) (.cSrai (gRs1c w) (cImm6 w))
  | 2#2 => .ok (.cAndi (gRs1c w) (cImm6 w))
  | _   =>
    match gBit12 w, gFunct2 w with
    | 0#1, 0#2 => .ok (.cSub (gRs1c w) (gRs2c w))
    | 0#1, 1#2 => .ok (.cXor (gRs1c w) (gRs2c w))
    | 0#1, 2#2 => .ok (.cOr (gRs1c w) (gRs2c w))
    | 0#1, _   => .ok (.cAnd (gRs1c w) (gRs2c w))
    | _, 0#2   => only64 x (.cSubw (gRs1c w) (gRs2c w))
    | _, 1#2   => only64 x (.cAddw (gRs1c w) (gRs2c w))
    | _, _     => .error .reserved

/-- Quadrant 1. -/
def decodeQ1 (x : Xlen) (w : BitVec 16) : Except Reject Instr :=
  match gFunct3 w with
  | 0#3 => if gRd w = 0#5 then .ok (.cNop (cImm6 w)) else .ok (.cAddi (gRd w) (cImm6 w))
  | 1#3 =>
    if x.is64 then if gRd w = 0#5 then .error .reserved else .ok (.cAddiw (gRd w) (cImm6 w))
    else .ok (.cJal (cOffJ w))
  | 2#3 => .ok (.cLi (gRd w) (cImm6 w))
  | 3#3 =>
    if gRd w = 2#5 then
      if cImmAddi16sp w = 0#10 then .error .reserved else .ok (.cAddi16sp (cImmAddi16sp w))
    else if cImm6 w = 0#6 then .error .reserved else .ok (.cLui (gRd w) (cImm6 w))
  | 4#3 => decodeQ1Alu x w
  | 5#3 => .ok (.cJ (cOffJ w))
  | 6#3 => .ok (.cBeqz (gRs1c w) (cOffB w))
  | _   => .ok (.cBnez (gRs1c w) (cOffB w))

/-- Quadrant 2, funct3 = 100. -/
def decodeQ2Jump (w : BitVec 16) : Except Reject Instr :=
  match gBit12 w with
  | 0#1 =>
    if gRs2 w = 0#5 then if gRd w = 0#5 then .error .reserved else .ok (.cJr (gRd w))
    else .ok (.cMv (gRd w) (gRs2 w))
  | _   =>
    if gRs2 w = 0#5 then if gRd w = 0#5 then .ok .cEbreak else .ok (.cJalr (gRd w))
    else .ok (.cAdd (gRd w) (gRs2 w))

/-- Quadrant 2. -/
def decodeQ2 (x : Xlen) (w : BitVec 16) : Except Reject Instr :=
  match gFunct3 w with
  | 0#3 => decodeShift x (cImm6 w) (.cSlli (gRd w) (cImm6 w))
  | 1#3 => .error .floatingPoint
  | 2#3 => if gRd w = 0#5 then .error .reserved else .ok (.cLwsp (gRd w) (cImmLwsp w))
  | 3#3 =>
    if x.is64 then if gRd w = 0#5 then .error .reserved else .ok (.cLdsp (gRd w) (cImmLdsp w))
    else .error .floatingPoint
  | 4#3 => decodeQ2Jump w
  | 5#3 => .error .floatingPoint
  | 6#3 => .ok (.cSwsp (gRs2 w) (cImmSwsp w))
  | _   => if x.is64 then .ok (.cSdsp (gRs2 w) (cImmSdsp w)) else .error .floatingPoint

/-- A 16-bit word; one whose low two bits are both set is only the first half of an instruction (R200). -/
def decode16 (x : Xlen) (w : BitVec 16) : Except Reject Instr :=
  match gOp w with
  | 0#2 => decodeQ0 x w
  | 1#2 => decodeQ1 x w
  | 2#2 => decodeQ2 x w
  | _   => .error .truncated

/-- "Decoding is a pure function of the instruction bits and XLEN" (R213). -/
def decode (x : Xlen) : Encoded → Except Reject Instr
  | .c16 w => decode16 x w
  | .c32 w => decode32 x w

/-- The first halfword alone says whether the instruction has 16 bits (R200). -/
def isShort (h : BitVec 16) : Bool := h.extractLsb' 0 2 != 3#2

/-- The instruction at the front of a list of bytes, and the rest of the list. -/
def decodeBytes (x : Xlen) : List Byte → Except Reject (Instr × List Byte)
  | b0 :: b1 :: rest =>
    if isShort (b1 ++ b0) then (decode x (.c16 (b1 ++ b0))).map (·, rest)
    else
      match rest with
      | b2 :: b3 :: rest' => (decode x (.c32 (b3 ++ b2 ++ b1 ++ b0))).map (·, rest')
      | _ => .error .truncated
  | _ => .error .truncated

/-! ### The encoder -/

/-- R-type (R201). -/
def encR (f7 : BitVec 7) (rs2 rs1 : Reg) (f3 : BitVec 3) (rd : Reg) (op : BitVec 7) : BitVec 32 :=
  f7 ++ rs2 ++ rs1 ++ f3 ++ rd ++ op

/-- I-type. -/
def encI (imm : BitVec 12) (rs1 : Reg) (f3 : BitVec 3) (rd : Reg) (op : BitVec 7) : BitVec 32 :=
  imm ++ rs1 ++ f3 ++ rd ++ op

/-- S-type. -/
def encS (imm : BitVec 12) (rs2 rs1 : Reg) (f3 : BitVec 3) (op : BitVec 7) : BitVec 32 :=
  imm.extractLsb' 5 7 ++ rs2 ++ rs1 ++ f3 ++ imm.extractLsb' 0 5 ++ op

/-- B-type. -/
def encB (imm : BitVec 13) (rs2 rs1 : Reg) (f3 : BitVec 3) (op : BitVec 7) : BitVec 32 :=
  imm.extractLsb' 12 1 ++ imm.extractLsb' 5 6 ++ rs2 ++ rs1 ++ f3 ++ imm.extractLsb' 1 4 ++ imm.extractLsb' 11 1 ++ op

/-- U-type. -/
def encU (imm : BitVec 20) (rd : Reg) (op : BitVec 7) : BitVec 32 := imm ++ rd ++ op

/-- J-type. -/
def encJ (imm : BitVec 21) (rd : Reg) (op : BitVec 7) : BitVec 32 :=
  imm.extractLsb' 20 1 ++ imm.extractLsb' 1 10 ++ imm.extractLsb' 11 1 ++ imm.extractLsb' 12 8 ++ rd ++ op

/-- A shift by a 6-bit immediate (R202). -/
def encShift (f6 shamt : BitVec 6) (rs1 : Reg) (f3 : BitVec 3) (rd : Reg) (op : BitVec 7) : BitVec 32 :=
  f6 ++ shamt ++ rs1 ++ f3 ++ rd ++ op

/-- An atomic (R202). -/
def encA (f5 : BitVec 5) (aq rl : Bool) (rs2 rs1 : Reg) (f3 : BitVec 3) (rd : Reg) : BitVec 32 :=
  f5 ++ BitVec.ofBool aq ++ BitVec.ofBool rl ++ rs2 ++ rs1 ++ f3 ++ rd ++ 0x2F#7

/-- `FENCE` (R202). -/
def encFence (fm pred succ : BitVec 4) (rs1 rd : Reg) : BitVec 32 :=
  fm ++ pred ++ succ ++ rs1 ++ 0#3 ++ rd ++ 0x0F#7

/-- CR (R203). -/
def encCR (f4 : BitVec 4) (rd rs2 : Reg) (op : BitVec 2) : BitVec 16 := f4 ++ rd ++ rs2 ++ op

/-- CI with a six-bit immediate. -/
def encCI (f3 : BitVec 3) (imm : BitVec 6) (rd : Reg) (op : BitVec 2) : BitVec 16 :=
  f3 ++ imm.extractLsb' 5 1 ++ rd ++ imm.extractLsb' 0 5 ++ op

/-- `C.ADDI4SPN` (CIW). -/
def encCAddi4spn (u : BitVec 10) (rd : CReg) : BitVec 16 :=
  0#3 ++ u.extractLsb' 4 2 ++ u.extractLsb' 6 4 ++ u.extractLsb' 2 1 ++ u.extractLsb' 3 1 ++ rd ++ 0#2

/-- CL and CS with a word offset. -/
def encCW (f3 : BitVec 3) (u : BitVec 7) (rs1 r2 : CReg) : BitVec 16 :=
  f3 ++ u.extractLsb' 3 3 ++ rs1 ++ u.extractLsb' 2 1 ++ u.extractLsb' 6 1 ++ r2 ++ 0#2

/-- CL and CS with a doubleword offset. -/
def encCD (f3 : BitVec 3) (u : BitVec 8) (rs1 r2 : CReg) : BitVec 16 :=
  f3 ++ u.extractLsb' 3 3 ++ rs1 ++ u.extractLsb' 6 2 ++ r2 ++ 0#2

/-- `C.ADDI16SP`. -/
def encCAddi16sp (n : BitVec 10) : BitVec 16 :=
  3#3 ++ n.extractLsb' 9 1 ++ 2#5 ++ n.extractLsb' 4 1 ++ n.extractLsb' 6 1 ++ n.extractLsb' 7 2 ++ n.extractLsb' 5 1 ++ 1#2

/-- CB with an immediate: `inst[11:10]` is `sel`. -/
def encCBimm (sel : BitVec 2) (imm : BitVec 6) (rd : CReg) : BitVec 16 :=
  4#3 ++ imm.extractLsb' 5 1 ++ sel ++ rd ++ imm.extractLsb' 0 5 ++ 1#2

/-- CA. -/
def encCA (b12 : BitVec 1) (f2 : BitVec 2) (rd rs2 : CReg) : BitVec 16 :=
  4#3 ++ b12 ++ 3#2 ++ rd ++ f2 ++ rs2 ++ 1#2

/-- CJ. -/
def encCJ (f3 : BitVec 3) (o : BitVec 12) : BitVec 16 :=
  f3 ++ o.extractLsb' 11 1 ++ o.extractLsb' 4 1 ++ o.extractLsb' 8 2 ++ o.extractLsb' 10 1 ++ o.extractLsb' 6 1
    ++ o.extractLsb' 7 1 ++ o.extractLsb' 1 3 ++ o.extractLsb' 5 1 ++ 1#2

/-- CB with an offset. -/
def encCB (f3 : BitVec 3) (o : BitVec 9) (rs1 : CReg) : BitVec 16 :=
  f3 ++ o.extractLsb' 8 1 ++ o.extractLsb' 3 2 ++ rs1 ++ o.extractLsb' 6 2 ++ o.extractLsb' 1 2 ++ o.extractLsb' 5 1 ++ 1#2

/-- `C.LWSP`. -/
def encCLwsp (u : BitVec 8) (rd : Reg) : BitVec 16 :=
  2#3 ++ u.extractLsb' 5 1 ++ rd ++ u.extractLsb' 2 3 ++ u.extractLsb' 6 2 ++ 2#2

/-- `C.LDSP`. -/
def encCLdsp (u : BitVec 9) (rd : Reg) : BitVec 16 :=
  3#3 ++ u.extractLsb' 5 1 ++ rd ++ u.extractLsb' 3 2 ++ u.extractLsb' 6 3 ++ 2#2

/-- `C.SWSP`. -/
def encCSwsp (u : BitVec 8) (rs2 : Reg) : BitVec 16 :=
  6#3 ++ u.extractLsb' 2 4 ++ u.extractLsb' 6 2 ++ rs2 ++ 2#2

/-- `C.SDSP`. -/
def encCSdsp (u : BitVec 9) (rs2 : Reg) : BitVec 16 :=
  7#3 ++ u.extractLsb' 3 3 ++ u.extractLsb' 6 3 ++ rs2 ++ 2#2

/-- The word of an instruction; of an ill-formed term, its encodable bits. -/
def encode : Instr → Encoded
  | .lui rd imm => .c32 (encU imm rd 0x37#7)
  | .auipc rd imm => .c32 (encU imm rd 0x17#7)
  | .addi rd rs1 imm => .c32 (encI imm rs1 0#3 rd 0x13#7)
  | .slti rd rs1 imm => .c32 (encI imm rs1 2#3 rd 0x13#7)
  | .sltiu rd rs1 imm => .c32 (encI imm rs1 3#3 rd 0x13#7)
  | .xori rd rs1 imm => .c32 (encI imm rs1 4#3 rd 0x13#7)
  | .ori rd rs1 imm => .c32 (encI imm rs1 6#3 rd 0x13#7)
  | .andi rd rs1 imm => .c32 (encI imm rs1 7#3 rd 0x13#7)
  | .slli rd rs1 shamt => .c32 (encShift 0x00#6 shamt rs1 1#3 rd 0x13#7)
  | .srli rd rs1 shamt => .c32 (encShift 0x00#6 shamt rs1 5#3 rd 0x13#7)
  | .srai rd rs1 shamt => .c32 (encShift 0x10#6 shamt rs1 5#3 rd 0x13#7)
  | .add rd rs1 rs2 => .c32 (encR 0x00#7 rs2 rs1 0#3 rd 0x33#7)
  | .sub rd rs1 rs2 => .c32 (encR 0x20#7 rs2 rs1 0#3 rd 0x33#7)
  | .sll rd rs1 rs2 => .c32 (encR 0x00#7 rs2 rs1 1#3 rd 0x33#7)
  | .slt rd rs1 rs2 => .c32 (encR 0x00#7 rs2 rs1 2#3 rd 0x33#7)
  | .sltu rd rs1 rs2 => .c32 (encR 0x00#7 rs2 rs1 3#3 rd 0x33#7)
  | .xor rd rs1 rs2 => .c32 (encR 0x00#7 rs2 rs1 4#3 rd 0x33#7)
  | .srl rd rs1 rs2 => .c32 (encR 0x00#7 rs2 rs1 5#3 rd 0x33#7)
  | .sra rd rs1 rs2 => .c32 (encR 0x20#7 rs2 rs1 5#3 rd 0x33#7)
  | .or rd rs1 rs2 => .c32 (encR 0x00#7 rs2 rs1 6#3 rd 0x33#7)
  | .and rd rs1 rs2 => .c32 (encR 0x00#7 rs2 rs1 7#3 rd 0x33#7)
  | .addiw rd rs1 imm => .c32 (encI imm rs1 0#3 rd 0x1B#7)
  | .slliw rd rs1 shamt => .c32 (encR 0x00#7 shamt rs1 1#3 rd 0x1B#7)
  | .srliw rd rs1 shamt => .c32 (encR 0x00#7 shamt rs1 5#3 rd 0x1B#7)
  | .sraiw rd rs1 shamt => .c32 (encR 0x20#7 shamt rs1 5#3 rd 0x1B#7)
  | .addw rd rs1 rs2 => .c32 (encR 0x00#7 rs2 rs1 0#3 rd 0x3B#7)
  | .subw rd rs1 rs2 => .c32 (encR 0x20#7 rs2 rs1 0#3 rd 0x3B#7)
  | .sllw rd rs1 rs2 => .c32 (encR 0x00#7 rs2 rs1 1#3 rd 0x3B#7)
  | .srlw rd rs1 rs2 => .c32 (encR 0x00#7 rs2 rs1 5#3 rd 0x3B#7)
  | .sraw rd rs1 rs2 => .c32 (encR 0x20#7 rs2 rs1 5#3 rd 0x3B#7)
  | .jal rd offset => .c32 (encJ offset rd 0x6F#7)
  | .jalr rd rs1 imm => .c32 (encI imm rs1 0#3 rd 0x67#7)
  | .beq rs1 rs2 offset => .c32 (encB offset rs2 rs1 0#3 0x63#7)
  | .bne rs1 rs2 offset => .c32 (encB offset rs2 rs1 1#3 0x63#7)
  | .blt rs1 rs2 offset => .c32 (encB offset rs2 rs1 4#3 0x63#7)
  | .bge rs1 rs2 offset => .c32 (encB offset rs2 rs1 5#3 0x63#7)
  | .bltu rs1 rs2 offset => .c32 (encB offset rs2 rs1 6#3 0x63#7)
  | .bgeu rs1 rs2 offset => .c32 (encB offset rs2 rs1 7#3 0x63#7)
  | .lb rd rs1 imm => .c32 (encI imm rs1 0#3 rd 0x03#7)
  | .lh rd rs1 imm => .c32 (encI imm rs1 1#3 rd 0x03#7)
  | .lw rd rs1 imm => .c32 (encI imm rs1 2#3 rd 0x03#7)
  | .lbu rd rs1 imm => .c32 (encI imm rs1 4#3 rd 0x03#7)
  | .lhu rd rs1 imm => .c32 (encI imm rs1 5#3 rd 0x03#7)
  | .lwu rd rs1 imm => .c32 (encI imm rs1 6#3 rd 0x03#7)
  | .ld rd rs1 imm => .c32 (encI imm rs1 3#3 rd 0x03#7)
  | .sb rs1 rs2 imm => .c32 (encS imm rs2 rs1 0#3 0x23#7)
  | .sh rs1 rs2 imm => .c32 (encS imm rs2 rs1 1#3 0x23#7)
  | .sw rs1 rs2 imm => .c32 (encS imm rs2 rs1 2#3 0x23#7)
  | .sd rs1 rs2 imm => .c32 (encS imm rs2 rs1 3#3 0x23#7)
  | .fence fm pred succ rs1 rd => .c32 (encFence fm pred succ rs1 rd)
  | .fenceI imm rs1 rd => .c32 (encI imm rs1 1#3 rd 0x0F#7)
  | .mul rd rs1 rs2 => .c32 (encR 0x01#7 rs2 rs1 0#3 rd 0x33#7)
  | .mulh rd rs1 rs2 => .c32 (encR 0x01#7 rs2 rs1 1#3 rd 0x33#7)
  | .mulhsu rd rs1 rs2 => .c32 (encR 0x01#7 rs2 rs1 2#3 rd 0x33#7)
  | .mulhu rd rs1 rs2 => .c32 (encR 0x01#7 rs2 rs1 3#3 rd 0x33#7)
  | .mulw rd rs1 rs2 => .c32 (encR 0x01#7 rs2 rs1 0#3 rd 0x3B#7)
  | .div rd rs1 rs2 => .c32 (encR 0x01#7 rs2 rs1 4#3 rd 0x33#7)
  | .divu rd rs1 rs2 => .c32 (encR 0x01#7 rs2 rs1 5#3 rd 0x33#7)
  | .rem rd rs1 rs2 => .c32 (encR 0x01#7 rs2 rs1 6#3 rd 0x33#7)
  | .remu rd rs1 rs2 => .c32 (encR 0x01#7 rs2 rs1 7#3 rd 0x33#7)
  | .divw rd rs1 rs2 => .c32 (encR 0x01#7 rs2 rs1 4#3 rd 0x3B#7)
  | .divuw rd rs1 rs2 => .c32 (encR 0x01#7 rs2 rs1 5#3 rd 0x3B#7)
  | .remw rd rs1 rs2 => .c32 (encR 0x01#7 rs2 rs1 6#3 rd 0x3B#7)
  | .remuw rd rs1 rs2 => .c32 (encR 0x01#7 rs2 rs1 7#3 rd 0x3B#7)
  | .lrW rd rs1 aq rl => .c32 (encA 0x02#5 aq rl 0#5 rs1 2#3 rd)
  | .lrD rd rs1 aq rl => .c32 (encA 0x02#5 aq rl 0#5 rs1 3#3 rd)
  | .scW rd rs1 rs2 aq rl => .c32 (encA 0x03#5 aq rl rs2 rs1 2#3 rd)
  | .scD rd rs1 rs2 aq rl => .c32 (encA 0x03#5 aq rl rs2 rs1 3#3 rd)
  | .amoswapW rd rs1 rs2 aq rl => .c32 (encA 0x01#5 aq rl rs2 rs1 2#3 rd)
  | .amoaddW rd rs1 rs2 aq rl => .c32 (encA 0x00#5 aq rl rs2 rs1 2#3 rd)
  | .amoxorW rd rs1 rs2 aq rl => .c32 (encA 0x04#5 aq rl rs2 rs1 2#3 rd)
  | .amoandW rd rs1 rs2 aq rl => .c32 (encA 0x0C#5 aq rl rs2 rs1 2#3 rd)
  | .amoorW rd rs1 rs2 aq rl => .c32 (encA 0x08#5 aq rl rs2 rs1 2#3 rd)
  | .amominW rd rs1 rs2 aq rl => .c32 (encA 0x10#5 aq rl rs2 rs1 2#3 rd)
  | .amomaxW rd rs1 rs2 aq rl => .c32 (encA 0x14#5 aq rl rs2 rs1 2#3 rd)
  | .amominuW rd rs1 rs2 aq rl => .c32 (encA 0x18#5 aq rl rs2 rs1 2#3 rd)
  | .amomaxuW rd rs1 rs2 aq rl => .c32 (encA 0x1C#5 aq rl rs2 rs1 2#3 rd)
  | .amoswapD rd rs1 rs2 aq rl => .c32 (encA 0x01#5 aq rl rs2 rs1 3#3 rd)
  | .amoaddD rd rs1 rs2 aq rl => .c32 (encA 0x00#5 aq rl rs2 rs1 3#3 rd)
  | .amoxorD rd rs1 rs2 aq rl => .c32 (encA 0x04#5 aq rl rs2 rs1 3#3 rd)
  | .amoandD rd rs1 rs2 aq rl => .c32 (encA 0x0C#5 aq rl rs2 rs1 3#3 rd)
  | .amoorD rd rs1 rs2 aq rl => .c32 (encA 0x08#5 aq rl rs2 rs1 3#3 rd)
  | .amominD rd rs1 rs2 aq rl => .c32 (encA 0x10#5 aq rl rs2 rs1 3#3 rd)
  | .amomaxD rd rs1 rs2 aq rl => .c32 (encA 0x14#5 aq rl rs2 rs1 3#3 rd)
  | .amominuD rd rs1 rs2 aq rl => .c32 (encA 0x18#5 aq rl rs2 rs1 3#3 rd)
  | .amomaxuD rd rs1 rs2 aq rl => .c32 (encA 0x1C#5 aq rl rs2 rs1 3#3 rd)
  | .csrrw rd csr rs1 => .c32 (encI csr rs1 1#3 rd 0x73#7)
  | .csrrs rd csr rs1 => .c32 (encI csr rs1 2#3 rd 0x73#7)
  | .csrrc rd csr rs1 => .c32 (encI csr rs1 3#3 rd 0x73#7)
  | .csrrwi rd csr uimm => .c32 (encI csr uimm 5#3 rd 0x73#7)
  | .csrrsi rd csr uimm => .c32 (encI csr uimm 6#3 rd 0x73#7)
  | .csrrci rd csr uimm => .c32 (encI csr uimm 7#3 rd 0x73#7)
  | .ecall => .c32 0x00000073#32
  | .ebreak => .c32 0x00100073#32
  | .mret => .c32 0x30200073#32
  | .sret => .c32 0x10200073#32
  | .wfi => .c32 0x10500073#32
  | .sfenceVma rs1 rs2 => .c32 (encR 0x09#7 rs2 rs1 0#3 0#5 0x73#7)
  | .cAddi4spn rd nzuimm => .c16 (encCAddi4spn nzuimm rd)
  | .cLw rd rs1 uimm => .c16 (encCW 2#3 uimm rs1 rd)
  | .cLd rd rs1 uimm => .c16 (encCD 3#3 uimm rs1 rd)
  | .cSw rs1 rs2 uimm => .c16 (encCW 6#3 uimm rs1 rs2)
  | .cSd rs1 rs2 uimm => .c16 (encCD 7#3 uimm rs1 rs2)
  | .cNop imm => .c16 (encCI 0#3 imm 0#5 1#2)
  | .cAddi rd imm => .c16 (encCI 0#3 imm rd 1#2)
  | .cJal offset => .c16 (encCJ 1#3 offset)
  | .cAddiw rd imm => .c16 (encCI 1#3 imm rd 1#2)
  | .cLi rd imm => .c16 (encCI 2#3 imm rd 1#2)
  | .cAddi16sp nzimm => .c16 (encCAddi16sp nzimm)
  | .cLui rd nzimm => .c16 (encCI 3#3 nzimm rd 1#2)
  | .cSrli rd shamt => .c16 (encCBimm 0#2 shamt rd)
  | .cSrai rd shamt => .c16 (encCBimm 1#2 shamt rd)
  | .cAndi rd imm => .c16 (encCBimm 2#2 imm rd)
  | .cSub rd rs2 => .c16 (encCA 0#1 0#2 rd rs2)
  | .cXor rd rs2 => .c16 (encCA 0#1 1#2 rd rs2)
  | .cOr rd rs2 => .c16 (encCA 0#1 2#2 rd rs2)
  | .cAnd rd rs2 => .c16 (encCA 0#1 3#2 rd rs2)
  | .cSubw rd rs2 => .c16 (encCA 1#1 0#2 rd rs2)
  | .cAddw rd rs2 => .c16 (encCA 1#1 1#2 rd rs2)
  | .cJ offset => .c16 (encCJ 5#3 offset)
  | .cBeqz rs1 offset => .c16 (encCB 6#3 offset rs1)
  | .cBnez rs1 offset => .c16 (encCB 7#3 offset rs1)
  | .cSlli rd shamt => .c16 (encCI 0#3 shamt rd 2#2)
  | .cLwsp rd uimm => .c16 (encCLwsp uimm rd)
  | .cLdsp rd uimm => .c16 (encCLdsp uimm rd)
  | .cJr rs1 => .c16 (encCR 8#4 rs1 0#5 2#2)
  | .cMv rd rs2 => .c16 (encCR 8#4 rd rs2 2#2)
  | .cEbreak => .c16 (encCR 9#4 0#5 0#5 2#2)
  | .cJalr rs1 => .c16 (encCR 9#4 rs1 0#5 2#2)
  | .cAdd rd rs2 => .c16 (encCR 9#4 rd rs2 2#2)
  | .cSwsp rs2 uimm => .c16 (encCSwsp uimm rs2)
  | .cSdsp rs2 uimm => .c16 (encCSdsp uimm rs2)

/-! ### One word of the opcode table -/

/-- The bytes the low `nbits` bits of `w` occupy, the bits above zero, up to the longest instruction. -/
def tableBytes (nbits w : Nat) : List Byte := (Encoded.c32 (BitVec.ofNat 32 (w % 2 ^ nbits))).bytes

/-- The XLEN at which a word of the table is read: 64 unless only XLEN = 32 gives it a meaning (`C.JAL`; log 14). -/
def tableXlen (nbits w : Nat) : Xlen :=
  match decodeBytes .x64 (tableBytes nbits w), decodeBytes .x32 (tableBytes nbits w) with
  | .error _, .ok _ => .x32
  | _, _            => .x64

/-- The instruction the decoder reads from an instruction whose bits are `w`, or none where it refuses. -/
def decodeTableWord (nbits w : Nat) : Option Instr :=
  match decodeBytes (tableXlen nbits w) (tableBytes nbits w) with
  | .ok (i, _) => some i
  | .error _   => none

end Sys2Proof
end

