-- ==== Sys2Proof/Config.lean ====
section
/-! DEFINITION. What an implementation fixes: the hardware parameters of 00_scope R7, which ride in the state as
plain data, the values `State.reset` takes for them, and the free values, which are constants without a body. -/

namespace Sys2Proof

/-- One device range `(base, size, device)` of the physical space (00_scope R7 `MMIO`, 20_memory R152). -/
structure Region where
  base : Nat
  size : Nat
  dev  : Nat
deriving DecidableEq, Repr

/-- The two ranges share no address. -/
def Region.disjoint (r t : Region) : Bool :=
  decide (r.base + r.size ≤ t.base) || decide (t.base + t.size ≤ r.base)

/-- The parameters "the model takes as arguments" (00_scope R7). A state carries them and no step changes them, so a
statement over all states holds for every value of an OPEN parameter (log 1). -/
structure Params where
  /-- `RV64`: MAXLEN is 64, and the hart leaves reset with XLEN = 64. -/
  rv64       : Bool
  /-- `NHARTS`, 1 to 1024. -/
  nHarts     : Nat
  /-- `HARTID`, below `NHARTS`. -/
  hartId     : Nat
  /-- `RAM_BASE`, a multiple of 4096. -/
  ramBase    : Nat
  /-- `RAM_SIZE`, a multiple of 4096. -/
  ramSize    : Nat
  /-- `MMIO`: the device ranges, disjoint from RAM and from each other. -/
  mmio       : List Region
  /-- `RESET_PC`, even, an address of MAXLEN bits. -/
  resetPc    : Word
  /-- `RESET_REGS`: x1 to x31 after reset (entry 0 is not used). -/
  resetRegs  : Vector Word 32
  /-- `TLB_SIZE` is 2 to this power (a power of two, at least 1). -/
  tlbBits    : Nat
  /-- `FPU_PRESENT`, fixed false by R3; kept as a parameter so that R112 to R115 are not lost (log 18). -/
  fpuPresent : Bool
  /-- `PRECISE_FS`, read only when `fpuPresent`. -/
  preciseFs  : Bool
  mvendorid  : Word
  marchid    : Word
  mimpid     : Word
deriving DecidableEq, Repr

/-- The constraints R7 puts on the parameters. -/
def Params.wf (p : Params) : Bool :=
  decide (1 ≤ p.nHarts) && decide (p.nHarts ≤ 1024) && decide (p.hartId < p.nHarts)
  && decide (p.ramBase % 4096 = 0) && decide (p.ramSize % 4096 = 0) && decide (p.ramBase + p.ramSize ≤ 2 ^ 56)
  && !(p.resetPc.getLsbD 0) && (p.rv64 || decide (p.resetPc.toNat < 2 ^ 32))
  && p.mmio.all (fun r => r.disjoint ⟨p.ramBase, p.ramSize, 0⟩)
  && decide (p.mmio.Pairwise (fun r t => r.disjoint t = true))

/-- The parameters `State.reset` takes: the machine of the test vectors' conventions (95_test_vectors), RV64, one hart,
1 MiB of RAM at 0x80000000, no device. DESIGN CHOICE, unsafe for statements about `State.reset` alone (log 1, log 2). -/
def Params.default : Params where
  rv64       := true
  nHarts     := 1
  hartId     := 0
  ramBase    := 0x80000000
  ramSize    := 0x100000
  mmio       := []
  resetPc    := 0x80000000#64
  resetRegs  := Vector.replicate 32 0#64
  tlbBits    := 4
  fpuPresent := false
  preciseFs  := false
  mvendorid  := 0#64
  marchid    := 0#64
  mimpid     := 0#64

/-! The free values (log 5). None has a body: nothing in Lean can evaluate one, so whatever is proved holds for every
value. Each is applied to `State.draws`, the number of free values taken before it. -/

/-- The platform's clock at one sample; the hart sees it made non-decreasing (60_exceptions R560, log 6). -/
opaque Config.timeAt : Nat → Word

/-- The "16 random bits" of one `seed` read (15_csr R118). -/
opaque Config.entropy : Nat → BitVec 16

/-- What a device returns for one read: "a free input" (20_memory R152, U3, log 15). -/
opaque Config.deviceData : Nat → Word

/-- `spurious_failure` of one `SC`, "a free Boolean input" (45_atomics R395, U5, log 16). -/
opaque Config.scSpurious : Nat → Bool

/-- Which of the translations a page had since the last flush an access uses when the page has another one by now: "any
value between the old and the new translation, independently per page and per access" (93_implementation_defined U4,
70_reset_and_hazards R592). Applied to `draws`, the code of the access kind and the address; a number with no such
translation means the new one (log 26). -/
opaque Config.oldTranslation : Nat → Nat → Word → Nat

/-- Whether `waiting` clears for no reason at one step (47_system R436, U6, log 5). -/
opaque Config.spuriousWake : Nat → Bool

end Sys2Proof
end

