-- ==== Sys2Proof/Machine/State.lean ====
section
/-! DEFINITION. The state of one hart, everything the spec gives it, as plain data; the reasons a step can stop; and
the state after reset (10_state). -/

namespace Sys2Proof.Machine

/-- `mmu_mode` (10_state R33). -/
inductive MmuMode where
  | bare
  | sv32
  | sv39
  | sv48
  | sv57
deriving DecidableEq, Repr

/-- A TLB entry `(vpn, ppn, perms)`; an entry that is held is valid (20_memory R172). -/
structure TlbEntry where
  vpn : BitVec 52
  ppn : BitVec 52
  /-- READ is in `perms`. -/
  r   : Bool
  /-- WRITE is in `perms`. -/
  w   : Bool
  /-- EXEC is in `perms`. -/
  x   : Bool
deriving DecidableEq, Repr

/-- The TLB (10_state R34). -/
structure Tlb where
  /-- The valid entries by slot, slots rising (20_memory R172). -/
  slots : List (Nat × TlbEntry)
  /-- The model's own: the entries another one has taken the slot of since the last flush, the newest first. An access may
  still use what they say (70_reset_and_hazards R592; log 26). -/
  gone  : List TlbEntry
deriving DecidableEq, Repr

/-- Every entry is invalid (20_memory R178). -/
abbrev Tlb.empty : Tlb := ⟨[], []⟩

/-- The per-privilege words of the CSR bank, for one of S and M (10_state R32). -/
structure TrapRegs where
  tvec      : Word
  scratch   : Word
  epc       : Word
  /-- `cause[p].interrupt` (15_csr R97). -/
  causeInt  : Bool
  /-- `cause[p].code` (15_csr R97). -/
  causeCode : BitVec 63
  tval      : Word
  counteren : BitVec 32
  envcfg    : Word
deriving DecidableEq, Repr

/-- The CSR bank (10_state R32). The USER entries and the constant `edeleg[S]`, `ideleg[S]` are omitted (log 21). -/
structure CsrBank where
  /-- `status`, one word for `mstatus` and `sstatus` (15_csr R70). -/
  status  : Word
  /-- `isa.MXL` (15_csr R80). -/
  mxl     : Xlen
  /-- `isa.ext` (15_csr R80). -/
  misaExt : BitVec 26
  ie      : BitVec 12
  /-- The software-written pending bits (15_csr R89). -/
  ip      : BitVec 12
  /-- `edeleg[M]`. -/
  medeleg : BitVec 16
  /-- `ideleg[M]`. -/
  mideleg : BitVec 12
  mseccfg : Word
  fcsr    : BitVec 8
  /-- The MACHINE entries of the per-privilege arrays. -/
  m       : TrapRegs
  /-- The SUPERVISOR entries. -/
  s       : TrapRegs
deriving DecidableEq, Repr

/-- `reservation`, when there is one: `n` bytes at physical address `pa` (10_state R38). -/
structure Reservation where
  pa : Nat
  n  : Nat
deriving DecidableEq, Repr

/-- The six interrupt causes (60_exceptions R540). -/
inductive IntCause where
  | ssi
  | msi
  | sti
  | mti
  | sei
  | mei
deriving DecidableEq, Repr

/-- What the world outside can do to the hart between two steps (00_scope R9; log 8). -/
inductive Event where
  /-- `interrupt(hart, c)` (60_exceptions R540). -/
  | post (c : IntCause)
  /-- `interrupt_clear(hart, c)` (60_exceptions R540). -/
  | clear (c : IntCause)
  /-- A break (40_fetch_decode R247). -/
  | brk
  /-- A write to RAM by another hart or a device (20_memory R150, 45_atomics R394). -/
  | ramWrite (pa : Nat) (bytes : List Byte)
deriving DecidableEq, Repr

/-- A call of a device by a plain load or store: an output event (20_memory R152; log 15). -/
inductive DevAccess where
  | read (dev offset size : Nat)
  | write (dev offset size value : Nat)
deriving DecidableEq, Repr

/-- Memory: the bytes of RAM that are not what an unlisted address reads as, by physical address, addresses rising. -/
abbrev Memory := List Host.Cell

/-- One hart and what it sees of its machine. -/
structure State where
  /-- The hardware parameters (00_scope R7); no step changes them (log 1). -/
  hw            : Params
  /-- `x0` to `x31` as physically held, 64 bits (10_state R20, R21; log 9). Entry 0 is 0. -/
  regs          : Vector Word 32
  /-- `pc`, zero-extended (10_state R25). -/
  pc            : Word
  priv          : Priv
  csr           : CsrBank
  mmuMode       : MmuMode
  /-- `root_page_table`, a physical address (10_state R33). -/
  rootPageTable : BitVec 56
  /-- The TLB (10_state R34). -/
  tlb           : Tlb
  /-- `irq_pending` (10_state R35). -/
  irqPending    : BitVec 12
  stimecmp      : Word
  reservation   : Option Reservation
  waiting       : Bool
  /-- `fp_accrued` (10_state R41). -/
  fpAccrued     : BitVec 5
  /-- RAM (20_memory R150). -/
  mem           : Memory
  /-- The platform's `time` as last sampled (60_exceptions R560; log 6). -/
  time          : Word
  /-- The model's own: how many free values have been taken (log 5). -/
  draws         : Nat
  /-- The model's own: the device calls made, the newest first (log 15). -/
  devLog        : List DevAccess
  /-- The model's own: the external events to come, each with the number of hart steps before it (log 8). -/
  inbox         : List (Nat × Event)
deriving DecidableEq, Repr

/-- A stop that is no behaviour of the hart: the hart takes a trap for every error (60_exceptions R545). -/
inductive Fault where
  /-- Raised by `step` in a state whose `hw` breaks the constraints of 00_scope R7: no machine has such parameters.
  Safe: it only leaves such a state without a next one (log 22). -/
  | badParameters
deriving DecidableEq, Repr

/-- An instruction without a meaning. -/
inductive Refusal where
  /-- Raised by no arm of this model. Safe. -/
  | notModelled (mnemonic : String)
  /-- Raised by `step` at a floating-point encoding on a machine with an FPU: "A model that sets `FPU_PRESENT = true`
  must *refuse* these encodings" (30_encoding R226; log 18). Safe. -/
  | floatingPoint
deriving DecidableEq, Repr

/-- How every meaning ends. -/
abbrev Result := Host.Outcome State Fault Refusal

/-- The reset values of the per-privilege words (10_state R46). -/
def TrapRegs.reset : TrapRegs where
  tvec      := 0#64
  scratch   := 0#64
  epc       := 0#64
  causeInt  := false
  causeCode := 0#63
  tval      := 0#64
  counteren := 0#32
  envcfg    := 0#64

/-- The reset values of the CSR bank (10_state R46). -/
def CsrBank.reset (rv64 : Bool) : CsrBank where
  status  := if rv64 then 0x0000000A00000000#64 else 0#64
  mxl     := if rv64 then .x64 else .x32
  misaExt := 0x141105#26
  ie      := 0#12
  ip      := 0#12
  medeleg := 0#16
  mideleg := 0#12
  mseccfg := 0#64
  fcsr    := 0#8
  m       := TrapRegs.reset
  s       := TrapRegs.reset

/-- The hart right after its creation, for any parameters (10_state R45, R46; 70_reset R580). RAM contents and `time`
are unspecified (70_reset R581); the model's values are in log 3, log 4, log 6. -/
def State.resetOf (p : Params) : State where
  hw            := p
  regs          := p.resetRegs.set 0 0#64
  pc            := p.resetPc
  priv          := .M
  csr           := CsrBank.reset p.rv64
  mmuMode       := .bare
  rootPageTable := 0#56
  tlb           := Tlb.empty
  irqPending    := 0#12
  stimecmp      := 0xFFFFFFFFFFFFFFFF#64
  reservation   := none
  waiting       := false
  fpAccrued     := 0#5
  mem           := []
  time          := 0#64
  draws         := 0
  devLog        := []
  inbox         := []

/-- The reset state of the machine with the default parameters (log 1, log 2). -/
def State.reset : State := State.resetOf Params.default

end Sys2Proof.Machine
end

