-- ==== Sys2Proof/Machine/Memory.lean ====
section
/-! DEFINITION. Sorted lists keyed by Nat, and RAM bytes held in one; little-endian wider accesses (20_memory R142, R150). -/

namespace Sys2Proof.Machine

/-! ### Lists of keyed values, keys rising -/

/-- The value under `k`. -/
def assocGet {α : Type} : List (Nat × α) → Nat → Option α
  | [], _ => none
  | (a, v) :: t, k => if a = k then some v else assocGet t k

/-- The list with `v` under `k`. -/
def assocPut {α : Type} : List (Nat × α) → Nat → α → List (Nat × α)
  | [], k, v => [(k, v)]
  | (a, w) :: t, k, v =>
    if k < a then (k, v) :: (a, w) :: t else if k = a then (k, v) :: t else (a, w) :: assocPut t k v

/-- The list with nothing under `k`. -/
def assocErase {α : Type} (l : List (Nat × α)) (k : Nat) : List (Nat × α) := l.filter fun p => p.1 != k

/-- The keys rise strictly: the one canonical form of a keyed list. -/
abbrev assocSorted {α : Type} (l : List (Nat × α)) : Prop := l.Pairwise fun p q => p.1 < q.1

/-! ### RAM bytes -/

/-- The canonical form of memory: addresses strictly rising, and no entry equal to what an unlisted address reads as. -/
abbrev Memory.wf (m : Memory) : Prop := assocSorted m ∧ ∀ c ∈ m, c.2 ≠ 0#8

/-- What a byte that nothing has written reads as: 0. DESIGN CHOICE, unsafe (log 3). -/
def Memory.unlisted : Byte := 0#8

/-- The byte at physical address `a`. -/
def Memory.readByte (m : Memory) (a : Nat) : Byte := (assocGet m a).getD Memory.unlisted

/-- The memory with byte `b` at `a`, in canonical form. -/
def Memory.writeByte (m : Memory) (a : Nat) (b : Byte) : Memory :=
  if b = Memory.unlisted then assocErase m a else assocPut m a b

/-- The `n`-byte little-endian value at `pa` (20_memory R142). -/
def Memory.load (m : Memory) (pa : Nat) : Nat → Nat
  | 0     => 0
  | n + 1 => (m.readByte pa).toNat + 256 * m.load (pa + 1) n

/-- The low `n` bytes of `v` stored at `pa`, the lowest byte at the lowest address (20_memory R142). -/
def Memory.store (m : Memory) (pa : Nat) : Nat → Nat → Memory
  | 0, _     => m
  | n + 1, v => (m.writeByte pa (BitVec.ofNat 8 v)).store (pa + 1) n (v / 256)

end Sys2Proof.Machine
end

