-- ==== Sys2Proof/Machine/Flags.lean ====
section
/-! DEFINITION. The fields of the `status` word, its masks, and the validation every write of it passes
(15_csr R70 to R73). The hart has no condition flags (10_state R42). -/

namespace Sys2Proof.Machine

/-- The word with the bits from `lo` on replaced by `v`. -/
def putBits (w : Word) (lo : Nat) {len : Nat} (v : BitVec len) : Word :=
  (w &&& ~~~((BitVec.allOnes len).setWidth 64 <<< lo)) ||| (v.setWidth 64 <<< lo)

/-- The word with bit `i` replaced. -/
def putBit (w : Word) (i : Nat) (b : Bool) : Word := putBits w i (BitVec.ofBool b)

/-! ### Fields (15_csr R70) -/

def stSie (w : Word) : Bool := w.getLsbD 1
def stMie (w : Word) : Bool := w.getLsbD 3
def stSpie (w : Word) : Bool := w.getLsbD 5
def stMpie (w : Word) : Bool := w.getLsbD 7
def stSpp (w : Word) : Bool := w.getLsbD 8
def stVs (w : Word) : BitVec 2 := w.extractLsb' 9 2
def stMpp (w : Word) : BitVec 2 := w.extractLsb' 11 2
def stFs (w : Word) : BitVec 2 := w.extractLsb' 13 2
def stXs (w : Word) : BitVec 2 := w.extractLsb' 15 2
def stMprv (w : Word) : Bool := w.getLsbD 17
def stSum (w : Word) : Bool := w.getLsbD 18
def stMxr (w : Word) : Bool := w.getLsbD 19
def stTvm (w : Word) : Bool := w.getLsbD 20
def stTw (w : Word) : Bool := w.getLsbD 21
def stTsr (w : Word) : Bool := w.getLsbD 22
def stUxl (w : Word) : BitVec 2 := w.extractLsb' 32 2
def stSxl (w : Word) : BitVec 2 := w.extractLsb' 34 2

/-! ### Masks -/

/-- `MSTATUS_WM` (15_csr R70). -/
def mstatusWm (rv64 : Bool) : Word := if rv64 then 0x0000000F007E79AA#64 else 0x00000000007E79AA#64

/-- `SSTATUS_WM` (15_csr R73). -/
def sstatusWm (rv64 : Bool) : Word := if rv64 then 0x00000003000C6122#64 else 0x00000000000C6122#64

/-- `SSTATUS_RM` (15_csr R73). -/
def sstatusRm (rv64 : Bool) : Word := if rv64 then 0x00000003000DE722#64 else 0x00000000000DE722#64

/-- MPP, MPRV, SUM and MXR: a change of one of them flushes the TLB (15_csr R71, R75). -/
def statusFlushMask : Word := 0x00000000000E1800#64

/-! ### Validation (15_csr R71) -/

/-- UXL (`lo` = 32) or SXL (34): "forced to 2 (64-bit) if out of {1,2}". -/
def validateXl (lo : Nat) (w : Word) : Word :=
  if w.extractLsb' lo 2 = 1#2 ∨ w.extractLsb' lo 2 = 2#2 then w else putBits w lo 2#2

/-- "MPP is forced to 0 if set to the reserved value 2". -/
def validateMpp (w : Word) : Word := if stMpp w = 2#2 then putBits w 11 0#2 else w

/-- "FS is forced to OFF if FPU is disabled"; else, without precise FS, "any non-OFF write is promoted to DIRTY". -/
def validateFs (p : Params) (w : Word) : Word :=
  if p.fpuPresent = false then putBits w 13 0#2
  else if p.preciseFs = false ∧ stFs w ≠ 0#2 then putBits w 13 3#2
  else w

/-- "VS is forced to OFF". -/
def validateVs (w : Word) : Word := putBits w 9 0#2

/-- "XS is the max of FS and VS". -/
def validateXs (w : Word) : Word := putBits w 15 (if stFs w < stVs w then stVs w else stFs w)

/-- "After every write, validate". -/
def validate (p : Params) (w : Word) : Word :=
  validateXs (validateVs (validateFs p (validateMpp (if p.rv64 then validateXl 34 (validateXl 32 w) else w))))

/-- The word after a write of `v` under the writable mask `wm`. -/
def maskedWrite (w wm v : Word) : Word := (w &&& ~~~wm) ||| (v &&& wm)

/-- The mode a two-bit code names; 2 names none and is read as U (10_state R28; log 17). -/
def privOfCode (c : BitVec 2) : Priv :=
  match c with
  | 3#2 => .M
  | 1#2 => .S
  | _   => .U

/-- SPP: 0 = U, 1 = S. -/
def privOfSpp (b : Bool) : Priv := if b then .S else .U

end Sys2Proof.Machine
end

