-- ==== Sys2Proof/Machine/Operands.lean ====
section
/-! DEFINITION. XLEN, the integer registers and the pc as an instruction sees them, immediates and effective addresses
(10_state R20 to R31, 43_load_store R340). -/

namespace Sys2Proof.Machine

/-- XLEN in mode `p` (10_state R29). -/
def xlenFor (p : Params) (c : CsrBank) (m : Priv) : Xlen :=
  if p.rv64 = false then .x32
  else
    match c.mxl with
    | .x32 => .x32
    | .x64 =>
      match m with
      | .M => .x64
      | .S => if stSxl c.status = 1#2 then .x32 else .x64
      | .U => if stUxl c.status = 1#2 then .x32 else .x64

/-- XLEN in mode `m`. -/
def State.xlenIn (s : State) (m : Priv) : Xlen := xlenFor s.hw s.csr m

/-- XLEN, in the current mode. -/
def State.xlen (s : State) : Xlen := s.xlenIn s.priv

/-- XLEN as a number of bits. -/
def State.xw (s : State) : Nat := s.xlen.bits

/-- The low `n` bits of integer register `i`: `x[i]` when `n` is XLEN, `x[i][31:0]` when it is 32 (10_state R21, R22). -/
def State.x (s : State) (n : Nat) (i : Reg) : BitVec n :=
  if i = 0#5 then 0#n else (s.regs.get i.toFin).setWidth n

/-- `x[i] <- v`, sign-extended into the physical register; discarded when `i` is 0 (10_state R21, R22). -/
def State.setX {n : Nat} (s : State) (i : Reg) (v : BitVec n) : State :=
  if i = 0#5 then s else { s with regs := s.regs.set i.toNat (v.signExtend 64) i.isLt }

/-- `pc` as its XLEN bits (10_state R25, R31). -/
def State.pcX (s : State) : BitVec s.xw := s.pc.setWidth s.xw

/-- `pc` as an address, zero-extended (10_state R25). -/
def State.vpc (s : State) : Word := s.pcX.setWidth 64

/-- `pc <- t`, held zero-extended (10_state R25). -/
def State.setPc {n : Nat} (s : State) (t : BitVec n) : State := { s with pc := t.setWidth 64 }

/-- `pc + len`, modulo 2^XLEN (10_state R26, R27). -/
def State.nextPc (s : State) (len : Nat) : BitVec s.xw := s.pcX + BitVec.ofNat s.xw len

/-- `pc + offset`, the offset sign-extended, modulo 2^XLEN. -/
def State.pcPlus {m : Nat} (s : State) (offset : BitVec m) : BitVec s.xw := s.pcX + offset.signExtend s.xw

/-- `x[rs1] + imm`, the immediate sign-extended, modulo 2^XLEN, as a zero-extended address (43_load_store R340). -/
def State.ea {m : Nat} (s : State) (rs1 : Reg) (imm : BitVec m) : Word :=
  (s.x s.xw rs1 + imm.signExtend s.xw).setWidth 64

/-- The address `k` bytes further on, modulo 2^XLEN (20_memory R160). -/
def State.vaPlus (s : State) (va : Word) (k : Nat) : Word :=
  (va.setWidth s.xw + BitVec.ofNat s.xw k).setWidth 64

/-- `x[rs1]` as a zero-extended address (45_atomics R390). -/
def State.xa (s : State) (rs1 : Reg) : Word := (s.x s.xw rs1).setWidth 64

/-- Retire an instruction of `len` bytes that does not write the pc: `t` is the state it leaves, `s` the one it began in
(40_fetch_decode R240 action 8; 10_state R26, R30). -/
def retire (s t : State) (len : Nat) : Result := .next (t.setPc (s.nextPc len))

/-- The register a three-bit field names: 8 + field (30_encoding R203). -/
def creg (c : CReg) : Reg := 1#2 ++ c

/-- An `n`-byte value from memory extended to `w` bits (20_memory R146). -/
def extendTo (w n : Nat) (signed : Bool) (v : Nat) : BitVec w :=
  if signed then (BitVec.ofNat (8 * n) v).signExtend w else (BitVec.ofNat (8 * n) v).setWidth w

end Sys2Proof.Machine
end

