-- ==== Sys2Proof/Machine/Ops.lean ====
section
/-! DEFINITION. The shared operations: the TLB, translation, the data access primitives, taking an exception and
returning from one (20_memory, 60_exceptions, 47_system). -/

namespace Sys2Proof.Machine

/-! ### Exceptions (60_exceptions R520) -/

/-- The synchronous exceptions; cause 0 is never raised (10_state R27). -/
inductive Exc where
  | instrAccessFault
  | illegalInstr
  | breakpoint
  | loadMisaligned
  | loadAccessFault
  | storeMisaligned
  | storeAccessFault
  | ecallU
  | ecallS
  | ecallM
  | instrPageFault
  | loadPageFault
  | storePageFault
deriving DecidableEq, Repr

/-- The cause code (60_exceptions R520). -/
def Exc.code : Exc → Nat
  | .instrAccessFault => 1
  | .illegalInstr     => 2
  | .breakpoint       => 3
  | .loadMisaligned   => 4
  | .loadAccessFault  => 5
  | .storeMisaligned  => 6
  | .storeAccessFault => 7
  | .ecallU           => 8
  | .ecallS           => 9
  | .ecallM           => 11
  | .instrPageFault   => 12
  | .loadPageFault    => 13
  | .storePageFault   => 15

/-- The access kinds READ, WRITE, EXEC (20_memory R170). -/
inductive Acc where
  | read
  | write
  | exec
deriving DecidableEq, Repr

/-- `AccessFault(acc)` (20_memory R153). -/
def Acc.accessFault : Acc → Exc
  | .read  => .loadAccessFault
  | .write => .storeAccessFault
  | .exec  => .instrAccessFault

/-- `PageFault(acc)` (20_memory R187). -/
def Acc.pageFault : Acc → Exc
  | .read  => .loadPageFault
  | .write => .storePageFault
  | .exec  => .instrPageFault

/-- An operation that gives a value and the state after it, or raises `e` with a trap value, in the state that holds what
remains of it: TLB fills and accessed and dirty bits (00_scope R13, 20_memory R165). -/
inductive Res (α : Type) where
  | ok (a : α) (s : State)
  | exc (e : Exc) (tval : Word) (s : State)
deriving DecidableEq, Repr

/-! ### The TLB (20_memory R172 to R178) -/

/-- `tlb_flush()` (20_memory R178). -/
def State.tlbFlush (s : State) : State := { s with tlb := Tlb.empty }

/-- The virtual page number (20_memory R170). -/
def vpnOf (va : Word) : BitVec 52 := va.extractLsb' 12 52

/-- `va[11:0]`. -/
def pageOff (va : Word) : Nat := va.toNat % 4096

/-- `tlb_hash(vpn) = vpn mod TLB_SIZE` (20_memory R172). -/
def State.tlbSlot (s : State) (vpn : BitVec 52) : Nat := vpn.toNat % 2 ^ s.hw.tlbBits

/-- `acc in e.perms`. -/
def TlbEntry.has (e : TlbEntry) : Acc → Bool
  | .read  => e.r
  | .write => e.w
  | .exec  => e.x

/-- `e.perms ∪ (acc)`. -/
def TlbEntry.add (e : TlbEntry) : Acc → TlbEntry
  | .read  => { e with r := true }
  | .write => { e with w := true }
  | .exec  => { e with x := true }

/-- A new entry with `perms = (acc)`. -/
def TlbEntry.fresh (vpn ppn : BitVec 52) (acc : Acc) : TlbEntry :=
  TlbEntry.add ⟨vpn, ppn, false, false, false⟩ acc

/-- Lookup (20_memory R173): the page number of a hit. -/
def State.tlbHit (s : State) (vpn : BitVec 52) (acc : Acc) : Option (BitVec 52) :=
  match assocGet s.tlb.slots (s.tlbSlot vpn) with
  | some e => if e.vpn = vpn ∧ e.has acc = true then some e.ppn else none
  | none   => none

/-- `[pa, pa + n)` lies inside the RAM window (20_memory R150). -/
def Params.inRam (p : Params) (pa n : Nat) : Bool := decide (p.ramBase ≤ pa) && decide (pa + n ≤ p.ramBase + p.ramSize)

/-- The entry a fill leaves in its slot (20_memory R174). -/
def State.tlbFilled (s : State) (vpn ppn : BitVec 52) (acc : Acc) : TlbEntry :=
  match assocGet s.tlb.slots (s.tlbSlot vpn) with
  | some e => if e.vpn = vpn ∧ e.ppn = ppn then e.add acc else TlbEntry.fresh vpn ppn acc
  | none   => TlbEntry.fresh vpn ppn acc

/-- The entry whose slot a fill takes (20_memory R174). -/
def State.tlbDisplaced (s : State) (vpn ppn : BitVec 52) : List TlbEntry :=
  match assocGet s.tlb.slots (s.tlbSlot vpn) with
  | some e => if e.vpn = vpn ∧ e.ppn = ppn then [] else [e]
  | none   => []

/-- `tlb_install` (20_memory R174): only pages wholly in RAM are cached. -/
def State.tlbInstall (s : State) (vpn ppn : BitVec 52) (acc : Acc) : State :=
  if Params.inRam s.hw (ppn.toNat * 4096) 4096 = true then
    { s with tlb :=
        { slots := assocPut s.tlb.slots (s.tlbSlot vpn) (s.tlbFilled vpn ppn acc)
          gone  := s.tlbDisplaced vpn ppn ++ s.tlb.gone } }
  else s

/-! ### The walk (20_memory R180 to R187) -/

/-- LEVELS - 1 (20_memory R180). -/
def MmuMode.top : MmuMode → Nat
  | .bare => 0
  | .sv32 => 1
  | .sv39 => 2
  | .sv48 => 3
  | .sv57 => 4

/-- VPN bits per level. -/
def MmuMode.vpnBits : MmuMode → Nat
  | .sv32 => 10
  | _     => 9

/-- PTESIZE. -/
def MmuMode.pteSize : MmuMode → Nat
  | .sv32 => 4
  | _     => 8

/-- The virtual address is canonical: the bits above those used all equal the highest used (20_memory R182). -/
def MmuMode.canonical (m : MmuMode) (va : Word) : Bool :=
  match m with
  | .sv39 => (va.setWidth 39).signExtend 64 == va
  | .sv48 => (va.setWidth 48).signExtend 64 == va
  | .sv57 => (va.setWidth 57).signExtend 64 == va
  | _     => true

/-- `VPN[i]` (20_memory R182). -/
def MmuMode.vpnField (m : MmuMode) (va : Word) (i : Nat) : Nat :=
  va.toNat / 2 ^ (12 + i * m.vpnBits) % 2 ^ m.vpnBits

/-! A page-table entry, an SV32 one zero-extended (20_memory R181). -/

def pteV (p : Word) : Bool := p.getLsbD 0
def pteR (p : Word) : Bool := p.getLsbD 1
def pteW (p : Word) : Bool := p.getLsbD 2
def pteX (p : Word) : Bool := p.getLsbD 3
def pteU (p : Word) : Bool := p.getLsbD 4
def pteA (p : Word) : Bool := p.getLsbD 6
def pteD (p : Word) : Bool := p.getLsbD 7
/-- `pte.PPN`: 44 bits, of which an SV32 entry fills 22. -/
def ptePpn (p : Word) : BitVec 44 := p.extractLsb' 10 44

/-- The permission check of a leaf (20_memory R184). -/
def permitted (st : Word) (pte : Word) (acc : Acc) (eff : Priv) : Bool :=
  (match acc with
    | .exec  => pteX pte
    | .read  => pteR pte || (stMxr st && pteX pte)
    | .write => pteW pte)
  && (match eff with
    | .U => pteU pte
    | .S => !(pteU pte) || (stSum st && acc != .exec)
    | .M => true)

/-- Where a walk ended: the level of the leaf, the address of its entry and the entry. -/
structure Leaf where
  level : Nat
  addr  : Nat
  pte   : Word
deriving DecidableEq, Repr

/-- The loop of the walk (20_memory R183) from level `i` on, the table at `a`. -/
def walkFrom (s : State) (va : Word) (acc : Acc) : (i a : Nat) → Except Exc Leaf
  | i, a =>
    let addr := a + s.mmuMode.vpnField va i * s.mmuMode.pteSize
    if Params.inRam s.hw addr s.mmuMode.pteSize = true then
      let pte := BitVec.ofNat 64 (s.mem.load addr s.mmuMode.pteSize)
      if pteV pte = false ∨ (pteR pte = false ∧ pteW pte = true) then .error acc.pageFault
      else if pteR pte = true ∨ pteX pte = true then .ok ⟨i, addr, pte⟩
      else
        match i with
        | 0     => .error acc.pageFault
        | j + 1 => walkFrom s va acc j ((ptePpn pte).toNat * 4096)
    else .error acc.accessFault

/-- The entry with A set, and for a WRITE also D (20_memory R185). -/
def pteTouched (pte : Word) (acc : Acc) : Word :=
  match acc with
  | .write => pte ||| 0xC0#64
  | _      => pte ||| 0x40#64

/-- The accessed and dirty bits kept by the walker (20_memory R185). -/
def State.touchPte (s : State) (l : Leaf) (acc : Acc) : State :=
  if pteTouched l.pte acc = l.pte then s
  else { s with mem := s.mem.store l.addr s.mmuMode.pteSize (pteTouched l.pte acc).toNat }

/-- The page number of a leaf at level `i`: "the low i levels come from va" (20_memory R183). -/
def leafPpn (m : MmuMode) (va : Word) (l : Leaf) : Nat :=
  (ptePpn l.pte).toNat / 2 ^ (l.level * m.vpnBits) * 2 ^ (l.level * m.vpnBits)
    + (vpnOf va).toNat % 2 ^ (l.level * m.vpnBits)

/-- `Walk(va, acc, eff)` (20_memory R183): the physical page number, and the state with A and D updated. -/
def walk (s : State) (va : Word) (acc : Acc) (eff : Priv) : Except Exc (BitVec 52 × State) :=
  if s.mmuMode.canonical va = false then .error acc.pageFault
  else
    match walkFrom s va acc s.mmuMode.top s.rootPageTable.toNat with
    | .error e => .error e
    | .ok l =>
      if permitted s.csr.status l.pte acc eff = false then .error acc.pageFault
      else if (ptePpn l.pte).toNat % 2 ^ (l.level * s.mmuMode.vpnBits) ≠ 0 then .error acc.pageFault
      else .ok (BitVec.ofNat 52 (leafPpn s.mmuMode va l), s.touchPte l acc)

/-! ### Translation -/

/-- The effective privilege (20_memory R171). -/
def State.effPriv (s : State) (acc : Acc) : Priv :=
  match acc with
  | .exec => s.priv
  | _     => if stMprv s.csr.status then privOfCode (stMpp s.csr.status) else s.priv

/-- The physical address of page `ppn` at the offset of `va`. -/
def physAddr (ppn : BitVec 52) (va : Word) : Nat := ppn.toNat * 4096 + pageOff va

/-- What the page tables say now (20_memory R170): the page number, and the state with A and D updated. -/
def newTranslation (acc : Acc) (va : Word) (s : State) : Except Exc (BitVec 52 × State) :=
  if s.mmuMode = .bare ∨ s.effPriv acc = .M then .ok (vpnOf va, s) else walk s va acc (s.effPriv acc)

/-- What the translations made since the last flush say of a page and a kind of access, a hit first (20_memory R188). -/
def State.keptPages (s : State) (vpn : BitVec 52) (acc : Acc) : List (BitVec 52) :=
  (s.tlbHit vpn acc).toList ++ (s.tlb.gone.filter fun e => e.vpn == vpn && e.has acc).map TlbEntry.ppn

/-- Those of them that the page tables do not say any more: the mapping was changed without a fence
(70_reset_and_hazards R592, R593). -/
def oldPages (acc : Acc) (va : Word) (s : State) : List (BitVec 52) :=
  match newTranslation acc va s with
  | .ok (ppn, _) => (s.keptPages (vpnOf va) acc).filter fun q => q != ppn
  | .error _     => s.keptPages (vpnOf va) acc

/-- The code of an access kind, an argument of a free value. -/
def Acc.code : Acc → Nat
  | .read  => 0
  | .write => 1
  | .exec  => 2

/-- `Translate(va, acc)` (20_memory R170). A hit answers without a walk, and a miss is walked and fills the TLB; but where
the mapping of the page was changed without a fence, a free choice says whether the access uses an old translation or the
new one (70_reset_and_hazards R592; log 26). When it raises, the state is as it was. -/
def translate (acc : Acc) (va : Word) (s : State) : Res Nat :=
  match (oldPages acc va s)[Config.oldTranslation s.draws acc.code va]? with
  | some ppn => .ok (physAddr ppn va) s
  | none =>
    match newTranslation acc va s with
    | .error e       => .exc e va s
    | .ok (ppn, s') =>
      if s.tlbHit (vpnOf va) acc = some ppn then .ok (physAddr ppn va) s
      else .ok (physAddr ppn va) (s'.tlbInstall (vpnOf va) ppn acc)

/-! ### Physical accesses (20_memory R150 to R153) -/

/-- What holds the bytes of a plain access. -/
inductive Target where
  | ram
  | device (r : Region)
deriving DecidableEq, Repr

/-- The device region that holds `[pa, pa + n)`. -/
def Params.region (p : Params) (pa n : Nat) : Option Region :=
  p.mmio.find? fun r => decide (r.base ≤ pa) && decide (pa + n ≤ r.base + r.size)

/-- Where a plain data access of `[pa, pa + n)` goes; none: it raises the access fault (20_memory R153). -/
def Params.target (p : Params) (pa n : Nat) : Option Target :=
  if Params.inRam p pa n = true then some .ram else (Params.region p pa n).map .device

/-- One part of a data access: `n` bytes at `va`, which lie in one page, translated to `pa`. -/
structure Part where
  va : Word
  pa : Nat
  n  : Nat
deriving DecidableEq, Repr

/-- How many of the `n` bytes at `va` lie in its page (20_memory R160). -/
def firstPart (va : Word) (n : Nat) : Nat := min n (4096 - pageOff va)

/-- The parts of a data access, translated in address order, the low one first (20_memory R160 to R162). When the high part
does not translate, a low part that is not accessible is reported before it (R163; log 10). -/
def translateParts (acc : Acc) (va : Word) (n : Nat) (s : State) : Res (List Part) :=
  let k := firstPart va n
  match translate acc va s with
  | .exc e tv t => .exc e tv t
  | .ok pa t =>
    if k = n then .ok [⟨va, pa, n⟩] t
    else
      match translate acc (s.vaPlus va k) t with
      | .ok pa' u   => .ok [⟨va, pa, k⟩, ⟨s.vaPlus va k, pa', n - k⟩] u
      | .exc e tv u => if Params.target s.hw pa k = none then .exc acc.accessFault va u else .exc e tv u

/-- Read the parts in address order, the first in the low bytes: RAM, or one call of the device, whose answer is a free
value (20_memory R150, R152, R153, R160; log 15). A part that is not accessible raises after the parts before it are read:
the call of a device is made, and stays made. -/
def readParts : List Part → State → Res Nat
  | [], s      => .ok 0 s
  | p :: ps, s =>
    match Params.target s.hw p.pa p.n with
    | none => .exc .loadAccessFault p.va s
    | some .ram =>
      match readParts ps s with
      | .exc e tv t => .exc e tv t
      | .ok v t     => .ok (s.mem.load p.pa p.n + 2 ^ (8 * p.n) * v) t
    | some (.device r) =>
      match readParts ps
          { s with draws := s.draws + 1, devLog := .read r.dev (p.pa - r.base) p.n :: s.devLog } with
      | .exc e tv t => .exc e tv t
      | .ok v t     => .ok ((Config.deviceData s.draws).toNat % 2 ^ (8 * p.n) + 2 ^ (8 * p.n) * v) t

/-- The first part that is not accessible (20_memory R161). -/
def badPart (p : Params) (ps : List Part) : Option Part := ps.find? fun q => decide (Params.target p q.pa q.n = none)

/-- Write one part: RAM, or one call of the device. -/
def writePart (p : Part) (v : Nat) (s : State) : State :=
  match Params.target s.hw p.pa p.n with
  | some .ram        => { s with mem := s.mem.store p.pa p.n v }
  | some (.device r) => { s with devLog := .write r.dev (p.pa - r.base) p.n (v % 2 ^ (8 * p.n)) :: s.devLog }
  | none             => s

/-- Write the parts in address order, the low bytes in the first (20_memory R161). -/
def writeParts : List Part → Nat → State → State
  | [], _, s      => s
  | p :: ps, v, s => writeParts ps (v / 2 ^ (8 * p.n)) (writePart p v s)

/-- `MemRead(va, n)` (20_memory R160). -/
def memRead (va : Word) (n : Nat) (s : State) : Res Nat :=
  match translateParts .read va n s with
  | .exc e tv t => .exc e tv t
  | .ok ps t    => readParts ps t

/-- `MemWrite(va, n, v)` (20_memory R161, R165): nothing is written before every part is found accessible. -/
def memWrite (va : Word) (n v : Nat) (s : State) : Res Unit :=
  match translateParts .write va n s with
  | .exc e tv t => .exc e tv t
  | .ok ps t    =>
    match badPart t.hw ps with
    | some p => .exc .storeAccessFault p.va t
    | none   => .ok () (writeParts ps v t)

/-- The misaligned exception of an atomic (20_memory R145). -/
def Acc.misaligned : Acc → Exc
  | .read => .loadMisaligned
  | _     => .storeMisaligned

/-- The checks common to every atomic (45_atomics R392): the physical address of its `n` bytes of RAM. -/
def atomicAddr (acc : Acc) (va : Word) (n : Nat) (s : State) : Res Nat :=
  if va.toNat % n ≠ 0 then .exc acc.misaligned va s
  else
    match translate acc va s with
    | .exc e tv t => .exc e tv t
    | .ok pa t    => if Params.inRam t.hw pa n = true then .ok pa t else .exc acc.accessFault va t

/-- The halfword of RAM at `pa`, fetched for address `va` (40_fetch_decode R241). -/
def ramHalf (va : Word) (pa : Nat) (s : State) : Res (BitVec 16) :=
  if Params.inRam s.hw pa 2 = true then .ok (BitVec.ofNat 16 (s.mem.load pa 2)) s
  else .exc .instrAccessFault va s

/-- The halfword at `va`, which is even, through its own translation (40_fetch_decode R241). -/
def fetchHalf (va : Word) (s : State) : Res (BitVec 16) :=
  match translate .exec va s with
  | .exc e tv t => .exc e tv t
  | .ok pa t    => ramHalf va pa t

/-! ### Writes of the status word -/

/-- Store a validated `status`; the TLB is flushed when MPP, MPRV, SUM or MXR changes (15_csr R71, R75). -/
def State.writeStatus (s : State) (w : Word) : State :=
  let v := validate s.hw w
  let t : State := { s with csr := { s.csr with status := v } }
  if (v ^^^ s.csr.status) &&& statusFlushMask = 0#64 then t else t.tlbFlush

/-- Set the mode; every change of it flushes the TLB (20_memory R179). -/
def State.setPriv (s : State) (p : Priv) : State :=
  if p = s.priv then s else { s with priv := p }.tlbFlush

/-! ### Taking a trap (60_exceptions R545 to R548) -/

/-- The target is S: "priv <= S and d[code] = 1" (60_exceptions R546). -/
def trapToS (s : State) (int : Bool) (code : Nat) : Bool :=
  s.priv != .M && (if int then s.csr.mideleg.getLsbD code else s.csr.medeleg.getLsbD code)

/-- The target privilege T (60_exceptions R546). -/
def trapTarget (s : State) (int : Bool) (code : Nat) : Priv := if trapToS s int code then .S else .M

/-- `epc[T]`, `cause[T]`, `tval[T]` (60_exceptions R547). -/
def TrapRegs.saved (r : TrapRegs) (pc : Word) (int : Bool) (code : Nat) (tval : Word) : TrapRegs :=
  { r with epc := pc, causeInt := int, causeCode := BitVec.ofNat 63 code, tval := tval }

/-- `status` after entry to M: MPP is the old mode, MPIE the old MIE, MIE 0 (60_exceptions R547). -/
def statusToM (w : Word) (old : Priv) : Word := putBit (putBit (putBits w 11 old.code) 7 (stMie w)) 3 false

/-- `status` after entry to S: SPP says whether the old mode was S, SPIE is the old SIE, SIE 0 (60_exceptions R547). -/
def statusToS (w : Word) (old : Priv) : Word := putBit (putBit (putBit w 8 (old == .S)) 5 (stSie w)) 1 false

/-- The address control goes to (60_exceptions R548), before its truncation to XLEN of the target. -/
def trapVector (tvec : Word) (int : Bool) (code : Nat) : Word :=
  if int && tvec.getLsbD 0 then (tvec &&& ~~~3#64) + BitVec.ofNat 64 (4 * code) else tvec &&& ~~~3#64

/-- Load the pc with an address cut to XLEN of the current mode. -/
def State.jumpTo (s : State) (v : Word) : State := s.setPc (v.setWidth s.xw)

/-- Entry to M. -/
def State.enterM (s : State) (int : Bool) (code : Nat) (tval : Word) : State :=
  ((({ s with csr := { s.csr with m := s.csr.m.saved s.vpc int code tval } }).writeStatus
      (statusToM s.csr.status s.priv)).setPriv .M).jumpTo (trapVector s.csr.m.tvec int code)

/-- Entry to S. -/
def State.enterS (s : State) (int : Bool) (code : Nat) (tval : Word) : State :=
  ((({ s with csr := { s.csr with s := s.csr.s.saved s.vpc int code tval } }).writeStatus
      (statusToS s.csr.status s.priv)).setPriv .S).jumpTo (trapVector s.csr.s.tvec int code)

/-- Trap entry, the one operation every trap goes through (60_exceptions R546 to R548). -/
def State.takeTrap (s : State) (int : Bool) (code : Nat) (tval : Word) : State :=
  if trapToS s int code then s.enterS int code tval else s.enterM int code tval

/-- `raise E(tval)` (60_exceptions R545). -/
def raise (e : Exc) (tval : Word) (s : State) : Result := .next (s.takeTrap false e.code tval)

/-- `IllegalInstruction(inst)`: the trap value is the instruction bits (30_encoding R220). -/
def illegal (bits : BitVec 32) (s : State) : Result := raise .illegalInstr (bits.setWidth 64) s

/-- An instruction of XLEN = 64 only: with XLEN = 32 its word is illegal (30_encoding R227; log 12). -/
def need64 (bits : BitVec 32) (s : State) (k : Result) : Result := if s.xlen = .x64 then k else illegal bits s

/-! ### Returning from a trap (47_system R433 to R435) -/

/-- `status` after `MRET` to mode `p` (47_system R434). -/
def statusMret (w : Word) (p : Priv) : Word :=
  let v := putBits (putBit (putBit w 3 (stMpie w)) 7 true) 11 0#2
  if p = .M then v else putBit v 17 false

/-- `status` after `SRET` (47_system R435). -/
def statusSret (w : Word) : Word := putBit (putBit (putBit (putBit w 1 (stSpie w)) 5 true) 8 false) 17 false

/-- The effect of `MRET` in M (47_system R434). -/
def State.returnM (s : State) : State :=
  let p := privOfCode (stMpp s.csr.status)
  (((s.writeStatus (statusMret s.csr.status p)).setPriv p).jumpTo s.csr.m.epc).tlbFlush

/-- The effect of `SRET` (47_system R435). -/
def State.returnS (s : State) : State :=
  ((s.writeStatus (statusSret s.csr.status)).setPriv (privOfSpp (stSpp s.csr.status))).jumpTo s.csr.s.epc

end Sys2Proof.Machine
end

