-- ==== Sys2Proof/Machine/Csr.lean ====
section
/-! DEFINITION. The CSR file: the address map, the access protocol and the rule of every CSR (15_csr). A CSR value is an
XLEN-bit value, held zero-extended in a `Word`. -/

namespace Sys2Proof.Machine

/-- The three "read-modify-write operation kinds" (15_csr R60). -/
inductive CsrOp where
  | swap
  | setBits
  | clearBits
deriving DecidableEq, Repr

/-- The levels that have an entry in the per-privilege arrays of the CSR bank. -/
inductive Lvl where
  | m
  | s
deriving DecidableEq, Repr

/-- The CSRs of the address map by their rules (15_csr R67); `zero` is every CSR of that kind. -/
inductive Csr where
  | fflags
  | frm
  | fcsr
  | seed
  | sstatus
  | mstatus
  | misa
  | medeleg
  | mideleg
  | mie
  | sie
  | mip
  | sip
  | tvec (l : Lvl)
  | scratch (l : Lvl)
  | epc (l : Lvl)
  | cause (l : Lvl)
  | tval (l : Lvl)
  | counteren (l : Lvl)
  | menvcfg
  | menvcfgh
  | senvcfg
  | mseccfg
  | satp
  | stimecmp
  | stimecmph
  | time
  | timeh
  | mvendorid
  | marchid
  | mimpid
  | mhartid
  | zero
deriving DecidableEq, Repr

/-! ### The address map (15_csr R67) -/

/-- The CSRs that are at a single address and are not of kind zero. -/
def csrNamed (a : BitVec 12) : Option Csr :=
  match a with
  | 0x001#12 => some .fflags
  | 0x002#12 => some .frm
  | 0x003#12 => some .fcsr
  | 0x015#12 => some .seed
  | 0x100#12 => some .sstatus
  | 0x104#12 => some .sie
  | 0x105#12 => some (.tvec .s)
  | 0x106#12 => some (.counteren .s)
  | 0x10A#12 => some .senvcfg
  | 0x140#12 => some (.scratch .s)
  | 0x141#12 => some (.epc .s)
  | 0x142#12 => some (.cause .s)
  | 0x143#12 => some (.tval .s)
  | 0x144#12 => some .sip
  | 0x14D#12 => some .stimecmp
  | 0x180#12 => some .satp
  | 0x300#12 => some .mstatus
  | 0x301#12 => some .misa
  | 0x302#12 => some .medeleg
  | 0x303#12 => some .mideleg
  | 0x304#12 => some .mie
  | 0x305#12 => some (.tvec .m)
  | 0x306#12 => some (.counteren .m)
  | 0x30A#12 => some .menvcfg
  | 0x340#12 => some (.scratch .m)
  | 0x341#12 => some (.epc .m)
  | 0x342#12 => some (.cause .m)
  | 0x343#12 => some (.tval .m)
  | 0x344#12 => some .mip
  | 0x747#12 => some .mseccfg
  | 0xC01#12 => some .time
  | 0xF11#12 => some .mvendorid
  | 0xF12#12 => some .marchid
  | 0xF13#12 => some .mimpid
  | 0xF14#12 => some .mhartid
  | _        => none

/-- The CSRs in the map only when XLEN = 32 that are not of kind zero (15_csr R66). -/
def csrNamed32 (a : BitVec 12) : Option Csr :=
  match a with
  | 0x15D#12 => some .stimecmph
  | 0x31A#12 => some .menvcfgh
  | 0xC81#12 => some .timeh
  | _        => none

/-- `lo <= a <= hi`. -/
def inRange (a : BitVec 12) (lo hi : Nat) : Bool := decide (lo ≤ a.toNat) && decide (a.toNat ≤ hi)

/-- The CSRs of kind zero at either XLEN (15_csr R121). -/
def csrZero (a : BitVec 12) : Bool :=
  inRange a 0x320 0x320 || inRange a 0x323 0x33F || inRange a 0x3A0 0x3EF
  || inRange a 0xB00 0xB00 || inRange a 0xB02 0xB1F
  || inRange a 0xC00 0xC00 || inRange a 0xC02 0xC1F || inRange a 0xF15 0xF15

/-- The CSRs of kind zero when XLEN = 32 only (15_csr R74, R103, R121). -/
def csrZero32 (a : BitVec 12) : Bool :=
  inRange a 0x310 0x310 || inRange a 0x757 0x757
  || inRange a 0xB80 0xB80 || inRange a 0xB82 0xB9F
  || inRange a 0xC80 0xC80 || inRange a 0xC82 0xC9F

/-- The CSR at an address, if the map has one at this XLEN (15_csr R61 check 3, R66, R67). -/
def csrMap (x : Xlen) (a : BitVec 12) : Option Csr :=
  match csrNamed a with
  | some c => some c
  | none =>
    if csrZero a = true then some .zero
    else
      match x with
      | .x64 => none
      | .x32 => if csrZero32 a = true then some .zero else csrNamed32 a

/-! ### Widths (15_csr R65) -/

/-- `view(w)`. -/
def csrView (x : Xlen) (w : Word) : Word :=
  match x with
  | .x64 => w
  | .x32 => (w.setWidth 32).setWidth 64

/-- `store(new)` for a CSR that is XLEN wide: zero-extended when XLEN = 32. -/
def csrStore (x : Xlen) (new : Word) : Word := csrView x new

/-- `store(new)` for a CSR that is always 64 bits wide: a 32-bit write keeps the upper half. -/
def csrStore64 (x : Xlen) (w new : Word) : Word :=
  match x with
  | .x64 => new
  | .x32 => w.extractLsb' 32 32 ++ new.setWidth 32

/-- The upper half of `w`, as a high-half alias reads it (15_csr R66). -/
def highHalf (w : Word) : Word := (w.extractLsb' 32 32).setWidth 64

/-- `w` with its upper half replaced, as a high-half alias writes it (15_csr R66). -/
def putHighHalf (w new : Word) : Word := new.setWidth 32 ++ w.setWidth 32

/-! ### Access to the bank -/

/-- The per-privilege words of a level. -/
def CsrBank.at (c : CsrBank) : Lvl → TrapRegs
  | .m => c.m
  | .s => c.s

/-- The bank with the words of a level replaced. -/
def CsrBank.putAt (c : CsrBank) (l : Lvl) (r : TrapRegs) : CsrBank :=
  match l with
  | .m => { c with m := r }
  | .s => { c with s := r }

/-- The state with the words of a level replaced. -/
def State.putTrap (s : State) (l : Lvl) (r : TrapRegs) : State := { s with csr := s.csr.putAt l r }

/-- `M_MASK`, the six interrupt bits (15_csr R88). -/
def mMask : BitVec 12 := 0xAAA#12

/-- `S_MASK` (15_csr R90). -/
def sMask : BitVec 12 := 0x222#12

/-- STCE is set: the supervisor timer extension is enabled (15_csr R101, R110). -/
def State.stce (s : State) : Bool := s.csr.m.envcfg.getLsbD 63

/-- `fcsr` and its views can be accessed: an FPU is present and `status.FS` is not 0 (15_csr R112). -/
def State.fpuOn (s : State) : Bool := s.hw.fpuPresent && stFs s.csr.status != 0#2

/-- `fcsr <- fcsr | fp_accrued`, "Before read" (15_csr R112). -/
def State.accrueFp (s : State) : State :=
  { s with csr := { s.csr with fcsr := s.csr.fcsr ||| s.fpAccrued.setWidth 8 } }

/-- The SD bit in its place: 1 iff XS is DIRTY (15_csr R72). -/
def withSd (x : Xlen) (st v : Word) : Word :=
  match x with
  | .x64 => putBit v 63 (stXs st == 3#2)
  | .x32 => putBit v 31 (stXs st == 3#2)

/-- The code of a paging mode (15_csr R108). -/
def MmuMode.code : MmuMode → BitVec 4
  | .bare => 0#4
  | .sv32 => 1#4
  | .sv39 => 8#4
  | .sv48 => 9#4
  | .sv57 => 10#4

/-- A read of `satp`, recomposed (15_csr R108). -/
def satpValue (x : Xlen) (m : MmuMode) (root : BitVec 56) : Word :=
  match x with
  | .x64 => m.code ++ 0#16 ++ root.extractLsb' 12 44
  | .x32 => (BitVec.ofBool (m == .sv32) ++ 0#9 ++ root.extractLsb' 12 22).setWidth 64

/-- The mode a written `satp` selects (15_csr R107). -/
def satpMode (x : Xlen) (v : Word) : MmuMode :=
  match x with
  | .x64 =>
    match v.extractLsb' 60 4 with
    | 8#4  => .sv39
    | 9#4  => .sv48
    | 10#4 => .sv57
    | _    => .bare
  | .x32 => if v.getLsbD 31 then .sv32 else .bare

/-- The root a written `satp` selects (15_csr R107). -/
def satpRoot (x : Xlen) (v : Word) : BitVec 56 :=
  match x with
  | .x64 => v.extractLsb' 0 44 ++ 0#12
  | .x32 => (v.extractLsb' 0 22 ++ 0#12).setWidth 56

/-- The MXL field and the extension bits (15_csr R80). -/
def misaValue (x mxl : Xlen) (ext : BitVec 26) : Word :=
  let code : BitVec 2 := match mxl with | .x32 => 1#2 | .x64 => 2#2
  match x with
  | .x64 => code ++ 0#36 ++ ext
  | .x32 => (code ++ 0#4 ++ ext).setWidth 64

/-- `(interrupt, code[XLEN-2:0])` (15_csr R97). -/
def causeValue (x : Xlen) (int : Bool) (code : BitVec 63) : Word :=
  match x with
  | .x64 => BitVec.ofBool int ++ code
  | .x32 => (BitVec.ofBool int ++ code.setWidth 31).setWidth 64

/-- The code a software write stores (15_csr R97). -/
def causeCodeOf (x : Xlen) (v : Word) : BitVec 63 :=
  match x with
  | .x64 => v.setWidth 63
  | .x32 => (v.setWidth 31).setWidth 63

/-- The interrupt flag a software write stores (15_csr R97). -/
def causeIntOf (x : Xlen) (v : Word) : Bool :=
  match x with
  | .x64 => v.getLsbD 63
  | .x32 => v.getLsbD 31

/-- `time` can be read: the counter-enable bits TM of the levels above (15_csr R117). -/
def State.timeAllowed (s : State) : Bool :=
  match s.priv with
  | .M => true
  | .S => s.csr.m.counteren.getLsbD 1
  | .U => s.csr.m.counteren.getLsbD 1 && s.csr.s.counteren.getLsbD 1

/-- `seed` can be read (15_csr R118). -/
def State.seedAllowed (s : State) : Bool :=
  match s.priv with
  | .M => true
  | .S => s.csr.mseccfg.getLsbD 9
  | .U => s.csr.mseccfg.getLsbD 8

/-! ### Reads -/

/-- The read rule of a CSR: the visible old value and the state after the read, or none where the rule fails. -/
def csrRead (x : Xlen) (c : Csr) (s : State) : Option (Word × State) :=
  match c with
  | .fflags      => if s.fpuOn then some ((s.accrueFp.csr.fcsr.extractLsb' 0 5).setWidth 64, s.accrueFp) else none
  | .frm         => if s.fpuOn then some ((s.accrueFp.csr.fcsr.extractLsb' 5 3).setWidth 64, s.accrueFp) else none
  | .fcsr        => if s.fpuOn then some (s.accrueFp.csr.fcsr.setWidth 64, s.accrueFp) else none
  | .seed        =>
    if s.seedAllowed then
      some ((0x8000#16 ++ Config.entropy s.draws).setWidth 64, { s with draws := s.draws + 1 })
    else none
  | .sstatus     => some (withSd x s.csr.status (csrView x s.csr.status &&& sstatusRm s.hw.rv64), s)
  | .mstatus     => some (withSd x s.csr.status (csrView x s.csr.status), s)
  | .misa        => some (misaValue x s.csr.mxl s.csr.misaExt, s)
  | .medeleg     => some (s.csr.medeleg.setWidth 64, s)
  | .mideleg     => some (s.csr.mideleg.setWidth 64, s)
  | .mie         => some ((s.csr.ie &&& mMask).setWidth 64, s)
  | .sie         => some ((s.csr.ie &&& sMask).setWidth 64, s)
  | .mip         => some (((s.csr.ip ||| s.irqPending) &&& mMask).setWidth 64, s)
  | .sip         => some (((s.csr.ip ||| s.irqPending) &&& sMask).setWidth 64, s)
  | .tvec l      => some (csrView x (s.csr.at l).tvec, s)
  | .scratch l   => some (csrView x (s.csr.at l).scratch, s)
  | .epc l       => some (csrView x (s.csr.at l).epc, s)
  | .cause l     => some (causeValue x (s.csr.at l).causeInt (s.csr.at l).causeCode, s)
  | .tval l      => some (csrView x (s.csr.at l).tval, s)
  | .counteren l => some ((s.csr.at l).counteren.setWidth 64, s)
  | .menvcfg     => some (csrView x s.csr.m.envcfg, s)
  | .menvcfgh    => some (highHalf s.csr.m.envcfg, s)
  | .senvcfg     => some (csrView x s.csr.s.envcfg, s)
  | .mseccfg     => some (csrView x s.csr.mseccfg, s)
  | .satp        => if stTvm s.csr.status then none else some (satpValue x s.mmuMode s.rootPageTable, s)
  | .stimecmp    => if s.stce then some (csrView x s.stimecmp, s) else none
  | .stimecmph   => if s.stce then some (highHalf s.stimecmp, s) else none
  | .time        => if s.timeAllowed then some (csrView x s.time, s) else none
  | .timeh       => if s.timeAllowed then some (highHalf s.time, s) else none
  | .mvendorid   => some (csrView x s.hw.mvendorid, s)
  | .marchid     => some (csrView x s.hw.marchid, s)
  | .mimpid      => some (csrView x s.hw.mimpid, s)
  | .mhartid     => some (csrView x (BitVec.ofNat 64 s.hw.hartId), s)
  | .zero        => some (0#64, s)

/-! ### Writes -/

/-- `new` from the visible old value (15_csr R62). -/
def csrNew (op : CsrOp) (old v : Word) : Word :=
  match op with
  | .swap      => v
  | .setBits   => old ||| v
  | .clearBits => old &&& ~~~v

/-- The write of `fcsr`: host flags are cleared when the new flags lack one of them (15_csr R112). -/
def State.writeFcsr (s : State) (v : BitVec 8) : State :=
  { s with
    csr := { s.csr with fcsr := v }
    fpAccrued := if s.fpAccrued &&& ~~~(v.extractLsb' 0 5) = 0#5 then s.fpAccrued else 0#5 }

/-- The write of `misa`: only MXL can change, and only to a width the hart has; a change flushes the TLB (15_csr R81). -/
def State.writeMisa (x : Xlen) (s : State) (v : Word) : State :=
  match x with
  | .x64 =>
    if v.extractLsb' 62 2 = 1#2 then { s with csr := { s.csr with mxl := .x32 } }.tlbFlush else s
  | .x32 =>
    if v.extractLsb' 30 2 = 2#2 ∧ s.hw.rv64 = true then { s with csr := { s.csr with mxl := .x64 } }.tlbFlush else s

/-- The masked update of `ie` (15_csr R88, R90). -/
def State.writeIe (s : State) (mask v : BitVec 12) : State :=
  { s with csr := { s.csr with ie := (s.csr.ie &&& ~~~mask) ||| (v &&& mask) } }

/-- The masked update of `ip`, computed "from the stored `ip`, not from the returned value" (15_csr R89, R91). -/
def State.writeIp (s : State) (mask : BitVec 12) (op : CsrOp) (v : Word) : State :=
  let n := (csrNew op ((s.csr.ip &&& mask).setWidth 64) v).setWidth 12
  { s with csr := { s.csr with ip := (s.csr.ip &&& ~~~mask) ||| (n &&& mask) } }

/-- The write of `satp`; the TLB is flushed only when paging turns on or off (15_csr R107). -/
def State.writeSatp (x : Xlen) (s : State) (v : Word) : State :=
  let t : State := { s with mmuMode := satpMode x v, rootPageTable := satpRoot x v }
  if (satpMode x v = .bare) ↔ (s.mmuMode = .bare) then t else t.tlbFlush

/-- Set or clear bit `c` of `irq_pending`. -/
def State.setIrq (s : State) (c : Nat) (b : Bool) : State :=
  { s with irqPending :=
      if b then s.irqPending ||| (1#12 <<< c) else s.irqPending &&& ~~~(1#12 <<< c) }

/-- The write of `stimecmp`: STIP is raised if the new value is at most `time`, else cleared (15_csr R110). -/
def State.writeStimecmp (s : State) (v : Word) : State :=
  { s with stimecmp := v }.setIrq 5 (decide (v.toNat ≤ s.time.toNat))

/-- The write rule of a CSR: `new` is the value R62 gives from the visible old value, `op` and `v` the operation. -/
def csrWrite (x : Xlen) (c : Csr) (op : CsrOp) (v new : Word) (s : State) : State :=
  match c with
  | .fflags      => s.writeFcsr (s.csr.fcsr.extractLsb' 5 3 ++ new.extractLsb' 0 5)
  | .frm         => s.writeFcsr (new.extractLsb' 0 3 ++ s.csr.fcsr.extractLsb' 0 5)
  | .fcsr        => s.writeFcsr (new.setWidth 8)
  | .seed        => s
  | .sstatus     => s.writeStatus (maskedWrite s.csr.status (sstatusWm s.hw.rv64) (csrStore64 x s.csr.status new))
  | .mstatus     => s.writeStatus (maskedWrite s.csr.status (mstatusWm s.hw.rv64) (csrStore64 x s.csr.status new))
  | .misa        => s.writeMisa x new
  | .medeleg     =>
    { s with csr := { s.csr with medeleg := (s.csr.medeleg &&& ~~~0xB3FF#16) ||| (new.setWidth 16 &&& 0xB3FF#16) } }
  | .mideleg     =>
    { s with csr := { s.csr with mideleg := (s.csr.mideleg &&& ~~~0x222#12) ||| (new.setWidth 12 &&& 0x222#12) } }
  | .mie         => s.writeIe mMask (new.setWidth 12)
  | .sie         => s.writeIe sMask (new.setWidth 12)
  | .mip         => s.writeIp mMask op v
  | .sip         => s.writeIp sMask op v
  | .tvec l      => s.putTrap l { s.csr.at l with tvec := csrStore x new }
  | .scratch l   => s.putTrap l { s.csr.at l with scratch := csrStore x new }
  | .epc l       => s.putTrap l { s.csr.at l with epc := maskedWrite (s.csr.at l).epc (~~~1#64) (csrStore x new) }
  | .cause l     =>
    s.putTrap l { s.csr.at l with causeInt := causeIntOf x new, causeCode := causeCodeOf x new }
  | .tval l      => s.putTrap l { s.csr.at l with tval := csrStore x new }
  | .counteren l => s.putTrap l { s.csr.at l with counteren := new.setWidth 32 }
  | .menvcfg     =>
    s.putTrap .m { s.csr.m with
      envcfg := maskedWrite s.csr.m.envcfg 0x8000000000000000#64 (csrStore64 x s.csr.m.envcfg new) }
  | .menvcfgh    =>
    s.putTrap .m { s.csr.m with
      envcfg := maskedWrite s.csr.m.envcfg 0x8000000000000000#64 (putHighHalf s.csr.m.envcfg new) }
  | .senvcfg     => s
  | .mseccfg     =>
    { s with csr := { s.csr with mseccfg := maskedWrite s.csr.mseccfg 0x300#64 (csrStore64 x s.csr.mseccfg new) } }
  | .satp        => s.writeSatp x new
  | .stimecmp    => s.writeStimecmp (csrStore64 x s.stimecmp new)
  | .stimecmph   => s.writeStimecmp (putHighHalf s.stimecmp new)
  | .time        => s
  | .timeh       => s
  | .mvendorid   => s
  | .marchid     => s
  | .mimpid      => s
  | .mhartid     => s
  | .zero        => s

/-! ### The entry point -/

/-- Access checks 1 and 2 (15_csr R61): no non-zero operand for a read-only CSR, and enough privilege. -/
def csrDenied (a : BitVec 12) (v : Word) (p : Priv) : Bool :=
  (a.extractLsb' 10 2 == 3#2 && v != 0#64) || decide (p.toNat < (a.extractLsb' 8 2).toNat)

/-- `csr_op(id, v, op)` (15_csr R60 to R63): the old value and the new state, or none; `v` is zero-extended. -/
def csrAccess (a : BitVec 12) (v : Word) (op : CsrOp) (s : State) : Option (Word × State) :=
  if csrDenied a v s.priv = true then none
  else
    match csrMap s.xlen a with
    | none => none
    | some c =>
      match csrRead s.xlen c s with
      | none => none
      | some (old, t) => some (old, csrWrite s.xlen c op v (csrNew op old v) t)

end Sys2Proof.Machine
end

