-- ==== Sys2Proof/Machine/Alu.lean ====
section
/-! DEFINITION. The integer computational instructions (41_integer_alu). -/

namespace Sys2Proof.Machine

/-! ### The operations, at any width (R261) -/

def aluAdd (n : Nat) (x y : BitVec n) : BitVec n := x + y
def aluSub (n : Nat) (x y : BitVec n) : BitVec n := x - y
def aluXor (n : Nat) (x y : BitVec n) : BitVec n := x ^^^ y
def aluOr (n : Nat) (x y : BitVec n) : BitVec n := x ||| y
def aluAnd (n : Nat) (x y : BitVec n) : BitVec n := x &&& y
/-- 1 if `x < y` as two's complement, else 0. -/
def aluSlt (n : Nat) (x y : BitVec n) : BitVec n := if x.toInt < y.toInt then 1#n else 0#n
/-- 1 if `x < y` as natural numbers, else 0. -/
def aluSltu (n : Nat) (x y : BitVec n) : BitVec n := if x.toNat < y.toNat then 1#n else 0#n
/-- Zeros enter at bit 0. -/
def shiftLeft (n : Nat) (x : BitVec n) (k : Nat) : BitVec n := x <<< k
/-- Zeros enter at the top. -/
def shiftRight (n : Nat) (x : BitVec n) (k : Nat) : BitVec n := x >>> k
/-- Copies of the top bit enter at the top. -/
def shiftRightArith (n : Nat) (x : BitVec n) (k : Nat) : BitVec n := x.sshiftRight k

/-- A shift by a register: the amount is the low log2(n) bits, `n` being 32 or 64 (R261). -/
def byReg (f : (n : Nat) → BitVec n → Nat → BitVec n) (n : Nat) (x y : BitVec n) : BitVec n := f n x (y.toNat % n)

/-! ### The forms, for an instruction of `len` bytes -/

/-- `x[rd] <- f(x[rs1], x[rs2])`, of XLEN bits. -/
def opRR (len : Nat) (f : (n : Nat) → BitVec n → BitVec n → BitVec n) (rd rs1 rs2 : Reg) (s : State) : Result :=
  retire s (s.setX rd (f s.xw (s.x s.xw rs1) (s.x s.xw rs2))) len

/-- `x[rd] <- f(x[rs1], imm)`, of XLEN bits, the immediate sign-extended first. -/
def opRI {m : Nat} (len : Nat) (f : (n : Nat) → BitVec n → BitVec n → BitVec n) (rd rs1 : Reg) (imm : BitVec m)
    (s : State) : Result :=
  retire s (s.setX rd (f s.xw (s.x s.xw rs1) (imm.signExtend s.xw))) len

/-- `x[rd] <- f(x[rs1], shamt)`; with XLEN = 32 a shift amount above 31 is illegal (30_encoding R222, R227; log 12). -/
def opShift (len : Nat) (bits : BitVec 32) (f : (n : Nat) → BitVec n → Nat → BitVec n) (rd rs1 : Reg) (shamt : BitVec 6)
    (s : State) : Result :=
  if shamtFits s.xlen shamt = true then retire s (s.setX rd (f s.xw (s.x s.xw rs1) shamt.toNat)) len
  else illegal bits s

/-- `x[rd] <- sext_64(f(x[rs1][31:0], x[rs2][31:0]))`, XLEN = 64 only. -/
def opRRW (len : Nat) (bits : BitVec 32) (f : (n : Nat) → BitVec n → BitVec n → BitVec n) (rd rs1 rs2 : Reg)
    (s : State) : Result :=
  need64 bits s (retire s (s.setX rd (f 32 (s.x 32 rs1) (s.x 32 rs2))) len)

/-- `x[rd] <- sext_64(x[rs1][31:0] + imm)`, XLEN = 64 only. -/
def opAddIW {m : Nat} (len : Nat) (bits : BitVec 32) (rd rs1 : Reg) (imm : BitVec m) (s : State) : Result :=
  need64 bits s (retire s (s.setX rd (s.x 32 rs1 + imm.signExtend 32)) len)

/-- `x[rd] <- sext_64(f(x[rs1][31:0], shamt))`, XLEN = 64 only. -/
def opShiftW (bits : BitVec 32) (f : (n : Nat) → BitVec n → Nat → BitVec n) (rd rs1 : Reg) (shamt : BitVec 5)
    (s : State) : Result :=
  need64 bits s (retire s (s.setX rd (f 32 (s.x 32 rs1) shamt.toNat)) 4)

/-! ### Upper immediates -/

/-- `x[rd] <- v`, sign-extended to XLEN. -/
def opUpper {m : Nat} (len : Nat) (rd : Reg) (v : BitVec m) (s : State) : Result :=
  retire s (s.setX rd (v.signExtend s.xw)) len

/-- `LUI` (R262). -/
def execLui (rd : Reg) (imm : BitVec 20) (s : State) : Result := opUpper 4 rd (imm ++ 0#12) s

/-- `AUIPC` (R263). -/
def execAuipc (rd : Reg) (imm : BitVec 20) (s : State) : Result := retire s (s.setX rd (s.pcPlus (imm ++ 0#12))) 4

/-! ### Register and immediate -/

/-- `ADDI` (R264). -/
def execAddi (rd rs1 : Reg) (imm : BitVec 12) (s : State) : Result := opRI 4 aluAdd rd rs1 imm s

/-- `SLTI` (R265). -/
def execSlti (rd rs1 : Reg) (imm : BitVec 12) (s : State) : Result := opRI 4 aluSlt rd rs1 imm s

/-- `SLTIU` (R266). -/
def execSltiu (rd rs1 : Reg) (imm : BitVec 12) (s : State) : Result := opRI 4 aluSltu rd rs1 imm s

/-- `XORI` (R267). -/
def execXori (rd rs1 : Reg) (imm : BitVec 12) (s : State) : Result := opRI 4 aluXor rd rs1 imm s

/-- `ORI` (R268). -/
def execOri (rd rs1 : Reg) (imm : BitVec 12) (s : State) : Result := opRI 4 aluOr rd rs1 imm s

/-- `ANDI` (R269). -/
def execAndi (rd rs1 : Reg) (imm : BitVec 12) (s : State) : Result := opRI 4 aluAnd rd rs1 imm s

/-- `SLLI` (R270). -/
def execSlli (rd rs1 : Reg) (shamt : BitVec 6) (s : State) : Result :=
  opShift 4 (encode (.slli rd rs1 shamt)).bits shiftLeft rd rs1 shamt s

/-- `SRLI` (R271). -/
def execSrli (rd rs1 : Reg) (shamt : BitVec 6) (s : State) : Result :=
  opShift 4 (encode (.srli rd rs1 shamt)).bits shiftRight rd rs1 shamt s

/-- `SRAI` (R272). -/
def execSrai (rd rs1 : Reg) (shamt : BitVec 6) (s : State) : Result :=
  opShift 4 (encode (.srai rd rs1 shamt)).bits shiftRightArith rd rs1 shamt s

/-! ### Register and register -/

/-- `ADD` (R273). -/
def execAdd (rd rs1 rs2 : Reg) (s : State) : Result := opRR 4 aluAdd rd rs1 rs2 s

/-- `SUB` (R274). -/
def execSub (rd rs1 rs2 : Reg) (s : State) : Result := opRR 4 aluSub rd rs1 rs2 s

/-- `SLL` (R275). -/
def execSll (rd rs1 rs2 : Reg) (s : State) : Result := opRR 4 (byReg shiftLeft) rd rs1 rs2 s

/-- `SLT` (R276). -/
def execSlt (rd rs1 rs2 : Reg) (s : State) : Result := opRR 4 aluSlt rd rs1 rs2 s

/-- `SLTU` (R277). -/
def execSltu (rd rs1 rs2 : Reg) (s : State) : Result := opRR 4 aluSltu rd rs1 rs2 s

/-- `XOR` (R278). -/
def execXor (rd rs1 rs2 : Reg) (s : State) : Result := opRR 4 aluXor rd rs1 rs2 s

/-- `SRL` (R279). -/
def execSrl (rd rs1 rs2 : Reg) (s : State) : Result := opRR 4 (byReg shiftRight) rd rs1 rs2 s

/-- `SRA` (R280). -/
def execSra (rd rs1 rs2 : Reg) (s : State) : Result := opRR 4 (byReg shiftRightArith) rd rs1 rs2 s

/-- `OR` (R281). -/
def execOr (rd rs1 rs2 : Reg) (s : State) : Result := opRR 4 aluOr rd rs1 rs2 s

/-- `AND` (R282). -/
def execAnd (rd rs1 rs2 : Reg) (s : State) : Result := opRR 4 aluAnd rd rs1 rs2 s

/-! ### Word instructions, XLEN = 64 only -/

/-- `ADDIW` (R283). -/
def execAddiw (rd rs1 : Reg) (imm : BitVec 12) (s : State) : Result :=
  opAddIW 4 (encode (.addiw rd rs1 imm)).bits rd rs1 imm s

/-- `SLLIW` (R284). -/
def execSlliw (rd rs1 : Reg) (shamt : BitVec 5) (s : State) : Result :=
  opShiftW (encode (.slliw rd rs1 shamt)).bits shiftLeft rd rs1 shamt s

/-- `SRLIW` (R285). -/
def execSrliw (rd rs1 : Reg) (shamt : BitVec 5) (s : State) : Result :=
  opShiftW (encode (.srliw rd rs1 shamt)).bits shiftRight rd rs1 shamt s

/-- `SRAIW` (R286). -/
def execSraiw (rd rs1 : Reg) (shamt : BitVec 5) (s : State) : Result :=
  opShiftW (encode (.sraiw rd rs1 shamt)).bits shiftRightArith rd rs1 shamt s

/-- `ADDW` (R287). -/
def execAddw (rd rs1 rs2 : Reg) (s : State) : Result :=
  opRRW 4 (encode (.addw rd rs1 rs2)).bits aluAdd rd rs1 rs2 s

/-- `SUBW` (R288). -/
def execSubw (rd rs1 rs2 : Reg) (s : State) : Result :=
  opRRW 4 (encode (.subw rd rs1 rs2)).bits aluSub rd rs1 rs2 s

/-- `SLLW` (R289). -/
def execSllw (rd rs1 rs2 : Reg) (s : State) : Result :=
  opRRW 4 (encode (.sllw rd rs1 rs2)).bits (byReg shiftLeft) rd rs1 rs2 s

/-- `SRLW` (R290). -/
def execSrlw (rd rs1 rs2 : Reg) (s : State) : Result :=
  opRRW 4 (encode (.srlw rd rs1 rs2)).bits (byReg shiftRight) rd rs1 rs2 s

/-- `SRAW` (R291). -/
def execSraw (rd rs1 rs2 : Reg) (s : State) : Result :=
  opRRW 4 (encode (.sraw rd rs1 rs2)).bits (byReg shiftRightArith) rd rs1 rs2 s

end Sys2Proof.Machine
end

