-- ==== Sys2Proof/Machine/Control.lean ====
section
/-! DEFINITION. The control transfer instructions (42_control_transfer). -/

namespace Sys2Proof.Machine

/-- `x[rd] <- pc + len; pc <- pc + offset` (R321). -/
def opJal {m : Nat} (len : Nat) (rd : Reg) (offset : BitVec m) (s : State) : Result :=
  .next ((s.setX rd (s.nextPc len)).setPc (s.pcPlus offset))

/-- `t = (x[rs1] + imm) & ~1; x[rd] <- pc + len; pc <- t`, the target from the old `x[rs1]` (R322). -/
def opJalr (len : Nat) (rd rs1 : Reg) (imm : BitVec 12) (s : State) : Result :=
  .next ((s.setX rd (s.nextPc len)).setPc ((s.x s.xw rs1 + imm.signExtend s.xw) &&& ~~~1#s.xw))

/-- `pc <- pc + offset` if the condition holds, else the next instruction (R323). -/
def opBranch {m : Nat} (len : Nat) (taken : Bool) (offset : BitVec m) (s : State) : Result :=
  if taken then .next (s.setPc (s.pcPlus offset)) else .next (s.setPc (s.nextPc len))

/-- `JAL` (R321). -/
def execJal (rd : Reg) (offset : BitVec 21) (s : State) : Result := opJal 4 rd offset s

/-- `JALR` (R322). -/
def execJalr (rd rs1 : Reg) (imm : BitVec 12) (s : State) : Result := opJalr 4 rd rs1 imm s

/-- `BEQ` (R324). -/
def execBeq (rs1 rs2 : Reg) (offset : BitVec 13) (s : State) : Result :=
  opBranch 4 (decide (s.x s.xw rs1 = s.x s.xw rs2)) offset s

/-- `BNE` (R325). -/
def execBne (rs1 rs2 : Reg) (offset : BitVec 13) (s : State) : Result :=
  opBranch 4 (decide (s.x s.xw rs1 ≠ s.x s.xw rs2)) offset s

/-- `BLT` (R326). -/
def execBlt (rs1 rs2 : Reg) (offset : BitVec 13) (s : State) : Result :=
  opBranch 4 (decide ((s.x s.xw rs1).toInt < (s.x s.xw rs2).toInt)) offset s

/-- `BGE` (R327). -/
def execBge (rs1 rs2 : Reg) (offset : BitVec 13) (s : State) : Result :=
  opBranch 4 (decide ((s.x s.xw rs2).toInt ≤ (s.x s.xw rs1).toInt)) offset s

/-- `BLTU` (R328). -/
def execBltu (rs1 rs2 : Reg) (offset : BitVec 13) (s : State) : Result :=
  opBranch 4 (decide ((s.x s.xw rs1).toNat < (s.x s.xw rs2).toNat)) offset s

/-- `BGEU` (R329). -/
def execBgeu (rs1 rs2 : Reg) (offset : BitVec 13) (s : State) : Result :=
  opBranch 4 (decide ((s.x s.xw rs2).toNat ≤ (s.x s.xw rs1).toNat)) offset s

end Sys2Proof.Machine
end

