-- ==== Sys2Proof/Machine/LoadStore.lean ====
section
/-! DEFINITION. Loads, stores and fences (43_load_store). -/

namespace Sys2Proof.Machine

/-- A load of `n` bytes, extended to XLEN; when it raises, `rd` is not written (R340, R341). -/
def opLoad {m : Nat} (len n : Nat) (signed : Bool) (rd rs1 : Reg) (imm : BitVec m) (s : State) : Result :=
  match memRead (s.ea rs1 imm) n s with
  | .exc e tv t => raise e tv t
  | .ok v t     => retire s (t.setX rd (extendTo s.xw n signed v)) len

/-- A store of the low `n` bytes of `x[rs2]` (R340, R341). -/
def opStore {m : Nat} (len n : Nat) (rs1 rs2 : Reg) (imm : BitVec m) (s : State) : Result :=
  match memWrite (s.ea rs1 imm) n (s.x (8 * n) rs2).toNat s with
  | .exc e tv t => raise e tv t
  | .ok _ t     => retire s t len

/-- `LB` (R343). -/
def execLb (rd rs1 : Reg) (imm : BitVec 12) (s : State) : Result := opLoad 4 1 true rd rs1 imm s

/-- `LH` (R344). -/
def execLh (rd rs1 : Reg) (imm : BitVec 12) (s : State) : Result := opLoad 4 2 true rd rs1 imm s

/-- `LW` (R345). -/
def execLw (rd rs1 : Reg) (imm : BitVec 12) (s : State) : Result := opLoad 4 4 true rd rs1 imm s

/-- `LBU` (R346). -/
def execLbu (rd rs1 : Reg) (imm : BitVec 12) (s : State) : Result := opLoad 4 1 false rd rs1 imm s

/-- `LHU` (R347). -/
def execLhu (rd rs1 : Reg) (imm : BitVec 12) (s : State) : Result := opLoad 4 2 false rd rs1 imm s

/-- `LWU` (R348), XLEN = 64 only. -/
def execLwu (rd rs1 : Reg) (imm : BitVec 12) (s : State) : Result :=
  need64 (encode (.lwu rd rs1 imm)).bits s (opLoad 4 4 false rd rs1 imm s)

/-- `LD` (R349), XLEN = 64 only. -/
def execLd (rd rs1 : Reg) (imm : BitVec 12) (s : State) : Result :=
  need64 (encode (.ld rd rs1 imm)).bits s (opLoad 4 8 true rd rs1 imm s)

/-- `SB` (R350). -/
def execSb (rs1 rs2 : Reg) (imm : BitVec 12) (s : State) : Result := opStore 4 1 rs1 rs2 imm s

/-- `SH` (R351). -/
def execSh (rs1 rs2 : Reg) (imm : BitVec 12) (s : State) : Result := opStore 4 2 rs1 rs2 imm s

/-- `SW` (R352). -/
def execSw (rs1 rs2 : Reg) (imm : BitVec 12) (s : State) : Result := opStore 4 4 rs1 rs2 imm s

/-- `SD` (R353), XLEN = 64 only. -/
def execSd (rs1 rs2 : Reg) (imm : BitVec 12) (s : State) : Result :=
  need64 (encode (.sd rs1 rs2 imm)).bits s (opStore 4 8 rs1 rs2 imm s)

/-- `FENCE` (R356): "`FENCE` changes no register and no memory and raises no exception"; on a single hart it has no
observable effect (20_memory R190). -/
def execFence (_fm _pred _succ : BitVec 4) (_rs1 _rd : Reg) (s : State) : Result := retire s s 4

/-- `FENCE.I` (R357): no effect, since every fetch reads RAM (20_memory R194). -/
def execFenceI (_imm : BitVec 12) (_rs1 _rd : Reg) (s : State) : Result := retire s s 4

end Sys2Proof.Machine
end

