-- ==== Sys2Proof/Machine/MulDiv.lean ====
section
/-! DEFINITION. Multiply and divide (44_muldiv). No case traps (R370). -/

namespace Sys2Proof.Machine

/-- The low half of the product (R371). -/
def mulLow (n : Nat) (x y : BitVec n) : BitVec n := x * y
/-- The high half of the signed product (R372). -/
def mulHigh (n : Nat) (x y : BitVec n) : BitVec n := BitVec.ofInt n (x.toInt * y.toInt / (2 : Int) ^ n)
/-- The high half of the product, `x` signed and `y` unsigned (R373). -/
def mulHighSU (n : Nat) (x y : BitVec n) : BitVec n := BitVec.ofInt n (x.toInt * (y.toNat : Int) / (2 : Int) ^ n)
/-- The high half of the unsigned product (R374). -/
def mulHighU (n : Nat) (x y : BitVec n) : BitVec n := BitVec.ofNat n (x.toNat * y.toNat / 2 ^ n)

/-- Signed division toward zero: all ones on division by zero, the dividend on overflow (R376). -/
def divS (n : Nat) (x y : BitVec n) : BitVec n :=
  if y = 0#n then BitVec.allOnes n
  else if x = BitVec.intMin n ∧ y = BitVec.allOnes n then x
  else BitVec.ofInt n (x.toInt.tdiv y.toInt)

/-- Unsigned division: all ones on division by zero (R377). -/
def divU (n : Nat) (x y : BitVec n) : BitVec n :=
  if y = 0#n then BitVec.allOnes n else BitVec.ofNat n (x.toNat / y.toNat)

/-- Signed remainder, with the sign of the dividend: the dividend on division by zero, 0 on overflow (R378). -/
def remS (n : Nat) (x y : BitVec n) : BitVec n :=
  if y = 0#n then x
  else if x = BitVec.intMin n ∧ y = BitVec.allOnes n then 0#n
  else BitVec.ofInt n (x.toInt - y.toInt * x.toInt.tdiv y.toInt)

/-- Unsigned remainder: the dividend on division by zero (R379). -/
def remU (n : Nat) (x y : BitVec n) : BitVec n :=
  if y = 0#n then x else BitVec.ofNat n (x.toNat % y.toNat)

/-- `MUL` (R371). -/
def execMul (rd rs1 rs2 : Reg) (s : State) : Result := opRR 4 mulLow rd rs1 rs2 s

/-- `MULH` (R372). -/
def execMulh (rd rs1 rs2 : Reg) (s : State) : Result := opRR 4 mulHigh rd rs1 rs2 s

/-- `MULHSU` (R373). -/
def execMulhsu (rd rs1 rs2 : Reg) (s : State) : Result := opRR 4 mulHighSU rd rs1 rs2 s

/-- `MULHU` (R374). -/
def execMulhu (rd rs1 rs2 : Reg) (s : State) : Result := opRR 4 mulHighU rd rs1 rs2 s

/-- `MULW` (R375), XLEN = 64 only. -/
def execMulw (rd rs1 rs2 : Reg) (s : State) : Result :=
  opRRW 4 (encode (.mulw rd rs1 rs2)).bits mulLow rd rs1 rs2 s

/-- `DIV` (R376). -/
def execDiv (rd rs1 rs2 : Reg) (s : State) : Result := opRR 4 divS rd rs1 rs2 s

/-- `DIVU` (R377). -/
def execDivu (rd rs1 rs2 : Reg) (s : State) : Result := opRR 4 divU rd rs1 rs2 s

/-- `REM` (R378). -/
def execRem (rd rs1 rs2 : Reg) (s : State) : Result := opRR 4 remS rd rs1 rs2 s

/-- `REMU` (R379). -/
def execRemu (rd rs1 rs2 : Reg) (s : State) : Result := opRR 4 remU rd rs1 rs2 s

/-- `DIVW` (R380), XLEN = 64 only. -/
def execDivw (rd rs1 rs2 : Reg) (s : State) : Result :=
  opRRW 4 (encode (.divw rd rs1 rs2)).bits divS rd rs1 rs2 s

/-- `DIVUW` (R381), XLEN = 64 only. -/
def execDivuw (rd rs1 rs2 : Reg) (s : State) : Result :=
  opRRW 4 (encode (.divuw rd rs1 rs2)).bits divU rd rs1 rs2 s

/-- `REMW` (R382), XLEN = 64 only. -/
def execRemw (rd rs1 rs2 : Reg) (s : State) : Result :=
  opRRW 4 (encode (.remw rd rs1 rs2)).bits remS rd rs1 rs2 s

/-- `REMUW` (R383), XLEN = 64 only. -/
def execRemuw (rd rs1 rs2 : Reg) (s : State) : Result :=
  opRRW 4 (encode (.remuw rd rs1 rs2)).bits remU rd rs1 rs2 s

end Sys2Proof.Machine
end

