-- ==== Sys2Proof/Machine/Atomics.lean ====
section
/-! DEFINITION. The atomic memory instructions (45_atomics). The bits `aq` and `rl` have no observable effect on a single
hart (R391). -/

namespace Sys2Proof.Machine

/-- `LR` of `n` bytes (R393). -/
def opLr (n : Nat) (rd rs1 : Reg) (s : State) : Result :=
  match atomicAddr .read (s.xa rs1) n s with
  | .exc e tv t => raise e tv t
  | .ok pa t    =>
    retire s ({ t with reservation := some ⟨pa, n⟩ }.setX rd (extendTo s.xw n true (t.mem.load pa n))) 4

/-- `SC` of `n` bytes (R395, R396): `spurious_failure` is a free value (log 16). -/
def opSc (n : Nat) (rd rs1 rs2 : Reg) (s : State) : Result :=
  match atomicAddr .write (s.xa rs1) n s with
  | .exc e tv t => raise e tv t
  | .ok pa t    =>
    let u : State := { t with reservation := none, draws := t.draws + 1 }
    if t.reservation = some ⟨pa, n⟩ ∧ Config.scSpurious t.draws = false then
      retire s ({ u with mem := t.mem.store pa n (s.x (8 * n) rs2).toNat }.setX rd (0#s.xw)) 4
    else retire s (u.setX rd (1#s.xw)) 4

/-- `AMO` of `n` bytes (R397): the old value to `rd`, `f` of it and `x[rs2]` to memory. -/
def opAmo (n : Nat) (f : (w : Nat) → BitVec w → BitVec w → BitVec w) (rd rs1 rs2 : Reg) (s : State) : Result :=
  match atomicAddr .write (s.xa rs1) n s with
  | .exc e tv t => raise e tv t
  | .ok pa t    =>
    let old : BitVec (8 * n) := BitVec.ofNat (8 * n) (t.mem.load pa n)
    retire s
      ({ t with mem := t.mem.store pa n (f (8 * n) old (s.x (8 * n) rs2)).toNat }.setX rd (old.signExtend s.xw)) 4

/-! ### The operations `f(t, s)` -/

def amoSwap (w : Nat) (_t s : BitVec w) : BitVec w := s
def amoMin (w : Nat) (t s : BitVec w) : BitVec w := if t.toInt < s.toInt then t else s
def amoMax (w : Nat) (t s : BitVec w) : BitVec w := if s.toInt < t.toInt then t else s
def amoMinu (w : Nat) (t s : BitVec w) : BitVec w := if t.toNat < s.toNat then t else s
def amoMaxu (w : Nat) (t s : BitVec w) : BitVec w := if s.toNat < t.toNat then t else s

/-! ### The instructions -/

/-- `LR.W` (R393). -/
def execLrW (rd rs1 : Reg) (_aq _rl : Bool) (s : State) : Result := opLr 4 rd rs1 s

/-- `LR.D` (R393), XLEN = 64 only. -/
def execLrD (rd rs1 : Reg) (aq rl : Bool) (s : State) : Result :=
  need64 (encode (.lrD rd rs1 aq rl)).bits s (opLr 8 rd rs1 s)

/-- `SC.W` (R395). -/
def execScW (rd rs1 rs2 : Reg) (_aq _rl : Bool) (s : State) : Result := opSc 4 rd rs1 rs2 s

/-- `SC.D` (R396), XLEN = 64 only. -/
def execScD (rd rs1 rs2 : Reg) (aq rl : Bool) (s : State) : Result :=
  need64 (encode (.scD rd rs1 rs2 aq rl)).bits s (opSc 8 rd rs1 rs2 s)

/-- `AMOSWAP.W` (R398). -/
def execAmoswapW (rd rs1 rs2 : Reg) (_aq _rl : Bool) (s : State) : Result := opAmo 4 amoSwap rd rs1 rs2 s

/-- `AMOADD.W` (R399). -/
def execAmoaddW (rd rs1 rs2 : Reg) (_aq _rl : Bool) (s : State) : Result := opAmo 4 aluAdd rd rs1 rs2 s

/-- `AMOXOR.W` (R400). -/
def execAmoxorW (rd rs1 rs2 : Reg) (_aq _rl : Bool) (s : State) : Result := opAmo 4 aluXor rd rs1 rs2 s

/-- `AMOAND.W` (R401). -/
def execAmoandW (rd rs1 rs2 : Reg) (_aq _rl : Bool) (s : State) : Result := opAmo 4 aluAnd rd rs1 rs2 s

/-- `AMOOR.W` (R402). -/
def execAmoorW (rd rs1 rs2 : Reg) (_aq _rl : Bool) (s : State) : Result := opAmo 4 aluOr rd rs1 rs2 s

/-- `AMOMIN.W` (R403). -/
def execAmominW (rd rs1 rs2 : Reg) (_aq _rl : Bool) (s : State) : Result := opAmo 4 amoMin rd rs1 rs2 s

/-- `AMOMAX.W` (R404). -/
def execAmomaxW (rd rs1 rs2 : Reg) (_aq _rl : Bool) (s : State) : Result := opAmo 4 amoMax rd rs1 rs2 s

/-- `AMOMINU.W` (R405). -/
def execAmominuW (rd rs1 rs2 : Reg) (_aq _rl : Bool) (s : State) : Result := opAmo 4 amoMinu rd rs1 rs2 s

/-- `AMOMAXU.W` (R406). -/
def execAmomaxuW (rd rs1 rs2 : Reg) (_aq _rl : Bool) (s : State) : Result := opAmo 4 amoMaxu rd rs1 rs2 s

/-- `AMOSWAP.D` (R407), XLEN = 64 only. -/
def execAmoswapD (rd rs1 rs2 : Reg) (aq rl : Bool) (s : State) : Result :=
  need64 (encode (.amoswapD rd rs1 rs2 aq rl)).bits s (opAmo 8 amoSwap rd rs1 rs2 s)

/-- `AMOADD.D` (R408), XLEN = 64 only. -/
def execAmoaddD (rd rs1 rs2 : Reg) (aq rl : Bool) (s : State) : Result :=
  need64 (encode (.amoaddD rd rs1 rs2 aq rl)).bits s (opAmo 8 aluAdd rd rs1 rs2 s)

/-- `AMOXOR.D` (R409), XLEN = 64 only. -/
def execAmoxorD (rd rs1 rs2 : Reg) (aq rl : Bool) (s : State) : Result :=
  need64 (encode (.amoxorD rd rs1 rs2 aq rl)).bits s (opAmo 8 aluXor rd rs1 rs2 s)

/-- `AMOAND.D` (R410), XLEN = 64 only. -/
def execAmoandD (rd rs1 rs2 : Reg) (aq rl : Bool) (s : State) : Result :=
  need64 (encode (.amoandD rd rs1 rs2 aq rl)).bits s (opAmo 8 aluAnd rd rs1 rs2 s)

/-- `AMOOR.D` (R411), XLEN = 64 only. -/
def execAmoorD (rd rs1 rs2 : Reg) (aq rl : Bool) (s : State) : Result :=
  need64 (encode (.amoorD rd rs1 rs2 aq rl)).bits s (opAmo 8 aluOr rd rs1 rs2 s)

/-- `AMOMIN.D` (R412), XLEN = 64 only. -/
def execAmominD (rd rs1 rs2 : Reg) (aq rl : Bool) (s : State) : Result :=
  need64 (encode (.amominD rd rs1 rs2 aq rl)).bits s (opAmo 8 amoMin rd rs1 rs2 s)

/-- `AMOMAX.D` (R413), XLEN = 64 only. -/
def execAmomaxD (rd rs1 rs2 : Reg) (aq rl : Bool) (s : State) : Result :=
  need64 (encode (.amomaxD rd rs1 rs2 aq rl)).bits s (opAmo 8 amoMax rd rs1 rs2 s)

/-- `AMOMINU.D` (R414), XLEN = 64 only. -/
def execAmominuD (rd rs1 rs2 : Reg) (aq rl : Bool) (s : State) : Result :=
  need64 (encode (.amominuD rd rs1 rs2 aq rl)).bits s (opAmo 8 amoMinu rd rs1 rs2 s)

/-- `AMOMAXU.D` (R415), XLEN = 64 only. -/
def execAmomaxuD (rd rs1 rs2 : Reg) (aq rl : Bool) (s : State) : Result :=
  need64 (encode (.amomaxuD rd rs1 rs2 aq rl)).bits s (opAmo 8 amoMaxu rd rs1 rs2 s)

end Sys2Proof.Machine
end

