-- ==== Sys2Proof/Machine/Zicsr.lean ====
section
/-! DEFINITION. The CSR instructions (46_zicsr). -/

namespace Sys2Proof.Machine

/-- The semantics common to all six (R421); `v` is the zero-extended operand. -/
def opCsr (bits : BitVec 32) (op : CsrOp) (rd : Reg) (csr : BitVec 12) (v : Word) (s : State) : Result :=
  match csrAccess csr v op s with
  | none          => illegal bits s
  | some (old, t) => retire s (t.setX rd (old.setWidth s.xw)) 4

/-- `CSRRW` (R422). -/
def execCsrrw (rd : Reg) (csr : BitVec 12) (rs1 : Reg) (s : State) : Result :=
  opCsr (encode (.csrrw rd csr rs1)).bits .swap rd csr (s.xa rs1) s

/-- `CSRRS` (R423). -/
def execCsrrs (rd : Reg) (csr : BitVec 12) (rs1 : Reg) (s : State) : Result :=
  opCsr (encode (.csrrs rd csr rs1)).bits .setBits rd csr (s.xa rs1) s

/-- `CSRRC` (R424). -/
def execCsrrc (rd : Reg) (csr : BitVec 12) (rs1 : Reg) (s : State) : Result :=
  opCsr (encode (.csrrc rd csr rs1)).bits .clearBits rd csr (s.xa rs1) s

/-- `CSRRWI` (R425). -/
def execCsrrwi (rd : Reg) (csr : BitVec 12) (uimm : BitVec 5) (s : State) : Result :=
  opCsr (encode (.csrrwi rd csr uimm)).bits .swap rd csr (uimm.setWidth 64) s

/-- `CSRRSI` (R426). -/
def execCsrrsi (rd : Reg) (csr : BitVec 12) (uimm : BitVec 5) (s : State) : Result :=
  opCsr (encode (.csrrsi rd csr uimm)).bits .setBits rd csr (uimm.setWidth 64) s

/-- `CSRRCI` (R427). -/
def execCsrrci (rd : Reg) (csr : BitVec 12) (uimm : BitVec 5) (s : State) : Result :=
  opCsr (encode (.csrrci rd csr uimm)).bits .clearBits rd csr (uimm.setWidth 64) s

end Sys2Proof.Machine
end

