-- ==== Sys2Proof/Machine/System.lean ====
section
/-! DEFINITION. The system instructions (47_system). -/

namespace Sys2Proof.Machine

/-- `EnvironmentCall(priv)` (R431). -/
def ecallExc (p : Priv) : Exc :=
  match p with
  | .U => .ecallU
  | .S => .ecallS
  | .M => .ecallM

/-- `ECALL` (R431). -/
def execEcall (s : State) : Result := raise (ecallExc s.priv) 0#64 s

/-- `EBREAK` (R432). -/
def execEbreak (s : State) : Result := raise .breakpoint 0#64 s

/-- `MRET` (R434). -/
def execMret (s : State) : Result :=
  if s.priv ≠ .M then illegal (encode .mret).bits s else .next s.returnM

/-- `SRET` (R435). -/
def execSret (s : State) : Result :=
  if s.priv = .U ∨ (s.priv = .S ∧ stTsr s.csr.status = true) then illegal (encode .sret).bits s
  else .next s.returnS

/-- `WFI` (R436). -/
def execWfi (s : State) : Result :=
  if s.priv ≠ .M ∧ stTw s.csr.status = true then illegal (encode .wfi).bits s
  else retire s { s with waiting := true } 4

/-- `SFENCE.VMA` (R437): the whole TLB, whatever the operands hold. -/
def execSfenceVma (rs1 rs2 : Reg) (s : State) : Result :=
  if s.priv = .U ∨ (s.priv = .S ∧ stTvm s.csr.status = true) then illegal (encode (.sfenceVma rs1 rs2)).bits s
  else retire s s.tlbFlush 4

end Sys2Proof.Machine
end

