-- ==== Sys2Proof/Machine/Compressed.lean ====
section
/-! DEFINITION. The compressed instructions (48_compressed): each "executes exactly as its expansion" with `len = 2`
(R450). -/

namespace Sys2Proof.Machine

/-- `C.ADDI4SPN` (R452). -/
def execCAddi4spn (rd : CReg) (nzuimm : BitVec 10) (s : State) : Result :=
  opRI 2 aluAdd (creg rd) 2#5 (nzuimm.setWidth 12) s

/-- `C.LW` (R453). -/
def execCLw (rd rs1 : CReg) (uimm : BitVec 7) (s : State) : Result :=
  opLoad 2 4 true (creg rd) (creg rs1) (uimm.setWidth 12) s

/-- `C.LD` (R454), XLEN = 64 only. -/
def execCLd (rd rs1 : CReg) (uimm : BitVec 8) (s : State) : Result :=
  need64 (encode (.cLd rd rs1 uimm)).bits s (opLoad 2 8 true (creg rd) (creg rs1) (uimm.setWidth 12) s)

/-- `C.SW` (R455). -/
def execCSw (rs1 rs2 : CReg) (uimm : BitVec 7) (s : State) : Result :=
  opStore 2 4 (creg rs1) (creg rs2) (uimm.setWidth 12) s

/-- `C.SD` (R456), XLEN = 64 only. -/
def execCSd (rs1 rs2 : CReg) (uimm : BitVec 8) (s : State) : Result :=
  need64 (encode (.cSd rs1 rs2 uimm)).bits s (opStore 2 8 (creg rs1) (creg rs2) (uimm.setWidth 12) s)

/-- `C.NOP` (R457). -/
def execCNop (_imm : BitVec 6) (s : State) : Result := retire s s 2

/-- `C.ADDI` (R458). -/
def execCAddi (rd : Reg) (imm : BitVec 6) (s : State) : Result := opRI 2 aluAdd rd rd imm s

/-- `C.JAL` (R459), XLEN = 32 only: with XLEN = 64 its word is that of `C.ADDIW`, which the decoder gives (log 12). -/
def execCJal (offset : BitVec 12) (s : State) : Result := opJal 2 1#5 offset s

/-- `C.ADDIW` (R460), XLEN = 64 only. -/
def execCAddiw (rd : Reg) (imm : BitVec 6) (s : State) : Result := opAddIW 2 (encode (.cAddiw rd imm)).bits rd rd imm s

/-- `C.LI` (R461). -/
def execCLi (rd : Reg) (imm : BitVec 6) (s : State) : Result := opRI 2 aluAdd rd 0#5 imm s

/-- `C.ADDI16SP` (R462). -/
def execCAddi16sp (nzimm : BitVec 10) (s : State) : Result := opRI 2 aluAdd 2#5 2#5 nzimm s

/-- `C.LUI` (R463). -/
def execCLui (rd : Reg) (nzimm : BitVec 6) (s : State) : Result := opUpper 2 rd (nzimm ++ 0#12) s

/-- `C.SRLI` (R464). -/
def execCSrli (rd : CReg) (shamt : BitVec 6) (s : State) : Result :=
  opShift 2 (encode (.cSrli rd shamt)).bits shiftRight (creg rd) (creg rd) shamt s

/-- `C.SRAI` (R465). -/
def execCSrai (rd : CReg) (shamt : BitVec 6) (s : State) : Result :=
  opShift 2 (encode (.cSrai rd shamt)).bits shiftRightArith (creg rd) (creg rd) shamt s

/-- `C.ANDI` (R466). -/
def execCAndi (rd : CReg) (imm : BitVec 6) (s : State) : Result := opRI 2 aluAnd (creg rd) (creg rd) imm s

/-- `C.SUB` (R467). -/
def execCSub (rd rs2 : CReg) (s : State) : Result := opRR 2 aluSub (creg rd) (creg rd) (creg rs2) s

/-- `C.XOR` (R468). -/
def execCXor (rd rs2 : CReg) (s : State) : Result := opRR 2 aluXor (creg rd) (creg rd) (creg rs2) s

/-- `C.OR` (R469). -/
def execCOr (rd rs2 : CReg) (s : State) : Result := opRR 2 aluOr (creg rd) (creg rd) (creg rs2) s

/-- `C.AND` (R470). -/
def execCAnd (rd rs2 : CReg) (s : State) : Result := opRR 2 aluAnd (creg rd) (creg rd) (creg rs2) s

/-- `C.SUBW` (R471), XLEN = 64 only. -/
def execCSubw (rd rs2 : CReg) (s : State) : Result :=
  opRRW 2 (encode (.cSubw rd rs2)).bits aluSub (creg rd) (creg rd) (creg rs2) s

/-- `C.ADDW` (R472), XLEN = 64 only. -/
def execCAddw (rd rs2 : CReg) (s : State) : Result :=
  opRRW 2 (encode (.cAddw rd rs2)).bits aluAdd (creg rd) (creg rd) (creg rs2) s

/-- `C.J` (R473). -/
def execCJ (offset : BitVec 12) (s : State) : Result := opJal 2 0#5 offset s

/-- `C.BEQZ` (R474). -/
def execCBeqz (rs1 : CReg) (offset : BitVec 9) (s : State) : Result :=
  opBranch 2 (decide (s.x s.xw (creg rs1) = s.x s.xw 0#5)) offset s

/-- `C.BNEZ` (R475). -/
def execCBnez (rs1 : CReg) (offset : BitVec 9) (s : State) : Result :=
  opBranch 2 (decide (s.x s.xw (creg rs1) ≠ s.x s.xw 0#5)) offset s

/-- `C.SLLI` (R476). -/
def execCSlli (rd : Reg) (shamt : BitVec 6) (s : State) : Result :=
  opShift 2 (encode (.cSlli rd shamt)).bits shiftLeft rd rd shamt s

/-- `C.LWSP` (R477). -/
def execCLwsp (rd : Reg) (uimm : BitVec 8) (s : State) : Result := opLoad 2 4 true rd 2#5 (uimm.setWidth 12) s

/-- `C.LDSP` (R478), XLEN = 64 only. -/
def execCLdsp (rd : Reg) (uimm : BitVec 9) (s : State) : Result :=
  need64 (encode (.cLdsp rd uimm)).bits s (opLoad 2 8 true rd 2#5 (uimm.setWidth 12) s)

/-- `C.JR` (R479). -/
def execCJr (rs1 : Reg) (s : State) : Result := opJalr 2 0#5 rs1 0#12 s

/-- `C.MV` (R480). -/
def execCMv (rd rs2 : Reg) (s : State) : Result := opRR 2 aluAdd rd 0#5 rs2 s

/-- `C.EBREAK` (R481). -/
def execCEbreak (s : State) : Result := raise .breakpoint 0#64 s

/-- `C.JALR` (R482). -/
def execCJalr (rs1 : Reg) (s : State) : Result := opJalr 2 1#5 rs1 0#12 s

/-- `C.ADD` (R483). -/
def execCAdd (rd rs2 : Reg) (s : State) : Result := opRR 2 aluAdd rd rd rs2 s

/-- `C.SWSP` (R484). -/
def execCSwsp (rs2 : Reg) (uimm : BitVec 8) (s : State) : Result := opStore 2 4 2#5 rs2 (uimm.setWidth 12) s

/-- `C.SDSP` (R485), XLEN = 64 only. -/
def execCSdsp (rs2 : Reg) (uimm : BitVec 9) (s : State) : Result :=
  need64 (encode (.cSdsp rs2 uimm)).bits s (opStore 2 8 2#5 rs2 (uimm.setWidth 12) s)

end Sys2Proof.Machine
end

