-- ==== Sys2Proof/Machine/Fetch.lean ====
section
/-! DEFINITION. What a step does before it executes an instruction: external events, time, waiting, the interrupt check,
fetch and decode (40_fetch_decode R240 to R243, 60_exceptions R540 to R544, R560, R561). -/

namespace Sys2Proof.Machine

/-! ### The world outside -/

/-- The interrupt number (60_exceptions R540). -/
def IntCause.code : IntCause → Nat
  | .ssi => 1
  | .msi => 3
  | .sti => 5
  | .mti => 7
  | .sei => 9
  | .mei => 11

/-- Bytes written by another agent: those inside the RAM window are stored (20_memory R150; log 8). -/
def storeBytes (p : Params) : Memory → Nat → List Byte → Memory
  | m, _, []       => m
  | m, pa, b :: bs => storeBytes p (if Params.inRam p pa 1 = true then m.writeByte pa b else m) (pa + 1) bs

/-- A write of `[pa, pa + k)` by another agent ends a reservation on any of these bytes (45_atomics R394). -/
def Reservation.survives (r : Reservation) (pa k : Nat) : Bool := decide (pa + k ≤ r.pa) || decide (r.pa + r.n ≤ pa)

/-- The effect of an external event on the hart (log 8). -/
def State.event (s : State) (e : Event) : State :=
  match e with
  | .post c  => s.setIrq c.code true
  | .clear c => s.setIrq c.code false
  | .brk     => s
  | .ramWrite pa bytes =>
    { s with
      mem := storeBytes s.hw s.mem pa bytes
      reservation := s.reservation.filter fun r => r.survives pa bytes.length }

/-- One hart step less before the next event. -/
def tick (l : List (Nat × Event)) : List (Nat × Event) :=
  match l with
  | (k + 1, e) :: rest => (k, e) :: rest
  | _                  => l

/-- `time` as this step sees it: a free value, made non-decreasing (60_exceptions R560; log 6). -/
def State.sampleTime (s : State) : State :=
  { s with
    time := if s.time.toNat ≤ (Config.timeAt s.draws).toNat then Config.timeAt s.draws else s.time
    draws := s.draws + 1 }

/-- The comparator: STIP is posted while it is enabled and `time >= stimecmp` (60_exceptions R561; log 7). -/
def State.compareTime (s : State) : State :=
  if s.stce = true ∧ s.stimecmp.toNat ≤ s.time.toNat then s.setIrq 5 true else s

/-! ### Waiting and interrupts -/

/-- The interrupts pending and enabled in `ie` (47_system R436). -/
def State.wakeable (s : State) : BitVec 12 := (s.csr.ip ||| s.irqPending) &&& s.csr.ie

/-- Action 2 of the step: none while the hart waits; `waiting` may also clear for no reason (47_system R436; log 5). -/
def wake (s : State) : Option State :=
  if s.waiting = false then some s
  else if s.wakeable ≠ 0#12 then some { s with waiting := false }
  else if Config.spuriousWake s.draws = true then some { s with waiting := false, draws := s.draws + 1 }
  else none

/-- Interrupts that go to M can be taken (60_exceptions R543). -/
def State.mEnabled (s : State) : Bool := s.priv != .M || stMie s.csr.status

/-- Interrupts that go to S can be taken. -/
def State.sEnabled (s : State) : Bool :=
  match s.priv with
  | .U => true
  | .S => stSie s.csr.status
  | .M => false

/-- `cand` (60_exceptions R543). -/
def State.intCandidates (s : State) : BitVec 12 :=
  let pend := s.wakeable &&& mMask
  (if s.mEnabled then pend &&& ~~~s.csr.mideleg else 0#12) ||| (if s.sEnabled then pend &&& s.csr.mideleg else 0#12)

/-- The order of priority, the highest first (60_exceptions R544). -/
def intPriority : List Nat := [11, 3, 7, 9, 1, 5]

/-- The interrupt to take, if any (60_exceptions R543, R544). -/
def State.pendingInt (s : State) : Option Nat := intPriority.find? fun c => s.intCandidates.getLsbD c

/-! ### Fetch and decode -/

/-- `Fetch(pc)` (40_fetch_decode R241): the second halfword only when the first says the instruction is 32 bits long. -/
def fetch (s : State) : Res Encoded :=
  match translate .exec s.vpc s with
  | .exc e tv t => .exc e tv t
  | .ok pa t =>
    match ramHalf s.vpc pa t with
    | .exc e tv u => .exc e tv u
    | .ok lo u =>
      if isShort lo = true then .ok (.c16 lo) u
      else
        match (if pageOff s.vpc = 0xFFE then fetchHalf (s.vaPlus s.vpc 2) u else ramHalf (s.vaPlus s.vpc 2) (pa + 2) u) with
        | .exc e tv v => .exc e tv v
        | .ok hi v    => .ok (.c32 (hi ++ lo)) v

/-- What a step comes to before action 7: an end, or an instruction to execute in a state. -/
inductive Pre where
  | stop (r : Result)
  | run (i : Instr) (s : State)

/-- Action 6 (40_fetch_decode R243): bits that are no instruction raise illegal instruction, but floating-point
encodings on a machine with an FPU are refused (30_encoding R220, R226; log 18). -/
def decodeStep (e : Encoded) (s : State) : Pre :=
  match decode s.xlen e with
  | .ok i => .run i s
  | .error .floatingPoint => if s.hw.fpuPresent then .stop (.refused .floatingPoint) else .stop (illegal e.bits s)
  | .error _ => .stop (illegal e.bits s)

/-- Actions 4 to 6: the interrupt check, fetch, decode. -/
def fetchStep (s : State) : Pre :=
  match s.pendingInt with
  | some c => .stop (.next (s.takeTrap true c 0#64))
  | none =>
    match fetch s with
    | .exc e tv t => .stop (raise e tv t)
    | .ok enc t   => decodeStep enc t

/-- The hart's own part of a step, before action 7. -/
def hartStep (s : State) : Pre :=
  match wake s with
  | none   => .stop (.next s)
  | some t => fetchStep t

/-- Everything before action 7. An external event that is due is a step of its own, between two steps of the hart (log 8);
parameters that no machine has stop the model (log 22). -/
def preStep (s : State) : Pre :=
  if s.hw.wf = false then .stop (.fault .badParameters)
  else
    match s.inbox with
    | (0, e) :: rest => .stop (.next ({ s with inbox := rest }.event e))
    | l              => hartStep ({ s with inbox := tick l }.sampleTime.compareTime)

/-! ### Placing a word for the next fetch (log 14) -/

/-- The state in which no interrupt is taken before the next fetch: `ie` is cleared only if one could be. -/
def State.calm (s : State) : State :=
  let t := if s.stce then s.setIrq 5 true else s
  if t.pendingInt.isSome then { s with csr := { s.csr with ie := 0#12 } } else s

/-- The state at the XLEN under which the word is an instruction: MXL is changed only if the current XLEN gives none and
the other does. -/
def State.atXlenOf (s : State) (bytes : List Byte) : State :=
  match decodeBytes s.xlen bytes, decodeBytes .x32 bytes, decodeBytes .x64 bytes with
  | .ok _, _, _ => s
  | _, .ok _, _ => { s with csr := { s.csr with mxl := .x32 } }
  | _, _, .ok _ => { s with csr := { s.csr with mxl := .x64 } }
  | _, _, _     => s

/-- Store a halfword where the fetch of address `va` reads. -/
def State.placeHalf (s : State) (va : Word) (h : Nat) : State :=
  match translate .exec va s with
  | .ok pa _ => { s with mem := s.mem.store pa 2 h }
  | .exc _ _ _ => s

/-- The TLB is emptied where a fetch of address `va` might still use an old translation (70_reset_and_hazards R592). -/
def State.settled (s : State) (va : Word) : State := if (oldPages .exec va s).isEmpty then s else s.tlbFlush

/-- The word stored at the pc, and nothing left that would keep the next step from fetching it. -/
def State.placeWord (s : State) (nbits w : Nat) : State :=
  let v := w % 2 ^ nbits % 2 ^ 32
  let u := ({ s with inbox := [], waiting := false }.calm).atXlenOf (tableBytes nbits w)
  let t := (u.settled u.vpc).settled (u.vaPlus u.vpc 2)
  (t.placeHalf t.vpc (v % 2 ^ 16)).placeHalf (t.vaPlus t.vpc 2) (v / 2 ^ 16)

end Sys2Proof.Machine
end

