-- ==== Sys2Proof/Machine/Step.lean ====
section
/-! DEFINITION. One step of the hart (40_fetch_decode R240). -/

namespace Sys2Proof.Machine

/-- One step: what comes before execution, then the meaning of the instruction fetched, which retires or traps. -/
def step (s : State) : Host.Outcome State Fault Refusal :=
  match preStep s with
  | .stop r  => r
  | .run i t => exec i t

/-- The state with an instruction's bits stored where the next step fetches (log 14). -/
def State.withFetchWord (s : State) (nbits w : Nat) : State := s.placeWord nbits w

end Sys2Proof.Machine
end

