-- ==== Sys2Proof/Safety.lean ====
section
/-! DEFINITION. The terms the statements are made in: what an instruction leaves unchanged, which bytes it stores, the
forms of the instruction families, and the invariants of the machine. -/

namespace Sys2Proof.Machine

/-! ### Frames -/

/-- Every byte of memory reads as before. -/
def SameBytes (s t : State) : Prop := ∀ a, t.mem.readByte a = s.mem.readByte a

/-- `x[rd] <- v` and no other register changed: `v` is sign-extended into the physical register, a write of `x0` is
discarded (10_state R21, R22). -/
def RegWritten {n : Nat} (s t : State) (rd : Reg) (v : BitVec n) : Prop :=
  ∀ i : Reg, t.regs.get i.toFin = if i = rd ∧ rd ≠ 0#5 then v.signExtend 64 else s.regs.get i.toFin

/-- From `s`, whose other effects leave `u`, an instruction of `len` bytes retires in `t` with `x[rd] <- v`. The frame:
no byte of memory, no CSR, no other part of the state differs from `u`. -/
structure Retires {n : Nat} (s u t : State) (len : Nat) (rd : Reg) (v : BitVec n) : Prop where
  regs : RegWritten u t rd v
  pc   : t.pc.toNat = (s.vpc.toNat + len) % 2 ^ s.xw
  mem  : SameBytes u t
  rest : t = { u with regs := t.regs, pc := t.pc }

/-- From `s`, control goes to `target` (an integer, taken modulo 2^XLEN) in `t`; nothing but the pc changes. -/
structure Goes (s t : State) (target : Int) : Prop where
  pc   : (t.pc.toNat : Int) = target % 2 ^ s.xw
  mem  : SameBytes s t
  rest : t = { s with pc := t.pc }

/-- From `s`, a jump to `target` that writes the link `v` to `x[rd]`. -/
structure Links {n : Nat} (s t : State) (target : Int) (rd : Reg) (v : BitVec n) : Prop where
  regs : RegWritten s t rd v
  pc   : (t.pc.toNat : Int) = target % 2 ^ s.xw
  mem  : SameBytes s t
  rest : t = { s with regs := t.regs, pc := t.pc }

/-- The `n` bytes of `m` at `pa` as one little-endian number (20_memory R142). -/
def bytesAt (m : Memory) (pa n : Nat) : Nat :=
  ((List.range n).map fun k => (m.readByte (pa + k)).toNat * 256 ^ k).sum

/-- `m'` is `m` but for the `n` bytes at `pa`, which hold `v`, little-endian (20_memory R142). -/
def BytesStored (m m' : Memory) (pa n v : Nat) : Prop :=
  ∀ a, m'.readByte a = if pa ≤ a ∧ a < pa + n then BitVec.ofNat 8 (v / 256 ^ (a - pa)) else m.readByte a

/-- The effective privilege is M or translation is off: addresses translate to themselves (20_memory R170). -/
def identityMapped (s : State) (acc : Acc) : Bool := decide (s.mmuMode = .bare) || decide (s.effPriv acc = .M)

/-! ### Translation -/

/-- The parameters of a paging mode (20_memory R180). -/
structure SvMode where
  levels : Nat
  /-- VPN bits per level. -/
  bits   : Nat
  /-- PTESIZE. -/
  size   : Nat
  /-- VA bits used. -/
  vaBits : Nat
deriving DecidableEq, Repr

/-- The table of 20_memory R180. -/
def svMode (m : MmuMode) : Option SvMode :=
  match m with
  | .bare => none
  | .sv32 => some ⟨2, 10, 4, 32⟩
  | .sv39 => some ⟨3, 9, 8, 39⟩
  | .sv48 => some ⟨4, 9, 8, 48⟩
  | .sv57 => some ⟨5, 9, 8, 57⟩

/-- The bits of the address above those used all equal the highest used, in SV39, SV48 and SV57 (20_memory R182). -/
def Canonical (m : SvMode) (va : Word) : Prop :=
  m.vaBits = 32 ∨ (-2 ^ (m.vaBits - 1) ≤ va.toInt ∧ va.toInt < 2 ^ (m.vaBits - 1))

/-- `a + VPN[i] * PTESIZE` (20_memory R182, R183). -/
def pteAddr (m : SvMode) (va : Word) (i a : Nat) : Nat := a + va.toNat / 2 ^ (12 + i * m.bits) % 2 ^ m.bits * m.size

/-- In the table at `a` of level `i` the entry of `va` lies in RAM and is `pte`. -/
def PteIs (s : State) (m : SvMode) (va : Word) (i a : Nat) (pte : Word) : Prop :=
  Params.inRam s.hw (pteAddr m va i a) m.size = true ∧ pte.toNat = bytesAt s.mem (pteAddr m va i a) m.size

/-- `pte.PPN`, as a number (20_memory R181). -/
def ppnOf (pte : Word) : Nat := pte.toNat / 2 ^ 10 % 2 ^ 44

/-- The walk of `va` comes to level `i` with the table at `a` (20_memory R183): it begins at the highest level with the root,
and goes on from a valid entry with R, W and X clear to the table its PPN names. -/
inductive WalkReaches (s : State) (m : SvMode) (va : Word) : (i a : Nat) → Prop
  | root : WalkReaches s m va (m.levels - 1) s.rootPageTable.toNat
  | next {i a : Nat} (pte : Word) (here : WalkReaches s m va (i + 1) a) (entry : PteIs s m va (i + 1) a pte)
      (valid : pteV pte = true) (r : pteR pte = false) (w : pteW pte = false) (x : pteX pte = false) :
      WalkReaches s m va i (ppnOf pte * 4096)

/-- The leaf permits the access to the effective mode `eff` (20_memory R184). -/
structure LeafPermits (st : Word) (pte : Word) (acc : Acc) (eff : Priv) : Prop where
  exec  : acc = .exec → pteX pte = true
  read  : acc = .read → pteR pte = true ∨ (stMxr st = true ∧ pteX pte = true)
  write : acc = .write → pteW pte = true
  user  : eff = .U → pteU pte = true
  super : eff = .S → pteU pte = true → stSum st = true ∧ acc ≠ .exec

/-- The translation raises the exception of this code, with the address, and changes nothing. -/
def TranslationFaults (acc : Acc) (va : Word) (s : State) (code : Nat) : Prop :=
  ∃ e : Exc, translate acc va s = .exc e va s ∧ e.code = code

/-- The code of the page fault of an access kind (20_memory R187). -/
def pageFaultCode (acc : Acc) : Nat :=
  match acc with
  | .exec  => 12
  | .read  => 13
  | .write => 15

/-- The code of the access fault of an access kind (20_memory R153). -/
def accessFaultCode (acc : Acc) : Nat :=
  match acc with
  | .exec  => 1
  | .read  => 5
  | .write => 7

/-- The entry was made for the page of `va` since the last flush and allows the access: it is in its slot, or has lost it
(20_memory R172 to R174, R188). -/
def Kept (s : State) (acc : Acc) (va : Word) (e : TlbEntry) : Prop :=
  (assocGet s.tlb.slots (va.toNat / 4096 % 2 ^ s.hw.tlbBits) = some e ∨ e ∈ s.tlb.gone)
  ∧ e.vpn.toNat = va.toNat / 4096 ∧ e.has acc = true

/-- Whatever was translated since the last flush, the page tables still say: the mapping was not changed without a fence
(70_reset_and_hazards R592). -/
def MappingSettled (s : State) (acc : Acc) (va : Word) : Prop :=
  ∀ e, Kept s acc va e → ∃ t, newTranslation acc va s = .ok (e.ppn, t)

/-! ### Data accesses -/

/-- The bytes `[pa, pa + n)` are in RAM or in one device region (20_memory R153). -/
def Accessible (p : Params) (pa n : Nat) : Prop := Params.inRam p pa n = true ∨ Params.region p pa n ≠ none

/-- A read of one part from `s` gives `v` and leaves `t`: the bytes of RAM, or one logged call of a device, which gives a free
value (20_memory R150, R152; log 15). -/
def PartRead (s : State) (pa n v : Nat) (t : State) : Prop :=
  (Params.inRam s.hw pa n = true ∧ v = bytesAt s.mem pa n ∧ t = s)
  ∨ (Params.inRam s.hw pa n = false ∧ ∃ r, Params.region s.hw pa n = some r
      ∧ v = (Config.deviceData s.draws).toNat % 256 ^ n
      ∧ t = { s with draws := s.draws + 1, devLog := .read r.dev (pa - r.base) n :: s.devLog })

/-- A write of the low `n` bytes of `v` to one part in `s` leaves `t`: those bytes of RAM, or one logged call of a device. -/
def PartWritten (s : State) (pa n v : Nat) (t : State) : Prop :=
  (Params.inRam s.hw pa n = true ∧ BytesStored s.mem t.mem pa n v ∧ t = { s with mem := t.mem })
  ∨ (Params.inRam s.hw pa n = false ∧ ∃ r, Params.region s.hw pa n = some r
      ∧ t = { s with devLog := .write r.dev (pa - r.base) n (v % 256 ^ n) :: s.devLog })

/-- `v` is the value `x` of `n` bytes, sign- or zero-extended (20_memory R146). -/
def Extended {w : Nat} (v : BitVec w) (n x : Nat) (signed : Bool) : Prop :=
  (signed = true → v.toInt = Int.bmod x (256 ^ n)) ∧ (signed = false → v.toNat = x)

/-! ### Steps and encodings -/

/-- In `s` the next step is one of the hart (no external event is due), the hart is not waiting, or wakes, and takes no
interrupt; `t` is the state its fetch begins in (40_fetch_decode R240 actions 1 to 4). -/
structure ReadyToFetch (s t : State) : Prop where
  params : s.hw.wf = true
  quiet  : ∀ e rest, s.inbox ≠ (0, e) :: rest
  awake  : wake ({ s with inbox := tick s.inbox }.sampleTime.compareTime) = some t
  noInt  : t.pendingInt = none

/-- At XLEN `x` the bits raise illegal instruction in every state, with the bits as trap value (30_encoding R220). -/
def RaisesIllegal (x : Xlen) (e : Encoded) : Prop :=
  ∀ s : State, s.xlen = x → decodeStep e s = .stop (.next (s.takeTrap false 2 (e.bits.setWidth 64)))

/-- The same on a machine without an FPU. -/
def RaisesIllegalNoFpu (x : Xlen) (e : Encoded) : Prop :=
  ∀ s : State, s.xlen = x → s.hw.fpuPresent = false →
    decodeStep e s = .stop (.next (s.takeTrap false 2 (e.bits.setWidth 64)))

/-- Bits `lo` to `lo + len - 1` of a word. -/
abbrev field {n : Nat} (w : BitVec n) (lo len : Nat) : BitVec len := w.extractLsb' lo len

/-! ### The forms of loads, stores, atomics and CSR instructions -/

/-- The operands of a load or store of `n` bytes: `reg` is `rd` of a load and `rs2` of a store. -/
structure MemForm where
  len    : Nat
  n      : Nat
  signed : Bool
  reg    : Reg
  rs1    : Reg
  imm    : BitVec 12
  only64 : Bool
deriving DecidableEq, Repr

/-- The loads (43_load_store R343 to R349; 48_compressed R453, R454, R477, R478). -/
def loadForm (i : Instr) : Option MemForm :=
  match i with
  | .lb rd rs1 imm     => some ⟨4, 1, true, rd, rs1, imm, false⟩
  | .lh rd rs1 imm     => some ⟨4, 2, true, rd, rs1, imm, false⟩
  | .lw rd rs1 imm     => some ⟨4, 4, true, rd, rs1, imm, false⟩
  | .lbu rd rs1 imm    => some ⟨4, 1, false, rd, rs1, imm, false⟩
  | .lhu rd rs1 imm    => some ⟨4, 2, false, rd, rs1, imm, false⟩
  | .lwu rd rs1 imm    => some ⟨4, 4, false, rd, rs1, imm, true⟩
  | .ld rd rs1 imm     => some ⟨4, 8, true, rd, rs1, imm, true⟩
  | .cLw rd rs1 uimm   => some ⟨2, 4, true, creg rd, creg rs1, uimm.setWidth 12, false⟩
  | .cLd rd rs1 uimm   => some ⟨2, 8, true, creg rd, creg rs1, uimm.setWidth 12, true⟩
  | .cLwsp rd uimm     => some ⟨2, 4, true, rd, 2#5, uimm.setWidth 12, false⟩
  | .cLdsp rd uimm     => some ⟨2, 8, true, rd, 2#5, uimm.setWidth 12, true⟩
  | _                  => none

/-- The stores (43_load_store R350 to R353; 48_compressed R455, R456, R484, R485). -/
def storeForm (i : Instr) : Option MemForm :=
  match i with
  | .sb rs1 rs2 imm    => some ⟨4, 1, false, rs2, rs1, imm, false⟩
  | .sh rs1 rs2 imm    => some ⟨4, 2, false, rs2, rs1, imm, false⟩
  | .sw rs1 rs2 imm    => some ⟨4, 4, false, rs2, rs1, imm, false⟩
  | .sd rs1 rs2 imm    => some ⟨4, 8, false, rs2, rs1, imm, true⟩
  | .cSw rs1 rs2 uimm  => some ⟨2, 4, false, creg rs2, creg rs1, uimm.setWidth 12, false⟩
  | .cSd rs1 rs2 uimm  => some ⟨2, 8, false, creg rs2, creg rs1, uimm.setWidth 12, true⟩
  | .cSwsp rs2 uimm    => some ⟨2, 4, false, rs2, 2#5, uimm.setWidth 12, false⟩
  | .cSdsp rs2 uimm    => some ⟨2, 8, false, rs2, 2#5, uimm.setWidth 12, true⟩
  | _                  => none

/-- The form exists at the XLEN of the state (30_encoding R227). -/
def widthOk (s : State) (only64 : Bool) : Prop := only64 = true → s.xlen = .x64

/-- The kinds of atomic operation (45_atomics R397 to R415). -/
inductive AmoOp where
  | swap
  | add
  | xor
  | and
  | or
  | min
  | max
  | minu
  | maxu
deriving DecidableEq, Repr

/-- `f(t, s)` of `8 * n` bits, as the rules R398 to R415 give it. -/
def AmoOp.value (o : AmoOp) {w : Nat} (t s : BitVec w) : BitVec w :=
  match o with
  | .swap => s
  | .add  => BitVec.ofNat w (t.toNat + s.toNat)
  | .xor  => t ^^^ s
  | .and  => t &&& s
  | .or   => t ||| s
  | .min  => BitVec.ofInt w (Min.min t.toInt s.toInt)
  | .max  => BitVec.ofInt w (Max.max t.toInt s.toInt)
  | .minu => BitVec.ofNat w (Min.min t.toNat s.toNat)
  | .maxu => BitVec.ofNat w (Max.max t.toNat s.toNat)

/-- The operands of an atomic of `n` bytes. -/
structure AmoForm where
  op  : AmoOp
  n   : Nat
  rd  : Reg
  rs1 : Reg
  rs2 : Reg
deriving DecidableEq, Repr

/-- The eighteen AMO instructions (45_atomics R398 to R415). -/
def amoForm (i : Instr) : Option AmoForm :=
  match i with
  | .amoswapW rd rs1 rs2 _ _ => some ⟨.swap, 4, rd, rs1, rs2⟩
  | .amoaddW rd rs1 rs2 _ _  => some ⟨.add, 4, rd, rs1, rs2⟩
  | .amoxorW rd rs1 rs2 _ _  => some ⟨.xor, 4, rd, rs1, rs2⟩
  | .amoandW rd rs1 rs2 _ _  => some ⟨.and, 4, rd, rs1, rs2⟩
  | .amoorW rd rs1 rs2 _ _   => some ⟨.or, 4, rd, rs1, rs2⟩
  | .amominW rd rs1 rs2 _ _  => some ⟨.min, 4, rd, rs1, rs2⟩
  | .amomaxW rd rs1 rs2 _ _  => some ⟨.max, 4, rd, rs1, rs2⟩
  | .amominuW rd rs1 rs2 _ _ => some ⟨.minu, 4, rd, rs1, rs2⟩
  | .amomaxuW rd rs1 rs2 _ _ => some ⟨.maxu, 4, rd, rs1, rs2⟩
  | .amoswapD rd rs1 rs2 _ _ => some ⟨.swap, 8, rd, rs1, rs2⟩
  | .amoaddD rd rs1 rs2 _ _  => some ⟨.add, 8, rd, rs1, rs2⟩
  | .amoxorD rd rs1 rs2 _ _  => some ⟨.xor, 8, rd, rs1, rs2⟩
  | .amoandD rd rs1 rs2 _ _  => some ⟨.and, 8, rd, rs1, rs2⟩
  | .amoorD rd rs1 rs2 _ _   => some ⟨.or, 8, rd, rs1, rs2⟩
  | .amominD rd rs1 rs2 _ _  => some ⟨.min, 8, rd, rs1, rs2⟩
  | .amomaxD rd rs1 rs2 _ _  => some ⟨.max, 8, rd, rs1, rs2⟩
  | .amominuD rd rs1 rs2 _ _ => some ⟨.minu, 8, rd, rs1, rs2⟩
  | .amomaxuD rd rs1 rs2 _ _ => some ⟨.maxu, 8, rd, rs1, rs2⟩
  | _                        => none

/-- The atomics by access kind, size and address register (45_atomics R392). -/
def atomicForm (i : Instr) : Option (Acc × Nat × Reg) :=
  match i with
  | .lrW _ rs1 _ _   => some (.read, 4, rs1)
  | .lrD _ rs1 _ _   => some (.read, 8, rs1)
  | .scW _ rs1 _ _ _ => some (.write, 4, rs1)
  | .scD _ rs1 _ _ _ => some (.write, 8, rs1)
  | i                => (amoForm i).map fun f => (.write, f.n, f.rs1)

/-- The operands of a CSR instruction. -/
structure CsrForm where
  op      : CsrOp
  rd      : Reg
  csr     : BitVec 12
  operand : Word
deriving DecidableEq, Repr

/-- The six CSR instructions (46_zicsr R420 to R427), the operand zero-extended from XLEN. -/
def csrForm (s : State) (i : Instr) : Option CsrForm :=
  match i with
  | .csrrw rd csr rs1   => some ⟨.swap, rd, csr, (s.x s.xw rs1).setWidth 64⟩
  | .csrrs rd csr rs1   => some ⟨.setBits, rd, csr, (s.x s.xw rs1).setWidth 64⟩
  | .csrrc rd csr rs1   => some ⟨.clearBits, rd, csr, (s.x s.xw rs1).setWidth 64⟩
  | .csrrwi rd csr uimm => some ⟨.swap, rd, csr, uimm.setWidth 64⟩
  | .csrrsi rd csr uimm => some ⟨.setBits, rd, csr, uimm.setWidth 64⟩
  | .csrrci rd csr uimm => some ⟨.clearBits, rd, csr, uimm.setWidth 64⟩
  | _                   => none

/-- The rule of the CSR lets it be accessed (15_csr R106, R110, R112, R117, R118). -/
def csrOpen (s : State) (c : Csr) : Prop :=
  match c with
  | .fflags | .frm | .fcsr  => s.hw.fpuPresent = true ∧ stFs s.csr.status ≠ 0#2
  | .seed                   => (s.priv = .S → s.csr.mseccfg.getLsbD 9 = true) ∧ (s.priv = .U → s.csr.mseccfg.getLsbD 8 = true)
  | .satp                   => stTvm s.csr.status = false
  | .stimecmp | .stimecmph  => s.csr.m.envcfg.getLsbD 63 = true
  | .time | .timeh          =>
    (s.priv ≠ .M → s.csr.m.counteren.getLsbD 1 = true) ∧ (s.priv = .U → s.csr.s.counteren.getLsbD 1 = true)
  | _                       => True

/-- A CSR instruction in the form `f` completes from `s` in `t`: the old value `old` goes to `rd`, and the CSR's own
effects leave `u`. -/
def CsrDone (s : State) (i : Instr) (f : CsrForm) (old : Word) (u : State) : Prop :=
  ∃ t, exec i s = .next t ∧ Retires s u t 4 f.rd (old.setWidth s.xw)

/-! ### Invariants -/

/-- Memory is in its canonical form and lists only bytes of the RAM window (20_memory R150). -/
structure MemInv (s : State) : Prop where
  canonical : Memory.wf s.mem
  inWindow  : ∀ c ∈ s.mem, Params.inRam s.hw c.1 1 = true

/-- The entry is of a page wholly in RAM and has at least one permission (20_memory R172, R174). -/
structure EntryOk (p : Params) (e : TlbEntry) : Prop where
  ram   : Params.inRam p (e.ppn.toNat * 4096) 4096 = true
  perms : e.r = true ∨ e.w = true ∨ e.x = true

/-- The TLB holds at most one entry per slot, each in the slot of its page, each of a page of RAM, each with at least one
permission (20_memory R172, R174); so were those that have lost their slot. -/
structure TlbInv (s : State) : Prop where
  sorted : assocSorted s.tlb.slots
  slot   : ∀ p ∈ s.tlb.slots, p.1 = p.2.vpn.toNat % 2 ^ s.hw.tlbBits
  held   : ∀ p ∈ s.tlb.slots, EntryOk s.hw p.2
  gone   : ∀ e ∈ s.tlb.gone, EntryOk s.hw e

/-- The pc is even, and so is every address a return loads it from (10_state R27, 15_csr R96). -/
structure PcInv (s : State) : Prop where
  pc   : s.pc.getLsbD 0 = false
  mepc : s.csr.m.epc.getLsbD 0 = false
  sepc : s.csr.s.epc.getLsbD 0 = false

/-- The status word is legal: MPP is a mode, VS is off, XS is FS, FS is off without an FPU, UXL and SXL are widths when
MAXLEN is 64, and the reserved bits are 0 (15_csr R70, R71). -/
structure StatusInv (s : State) : Prop where
  mpp      : stMpp s.csr.status ≠ 2#2
  vs       : stVs s.csr.status = 0#2
  xs       : stXs s.csr.status = stFs s.csr.status
  fs       : s.hw.fpuPresent = false → stFs s.csr.status = 0#2
  uxl      : s.hw.rv64 = true → stUxl s.csr.status = 1#2 ∨ stUxl s.csr.status = 2#2
  dirty    : s.hw.fpuPresent = true → s.hw.preciseFs = false → stFs s.csr.status = 0#2 ∨ stFs s.csr.status = 3#2
  sxl      : s.hw.rv64 = true → stSxl s.csr.status = 1#2 ∨ stSxl s.csr.status = 2#2
  reserved : s.csr.status &&& ~~~(mstatusWm s.hw.rv64 ||| 0x18000#64) = 0#64

/-- The bits of the CSR bank that read as 0 are 0, and what cannot change has not changed (15_csr R80, R81, R84, R85,
R88, R89, R101 to R103; 10_state R33, R35). -/
structure BankInv (s : State) : Prop where
  ie       : s.csr.ie &&& ~~~0xAAA#12 = 0#12
  ip       : s.csr.ip &&& ~~~0xAAA#12 = 0#12
  irq      : s.irqPending &&& ~~~0xAAA#12 = 0#12
  medeleg  : s.csr.medeleg &&& ~~~0xB3FF#16 = 0#16
  mideleg  : s.csr.mideleg &&& ~~~0x222#12 = 0#12
  menvcfg  : s.csr.m.envcfg &&& ~~~0x8000000000000000#64 = 0#64
  senvcfg  : s.csr.s.envcfg = 0#64
  mseccfg  : s.csr.mseccfg &&& ~~~0x300#64 = 0#64
  misaExt  : s.csr.misaExt = 0x141105#26
  mxl      : s.hw.rv64 = false → s.csr.mxl = .x32
  root     : s.rootPageTable.toNat % 4096 = 0
  mmu      : s.hw.rv64 = false → s.mmuMode = .bare ∨ s.mmuMode = .sv32

/-- A reservation is a naturally aligned word or doubleword of RAM (10_state R38, 45_atomics R392). -/
def ReservationInv (s : State) : Prop :=
  ∀ r, s.reservation = some r →
    (r.n = 4 ∨ r.n = 8) ∧ r.pa % r.n = 0 ∧ Params.inRam s.hw r.pa r.n = true

/-- `x0` is 0 (10_state R22). -/
def X0Inv (s : State) : Prop := s.regs.get 0 = 0#64

/-- All of them, on a machine of 00_scope R7. -/
structure Inv (s : State) : Prop where
  params      : s.hw.wf = true
  mem         : MemInv s
  tlb         : TlbInv s
  pc          : PcInv s
  status      : StatusInv s
  bank        : BankInv s
  reservation : ReservationInv s
  x0          : X0Inv s

end Sys2Proof.Machine
end

