-- ==== Sys2Proof/Certificates/Slice0/Obligations.lean ====
section
/-! DEFINITION. The statements for the provers. -/

open Sys2Proof Sys2Proof.Machine

/-! ### Encoding -/

/-- Decoding the encoding of a well-formed instruction gives it back, at every value its operands can take; so do its
bytes in memory, which are read as that instruction and leave what comes after them (30_encoding R200; 20_memory R142). -/
def Obligations.DecodeOfEncode : Prop :=
  ∀ (x : Xlen) (i : Instr), i.wf x = true →
    decode x (encode i) = .ok i
    ∧ ∀ rest : List Byte, decodeBytes x ((encode i).bytes ++ rest) = .ok (i, rest)

/-- Every word that decodes is the encoding of the well-formed instruction it decodes to: no two words are one
instruction, and no bit of an accepted word is dropped. -/
def Obligations.DecodedWordIsEncoding : Prop :=
  ∀ (x : Xlen) (e : Encoded) (i : Instr), decode x e = .ok i → i.wf x = true ∧ encode i = e

/-- Words the spec writes out, one for each family (41 to 48, 96). -/
def Obligations.DecodedWords : Prop :=
  decode .x64 (.c32 0x123452B7#32) = .ok (.lui 5#5 0x12345#20)
  ∧ decode .x32 (.c32 0xFFF00093#32) = .ok (.addi 1#5 0#5 0xFFF#12)
  ∧ decode .x64 (.c32 0x43F35293#32) = .ok (.srai 5#5 6#5 63#6)
  ∧ decode .x64 (.c32 0x407302BB#32) = .ok (.subw 5#5 6#5 7#5)
  ∧ decode .x64 (.c32 0xFFDFF06F#32) = .ok (.jal 0#5 0x1FFFFC#21)
  ∧ decode .x64 (.c32 0xFE731CE3#32) = .ok (.bne 6#5 7#5 0x1FF8#13)
  ∧ decode .x64 (.c32 0xFE732E23#32) = .ok (.sw 6#5 7#5 0xFFC#12)
  ∧ decode .x32 (.c32 0x00836283#32) = .error .wrongXlen
  ∧ decode .x64 (.c32 0x027322B3#32) = .ok (.mulhsu 5#5 6#5 7#5)
  ∧ decode .x64 (.c32 0x160332AF#32) = .ok (.lrD 5#5 6#5 true true)
  ∧ decode .x64 (.c32 0x300332F3#32) = .ok (.csrrc 5#5 0x300#12 6#5)
  ∧ decode .x64 (.c32 0x12730073#32) = .ok (.sfenceVma 6#5 7#5)
  ∧ decode .x64 (.c16 0x1FE8#16) = .ok (.cAddi4spn 2#3 1020#10)
  ∧ decode .x64 (.c16 0x5DE8#16) = .ok (.cLw 2#3 3#3 124#7)

/-- The reserved encodings, and `0x0000`, `0xFFFFFFFF`, the custom opcodes and the opcodes that hold no instruction,
raise illegal instruction in every state (30_encoding R220 to R222, R224, R225). -/
def Obligations.ReservedEncodings : Prop :=
  (∀ (x : Xlen) (w : BitVec 32), field w 0 7 = 0x13#7 → field w 12 3 = 1#3 → field w 26 6 ≠ 0#6 →
      RaisesIllegal x (.c32 w))
  ∧ (∀ (x : Xlen) (w : BitVec 32), field w 0 7 = 0x13#7 → field w 12 3 = 5#3 → field w 26 6 ≠ 0#6 →
      field w 26 6 ≠ 16#6 → RaisesIllegal x (.c32 w))
  ∧ (∀ w : BitVec 32, field w 0 7 = 0x13#7 → field w 12 3 = 1#3 ∨ field w 12 3 = 5#3 → w.getLsbD 25 = true →
      RaisesIllegal .x32 (.c32 w))
  ∧ (∀ (x : Xlen) (w : BitVec 32), field w 0 7 = 0x1B#7 → field w 12 3 = 1#3 → field w 25 7 ≠ 0#7 →
      RaisesIllegal x (.c32 w))
  ∧ (∀ (x : Xlen) (w : BitVec 32), field w 0 7 = 0x1B#7 → field w 12 3 = 5#3 → field w 25 7 ≠ 0#7 →
      field w 25 7 ≠ 32#7 → RaisesIllegal x (.c32 w))
  ∧ (∀ (x : Xlen) (w : BitVec 32), field w 0 7 = 0x2F#7 → field w 12 3 = 2#3 ∨ field w 12 3 = 3#3 →
      field w 27 5 = 2#5 → field w 20 5 ≠ 0#5 → RaisesIllegal x (.c32 w))
  ∧ (∀ (x : Xlen) (w : BitVec 16), field w 0 2 = 0#2 → field w 13 3 = 0#3 → field w 5 8 = 0#8 →
      RaisesIllegal x (.c16 w))
  ∧ (∀ (x : Xlen) (w : BitVec 16), field w 0 2 = 1#2 → field w 13 3 = 3#3 → w.getLsbD 12 = false →
      field w 2 5 = 0#5 → field w 7 5 ≠ 0#5 → RaisesIllegal x (.c16 w))
  ∧ (∀ (x : Xlen) (w : BitVec 16), field w 0 2 = 2#2 → field w 13 3 = 2#3 → field w 7 5 = 0#5 →
      RaisesIllegal x (.c16 w))
  ∧ (∀ w : BitVec 16, field w 0 2 = 2#2 → field w 13 3 = 3#3 → field w 7 5 = 0#5 → RaisesIllegal .x64 (.c16 w))
  ∧ (∀ (x : Xlen) (w : BitVec 16), field w 0 2 = 2#2 → field w 12 4 = 8#4 → field w 2 10 = 0#10 →
      RaisesIllegal x (.c16 w))
  ∧ (∀ w : BitVec 16, field w 0 2 = 1#2 → field w 13 3 = 1#3 → field w 7 5 = 0#5 → RaisesIllegal .x64 (.c16 w))
  ∧ (∀ w : BitVec 16, field w 0 2 = 2#2 → field w 13 3 = 0#3 → w.getLsbD 12 = true → RaisesIllegal .x32 (.c16 w))
  ∧ (∀ w : BitVec 16, field w 0 2 = 1#2 → field w 13 3 = 4#3 → w.getLsbD 11 = false → w.getLsbD 12 = true →
      RaisesIllegal .x32 (.c16 w))
  ∧ (∀ (x : Xlen) (w : BitVec 16), field w 0 2 = 0#2 → field w 13 3 = 4#3 → RaisesIllegal x (.c16 w))
  ∧ (∀ (x : Xlen) (w : BitVec 16), field w 0 2 = 1#2 → field w 13 3 = 4#3 → field w 10 3 = 7#3 →
      w.getLsbD 6 = true → RaisesIllegal x (.c16 w))
  ∧ (∀ x : Xlen, RaisesIllegal x (.c16 0x0000#16) ∧ RaisesIllegal x (.c32 0xFFFFFFFF#32))
  ∧ (∀ (x : Xlen) (w : BitVec 32), field w 0 7 ∈ [0x0B#7, 0x2B#7, 0x5B#7, 0x7B#7, 0x57#7, 0x6B#7, 0x77#7, 0x1F#7, 0x3F#7, 0x5F#7, 0x7F#7] →
      RaisesIllegal x (.c32 w))

/-- The floating-point encodings raise illegal instruction without an FPU, and are refused with one, as the spec asks of
a model (30_encoding R226). -/
def Obligations.FloatingPointEncodings : Prop :=
  ∀ (x : Xlen) (e : Encoded),
    ((∃ w : BitVec 32, e = .c32 w ∧ field w 0 7 ∈ [0x07#7, 0x27#7, 0x43#7, 0x47#7, 0x4B#7, 0x4F#7, 0x53#7])
      ∨ (∃ w : BitVec 16, e = .c16 w ∧ (field w 0 2 = 0#2 ∨ field w 0 2 = 2#2) ∧
          (field w 13 3 ∈ [1#3, 5#3] ∨ (x = .x32 ∧ field w 13 3 ∈ [3#3, 7#3])))) →
    RaisesIllegalNoFpu x e
    ∧ ∀ s : State, s.xlen = x → s.hw.fpuPresent = true → decodeStep e s = .stop (.refused .floatingPoint)

/-- The instructions of XLEN = 64 only, and a shift amount above 31: when XLEN is 32 the fetched word raises illegal instruction
with its bits as trap value on a machine without an FPU (some of the words are floating-point encodings there), except that
the word of `C.ADDIW` is `C.JAL`; and the instruction, if it is executed all the same, raises it too (the model's own reading,
log 12) (30_encoding R222, R227; 48_compressed R459, R460). -/
def Obligations.OnlyAtXlen64 : Prop :=
  ∀ i : Instr, i.wf .x64 = true → i.wf .x32 = false →
    ((∀ rd imm, i ≠ .cAddiw rd imm) → RaisesIllegalNoFpu .x32 (encode i))
    ∧ (∀ rd imm, i = .cAddiw rd imm → ∃ offset, decode .x32 (encode i) = .ok (.cJal offset))
    ∧ ∀ s : State, s.xlen = .x32 →
        exec i s = .next (s.takeTrap false 2 ((encode i).bits.setWidth 64))

/-! ### The step -/

/-- When the bytes at the pc decode to `i`, the step runs `i`. `t` is the state after time, waiting and interrupts have been
looked at, `u` the state after the translation of the fetch. A 32-bit instruction whose halves lie in two pages is read
through two translations, the second leaving `v` (40_fetch_decode R240, R241). -/
def Obligations.StepRunsDecoded : Prop :=
  ∀ (s t u : State) (pa : Nat) (i : Instr), ReadyToFetch s t → translate .exec t.vpc t = .ok pa u →
    (∀ e : Encoded, pageOff t.vpc + e.len ≤ 4096 → Params.inRam u.hw pa e.len = true →
      (∀ k, k < e.len → e.bytes[k]? = some (u.mem.readByte (pa + k))) →
      decode u.xlen e = .ok i → step s = exec i u)
    ∧ (∀ (v : State) (pa' : Nat) (w : BitVec 32), pageOff t.vpc = 4094 → Params.inRam u.hw pa 2 = true →
      translate .exec (t.vaPlus t.vpc 2) u = .ok pa' v → Params.inRam v.hw pa' 2 = true →
      bytesAt u.mem pa 2 = w.toNat % 65536 → bytesAt v.mem pa' 2 = w.toNat / 65536 →
      decode v.xlen (.c32 w) = .ok i → step s = exec i v)

/-- On a machine of 00_scope R7 without an FPU no state stops: every step answers a next state, because every error is a
trap (60_exceptions R545: "All guest-observable errors are delivered via `trap()`"). -/
def Obligations.StepNeverStops : Prop :=
  ∀ s : State, s.hw.wf = true → s.hw.fpuPresent = false → ∃ t, step s = .next t

/-- Bits that are no instruction trap to the illegal-instruction handler with the bits as trap value, the pc not advanced
(30_encoding R220, 40_fetch_decode R240). -/
def Obligations.StepIllegalInstruction : Prop :=
  ∀ (s t u : State) (e : Encoded) (r : Reject), ReadyToFetch s t → fetch t = .ok e u →
    decode u.xlen e = .error r → r ≠ .floatingPoint ∨ u.hw.fpuPresent = false →
    step s = .next (u.takeTrap false 2 (e.bits.setWidth 64))

/-- A fetch that does not translate, or not to RAM, traps with the address of the halfword that failed (40_fetch_decode
R241, 60_exceptions R520). -/
def Obligations.FetchFaults : Prop :=
  ∀ (s t : State), ReadyToFetch s t →
    (∀ (x : Exc) (tv : Word) (u : State), translate .exec t.vpc t = .exc x tv u →
        (x = .instrPageFault ∨ x = .instrAccessFault) ∧ step s = .next (t.takeTrap false x.code t.vpc))
    ∧ (∀ (pa : Nat) (u : State), translate .exec t.vpc t = .ok pa u → Params.inRam u.hw pa 2 = false →
        step s = .next (u.takeTrap false 1 t.vpc))
    ∧ (∀ (pa pa' : Nat) (u v : State), translate .exec t.vpc t = .ok pa u → Params.inRam u.hw pa 2 = true →
        bytesAt u.mem pa 2 % 4 = 3 → pageOff t.vpc = 4094 → translate .exec (t.vaPlus t.vpc 2) u = .ok pa' v →
        Params.inRam v.hw pa' 2 = false → step s = .next (v.takeTrap false 1 (t.vaPlus t.vpc 2)))
    ∧ (∀ (pa : Nat) (u v : State) (x : Exc) (tv : Word), translate .exec t.vpc t = .ok pa u →
        Params.inRam u.hw pa 2 = true → bytesAt u.mem pa 2 % 4 = 3 → pageOff t.vpc = 4094 →
        translate .exec (t.vaPlus t.vpc 2) u = .exc x tv v →
        step s = .next (u.takeTrap false x.code (t.vaPlus t.vpc 2)))

/-- The interrupt check: which interrupt is taken, if any, before the fetch, and to which mode (60_exceptions R543, R544).
`cand c` is the candidate bit `c`. -/
def Obligations.InterruptCheck : Prop :=
  ∀ (s t : State), s.hw.wf = true → (∀ e rest, s.inbox ≠ (0, e) :: rest) →
    wake ({ s with inbox := tick s.inbox }.sampleTime.compareTime) = some t →
    ∀ cand : Nat → Bool,
    (∀ c, cand c = (decide (c ∈ [1, 3, 5, 7, 9, 11])
        && (t.csr.ip.getLsbD c || t.irqPending.getLsbD c) && t.csr.ie.getLsbD c
        && (if t.csr.mideleg.getLsbD c
            then decide (t.priv = .U) || (decide (t.priv = .S) && t.csr.status.getLsbD 1)
            else decide (t.priv ≠ .M) || t.csr.status.getLsbD 3))) →
    ((∀ c, cand c = false) → t.pendingInt = none)
    ∧ (∀ c, cand c = true → (∀ d, d ∈ ([11, 3, 7, 9, 1, 5].takeWhile (· ≠ c)) → cand d = false) →
        step s = .next (t.takeTrap true c 0#64)
        ∧ (t.takeTrap true c 0#64).priv = if t.csr.mideleg.getLsbD c then .S else .M)

/-- A waiting hart: with an interrupt pending and enabled in `ie` it goes on, whatever the global enables; otherwise the
step leaves everything but time, the comparator's bit, the schedule of events and the count of free values as it was,
unless it wakes for no reason, a free value of the model (log 5) (47_system R436, 40_fetch_decode R240 action 2). -/
def Obligations.WaitRule : Prop :=
  ∀ (s t : State), s.hw.wf = true → (∀ e rest, s.inbox ≠ (0, e) :: rest) → s.waiting = true →
    t = { s with inbox := tick s.inbox }.sampleTime.compareTime →
    t = { s with inbox := t.inbox, time := t.time, irqPending := t.irqPending, draws := t.draws }
    ∧ ((t.csr.ip ||| t.irqPending) &&& t.csr.ie ≠ 0#12 → wake t = some { t with waiting := false })
    ∧ ((t.csr.ip ||| t.irqPending) &&& t.csr.ie = 0#12 →
        (Config.spuriousWake t.draws = false ∧ step s = .next t)
        ∨ (Config.spuriousWake t.draws = true ∧ wake t = some { t with waiting := false, draws := t.draws + 1 }))

/-- `time` never decreases, at any step (60_exceptions R560, 70_reset_and_hazards R600); and at a step of the hart the
comparator's interrupt is pending from `time >= stimecmp` on while STCE is set, and `irq_pending` is left alone while it is
not (R561; that it is posted without delay is the model's, log 7). -/
def Obligations.TimeAndComparator : Prop :=
  (∀ s t : State, step s = .next t → s.time.toNat ≤ t.time.toNat)
  ∧ ∀ s : State,
      (s.csr.m.envcfg.getLsbD 63 = true → s.stimecmp.toNat ≤ s.sampleTime.time.toNat →
        s.sampleTime.compareTime.irqPending = s.irqPending ||| 0x020#12)
      ∧ (s.csr.m.envcfg.getLsbD 63 = false ∨ s.sampleTime.time.toNat < s.stimecmp.toNat →
        s.sampleTime.compareTime.irqPending = s.irqPending)

/-- The events from outside: a post sets and a clear clears exactly its bit of `irq_pending`; a break changes nothing; a
write of RAM by another agent stores its bytes and ends a reservation exactly if it overlaps it (60_exceptions R540,
40_fetch_decode R247, 45_atomics R394). That each is a step of its own is the model's (log 8). -/
def Obligations.ExternalEvents : Prop :=
  ∀ (s : State) (rest : List (Nat × Event)), s.hw.wf = true →
    (∀ c : IntCause, s.inbox = (0, .post c) :: rest →
      ∃ t, step s = .next t ∧ t = { s with inbox := rest, irqPending := t.irqPending }
        ∧ ∀ b, b < 12 → t.irqPending.getLsbD b = (decide (b = c.code) || s.irqPending.getLsbD b))
    ∧ (∀ c : IntCause, s.inbox = (0, .clear c) :: rest →
      ∃ t, step s = .next t ∧ t = { s with inbox := rest, irqPending := t.irqPending }
        ∧ ∀ b, b < 12 → t.irqPending.getLsbD b = (decide (b ≠ c.code) && s.irqPending.getLsbD b))
    ∧ (s.inbox = (0, .brk) :: rest → step s = .next { s with inbox := rest })
    ∧ (∀ (pa : Nat) (bytes : List Byte), s.inbox = (0, .ramWrite pa bytes) :: rest →
      Params.inRam s.hw pa bytes.length = true →
      ∃ t, step s = .next t ∧ t = { s with inbox := rest, mem := t.mem, reservation := t.reservation }
        ∧ (∀ a, t.mem.readByte a = if pa ≤ a ∧ a < pa + bytes.length then bytes.getD (a - pa) 0#8 else s.mem.readByte a)
        ∧ (∀ r, t.reservation = some r ↔
            s.reservation = some r ∧ (pa + bytes.length ≤ r.pa ∨ r.pa + r.n ≤ pa)))

/-! ### Whole-machine rules -/

/-- Only `MRET` and `SRET` lower the privilege mode (47_system R433: "They are the only way `priv` decreases"). -/
def Obligations.OnlyReturnsLowerPrivilege : Prop :=
  ∀ (i : Instr) (s t : State), exec i s = .next t → t.priv.toNat < s.priv.toNat → i = .mret ∨ i = .sret

/-- A program in user mode that takes no trap changes no control state: no CSR, no translation root or mode, no comparator,
no pending interrupt (15_csr R61, 60_exceptions R546, R555). -/
def Obligations.UserModeIsolation : Prop :=
  ∀ (i : Instr) (s t : State), s.hw.fpuPresent = false → s.priv = .U → exec i s = .next t → t.priv = .U →
    t.csr = s.csr ∧ t.mmuMode = s.mmuMode ∧ t.rootPageTable = s.rootPageTable ∧ t.stimecmp = s.stimecmp
    ∧ t.irqPending = s.irqPending ∧ t.inbox = s.inbox ∧ t.hw = s.hw

/-- Every change of the privilege mode, of MPP, MPRV, SUM or MXR, of paging on or off, and of MXL leaves the TLB empty
(20_memory R179). -/
def Obligations.TlbFlushPoints : Prop :=
  ∀ (i : Instr) (s t : State), exec i s = .next t →
    (t.priv ≠ s.priv ∨ stMpp t.csr.status ≠ stMpp s.csr.status ∨ stMprv t.csr.status ≠ stMprv s.csr.status
      ∨ stSum t.csr.status ≠ stSum s.csr.status ∨ stMxr t.csr.status ≠ stMxr s.csr.status
      ∨ (t.mmuMode = .bare ↔ s.mmuMode ≠ .bare) ∨ t.csr.mxl ≠ s.csr.mxl) →
    t.tlb = Tlb.empty

/-! ### Invariants -/

/-- Memory keeps its canonical form and lists no byte outside RAM, and the TLB keeps one entry per slot, each in its slot,
each of a page wholly in RAM, as were those that have lost their slot (20_memory R150, R172, R174; log 26). -/
def Obligations.MemoryAndTlbInvariant : Prop :=
  (∀ s t : State, MemInv s → step s = .next t → MemInv t) ∧ ∀ s t : State, TlbInv s → step s = .next t → TlbInv t

/-- "Every value the hardware writes to `pc` has bit 0 clear" (10_state R27). -/
def Obligations.PcInvariant : Prop := ∀ s t : State, PcInv s → step s = .next t → PcInv t

/-- The status word stays legal (15_csr R70, R71). -/
def Obligations.StatusInvariant : Prop := ∀ s t : State, StatusInv s → step s = .next t → StatusInv t

/-- `x0` stays 0, a reservation stays an aligned word or doubleword of RAM, the reserved bits of the bank stay 0, and the
parameters do not change. -/
def Obligations.BankInvariant : Prop :=
  ∀ s t : State, BankInv s → ReservationInv s → X0Inv s → step s = .next t →
    BankInv t ∧ ReservationInv t ∧ X0Inv t ∧ t.hw = s.hw

/-- Reset, on every machine of 00_scope R7: the values of 10_state R45 and R46. -/
def Obligations.ResetValues : Prop :=
  ∀ (p : Params) (s : State), p.wf = true → s = State.resetOf p →
    s.x 64 0#5 = 0#64 ∧ (∀ i : Reg, i ≠ 0#5 → s.regs.get i.toFin = p.resetRegs.get i.toFin)
    ∧ s.pc = p.resetPc ∧ s.priv = .M ∧ s.xlen = (if p.rv64 then .x64 else .x32)
    ∧ s.mmuMode = .bare ∧ s.rootPageTable = 0#56 ∧ s.tlb = Tlb.empty ∧ s.irqPending = 0#12
    ∧ s.stimecmp = 0xFFFFFFFFFFFFFFFF#64 ∧ s.reservation = none ∧ s.waiting = false ∧ s.fpAccrued = 0#5
    ∧ s.csr.status = (if p.rv64 then 0x0000000A00000000#64 else 0#64)
    ∧ s.csr.mxl = (if p.rv64 then .x64 else .x32) ∧ s.csr.misaExt = 0x141105#26
    ∧ s.csr.ie = 0#12 ∧ s.csr.ip = 0#12 ∧ s.csr.medeleg = 0#16 ∧ s.csr.mideleg = 0#12
    ∧ (∀ l : Lvl, s.csr.at l =
        { tvec := 0#64, scratch := 0#64, epc := 0#64, causeInt := false, causeCode := 0#63, tval := 0#64,
          counteren := 0#32, envcfg := 0#64 })
    ∧ s.csr.mseccfg = 0#64 ∧ s.hw.hartId = p.hartId ∧ s.csr.fcsr = 0#8

/-- The invariants hold after reset, on every machine of 00_scope R7 and in `State.reset`. -/
def Obligations.ResetMeetsInvariants : Prop :=
  Inv State.reset ∧ ∀ p : Params, p.wf = true → Inv (State.resetOf p)

/-! ### Traps -/

/-- Which mode a trap goes to: S if it is raised in S or U and its bit of the delegation register of M is set, else M;
never to a mode below the current one, never to U (60_exceptions R546). -/
def Obligations.TrapTarget : Prop :=
  ∀ (s : State) (int : Bool) (code : Nat) (tval : Word),
    let d := if int then s.csr.mideleg.getLsbD code else s.csr.medeleg.getLsbD code
    let T := (s.takeTrap int code tval).priv
    (s.priv ≠ .M ∧ d = true → T = .S) ∧ (s.priv = .M ∨ d = false → T = .M)
    ∧ s.priv.toNat ≤ T.toNat ∧ T ≠ .U

/-- What a trap saves and changes (60_exceptions R547); the new mode is that of R546. The last clauses are the frame: no
register, no byte of memory, nothing of the other level, no other bit of the status. -/
def Obligations.TrapEntry : Prop :=
  ∀ (s t : State) (int : Bool) (code : Nat) (tval : Word), StatusInv s → t = s.takeTrap int code tval →
    (t.priv = if s.priv ≠ .M ∧ (if int then s.csr.mideleg.getLsbD code else s.csr.medeleg.getLsbD code) = true
      then .S else .M)
    ∧ (t.priv = .M →
      t.csr.m = { s.csr.m with epc := s.vpc, causeInt := int, causeCode := BitVec.ofNat 63 code, tval := tval }
      ∧ t.csr = { s.csr with status := t.csr.status, m := t.csr.m }
      ∧ stMpp t.csr.status = s.priv.code ∧ stMpie t.csr.status = stMie s.csr.status ∧ stMie t.csr.status = false
      ∧ (∀ b, b ∉ [3, 7, 11, 12] → t.csr.status.getLsbD b = s.csr.status.getLsbD b))
    ∧ (t.priv = .S →
      t.csr.s = { s.csr.s with epc := s.vpc, causeInt := int, causeCode := BitVec.ofNat 63 code, tval := tval }
      ∧ t.csr = { s.csr with status := t.csr.status, s := t.csr.s }
      ∧ stSpp t.csr.status = decide (s.priv = .S) ∧ stSpie t.csr.status = stSie s.csr.status
      ∧ stSie t.csr.status = false
      ∧ (∀ b, b ∉ [1, 5, 8] → t.csr.status.getLsbD b = s.csr.status.getLsbD b))
    ∧ (t.tlb = if t.priv ≠ s.priv ∨ stMpp t.csr.status ≠ stMpp s.csr.status then Tlb.empty else s.tlb)
    ∧ SameBytes s t
    ∧ t = { s with csr := t.csr, priv := t.priv, tlb := t.tlb, pc := t.pc }

/-- Where control goes: the base of the trap vector, or for an interrupt in vectored mode `base + 4 * code`, cut to the
XLEN of the mode the trap goes to (60_exceptions R548). -/
def Obligations.TrapVector : Prop :=
  ∀ (s t : State) (int : Bool) (code : Nat) (tval : Word) (tvec : Word), t = s.takeTrap int code tval →
    (t.priv = .M → tvec = s.csr.m.tvec) → (t.priv = .S → tvec = s.csr.s.tvec) →
    t.pc.toNat =
      (if int = true ∧ tvec.getLsbD 0 = true then tvec.toNat / 4 * 4 + 4 * code else tvec.toNat / 4 * 4)
        % 2 ^ t.xw

/-- `MRET` (47_system R434), its word, its effect in M and its trap below M. -/
def Obligations.Mret : Prop :=
  (∀ x, decode x (.c32 0x30200073#32) = .ok .mret)
  ∧ (∀ s : State, s.priv ≠ .M → exec .mret s = .next (s.takeTrap false 2 0x30200073#64))
  ∧ ∀ s : State, s.priv = .M → StatusInv s → ∃ t, exec .mret s = .next t
      ∧ t.priv.code = stMpp s.csr.status
      ∧ stMie t.csr.status = stMpie s.csr.status ∧ stMpie t.csr.status = true ∧ stMpp t.csr.status = 0#2
      ∧ stMprv t.csr.status = (if t.priv = .M then stMprv s.csr.status else false)
      ∧ (∀ b, b ∉ [3, 7, 11, 12, 17] → t.csr.status.getLsbD b = s.csr.status.getLsbD b)
      ∧ t.pc.toNat = s.csr.m.epc.toNat % 2 ^ t.xw
      ∧ t.tlb = Tlb.empty ∧ SameBytes s t
      ∧ t = { s with csr := { s.csr with status := t.csr.status }, priv := t.priv, pc := t.pc, tlb := t.tlb }

/-- `SRET` (47_system R435), its word, its effect in S and M and its trap in U and, with TSR, in S. -/
def Obligations.Sret : Prop :=
  (∀ x, decode x (.c32 0x10200073#32) = .ok .sret)
  ∧ (∀ s : State, s.priv = .U ∨ (s.priv = .S ∧ stTsr s.csr.status = true) →
      exec .sret s = .next (s.takeTrap false 2 0x10200073#64))
  ∧ ∀ s : State, s.priv = .M ∨ (s.priv = .S ∧ stTsr s.csr.status = false) → StatusInv s → ∃ t, exec .sret s = .next t
      ∧ t.priv = (if stSpp s.csr.status = true then .S else .U)
      ∧ stSie t.csr.status = stSpie s.csr.status ∧ stSpie t.csr.status = true ∧ stSpp t.csr.status = false
      ∧ stMprv t.csr.status = false
      ∧ (∀ b, b ∉ [1, 5, 8, 17] → t.csr.status.getLsbD b = s.csr.status.getLsbD b)
      ∧ t.pc.toNat = s.csr.s.epc.toNat % 2 ^ t.xw
      ∧ (t.tlb = if t.priv ≠ s.priv ∨ stMprv s.csr.status = true then Tlb.empty else s.tlb)
      ∧ SameBytes s t
      ∧ t = { s with csr := { s.csr with status := t.csr.status }, priv := t.priv, pc := t.pc, tlb := t.tlb }

/-- `ECALL`, `EBREAK` and `C.EBREAK` take their exception: the cause by the mode, trap value 0, the address of the
instruction itself saved in the mode that takes it, no register and no byte of memory changed (47_system R431, R432;
48_compressed R481). -/
def Obligations.EnvironmentCallAndBreakpoint : Prop :=
  ∀ (i : Instr) (s : State) (code : Nat),
    (i = .ecall ∧ code = (match s.priv with | .U => 8 | .S => 9 | .M => 11))
      ∨ (i = .ebreak ∨ i = .cEbreak) ∧ code = 3 →
    ∃ t, exec i s = .next t ∧ t = s.takeTrap false code 0#64
      ∧ (t.priv = .M → t.csr.m.epc = s.vpc ∧ t.csr.m.causeInt = false ∧ t.csr.m.causeCode.toNat = code
          ∧ t.csr.m.tval = 0#64 ∧ t.csr.s = s.csr.s)
      ∧ (t.priv = .S → t.csr.s.epc = s.vpc ∧ t.csr.s.causeInt = false ∧ t.csr.s.causeCode.toNat = code
          ∧ t.csr.s.tval = 0#64 ∧ t.csr.m = s.csr.m)
      ∧ t.regs = s.regs ∧ SameBytes s t

/-- `WFI` and `SFENCE.VMA`: where they trap, and what they do elsewhere: set `waiting`, empty the TLB whatever the
operands hold, and nothing else (47_system R436, R437). -/
def Obligations.WaitAndTranslationFence : Prop :=
  ∀ s : State,
    (s.priv ≠ .M ∧ stTw s.csr.status = true → exec .wfi s = .next (s.takeTrap false 2 0x10500073#64))
    ∧ (s.priv = .M ∨ stTw s.csr.status = false →
        ∃ t, exec .wfi s = .next t ∧ Goes { s with waiting := true } t (s.vpc.toNat + 4))
    ∧ ∀ rs1 rs2 : Reg,
        (s.priv = .U ∨ (s.priv = .S ∧ stTvm s.csr.status = true) →
          exec (.sfenceVma rs1 rs2) s =
            .next (s.takeTrap false 2 ((encode (.sfenceVma rs1 rs2)).bits.setWidth 64)))
        ∧ (s.priv = .M ∨ (s.priv = .S ∧ stTvm s.csr.status = false) →
          ∃ t, exec (.sfenceVma rs1 rs2) s = .next t ∧ Goes { s with tlb := Tlb.empty } t (s.vpc.toNat + 4))

/-! ### Integer computation -/

/-- `LUI`, `AUIPC`, `C.LUI`, `C.LI` (41_integer_alu R262, R263; 48_compressed R461, R463). -/
def Obligations.UpperImmediates : Prop :=
  ∀ (s : State) (rd : Reg),
    (∀ imm : BitVec 20, ∃ (t : State) (v : BitVec s.xw), exec (.lui rd imm) s = .next t ∧ Retires s s t 4 rd v
      ∧ v.toInt = imm.toInt * 4096)
    ∧ (∀ imm : BitVec 20, ∃ (t : State) (v : BitVec s.xw), exec (.auipc rd imm) s = .next t ∧ Retires s s t 4 rd v
      ∧ (v.toNat : Int) = (s.vpc.toNat + imm.toInt * 4096) % 2 ^ s.xw)
    ∧ (∀ imm : BitVec 6, ∃ (t : State) (v : BitVec s.xw), exec (.cLui rd imm) s = .next t ∧ Retires s s t 2 rd v
      ∧ v.toInt = imm.toInt * 4096)
    ∧ (∀ imm : BitVec 6, ∃ (t : State) (v : BitVec s.xw), exec (.cLi rd imm) s = .next t ∧ Retires s s t 2 rd v
      ∧ v.toInt = imm.toInt)

/-- The register and immediate instructions and their compressed forms (41_integer_alu R264 to R269; 48_compressed R452,
R458, R462, R466). -/
def Obligations.RegisterImmediate : Prop :=
  ∀ (s : State) (rd rs1 : Reg) (imm : BitVec 12) (a : BitVec s.xw), a = s.x s.xw rs1 →
    (∃ (t : State) (v : BitVec s.xw), exec (.addi rd rs1 imm) s = .next t ∧ Retires s s t 4 rd v
      ∧ (v.toNat : Int) = (a.toNat + imm.toInt) % 2 ^ s.xw)
    ∧ (∃ (t : State) (v : BitVec s.xw), exec (.slti rd rs1 imm) s = .next t ∧ Retires s s t 4 rd v
      ∧ v.toNat = if a.toInt < imm.toInt then 1 else 0)
    ∧ (∃ (t : State) (v : BitVec s.xw), exec (.sltiu rd rs1 imm) s = .next t ∧ Retires s s t 4 rd v
      ∧ v.toNat = if (a.toNat : Int) < imm.toInt % 2 ^ s.xw then 1 else 0)
    ∧ (∃ (t : State) (v : BitVec s.xw), exec (.xori rd rs1 imm) s = .next t ∧ Retires s s t 4 rd v
      ∧ ∀ k, k < s.xw → v.getLsbD k = (a.getLsbD k ^^ imm.getLsbD (min k 11)))
    ∧ (∃ (t : State) (v : BitVec s.xw), exec (.ori rd rs1 imm) s = .next t ∧ Retires s s t 4 rd v
      ∧ ∀ k, k < s.xw → v.getLsbD k = (a.getLsbD k || imm.getLsbD (min k 11)))
    ∧ (∃ (t : State) (v : BitVec s.xw), exec (.andi rd rs1 imm) s = .next t ∧ Retires s s t 4 rd v
      ∧ ∀ k, k < s.xw → v.getLsbD k = (a.getLsbD k && imm.getLsbD (min k 11)))
    ∧ (∀ (rc : CReg) (u : BitVec 10), ∃ (t : State) (v : BitVec s.xw), exec (.cAddi4spn rc u) s = .next t
      ∧ Retires s s t 2 (creg rc) v ∧ v.toNat = ((s.x s.xw 2#5).toNat + u.toNat) % 2 ^ s.xw)
    ∧ (∀ j : BitVec 6, ∃ (t : State) (v : BitVec s.xw), exec (.cAddi rs1 j) s = .next t ∧ Retires s s t 2 rs1 v
      ∧ (v.toNat : Int) = (a.toNat + j.toInt) % 2 ^ s.xw)
    ∧ (∀ j : BitVec 10, ∃ (t : State) (v : BitVec s.xw), exec (.cAddi16sp j) s = .next t ∧ Retires s s t 2 2#5 v
      ∧ (v.toNat : Int) = ((s.x s.xw 2#5).toNat + j.toInt) % 2 ^ s.xw)
    ∧ (∀ (rc : CReg) (j : BitVec 6), ∃ (t : State) (v : BitVec s.xw), exec (.cAndi rc j) s = .next t
      ∧ Retires s s t 2 (creg rc) v
      ∧ ∀ k, k < s.xw → v.getLsbD k = ((s.x s.xw (creg rc)).getLsbD k && j.getLsbD (min k 5)))

/-- The shifts by an immediate, at every shift amount the XLEN has (41_integer_alu R270 to R272; 48_compressed R464, R465,
R476). -/
def Obligations.ShiftImmediate : Prop :=
  ∀ (s : State) (sh : BitVec 6), (s.xlen = .x32 → sh.toNat < 32) →
    (∀ (rd rs1 : Reg) (a : BitVec s.xw), a = s.x s.xw rs1 →
      (∃ (t : State) (v : BitVec s.xw), exec (.slli rd rs1 sh) s = .next t ∧ Retires s s t 4 rd v
        ∧ v.toNat = a.toNat * 2 ^ sh.toNat % 2 ^ s.xw)
      ∧ (∃ (t : State) (v : BitVec s.xw), exec (.srli rd rs1 sh) s = .next t ∧ Retires s s t 4 rd v
        ∧ v.toNat = a.toNat / 2 ^ sh.toNat)
      ∧ (∃ (t : State) (v : BitVec s.xw), exec (.srai rd rs1 sh) s = .next t ∧ Retires s s t 4 rd v
        ∧ v.toInt = a.toInt / 2 ^ sh.toNat)
      ∧ (∃ (t : State) (v : BitVec s.xw), exec (.cSlli rs1 sh) s = .next t ∧ Retires s s t 2 rs1 v
        ∧ v.toNat = a.toNat * 2 ^ sh.toNat % 2 ^ s.xw))
    ∧ ∀ (rc : CReg) (a : BitVec s.xw), a = s.x s.xw (creg rc) →
      (∃ (t : State) (v : BitVec s.xw), exec (.cSrli rc sh) s = .next t ∧ Retires s s t 2 (creg rc) v
        ∧ v.toNat = a.toNat / 2 ^ sh.toNat)
      ∧ (∃ (t : State) (v : BitVec s.xw), exec (.cSrai rc sh) s = .next t ∧ Retires s s t 2 (creg rc) v
        ∧ v.toInt = a.toInt / 2 ^ sh.toNat)

/-- The register and register instructions and their compressed forms (41_integer_alu R273 to R282; 48_compressed R467 to
R470, R480, R483). A shift amount is the register's value modulo
XLEN. -/
def Obligations.RegisterRegister : Prop :=
  (∀ (s : State) (rd rs1 rs2 : Reg) (a b : BitVec s.xw), a = s.x s.xw rs1 → b = s.x s.xw rs2 →
    (∃ (t : State) (v : BitVec s.xw), exec (.add rd rs1 rs2) s = .next t ∧ Retires s s t 4 rd v
      ∧ v.toNat = (a.toNat + b.toNat) % 2 ^ s.xw)
    ∧ (∃ (t : State) (v : BitVec s.xw), exec (.sub rd rs1 rs2) s = .next t ∧ Retires s s t 4 rd v
      ∧ (v.toNat : Int) = ((a.toNat : Int) - b.toNat) % 2 ^ s.xw)
    ∧ (∃ (t : State) (v : BitVec s.xw), exec (.sll rd rs1 rs2) s = .next t ∧ Retires s s t 4 rd v
      ∧ v.toNat = a.toNat * 2 ^ (b.toNat % s.xw) % 2 ^ s.xw)
    ∧ (∃ (t : State) (v : BitVec s.xw), exec (.slt rd rs1 rs2) s = .next t ∧ Retires s s t 4 rd v
      ∧ v.toNat = if a.toInt < b.toInt then 1 else 0)
    ∧ (∃ (t : State) (v : BitVec s.xw), exec (.sltu rd rs1 rs2) s = .next t ∧ Retires s s t 4 rd v
      ∧ v.toNat = if a.toNat < b.toNat then 1 else 0)
    ∧ (∃ (t : State) (v : BitVec s.xw), exec (.xor rd rs1 rs2) s = .next t ∧ Retires s s t 4 rd v
      ∧ ∀ k, v.getLsbD k = (a.getLsbD k ^^ b.getLsbD k))
    ∧ (∃ (t : State) (v : BitVec s.xw), exec (.srl rd rs1 rs2) s = .next t ∧ Retires s s t 4 rd v
      ∧ v.toNat = a.toNat / 2 ^ (b.toNat % s.xw))
    ∧ (∃ (t : State) (v : BitVec s.xw), exec (.sra rd rs1 rs2) s = .next t ∧ Retires s s t 4 rd v
      ∧ v.toInt = a.toInt / 2 ^ (b.toNat % s.xw))
    ∧ (∃ (t : State) (v : BitVec s.xw), exec (.or rd rs1 rs2) s = .next t ∧ Retires s s t 4 rd v
      ∧ ∀ k, v.getLsbD k = (a.getLsbD k || b.getLsbD k))
    ∧ (∃ (t : State) (v : BitVec s.xw), exec (.and rd rs1 rs2) s = .next t ∧ Retires s s t 4 rd v
      ∧ ∀ k, v.getLsbD k = (a.getLsbD k && b.getLsbD k)))
  ∧ (∀ (s : State) (rc rc2 : CReg) (a b : BitVec s.xw), a = s.x s.xw (creg rc) → b = s.x s.xw (creg rc2) →
    (∃ (t : State) (v : BitVec s.xw), exec (.cSub rc rc2) s = .next t ∧ Retires s s t 2 (creg rc) v
      ∧ (v.toNat : Int) = ((a.toNat : Int) - b.toNat) % 2 ^ s.xw)
    ∧ (∃ (t : State) (v : BitVec s.xw), exec (.cXor rc rc2) s = .next t ∧ Retires s s t 2 (creg rc) v
      ∧ ∀ k, v.getLsbD k = (a.getLsbD k ^^ b.getLsbD k))
    ∧ (∃ (t : State) (v : BitVec s.xw), exec (.cOr rc rc2) s = .next t ∧ Retires s s t 2 (creg rc) v
      ∧ ∀ k, v.getLsbD k = (a.getLsbD k || b.getLsbD k))
    ∧ (∃ (t : State) (v : BitVec s.xw), exec (.cAnd rc rc2) s = .next t ∧ Retires s s t 2 (creg rc) v
      ∧ ∀ k, v.getLsbD k = (a.getLsbD k && b.getLsbD k)))
  ∧ ∀ (s : State) (rd rs2 : Reg) (a b : BitVec s.xw), a = s.x s.xw rd → b = s.x s.xw rs2 →
    (∃ (t : State) (v : BitVec s.xw), exec (.cAdd rd rs2) s = .next t ∧ Retires s s t 2 rd v
      ∧ v.toNat = (a.toNat + b.toNat) % 2 ^ s.xw)
    ∧ ∃ t : State, exec (.cMv rd rs2) s = .next t ∧ Retires s s t 2 rd b

/-- The word instructions, at XLEN = 64: a result of 32 bits, sign-extended to 64 (41_integer_alu R283 to R291;
48_compressed R460, R471, R472). `a`, `b` are the low words of the operands. -/
def Obligations.WordInstructions : Prop :=
  (∀ (s : State) (rd rs1 rs2 : Reg) (a b : BitVec 32), s.xlen = .x64 →
    a.toNat = (s.x 64 rs1).toNat % 2 ^ 32 → b.toNat = (s.x 64 rs2).toNat % 2 ^ 32 →
    (∀ imm : BitVec 12, ∃ (t : State) (v : BitVec 32), exec (.addiw rd rs1 imm) s = .next t ∧ Retires s s t 4 rd v
      ∧ (v.toNat : Int) = (a.toNat + imm.toInt) % 2 ^ 32)
    ∧ (∀ sh : BitVec 5, ∃ (t : State) (v : BitVec 32), exec (.slliw rd rs1 sh) s = .next t ∧ Retires s s t 4 rd v
      ∧ v.toNat = a.toNat * 2 ^ sh.toNat % 2 ^ 32)
    ∧ (∀ sh : BitVec 5, ∃ (t : State) (v : BitVec 32), exec (.srliw rd rs1 sh) s = .next t ∧ Retires s s t 4 rd v
      ∧ v.toNat = a.toNat / 2 ^ sh.toNat)
    ∧ (∀ sh : BitVec 5, ∃ (t : State) (v : BitVec 32), exec (.sraiw rd rs1 sh) s = .next t ∧ Retires s s t 4 rd v
      ∧ v.toInt = a.toInt / 2 ^ sh.toNat)
    ∧ (∃ (t : State) (v : BitVec 32), exec (.addw rd rs1 rs2) s = .next t ∧ Retires s s t 4 rd v
      ∧ v.toNat = (a.toNat + b.toNat) % 2 ^ 32)
    ∧ (∃ (t : State) (v : BitVec 32), exec (.subw rd rs1 rs2) s = .next t ∧ Retires s s t 4 rd v
      ∧ (v.toNat : Int) = ((a.toNat : Int) - b.toNat) % 2 ^ 32)
    ∧ (∃ (t : State) (v : BitVec 32), exec (.sllw rd rs1 rs2) s = .next t ∧ Retires s s t 4 rd v
      ∧ v.toNat = a.toNat * 2 ^ (b.toNat % 32) % 2 ^ 32)
    ∧ (∃ (t : State) (v : BitVec 32), exec (.srlw rd rs1 rs2) s = .next t ∧ Retires s s t 4 rd v
      ∧ v.toNat = a.toNat / 2 ^ (b.toNat % 32))
    ∧ (∃ (t : State) (v : BitVec 32), exec (.sraw rd rs1 rs2) s = .next t ∧ Retires s s t 4 rd v
      ∧ v.toInt = a.toInt / 2 ^ (b.toNat % 32))
    ∧ (∀ imm : BitVec 6, ∃ (t : State) (v : BitVec 32), exec (.cAddiw rs1 imm) s = .next t ∧ Retires s s t 2 rs1 v
      ∧ (v.toNat : Int) = (a.toNat + imm.toInt) % 2 ^ 32))
  ∧ ∀ (s : State) (rc rc2 : CReg) (a b : BitVec 32), s.xlen = .x64 →
    a.toNat = (s.x 64 (creg rc)).toNat % 2 ^ 32 → b.toNat = (s.x 64 (creg rc2)).toNat % 2 ^ 32 →
    (∃ (t : State) (v : BitVec 32), exec (.cAddw rc rc2) s = .next t ∧ Retires s s t 2 (creg rc) v
      ∧ v.toNat = (a.toNat + b.toNat) % 2 ^ 32)
    ∧ ∃ (t : State) (v : BitVec 32), exec (.cSubw rc rc2) s = .next t ∧ Retires s s t 2 (creg rc) v
      ∧ (v.toNat : Int) = ((a.toNat : Int) - b.toNat) % 2 ^ 32

/-- Multiplication: the halves of the exact product (44_muldiv R371 to R375). -/
def Obligations.Multiplication : Prop :=
  (∀ (s : State) (rd rs1 rs2 : Reg) (a b : BitVec s.xw), a = s.x s.xw rs1 → b = s.x s.xw rs2 →
    (∃ (t : State) (v : BitVec s.xw), exec (.mul rd rs1 rs2) s = .next t ∧ Retires s s t 4 rd v
      ∧ v.toNat = a.toNat * b.toNat % 2 ^ s.xw)
    ∧ (∃ (t : State) (v : BitVec s.xw), exec (.mulh rd rs1 rs2) s = .next t ∧ Retires s s t 4 rd v
      ∧ v.toInt = a.toInt * b.toInt / 2 ^ s.xw)
    ∧ (∃ (t : State) (v : BitVec s.xw), exec (.mulhsu rd rs1 rs2) s = .next t ∧ Retires s s t 4 rd v
      ∧ v.toInt = a.toInt * b.toNat / 2 ^ s.xw)
    ∧ (∃ (t : State) (v : BitVec s.xw), exec (.mulhu rd rs1 rs2) s = .next t ∧ Retires s s t 4 rd v
      ∧ v.toNat = a.toNat * b.toNat / 2 ^ s.xw))
  ∧ ∀ (s : State) (rd rs1 rs2 : Reg) (a b : BitVec 32), s.xlen = .x64 →
    a.toNat = (s.x 64 rs1).toNat % 2 ^ 32 → b.toNat = (s.x 64 rs2).toNat % 2 ^ 32 →
    ∃ (t : State) (v : BitVec 32), exec (.mulw rd rs1 rs2) s = .next t ∧ Retires s s t 4 rd v
      ∧ v.toNat = a.toNat * b.toNat % 2 ^ 32

/-- Division and remainder, with the special cases of the table: no trap, division by zero and the overflow of
`-2^(L-1) / -1` give the fixed values (44_muldiv R376 to R384). -/
def Obligations.Division : Prop :=
  (∀ (s : State) (rd rs1 rs2 : Reg) (a b : BitVec s.xw), a = s.x s.xw rs1 → b = s.x s.xw rs2 →
    (∃ (t : State) (v : BitVec s.xw), exec (.div rd rs1 rs2) s = .next t ∧ Retires s s t 4 rd v
      ∧ v.toInt = if b.toInt = 0 then -1
          else if a.toInt = -2 ^ (s.xw - 1) ∧ b.toInt = -1 then -2 ^ (s.xw - 1) else a.toInt.tdiv b.toInt)
    ∧ (∃ (t : State) (v : BitVec s.xw), exec (.divu rd rs1 rs2) s = .next t ∧ Retires s s t 4 rd v
      ∧ v.toNat = if b.toNat = 0 then 2 ^ s.xw - 1 else a.toNat / b.toNat)
    ∧ (∃ (t : State) (v : BitVec s.xw), exec (.rem rd rs1 rs2) s = .next t ∧ Retires s s t 4 rd v
      ∧ v.toInt = if b.toInt = 0 then a.toInt
          else if a.toInt = -2 ^ (s.xw - 1) ∧ b.toInt = -1 then 0 else a.toInt - b.toInt * a.toInt.tdiv b.toInt)
    ∧ (∃ (t : State) (v : BitVec s.xw), exec (.remu rd rs1 rs2) s = .next t ∧ Retires s s t 4 rd v
      ∧ v.toNat = if b.toNat = 0 then a.toNat else a.toNat % b.toNat))
  ∧ ∀ (s : State) (rd rs1 rs2 : Reg) (a b : BitVec 32), s.xlen = .x64 →
    a.toNat = (s.x 64 rs1).toNat % 2 ^ 32 → b.toNat = (s.x 64 rs2).toNat % 2 ^ 32 →
    (∃ (t : State) (v : BitVec 32), exec (.divw rd rs1 rs2) s = .next t ∧ Retires s s t 4 rd v
      ∧ v.toInt = if b.toInt = 0 then -1
          else if a.toInt = -2 ^ 31 ∧ b.toInt = -1 then -2 ^ 31 else a.toInt.tdiv b.toInt)
    ∧ (∃ (t : State) (v : BitVec 32), exec (.divuw rd rs1 rs2) s = .next t ∧ Retires s s t 4 rd v
      ∧ v.toNat = if b.toNat = 0 then 2 ^ 32 - 1 else a.toNat / b.toNat)
    ∧ (∃ (t : State) (v : BitVec 32), exec (.remw rd rs1 rs2) s = .next t ∧ Retires s s t 4 rd v
      ∧ v.toInt = if b.toInt = 0 then a.toInt
          else if a.toInt = -2 ^ 31 ∧ b.toInt = -1 then 0 else a.toInt - b.toInt * a.toInt.tdiv b.toInt)
    ∧ (∃ (t : State) (v : BitVec 32), exec (.remuw rd rs1 rs2) s = .next t ∧ Retires s s t 4 rd v
      ∧ v.toNat = if b.toNat = 0 then a.toNat else a.toNat % b.toNat)

/-! ### Control transfer -/

/-- The jumps: the target, and the link `pc + len`; the target of a register jump is computed from the old register and
has bit 0 cleared; `x0` as link register writes nothing; `C.JAL` is an instruction of XLEN = 32 (42_control_transfer R321,
R322; 48_compressed R459, R473, R479, R482). -/
def Obligations.Jumps : Prop :=
  ∀ (s : State) (rd rs1 : Reg) (l4 l2 a : BitVec s.xw), l4.toNat = (s.vpc.toNat + 4) % 2 ^ s.xw →
    l2.toNat = (s.vpc.toNat + 2) % 2 ^ s.xw → a = s.x s.xw rs1 →
    (∀ off : BitVec 21, ∃ t : State, exec (.jal rd off) s = .next t ∧ Links s t (s.vpc.toNat + off.toInt) rd l4)
    ∧ (∀ imm : BitVec 12, ∃ t : State, exec (.jalr rd rs1 imm) s = .next t
        ∧ Links s t ((a.toNat + imm.toInt) % 2 ^ s.xw / 2 * 2) rd l4)
    ∧ (∀ off : BitVec 12, ∃ t : State, exec (.cJ off) s = .next t ∧ Goes s t (s.vpc.toNat + off.toInt))
    ∧ (s.xlen = .x32 → ∀ off : BitVec 12, ∃ t : State, exec (.cJal off) s = .next t
        ∧ Links s t (s.vpc.toNat + off.toInt) 1#5 l2)
    ∧ (∃ t : State, exec (.cJr rs1) s = .next t ∧ Goes s t (a.toNat / 2 * 2 : Nat))
    ∧ (∃ t : State, exec (.cJalr rs1) s = .next t ∧ Links s t (a.toNat / 2 * 2 : Nat) 1#5 l2)

/-- The branches: `pc + offset` if the condition holds, else the next instruction; nothing else changes
(42_control_transfer R323 to R329; 48_compressed R474, R475). -/
def Obligations.Branches : Prop :=
  (∀ (s : State) (rs1 rs2 : Reg) (off : BitVec 13) (a b : BitVec s.xw), a = s.x s.xw rs1 → b = s.x s.xw rs2 →
    (∃ t : State, exec (.beq rs1 rs2 off) s = .next t
      ∧ Goes s t (if a.toNat = b.toNat then s.vpc.toNat + off.toInt else s.vpc.toNat + 4))
    ∧ (∃ t : State, exec (.bne rs1 rs2 off) s = .next t
      ∧ Goes s t (if a.toNat ≠ b.toNat then s.vpc.toNat + off.toInt else s.vpc.toNat + 4))
    ∧ (∃ t : State, exec (.blt rs1 rs2 off) s = .next t
      ∧ Goes s t (if a.toInt < b.toInt then s.vpc.toNat + off.toInt else s.vpc.toNat + 4))
    ∧ (∃ t : State, exec (.bge rs1 rs2 off) s = .next t
      ∧ Goes s t (if a.toInt ≥ b.toInt then s.vpc.toNat + off.toInt else s.vpc.toNat + 4))
    ∧ (∃ t : State, exec (.bltu rs1 rs2 off) s = .next t
      ∧ Goes s t (if a.toNat < b.toNat then s.vpc.toNat + off.toInt else s.vpc.toNat + 4))
    ∧ (∃ t : State, exec (.bgeu rs1 rs2 off) s = .next t
      ∧ Goes s t (if a.toNat ≥ b.toNat then s.vpc.toNat + off.toInt else s.vpc.toNat + 4)))
  ∧ ∀ (s : State) (rc : CReg) (off : BitVec 9) (a : BitVec s.xw), a = s.x s.xw (creg rc) →
    (∃ t : State, exec (.cBeqz rc off) s = .next t
      ∧ Goes s t (if a.toNat = 0 then s.vpc.toNat + off.toInt else s.vpc.toNat + 2))
    ∧ (∃ t : State, exec (.cBnez rc off) s = .next t
      ∧ Goes s t (if a.toNat ≠ 0 then s.vpc.toNat + off.toInt else s.vpc.toNat + 2))

/-- `FENCE` with any fields, `FENCE.I` and `C.NOP` change only the pc (43_load_store R356, R357; 48_compressed R457). -/
def Obligations.FencesAndNop : Prop :=
  ∀ s : State,
    (∀ (fm pred succ : BitVec 4) (rs1 rd : Reg), ∃ t, exec (.fence fm pred succ rs1 rd) s = .next t
      ∧ Goes s t (s.vpc.toNat + 4))
    ∧ (∀ (imm : BitVec 12) (rs1 rd : Reg), ∃ t, exec (.fenceI imm rs1 rd) s = .next t ∧ Goes s t (s.vpc.toNat + 4))
    ∧ (∀ imm : BitVec 6, ∃ t, exec (.cNop imm) s = .next t ∧ Goes s t (s.vpc.toNat + 2))

/-! ### Memory -/

/-- What a translation can do: it changes only the TLB and, when it walks, bytes of an entry the walk comes to, whose accessed
and dirty bits it sets; translation off or effective mode M changes no byte; one that raises changes nothing, reports the
address, and raises the page fault or the access fault of its kind (20_memory R165, R170, R185, R187). -/
def Obligations.TranslationFrame : Prop :=
  ∀ (acc : Acc) (va : Word) (s : State),
    (∀ (pa : Nat) (u : State), translate acc va s = .ok pa u →
      u = { s with tlb := u.tlb, mem := u.mem }
      ∧ pa % 4096 = va.toNat % 4096
      ∧ (identityMapped s acc = true → SameBytes s u)
      ∧ ∀ b, u.mem.readByte b ≠ s.mem.readByte b → ∃ (m : SvMode) (i a : Nat), svMode s.mmuMode = some m
          ∧ WalkReaches s m va i a ∧ pteAddr m va i a ≤ b ∧ b < pteAddr m va i a + m.size)
    ∧ ∀ (e : Exc) (tv : Word) (u : State), translate acc va s = .exc e tv u →
      u = s ∧ tv = va ∧ (e.code = pageFaultCode acc ∨ e.code = accessFaultCode acc)

/-- The TLB. While the mapping of the page was not changed without a fence: an entry of the page that allows the access answers
from itself, without a walk, and changes nothing; after any translation to a page wholly in RAM the slot holds an entry of the
page, which allows this kind of access and those it allowed before; no other slot changes; a page not in RAM is not cached; and
with no such entry, translation off is the identity. In every state: an access uses what was translated since the last flush,
or what it would use with the TLB empty; which of the two is the model's free choice (log 26) (20_memory R170, R173, R174;
70_reset_and_hazards R592, R593). -/
def Obligations.TlbLookupAndFill : Prop :=
  ∀ (acc : Acc) (va : Word) (s : State),
    (MappingSettled s acc va →
      (∀ e : TlbEntry, assocGet s.tlb.slots (va.toNat / 4096 % 2 ^ s.hw.tlbBits) = some e → e.vpn.toNat = va.toNat / 4096 →
        e.has acc = true → translate acc va s = .ok (e.ppn.toNat * 4096 + va.toNat % 4096) s)
      ∧ (∀ (pa : Nat) (u : State), translate acc va s = .ok pa u →
        (Params.inRam s.hw (pa / 4096 * 4096) 4096 = true → ∃ e : TlbEntry,
          assocGet u.tlb.slots (va.toNat / 4096 % 2 ^ s.hw.tlbBits) = some e
          ∧ e.vpn.toNat = va.toNat / 4096 ∧ e.ppn.toNat = pa / 4096
          ∧ ∀ b : Acc, e.has b = true ↔ b = acc ∨ ∃ d : TlbEntry,
              assocGet s.tlb.slots (va.toNat / 4096 % 2 ^ s.hw.tlbBits) = some d ∧ d.vpn = e.vpn ∧ d.ppn = e.ppn
              ∧ d.has b = true)
        ∧ (∀ k, k ≠ va.toNat / 4096 % 2 ^ s.hw.tlbBits → assocGet u.tlb.slots k = assocGet s.tlb.slots k)
        ∧ (Params.inRam s.hw (pa / 4096 * 4096) 4096 = false → u.tlb = s.tlb))
      ∧ ((∀ e : TlbEntry, assocGet s.tlb.slots (va.toNat / 4096 % 2 ^ s.hw.tlbBits) = some e →
          e.vpn.toNat ≠ va.toNat / 4096 ∨ e.has acc = false) → identityMapped s acc = true →
          ∃ u, translate acc va s = .ok va.toNat u))
    ∧ ((∃ e : TlbEntry, Kept s acc va e ∧ translate acc va s = .ok (e.ppn.toNat * 4096 + va.toNat % 4096) s)
      ∨ (∃ (pa : Nat) (u v : State), translate acc va s = .ok pa u
          ∧ translate acc va { s with tlb := Tlb.empty } = .ok pa v)
      ∨ ∃ (e : Exc) (v : State), translate acc va s = .exc e va s
          ∧ translate acc va { s with tlb := Tlb.empty } = .exc e va v)

/-- What a walk gives, in every case, for a page nothing was translated of since the last flush: an address that is not canonical
raises the page fault; at each entry the walk comes to, one outside RAM raises the access fault, and one that is not valid, that
is writable and not readable, or that points on from level 0, raises the page fault; a leaf that does not permit the access to
the effective mode, or that maps a superpage and whose low PPN fields are not 0, raises the page fault; any other leaf gives the
page its PPN names, with the low fields from the address, and A, and for a write D, are set in it and no other bit and no other
byte changed (20_memory R180 to R187). -/
def Obligations.WalkGrants : Prop :=
  ∀ (acc : Acc) (va : Word) (s : State) (m : SvMode), identityMapped s acc = false → (∀ e, ¬ Kept s acc va e) →
    svMode s.mmuMode = some m →
    (¬ Canonical m va → TranslationFaults acc va s (pageFaultCode acc))
    ∧ (Canonical m va → ∀ i a : Nat, WalkReaches s m va i a →
      (Params.inRam s.hw (pteAddr m va i a) m.size = false → TranslationFaults acc va s (accessFaultCode acc))
      ∧ ∀ pte : Word, PteIs s m va i a pte →
        (pteV pte = false ∨ (pteR pte = false ∧ pteW pte = true) → TranslationFaults acc va s (pageFaultCode acc))
        ∧ (i = 0 → pteR pte = false → pteX pte = false → TranslationFaults acc va s (pageFaultCode acc))
        ∧ (pteV pte = true → pteR pte = true ∨ (pteW pte = false ∧ pteX pte = true) →
          (¬ LeafPermits s.csr.status pte acc (s.effPriv acc) ∨ ppnOf pte % 2 ^ (i * m.bits) ≠ 0 →
            TranslationFaults acc va s (pageFaultCode acc))
          ∧ (LeafPermits s.csr.status pte acc (s.effPriv acc) → ppnOf pte % 2 ^ (i * m.bits) = 0 →
            ∃ (u : State) (w : Word),
              translate acc va s = .ok ((ppnOf pte + va.toNat / 4096 % 2 ^ (i * m.bits)) * 4096 + va.toNat % 4096) u
              ∧ w.toNat = bytesAt u.mem (pteAddr m va i a) m.size
              ∧ pteA w = true ∧ pteD w = (pteD pte || decide (acc = .write))
              ∧ (∀ b, b ≠ 6 → b ≠ 7 → w.getLsbD b = pte.getLsbD b)
              ∧ ∀ b, b < pteAddr m va i a ∨ pteAddr m va i a + m.size ≤ b → u.mem.readByte b = s.mem.readByte b)))

/-- A load of bytes of RAM in one page: the value, sign- or zero-extended, and the frame; `u` is the state after the
translation. The address is `x[rs1]` plus the sign-extended immediate modulo 2^XLEN (43_load_store R340 to R349;
48_compressed R453, R454, R477, R478). -/
def Obligations.LoadsFromRam : Prop :=
  ∀ (i : Instr) (f : MemForm) (s u : State) (pa : Nat), loadForm i = some f → widthOk s f.only64 →
    translate .read (s.ea f.rs1 f.imm) s = .ok pa u → pageOff (s.ea f.rs1 f.imm) + f.n ≤ 4096 →
    Params.inRam s.hw pa f.n = true →
    ((s.ea f.rs1 f.imm).toNat : Int) = ((s.x s.xw f.rs1).toNat + f.imm.toInt) % 2 ^ s.xw
    ∧ ∃ (t : State) (v : BitVec s.xw), exec i s = .next t ∧ Retires s u t f.len f.reg v
        ∧ (f.signed = true → v.toInt = Int.bmod (bytesAt u.mem pa f.n) (256 ^ f.n))
        ∧ (f.signed = false → v.toNat = bytesAt u.mem pa f.n)

/-- A store to RAM in one page: exactly the `n` bytes at the translated address change, to the low bytes of `x[rs2]`,
little-endian; no register changes (43_load_store R340 to R342, R350 to R353; 48_compressed R455, R456, R484, R485). -/
def Obligations.StoresToRam : Prop :=
  ∀ (i : Instr) (f : MemForm) (s u : State) (pa : Nat), storeForm i = some f → widthOk s f.only64 →
    translate .write (s.ea f.rs1 f.imm) s = .ok pa u → pageOff (s.ea f.rs1 f.imm) + f.n ≤ 4096 →
    Params.inRam s.hw pa f.n = true →
    ((s.ea f.rs1 f.imm).toNat : Int) = ((s.x s.xw f.rs1).toNat + f.imm.toInt) % 2 ^ s.xw
    ∧ ∃ t : State, exec i s = .next t ∧ BytesStored u.mem t.mem pa f.n (s.x 64 f.reg).toNat
        ∧ t.pc.toNat = (s.vpc.toNat + f.len) % 2 ^ s.xw ∧ t = { u with mem := t.mem, pc := t.pc }

/-- A load or store whose bytes lie in two pages: two translations in address order, and then two parts, each in RAM or in one
device region, the low one first; the value of a load is extended as that of any other (20_memory R143, R160 to R163; the log
of the device calls and their values are the model's, log 15). `k` bytes lie in the first page. -/
def Obligations.SplitAccesses : Prop :=
  ∀ (i : Instr) (f : MemForm) (s u w : State) (pa pa' k : Nat), widthOk s f.only64 →
    k = 4096 - (s.ea f.rs1 f.imm).toNat % 4096 → k < f.n →
    (loadForm i = some f → translate .read (s.ea f.rs1 f.imm) s = .ok pa u →
      translate .read (s.vaPlus (s.ea f.rs1 f.imm) k) u = .ok pa' w →
      ∀ (a b : Nat) (w1 w2 : State), PartRead w pa k a w1 → PartRead w1 pa' (f.n - k) b w2 →
      ∃ (t : State) (v : BitVec s.xw), exec i s = .next t ∧ Retires s w2 t f.len f.reg v
        ∧ Extended v f.n (a + 256 ^ k * b) f.signed)
    ∧ (storeForm i = some f → translate .write (s.ea f.rs1 f.imm) s = .ok pa u →
      translate .write (s.vaPlus (s.ea f.rs1 f.imm) k) u = .ok pa' w →
      Accessible s.hw pa k → Accessible s.hw pa' (f.n - k) →
      ∃ t w1 : State, exec i s = .next t
        ∧ PartWritten w pa k (s.x 64 f.reg).toNat w1
        ∧ PartWritten w1 pa' (f.n - k) ((s.x 64 f.reg).toNat / 256 ^ k) { t with pc := w1.pc }
        ∧ t.pc.toNat = (s.vpc.toNat + f.len) % 2 ^ s.xw)

/-- Where a load or store traps: on the fault of its translation, and on bytes that are in neither RAM nor one device
region, with the address of the part that failed as trap value. No register is written, and a store stores nothing and calls no
device. What the translations did remains, and, of a load, the call of a device that held its low part. The low part is
reported before the high one; that it is so when the low part translates to bytes that are not accessible and the high part
does not translate follows R163 against the order R160 and R161 write (log 10) (43_load_store R341; 20_memory R153, R160, R161,
R163, R165). `k` bytes lie in the first page. -/
def Obligations.DataFaults : Prop :=
  ∀ (i : Instr) (f : MemForm) (acc : Acc) (s u : State) (ea : Word) (k : Nat), widthOk s f.only64 →
    ea = s.ea f.rs1 f.imm → k = min f.n (4096 - ea.toNat % 4096) →
    (acc = .read ∧ loadForm i = some f) ∨ (acc = .write ∧ storeForm i = some f) →
    (∀ (e : Exc) (tv : Word), translate acc ea s = .exc e tv u → exec i s = .next (s.takeTrap false e.code ea))
    ∧ ∀ pa, translate acc ea s = .ok pa u →
      (k = f.n → ¬ Accessible s.hw pa k → exec i s = .next (u.takeTrap false (accessFaultCode acc) ea))
      ∧ (∀ (e : Exc) (tv : Word) (w : State), k < f.n → translate acc (s.vaPlus ea k) u = .exc e tv w →
        (Accessible s.hw pa k → exec i s = .next (u.takeTrap false e.code (s.vaPlus ea k)))
        ∧ (¬ Accessible s.hw pa k → exec i s = .next (u.takeTrap false (accessFaultCode acc) ea)))
      ∧ ∀ (pa' : Nat) (w : State), k < f.n → translate acc (s.vaPlus ea k) u = .ok pa' w →
        (¬ Accessible s.hw pa k → exec i s = .next (w.takeTrap false (accessFaultCode acc) ea))
        ∧ (¬ Accessible s.hw pa' (f.n - k) → Accessible s.hw pa k →
          (acc = .write → exec i s = .next (w.takeTrap false 7 (s.vaPlus ea k)))
          ∧ (acc = .read → ∀ (a : Nat) (w1 : State), PartRead w pa k a w1 →
            exec i s = .next (w1.takeTrap false 5 (s.vaPlus ea k))))

/-- A load or store inside one device region is one call of the device, logged: a load gives a free value of the width of the
access, sign- or zero-extended, and a store changes no byte of memory (20_memory R146, R152). The log and the free value are
the model's (log 15). -/
def Obligations.DeviceAccesses : Prop :=
  ∀ (i : Instr) (f : MemForm) (s u : State) (pa : Nat) (r : Region), widthOk s f.only64 →
    pageOff (s.ea f.rs1 f.imm) + f.n ≤ 4096 → Params.inRam s.hw pa f.n = false → Params.region s.hw pa f.n = some r →
    (loadForm i = some f → translate .read (s.ea f.rs1 f.imm) s = .ok pa u →
      ∃ (t : State) (v : BitVec s.xw), exec i s = .next t
        ∧ Retires s { u with draws := u.draws + 1, devLog := .read r.dev (pa - r.base) f.n :: u.devLog } t f.len f.reg v
        ∧ Extended v f.n ((Config.deviceData u.draws).toNat % 256 ^ f.n) f.signed)
    ∧ (storeForm i = some f → translate .write (s.ea f.rs1 f.imm) s = .ok pa u →
      ∃ t : State, exec i s = .next t
        ∧ Goes { u with devLog := .write r.dev (pa - r.base) f.n ((s.x 64 f.reg).toNat % 256 ^ f.n) :: u.devLog } t
            (s.vpc.toNat + f.len))

/-! ### Atomics -/

/-- `LR`: the aligned bytes, sign-extended, and the reservation (45_atomics R392, R393). -/
def Obligations.LoadReserved : Prop :=
  ∀ (i : Instr) (n : Nat) (rd rs1 : Reg) (aq rl : Bool) (s u : State) (pa : Nat),
    (i = .lrW rd rs1 aq rl ∧ n = 4) ∨ (i = .lrD rd rs1 aq rl ∧ n = 8 ∧ s.xlen = .x64) →
    (s.x s.xw rs1).toNat % n = 0 → translate .read (s.xa rs1) s = .ok pa u → Params.inRam s.hw pa n = true →
    ∃ (t : State) (v : BitVec s.xw), exec i s = .next t
      ∧ Retires s { u with reservation := some ⟨pa, n⟩ } t 4 rd v
      ∧ v.toInt = Int.bmod (bytesAt u.mem pa n) (256 ^ n)

/-- `SC`: it stores and writes 0 when the reservation is exactly these bytes and it does not fail spuriously, else it
stores nothing and writes 1; either way the reservation is gone. The spurious failure is a free value (log 16)
(45_atomics R392, R395, R396). -/
def Obligations.StoreConditional : Prop :=
  ∀ (i : Instr) (n : Nat) (rd rs1 rs2 : Reg) (aq rl : Bool) (s u : State) (pa : Nat),
    (i = .scW rd rs1 rs2 aq rl ∧ n = 4) ∨ (i = .scD rd rs1 rs2 aq rl ∧ n = 8 ∧ s.xlen = .x64) →
    (s.x s.xw rs1).toNat % n = 0 → translate .write (s.xa rs1) s = .ok pa u → Params.inRam s.hw pa n = true →
    ∃ t, exec i s = .next t
      ∧ ((s.reservation = some ⟨pa, n⟩ ∧ Config.scSpurious s.draws = false
          ∧ ∃ m, BytesStored u.mem m pa n (s.x 64 rs2).toNat
            ∧ Retires s { u with mem := m, reservation := none, draws := s.draws + 1 } t 4 rd 0#64)
        ∨ ((s.reservation ≠ some ⟨pa, n⟩ ∨ Config.scSpurious s.draws = true)
          ∧ Retires s { u with reservation := none, draws := s.draws + 1 } t 4 rd 1#64))

/-- The eighteen AMO instructions: the old value, sign-extended, to `rd`, and the operation of it and `x[rs2]` to the same
bytes; the reservation stays (45_atomics R392, R394, R397 to R416). -/
def Obligations.AtomicOperations : Prop :=
  ∀ (i : Instr) (f : AmoForm) (s u : State) (pa : Nat) (old b : BitVec (8 * f.n)), amoForm i = some f →
    (f.n = 8 → s.xlen = .x64) → (s.x s.xw f.rs1).toNat % f.n = 0 → translate .write (s.xa f.rs1) s = .ok pa u →
    Params.inRam s.hw pa f.n = true → old.toNat = bytesAt u.mem pa f.n → b.toNat = (s.x 64 f.rs2).toNat % 256 ^ f.n →
    ∃ (t : State) (m : Memory) (v : BitVec s.xw), exec i s = .next t ∧ v.toInt = old.toInt
      ∧ BytesStored u.mem m pa f.n (f.op.value old b).toNat ∧ Retires s { u with mem := m } t 4 f.rd v

/-- Where an atomic traps: a misaligned address before anything else, then the fault of the translation, then bytes that
are not RAM, device regions among them; memory, the registers and the reservation are as the translation left them
(45_atomics R392; 20_memory R145, R153). -/
def Obligations.AtomicFaults : Prop :=
  ∀ (i : Instr) (acc : Acc) (n : Nat) (rs1 : Reg) (s : State), atomicForm i = some (acc, n, rs1) →
    (n = 8 → s.xlen = .x64) →
    ((s.x s.xw rs1).toNat % n ≠ 0 → exec i s = .next (s.takeTrap false (if acc = .read then 4 else 6) (s.xa rs1)))
    ∧ ((s.x s.xw rs1).toNat % n = 0 →
      (∀ (e : Exc) (tv : Word) (u : State), translate acc (s.xa rs1) s = .exc e tv u →
        exec i s = .next (s.takeTrap false e.code (s.xa rs1)))
      ∧ (∀ (pa : Nat) (u : State), translate acc (s.xa rs1) s = .ok pa u → Params.inRam s.hw pa n = false →
        exec i s = .next (u.takeTrap false (if acc = .read then 5 else 7) (s.xa rs1))))

/-! ### CSRs -/

/-- The six CSR instructions complete, with the old value in `rd`, whenever the three checks pass and the CSR's own rule
lets it be accessed: a read-only address takes only a zero operand (15_csr R60 to R63; 46_zicsr R421 to R427). -/
def Obligations.CsrCompletes : Prop :=
  ∀ (i : Instr) (f : CsrForm) (s : State) (c : Csr), csrForm s i = some f →
    (f.csr.toNat / 1024 = 3 → f.operand = 0#64) → f.csr.toNat / 256 % 4 ≤ s.priv.toNat →
    csrMap s.xlen f.csr = some c → csrOpen s c →
    ∃ (old : Word) (u : State), csrAccess f.csr f.operand f.op s = some (old, u) ∧ CsrDone s i f old u
      ∧ SameBytes s u ∧ u.regs = s.regs

/-- Where a CSR instruction traps: a non-zero operand for a read-only address, too low a privilege, an address that is not
in the map, a rule that does not let the CSR be accessed; no CSR changes (15_csr R61, R63; 46_zicsr R421). -/
def Obligations.CsrDenied : Prop :=
  ∀ (i : Instr) (f : CsrForm) (s : State), csrForm s i = some f →
    (f.csr.toNat / 1024 = 3 ∧ f.operand ≠ 0#64) ∨ s.priv.toNat < f.csr.toNat / 256 % 4
      ∨ csrMap s.xlen f.csr = none ∨ (∃ c, csrMap s.xlen f.csr = some c ∧ ¬ csrOpen s c) →
    exec i s = .next (s.takeTrap false 2 ((encode i).bits.setWidth 64))

/-- `mstatus` and `sstatus`: the value read, with SD, and the word a write leaves: the written bits under the mask of the
view, then MPP 2 stored as 0, UXL and SXL outside (1, 2) stored as 2, VS off, FS off without an FPU, XS as FS; the TLB is
emptied exactly if MPP, MPRV, SUM or MXR changes (15_csr R70 to R73, R75). -/
def Obligations.StatusCsrs : Prop :=
  ∀ (i : Instr) (f : CsrForm) (s : State) (rm wm old new : Word), csrForm s i = some f → StatusInv s →
    s.hw.fpuPresent = false →
    (f.csr = 0x300#12 ∧ s.priv = .M ∧ rm = BitVec.allOnes 64
        ∧ wm = (if s.hw.rv64 then 0x0000000F007E79AA#64 else 0x00000000007E79AA#64))
      ∨ (f.csr = 0x100#12 ∧ s.priv ≠ .U ∧ rm = (if s.hw.rv64 then 0x00000003000DE722#64 else 0x00000000000DE722#64)
        ∧ wm = (if s.hw.rv64 then 0x00000003000C6122#64 else 0x00000000000C6122#64)) →
    old = s.csr.status &&& rm &&& (if s.xlen = .x64 then BitVec.allOnes 64 else 0xFFFFFFFF#64) →
    new = csrNew f.op old f.operand →
    ∃ u : State, CsrDone s i f old u ∧ u = { s with csr := { s.csr with status := u.csr.status }, tlb := u.tlb }
      ∧ (∀ b, b ∉ [9, 10, 11, 12, 13, 14, 15, 16, 32, 33, 34, 35] → u.csr.status.getLsbD b =
          if wm.getLsbD b = true ∧ b < s.xw then new.getLsbD b else s.csr.status.getLsbD b)
      ∧ stVs u.csr.status = 0#2 ∧ stFs u.csr.status = 0#2 ∧ stXs u.csr.status = 0#2
      ∧ stMpp u.csr.status =
          (if wm.getLsbD 11 = false then stMpp s.csr.status else if stMpp new = 2#2 then 0#2 else stMpp new)
      ∧ stUxl u.csr.status =
          (if wm.getLsbD 32 = false ∨ s.xlen = .x32 then stUxl s.csr.status
           else if stUxl new = 1#2 then 1#2 else 2#2)
      ∧ stSxl u.csr.status =
          (if wm.getLsbD 34 = false ∨ s.xlen = .x32 then stSxl s.csr.status
           else if stSxl new = 1#2 then 1#2 else 2#2)
      ∧ (u.tlb = if stMpp u.csr.status ≠ stMpp s.csr.status ∨ stMprv u.csr.status ≠ stMprv s.csr.status
            ∨ stSum u.csr.status ≠ stSum s.csr.status ∨ stMxr u.csr.status ≠ stMxr s.csr.status then Tlb.empty else s.tlb)

/-- `mie`, `sie`, `mip`, `sip`: `mip` and `sip` show the posted bits beside the stored ones and write the stored ones
only; the supervisor views show and write bits 1, 5 and 9 (15_csr R88 to R91). -/
def Obligations.InterruptCsrs : Prop :=
  ∀ (i : Instr) (f : CsrForm) (s : State) (mask : BitVec 12), csrForm s i = some f →
    (f.csr.toNat / 256 = 3 ∧ s.priv = .M ∧ mask = 0xAAA#12) ∨ (f.csr.toNat / 256 = 1 ∧ s.priv ≠ .U ∧ mask = 0x222#12) →
    (f.csr.toNat % 256 = 0x04 → ∃ (old : Word) (u : State), CsrDone s i f old u
      ∧ old = (s.csr.ie &&& mask).setWidth 64
      ∧ u = { s with csr := { s.csr with ie := u.csr.ie } }
      ∧ ∀ b, u.csr.ie.getLsbD b = if mask.getLsbD b then (csrNew f.op old f.operand).getLsbD b else s.csr.ie.getLsbD b)
    ∧ (f.csr.toNat % 256 = 0x44 → ∃ (old : Word) (u : State), CsrDone s i f old u
      ∧ old = ((s.csr.ip ||| s.irqPending) &&& mask).setWidth 64
      ∧ u = { s with csr := { s.csr with ip := u.csr.ip } }
      ∧ ∀ b, u.csr.ip.getLsbD b =
          if mask.getLsbD b then (csrNew f.op (s.csr.ip.setWidth 64) f.operand).getLsbD b else s.csr.ip.getLsbD b)

/-- The trap-handling registers of M and S and the delegation registers: every bit of `xtvec`, `xscratch`, `xtval`,
`xcause` is written, bit 0 of `xepc` is not, `medeleg` takes 0xB3FF and `mideleg` 0x222 (15_csr R84, R85, R94 to R98). -/
def Obligations.TrapCsrs : Prop :=
  ∀ (i : Instr) (f : CsrForm) (s : State) (l : Lvl) (new : Word → Word), csrForm s i = some f →
    (l = .m ∧ s.priv = .M ∧ f.csr.toNat / 256 = 3) ∨ (l = .s ∧ s.priv ≠ .U ∧ f.csr.toNat / 256 = 1) →
    (∀ old, new old = csrNew f.op old f.operand) →
    (f.csr.toNat % 256 = 0x05 → CsrDone s i f (csrView s.xlen (s.csr.at l).tvec)
        (s.putTrap l { s.csr.at l with tvec := csrView s.xlen (new (csrView s.xlen (s.csr.at l).tvec)) }))
    ∧ (f.csr.toNat % 256 = 0x40 → CsrDone s i f (csrView s.xlen (s.csr.at l).scratch)
        (s.putTrap l { s.csr.at l with scratch := csrView s.xlen (new (csrView s.xlen (s.csr.at l).scratch)) }))
    ∧ (f.csr.toNat % 256 = 0x41 → (s.csr.at l).epc.getLsbD 0 = false →
        CsrDone s i f (csrView s.xlen (s.csr.at l).epc)
        (s.putTrap l { s.csr.at l with
          epc := csrView s.xlen (new (csrView s.xlen (s.csr.at l).epc)) &&& 0xFFFFFFFFFFFFFFFE#64 }))
    ∧ (f.csr.toNat % 256 = 0x42 → ∀ old : Word,
        (∀ b, b < s.xw - 1 → old.getLsbD b = (s.csr.at l).causeCode.getLsbD b) →
        old.getLsbD (s.xw - 1) = (s.csr.at l).causeInt → old.toNat < 2 ^ s.xw →
        ∃ u, CsrDone s i f old u ∧ u = s.putTrap l (u.csr.at l)
          ∧ (u.csr.at l) = { s.csr.at l with causeInt := (u.csr.at l).causeInt, causeCode := (u.csr.at l).causeCode }
          ∧ (u.csr.at l).causeInt = (new old).getLsbD (s.xw - 1)
          ∧ (u.csr.at l).causeCode.toNat = (new old).toNat % 2 ^ (s.xw - 1))
    ∧ (f.csr.toNat % 256 = 0x43 → CsrDone s i f (csrView s.xlen (s.csr.at l).tval)
        (s.putTrap l { s.csr.at l with tval := csrView s.xlen (new (csrView s.xlen (s.csr.at l).tval)) }))
    ∧ (f.csr = 0x302#12 → s.csr.medeleg &&& ~~~0xB3FF#16 = 0#16 →
        CsrDone s i f (s.csr.medeleg.setWidth 64)
        { s with csr := { s.csr with medeleg := (new (s.csr.medeleg.setWidth 64)).setWidth 16 &&& 0xB3FF#16 } })
    ∧ (f.csr = 0x303#12 → s.csr.mideleg &&& ~~~0x222#12 = 0#12 →
        CsrDone s i f (s.csr.mideleg.setWidth 64)
        { s with csr := { s.csr with mideleg := (new (s.csr.mideleg.setWidth 64)).setWidth 12 &&& 0x222#12 } })

/-- `satp`: with TVM set it traps from every mode; else the mode field selects a supported mode or BARE, the root is the PPN
shifted left by 12, and the TLB is emptied exactly if paging turns on or off (15_csr R106 to R108). -/
def Obligations.Satp : Prop :=
  ∀ (i : Instr) (f : CsrForm) (s : State), csrForm s i = some f → f.csr = 0x180#12 → s.priv ≠ .U →
    (stTvm s.csr.status = true → exec i s = .next (s.takeTrap false 2 ((encode i).bits.setWidth 64)))
    ∧ (stTvm s.csr.status = false → ∃ (old new : Word) (u : State), CsrDone s i f old u
      ∧ new = csrNew f.op old f.operand
      ∧ u = { s with mmuMode := u.mmuMode, rootPageTable := u.rootPageTable, tlb := u.tlb }
      ∧ (u.tlb = if (u.mmuMode = .bare) ↔ (s.mmuMode = .bare) then s.tlb else Tlb.empty)
      ∧ (s.xlen = .x64 →
          old.toNat = (match s.mmuMode with | .bare => 0 | .sv32 => 1 | .sv39 => 8 | .sv48 => 9 | .sv57 => 10) * 2 ^ 60
            + s.rootPageTable.toNat / 4096
          ∧ u.rootPageTable.toNat = new.toNat % 2 ^ 44 * 4096
          ∧ u.mmuMode = (if new.toNat / 2 ^ 60 = 8 then .sv39 else if new.toNat / 2 ^ 60 = 9 then .sv48
              else if new.toNat / 2 ^ 60 = 10 then .sv57 else .bare))
      ∧ (s.xlen = .x32 →
          old.toNat = (if s.mmuMode = .sv32 then 2 ^ 31 else 0) + s.rootPageTable.toNat / 4096 % 2 ^ 22
          ∧ u.rootPageTable.toNat = new.toNat % 2 ^ 22 * 4096
          ∧ u.mmuMode = if new.toNat / 2 ^ 31 % 2 = 1 then .sv32 else .bare))

/-- `stimecmp`, `time` and `seed`: a write of the comparator sets or clears STIP at once, and at XLEN = 32 keeps the half it does
not name; `time` is the platform's, as the step has sampled it (the sample is the model's, log 6), and a `seed` read is 16 free
bits, the model's (log 5), with the status `10` in bits 31:30 (15_csr R65, R66, R110, R117, R118). The views of the upper halves
exist with XLEN = 32. -/
def Obligations.TimerAndEntropyCsrs : Prop :=
  ∀ (i : Instr) (f : CsrForm) (s : State), csrForm s i = some f →
    (f.csr = 0x14D#12 → s.priv ≠ .U → s.csr.m.envcfg.getLsbD 63 = true → s.xlen = .x64 →
      ∃ u, CsrDone s i f s.stimecmp u
        ∧ u = { s with stimecmp := csrNew f.op s.stimecmp f.operand, irqPending := u.irqPending }
        ∧ ∀ b, b < 12 → u.irqPending.getLsbD b =
            if b = 5 then decide (u.stimecmp.toNat ≤ s.time.toNat) else s.irqPending.getLsbD b)
    ∧ (f.csr = 0x14D#12 → s.priv ≠ .U → s.csr.m.envcfg.getLsbD 63 = true → s.xlen = .x32 →
      ∃ (old : Word) (u : State), CsrDone s i f old u ∧ old.toNat = s.stimecmp.toNat % 2 ^ 32
        ∧ u = { s with stimecmp := u.stimecmp, irqPending := u.irqPending }
        ∧ u.stimecmp.toNat = s.stimecmp.toNat / 2 ^ 32 * 2 ^ 32 + (csrNew f.op old f.operand).toNat % 2 ^ 32
        ∧ ∀ b, b < 12 → u.irqPending.getLsbD b =
            if b = 5 then decide (u.stimecmp.toNat ≤ s.time.toNat) else s.irqPending.getLsbD b)
    ∧ (f.csr = 0x15D#12 → s.priv ≠ .U → s.csr.m.envcfg.getLsbD 63 = true → s.xlen = .x32 →
      ∃ (old : Word) (u : State), CsrDone s i f old u ∧ old.toNat = s.stimecmp.toNat / 2 ^ 32
        ∧ u = { s with stimecmp := u.stimecmp, irqPending := u.irqPending }
        ∧ u.stimecmp.toNat = (csrNew f.op old f.operand).toNat % 2 ^ 32 * 2 ^ 32 + s.stimecmp.toNat % 2 ^ 32
        ∧ ∀ b, b < 12 → u.irqPending.getLsbD b =
            if b = 5 then decide (u.stimecmp.toNat ≤ s.time.toNat) else s.irqPending.getLsbD b)
    ∧ (f.csr = 0xC01#12 → f.operand = 0#64 → csrOpen s .time → CsrDone s i f (csrView s.xlen s.time) s)
    ∧ (f.csr = 0xC81#12 → f.operand = 0#64 → csrOpen s .timeh → s.xlen = .x32 →
        CsrDone s i f (BitVec.ofNat 64 (s.time.toNat / 2 ^ 32)) s)
    ∧ (f.csr = 0x015#12 → csrOpen s .seed →
        CsrDone s i f (BitVec.ofNat 64 (2 ^ 31 + (Config.entropy s.draws).toNat)) { s with draws := s.draws + 1 })

/-- The other CSRs, each in every mode that may access it and at each XLEN it exists at: `misa`, which reads MXL and the
extension bits and of which a write changes only MXL, to the other width where the hart has it, emptying the TLB; the
constants; every address that reads as zero and ignores writes, `mstatush` and `mseccfgh` among them; `mcounteren` and
`scounteren`; `menvcfg`, `menvcfgh`, `senvcfg` and `mseccfg`; and, with an FPU that is not off, `fcsr`, `fflags` and `frm`, whose
write leaves `status.FS` alone (an FPU is a parameter of the model, and that FS stays is the model's, log 18)
(15_csr R64 to R66, R74, R80, R81, R100 to R103, R112 to R114, R120 to R122). -/
def Obligations.OtherCsrs : Prop :=
  ∀ (i : Instr) (f : CsrForm) (s : State) (a : Nat), csrForm s i = some f → a = f.csr.toNat →
    a / 256 % 4 ≤ s.priv.toNat → (a / 1024 = 3 → f.operand = 0#64) →
    (a = 0x301 → s.csr.misaExt = 0x141105#26 →
      (s.xlen = .x64 → ∃ u, CsrDone s i f 0x8000000000141105#64 u
        ∧ u = if (csrNew f.op 0x8000000000141105#64 f.operand).toNat / 2 ^ 62 = 1
              then { s with csr := { s.csr with mxl := .x32 }, tlb := Tlb.empty } else s)
      ∧ (s.xlen = .x32 → s.csr.mxl = .x32 → ∃ u, CsrDone s i f 0x40141105#64 u
        ∧ u = if (csrNew f.op 0x40141105#64 f.operand).toNat / 2 ^ 30 % 4 = 2 ∧ s.hw.rv64 = true
              then { s with csr := { s.csr with mxl := .x64 }, tlb := Tlb.empty } else s))
    ∧ (a = 0xF11 → CsrDone s i f (csrView s.xlen s.hw.mvendorid) s)
    ∧ (a = 0xF12 → CsrDone s i f (csrView s.xlen s.hw.marchid) s)
    ∧ (a = 0xF13 → CsrDone s i f (csrView s.xlen s.hw.mimpid) s)
    ∧ (a = 0xF14 → s.hw.wf = true → CsrDone s i f (BitVec.ofNat 64 s.hw.hartId) s)
    ∧ (a ∈ [0x320, 0xB00, 0xC00, 0xF15] ∨ (0x323 ≤ a ∧ a ≤ 0x33F) ∨ (0x3A0 ≤ a ∧ a ≤ 0x3EF) ∨ (0xB02 ≤ a ∧ a ≤ 0xB1F)
        ∨ (0xC02 ≤ a ∧ a ≤ 0xC1F)
        ∨ (s.xlen = .x32 ∧ (a ∈ [0x310, 0x757, 0xB80, 0xC80] ∨ (0xB82 ≤ a ∧ a ≤ 0xB9F) ∨ (0xC82 ≤ a ∧ a ≤ 0xC9F))) →
        CsrDone s i f 0#64 s)
    ∧ (a = 0x306 → CsrDone s i f (s.csr.m.counteren.setWidth 64)
        { s with csr := { s.csr with m := { s.csr.m with
            counteren := (csrNew f.op (s.csr.m.counteren.setWidth 64) f.operand).setWidth 32 } } })
    ∧ (a = 0x106 → CsrDone s i f (s.csr.s.counteren.setWidth 64)
        { s with csr := { s.csr with s := { s.csr.s with
            counteren := (csrNew f.op (s.csr.s.counteren.setWidth 64) f.operand).setWidth 32 } } })
    ∧ (a = 0x30A → BankInv s →
        (s.xlen = .x64 → CsrDone s i f s.csr.m.envcfg
          { s with csr := { s.csr with m := { s.csr.m with
              envcfg := csrNew f.op s.csr.m.envcfg f.operand &&& 0x8000000000000000#64 } } })
        ∧ (s.xlen = .x32 → CsrDone s i f 0#64 s))
    ∧ (a = 0x31A → BankInv s → s.xlen = .x32 → ∃ (old : Word) (u : State), CsrDone s i f old u
        ∧ old.toNat = s.csr.m.envcfg.toNat / 2 ^ 32
        ∧ u = { s with csr := { s.csr with m := { s.csr.m with envcfg := u.csr.m.envcfg } } }
        ∧ u.csr.m.envcfg.toNat = (csrNew f.op old f.operand).toNat / 2 ^ 31 % 2 * 2 ^ 63)
    ∧ (a = 0x10A → BankInv s → CsrDone s i f 0#64 s)
    ∧ (a = 0x747 → BankInv s → CsrDone s i f s.csr.mseccfg
        { s with csr := { s.csr with mseccfg := csrNew f.op s.csr.mseccfg f.operand &&& 0x300#64 } })
    ∧ ∀ acc : BitVec 8, acc = s.csr.fcsr ||| s.fpAccrued.setWidth 8 → csrOpen s .fcsr →
      (a = 0x003 → ∃ u, CsrDone s i f (acc.setWidth 64) u
        ∧ u = { s with csr := { s.csr with fcsr := (csrNew f.op (acc.setWidth 64) f.operand).setWidth 8 },
                       fpAccrued := u.fpAccrued }
        ∧ u.fpAccrued = if s.fpAccrued &&& ~~~(u.csr.fcsr.setWidth 5) = 0#5 then s.fpAccrued else 0#5)
      ∧ (a = 0x001 → ∃ (old : Word) (u : State), CsrDone s i f old u ∧ old.toNat = acc.toNat % 32
        ∧ u = { s with csr := { s.csr with fcsr := u.csr.fcsr }, fpAccrued := u.fpAccrued }
        ∧ u.csr.fcsr.toNat = acc.toNat / 32 * 32 + (csrNew f.op old f.operand).toNat % 32
        ∧ u.fpAccrued = if s.fpAccrued &&& ~~~(u.csr.fcsr.setWidth 5) = 0#5 then s.fpAccrued else 0#5)
      ∧ (a = 0x002 → ∃ (old : Word) (u : State), CsrDone s i f old u ∧ old.toNat = acc.toNat / 32
        ∧ u = { s with csr := { s.csr with fcsr := u.csr.fcsr } }
        ∧ u.csr.fcsr.toNat = (csrNew f.op old f.operand).toNat % 8 * 32 + acc.toNat % 32)
end

