-- ==== Sys2Proof/Laws/State.lean ====
section
/-! SUPPORT. What each named update leaves of each field: one lemma per field per update, so that no proof unfolds a
record update; and the equation that says the whole frame of an update at once. -/

namespace Sys2Proof.Machine

/-- Equal states have equal fields, and conversely. -/
theorem State.eq_of_fields {s t : State} (hhw : s.hw = t.hw) (hregs : s.regs = t.regs) (hpc : s.pc = t.pc)
    (hpriv : s.priv = t.priv) (hcsr : s.csr = t.csr) (hmmu : s.mmuMode = t.mmuMode)
    (hroot : s.rootPageTable = t.rootPageTable) (htlb : s.tlb = t.tlb) (hirq : s.irqPending = t.irqPending)
    (hcmp : s.stimecmp = t.stimecmp) (hres : s.reservation = t.reservation) (hwait : s.waiting = t.waiting)
    (hfp : s.fpAccrued = t.fpAccrued) (hmem : s.mem = t.mem) (htime : s.time = t.time) (hdraws : s.draws = t.draws)
    (hlog : s.devLog = t.devLog) (hinbox : s.inbox = t.inbox) : s = t := by
  cases s; cases t; simp_all

/-! ### `setPc` -/

@[simp] theorem State.setPc_hw {n : Nat} (s : State) (t : BitVec n) : (s.setPc t).hw = s.hw := rfl
@[simp] theorem State.setPc_regs {n : Nat} (s : State) (t : BitVec n) : (s.setPc t).regs = s.regs := rfl
@[simp] theorem State.setPc_priv {n : Nat} (s : State) (t : BitVec n) : (s.setPc t).priv = s.priv := rfl
@[simp] theorem State.setPc_csr {n : Nat} (s : State) (t : BitVec n) : (s.setPc t).csr = s.csr := rfl
@[simp] theorem State.setPc_mmuMode {n : Nat} (s : State) (t : BitVec n) : (s.setPc t).mmuMode = s.mmuMode := rfl
@[simp] theorem State.setPc_rootPageTable {n : Nat} (s : State) (t : BitVec n) : (s.setPc t).rootPageTable = s.rootPageTable := rfl
@[simp] theorem State.setPc_tlb {n : Nat} (s : State) (t : BitVec n) : (s.setPc t).tlb = s.tlb := rfl
@[simp] theorem State.setPc_irqPending {n : Nat} (s : State) (t : BitVec n) : (s.setPc t).irqPending = s.irqPending := rfl
@[simp] theorem State.setPc_stimecmp {n : Nat} (s : State) (t : BitVec n) : (s.setPc t).stimecmp = s.stimecmp := rfl
@[simp] theorem State.setPc_reservation {n : Nat} (s : State) (t : BitVec n) : (s.setPc t).reservation = s.reservation := rfl
@[simp] theorem State.setPc_waiting {n : Nat} (s : State) (t : BitVec n) : (s.setPc t).waiting = s.waiting := rfl
@[simp] theorem State.setPc_fpAccrued {n : Nat} (s : State) (t : BitVec n) : (s.setPc t).fpAccrued = s.fpAccrued := rfl
@[simp] theorem State.setPc_mem {n : Nat} (s : State) (t : BitVec n) : (s.setPc t).mem = s.mem := rfl
@[simp] theorem State.setPc_time {n : Nat} (s : State) (t : BitVec n) : (s.setPc t).time = s.time := rfl
@[simp] theorem State.setPc_draws {n : Nat} (s : State) (t : BitVec n) : (s.setPc t).draws = s.draws := rfl
@[simp] theorem State.setPc_devLog {n : Nat} (s : State) (t : BitVec n) : (s.setPc t).devLog = s.devLog := rfl
@[simp] theorem State.setPc_inbox {n : Nat} (s : State) (t : BitVec n) : (s.setPc t).inbox = s.inbox := rfl
@[simp] theorem State.setPc_pc {n : Nat} (s : State) (t : BitVec n) : (s.setPc t).pc = t.setWidth 64 := rfl
theorem State.setPc_frame {n : Nat} (s : State) (t : BitVec n) :
    s.setPc t = { s with pc := (s.setPc t).pc } := by
  apply State.eq_of_fields <;> simp

/-! ### `jumpTo` -/

@[simp] theorem State.jumpTo_hw (s : State) (v : Word) : (s.jumpTo v).hw = s.hw := rfl
@[simp] theorem State.jumpTo_regs (s : State) (v : Word) : (s.jumpTo v).regs = s.regs := rfl
@[simp] theorem State.jumpTo_priv (s : State) (v : Word) : (s.jumpTo v).priv = s.priv := rfl
@[simp] theorem State.jumpTo_csr (s : State) (v : Word) : (s.jumpTo v).csr = s.csr := rfl
@[simp] theorem State.jumpTo_mmuMode (s : State) (v : Word) : (s.jumpTo v).mmuMode = s.mmuMode := rfl
@[simp] theorem State.jumpTo_rootPageTable (s : State) (v : Word) : (s.jumpTo v).rootPageTable = s.rootPageTable := rfl
@[simp] theorem State.jumpTo_tlb (s : State) (v : Word) : (s.jumpTo v).tlb = s.tlb := rfl
@[simp] theorem State.jumpTo_irqPending (s : State) (v : Word) : (s.jumpTo v).irqPending = s.irqPending := rfl
@[simp] theorem State.jumpTo_stimecmp (s : State) (v : Word) : (s.jumpTo v).stimecmp = s.stimecmp := rfl
@[simp] theorem State.jumpTo_reservation (s : State) (v : Word) : (s.jumpTo v).reservation = s.reservation := rfl
@[simp] theorem State.jumpTo_waiting (s : State) (v : Word) : (s.jumpTo v).waiting = s.waiting := rfl
@[simp] theorem State.jumpTo_fpAccrued (s : State) (v : Word) : (s.jumpTo v).fpAccrued = s.fpAccrued := rfl
@[simp] theorem State.jumpTo_mem (s : State) (v : Word) : (s.jumpTo v).mem = s.mem := rfl
@[simp] theorem State.jumpTo_time (s : State) (v : Word) : (s.jumpTo v).time = s.time := rfl
@[simp] theorem State.jumpTo_draws (s : State) (v : Word) : (s.jumpTo v).draws = s.draws := rfl
@[simp] theorem State.jumpTo_devLog (s : State) (v : Word) : (s.jumpTo v).devLog = s.devLog := rfl
@[simp] theorem State.jumpTo_inbox (s : State) (v : Word) : (s.jumpTo v).inbox = s.inbox := rfl
theorem State.jumpTo_pc (s : State) (v : Word) : (s.jumpTo v).pc = (v.setWidth s.xw).setWidth 64 := rfl
theorem State.jumpTo_frame (s : State) (v : Word) :
    s.jumpTo v = { s with pc := (s.jumpTo v).pc } := by
  apply State.eq_of_fields <;> simp

/-! ### `setX` -/

@[simp] theorem State.setX_hw {n : Nat} (s : State) (i : Reg) (v : BitVec n) : (s.setX i v).hw = s.hw := by unfold State.setX; split <;> rfl
@[simp] theorem State.setX_pc {n : Nat} (s : State) (i : Reg) (v : BitVec n) : (s.setX i v).pc = s.pc := by unfold State.setX; split <;> rfl
@[simp] theorem State.setX_priv {n : Nat} (s : State) (i : Reg) (v : BitVec n) : (s.setX i v).priv = s.priv := by unfold State.setX; split <;> rfl
@[simp] theorem State.setX_csr {n : Nat} (s : State) (i : Reg) (v : BitVec n) : (s.setX i v).csr = s.csr := by unfold State.setX; split <;> rfl
@[simp] theorem State.setX_mmuMode {n : Nat} (s : State) (i : Reg) (v : BitVec n) : (s.setX i v).mmuMode = s.mmuMode := by unfold State.setX; split <;> rfl
@[simp] theorem State.setX_rootPageTable {n : Nat} (s : State) (i : Reg) (v : BitVec n) : (s.setX i v).rootPageTable = s.rootPageTable := by unfold State.setX; split <;> rfl
@[simp] theorem State.setX_tlb {n : Nat} (s : State) (i : Reg) (v : BitVec n) : (s.setX i v).tlb = s.tlb := by unfold State.setX; split <;> rfl
@[simp] theorem State.setX_irqPending {n : Nat} (s : State) (i : Reg) (v : BitVec n) : (s.setX i v).irqPending = s.irqPending := by unfold State.setX; split <;> rfl
@[simp] theorem State.setX_stimecmp {n : Nat} (s : State) (i : Reg) (v : BitVec n) : (s.setX i v).stimecmp = s.stimecmp := by unfold State.setX; split <;> rfl
@[simp] theorem State.setX_reservation {n : Nat} (s : State) (i : Reg) (v : BitVec n) : (s.setX i v).reservation = s.reservation := by unfold State.setX; split <;> rfl
@[simp] theorem State.setX_waiting {n : Nat} (s : State) (i : Reg) (v : BitVec n) : (s.setX i v).waiting = s.waiting := by unfold State.setX; split <;> rfl
@[simp] theorem State.setX_fpAccrued {n : Nat} (s : State) (i : Reg) (v : BitVec n) : (s.setX i v).fpAccrued = s.fpAccrued := by unfold State.setX; split <;> rfl
@[simp] theorem State.setX_mem {n : Nat} (s : State) (i : Reg) (v : BitVec n) : (s.setX i v).mem = s.mem := by unfold State.setX; split <;> rfl
@[simp] theorem State.setX_time {n : Nat} (s : State) (i : Reg) (v : BitVec n) : (s.setX i v).time = s.time := by unfold State.setX; split <;> rfl
@[simp] theorem State.setX_draws {n : Nat} (s : State) (i : Reg) (v : BitVec n) : (s.setX i v).draws = s.draws := by unfold State.setX; split <;> rfl
@[simp] theorem State.setX_devLog {n : Nat} (s : State) (i : Reg) (v : BitVec n) : (s.setX i v).devLog = s.devLog := by unfold State.setX; split <;> rfl
@[simp] theorem State.setX_inbox {n : Nat} (s : State) (i : Reg) (v : BitVec n) : (s.setX i v).inbox = s.inbox := by unfold State.setX; split <;> rfl
theorem State.setX_regs {n : Nat} (s : State) (i : Reg) (v : BitVec n) :
    (s.setX i v).regs = if i = 0#5 then s.regs else s.regs.set i.toNat (v.signExtend 64) i.isLt := by
  unfold State.setX; split <;> rfl
theorem State.setX_frame {n : Nat} (s : State) (i : Reg) (v : BitVec n) :
    s.setX i v = { s with regs := (s.setX i v).regs } := by
  apply State.eq_of_fields <;> simp

/-! ### `tlbFlush` -/

@[simp] theorem State.tlbFlush_hw (s : State) : (s.tlbFlush).hw = s.hw := rfl
@[simp] theorem State.tlbFlush_regs (s : State) : (s.tlbFlush).regs = s.regs := rfl
@[simp] theorem State.tlbFlush_pc (s : State) : (s.tlbFlush).pc = s.pc := rfl
@[simp] theorem State.tlbFlush_priv (s : State) : (s.tlbFlush).priv = s.priv := rfl
@[simp] theorem State.tlbFlush_csr (s : State) : (s.tlbFlush).csr = s.csr := rfl
@[simp] theorem State.tlbFlush_mmuMode (s : State) : (s.tlbFlush).mmuMode = s.mmuMode := rfl
@[simp] theorem State.tlbFlush_rootPageTable (s : State) : (s.tlbFlush).rootPageTable = s.rootPageTable := rfl
@[simp] theorem State.tlbFlush_irqPending (s : State) : (s.tlbFlush).irqPending = s.irqPending := rfl
@[simp] theorem State.tlbFlush_stimecmp (s : State) : (s.tlbFlush).stimecmp = s.stimecmp := rfl
@[simp] theorem State.tlbFlush_reservation (s : State) : (s.tlbFlush).reservation = s.reservation := rfl
@[simp] theorem State.tlbFlush_waiting (s : State) : (s.tlbFlush).waiting = s.waiting := rfl
@[simp] theorem State.tlbFlush_fpAccrued (s : State) : (s.tlbFlush).fpAccrued = s.fpAccrued := rfl
@[simp] theorem State.tlbFlush_mem (s : State) : (s.tlbFlush).mem = s.mem := rfl
@[simp] theorem State.tlbFlush_time (s : State) : (s.tlbFlush).time = s.time := rfl
@[simp] theorem State.tlbFlush_draws (s : State) : (s.tlbFlush).draws = s.draws := rfl
@[simp] theorem State.tlbFlush_devLog (s : State) : (s.tlbFlush).devLog = s.devLog := rfl
@[simp] theorem State.tlbFlush_inbox (s : State) : (s.tlbFlush).inbox = s.inbox := rfl
@[simp] theorem State.tlbFlush_tlb (s : State) : s.tlbFlush.tlb = Tlb.empty := rfl
theorem State.tlbFlush_frame (s : State) :
    s.tlbFlush = { s with tlb := (s.tlbFlush).tlb } := by
  apply State.eq_of_fields <;> simp

/-! ### `tlbInstall` -/

@[simp] theorem State.tlbInstall_hw (s : State) (v p : BitVec 52) (a : Acc) : (s.tlbInstall v p a).hw = s.hw := by unfold State.tlbInstall; split <;> rfl
@[simp] theorem State.tlbInstall_regs (s : State) (v p : BitVec 52) (a : Acc) : (s.tlbInstall v p a).regs = s.regs := by unfold State.tlbInstall; split <;> rfl
@[simp] theorem State.tlbInstall_pc (s : State) (v p : BitVec 52) (a : Acc) : (s.tlbInstall v p a).pc = s.pc := by unfold State.tlbInstall; split <;> rfl
@[simp] theorem State.tlbInstall_priv (s : State) (v p : BitVec 52) (a : Acc) : (s.tlbInstall v p a).priv = s.priv := by unfold State.tlbInstall; split <;> rfl
@[simp] theorem State.tlbInstall_csr (s : State) (v p : BitVec 52) (a : Acc) : (s.tlbInstall v p a).csr = s.csr := by unfold State.tlbInstall; split <;> rfl
@[simp] theorem State.tlbInstall_mmuMode (s : State) (v p : BitVec 52) (a : Acc) : (s.tlbInstall v p a).mmuMode = s.mmuMode := by unfold State.tlbInstall; split <;> rfl
@[simp] theorem State.tlbInstall_rootPageTable (s : State) (v p : BitVec 52) (a : Acc) : (s.tlbInstall v p a).rootPageTable = s.rootPageTable := by unfold State.tlbInstall; split <;> rfl
@[simp] theorem State.tlbInstall_irqPending (s : State) (v p : BitVec 52) (a : Acc) : (s.tlbInstall v p a).irqPending = s.irqPending := by unfold State.tlbInstall; split <;> rfl
@[simp] theorem State.tlbInstall_stimecmp (s : State) (v p : BitVec 52) (a : Acc) : (s.tlbInstall v p a).stimecmp = s.stimecmp := by unfold State.tlbInstall; split <;> rfl
@[simp] theorem State.tlbInstall_reservation (s : State) (v p : BitVec 52) (a : Acc) : (s.tlbInstall v p a).reservation = s.reservation := by unfold State.tlbInstall; split <;> rfl
@[simp] theorem State.tlbInstall_waiting (s : State) (v p : BitVec 52) (a : Acc) : (s.tlbInstall v p a).waiting = s.waiting := by unfold State.tlbInstall; split <;> rfl
@[simp] theorem State.tlbInstall_fpAccrued (s : State) (v p : BitVec 52) (a : Acc) : (s.tlbInstall v p a).fpAccrued = s.fpAccrued := by unfold State.tlbInstall; split <;> rfl
@[simp] theorem State.tlbInstall_mem (s : State) (v p : BitVec 52) (a : Acc) : (s.tlbInstall v p a).mem = s.mem := by unfold State.tlbInstall; split <;> rfl
@[simp] theorem State.tlbInstall_time (s : State) (v p : BitVec 52) (a : Acc) : (s.tlbInstall v p a).time = s.time := by unfold State.tlbInstall; split <;> rfl
@[simp] theorem State.tlbInstall_draws (s : State) (v p : BitVec 52) (a : Acc) : (s.tlbInstall v p a).draws = s.draws := by unfold State.tlbInstall; split <;> rfl
@[simp] theorem State.tlbInstall_devLog (s : State) (v p : BitVec 52) (a : Acc) : (s.tlbInstall v p a).devLog = s.devLog := by unfold State.tlbInstall; split <;> rfl
@[simp] theorem State.tlbInstall_inbox (s : State) (v p : BitVec 52) (a : Acc) : (s.tlbInstall v p a).inbox = s.inbox := by unfold State.tlbInstall; split <;> rfl
theorem State.tlbInstall_tlb (s : State) (v p : BitVec 52) (a : Acc) : (s.tlbInstall v p a).tlb =
    if Params.inRam s.hw (p.toNat * 4096) 4096 = true then
      ⟨assocPut s.tlb.slots (s.tlbSlot v) (s.tlbFilled v p a), s.tlbDisplaced v p ++ s.tlb.gone⟩
    else s.tlb := by
  unfold State.tlbInstall; split <;> rfl
theorem State.tlbInstall_frame (s : State) (v p : BitVec 52) (a : Acc) :
    s.tlbInstall v p a = { s with tlb := (s.tlbInstall v p a).tlb } := by
  apply State.eq_of_fields <;> simp

/-! ### `touchPte` -/

@[simp] theorem State.touchPte_hw (s : State) (l : Leaf) (a : Acc) : (s.touchPte l a).hw = s.hw := by unfold State.touchPte; split <;> rfl
@[simp] theorem State.touchPte_regs (s : State) (l : Leaf) (a : Acc) : (s.touchPte l a).regs = s.regs := by unfold State.touchPte; split <;> rfl
@[simp] theorem State.touchPte_pc (s : State) (l : Leaf) (a : Acc) : (s.touchPte l a).pc = s.pc := by unfold State.touchPte; split <;> rfl
@[simp] theorem State.touchPte_priv (s : State) (l : Leaf) (a : Acc) : (s.touchPte l a).priv = s.priv := by unfold State.touchPte; split <;> rfl
@[simp] theorem State.touchPte_csr (s : State) (l : Leaf) (a : Acc) : (s.touchPte l a).csr = s.csr := by unfold State.touchPte; split <;> rfl
@[simp] theorem State.touchPte_mmuMode (s : State) (l : Leaf) (a : Acc) : (s.touchPte l a).mmuMode = s.mmuMode := by unfold State.touchPte; split <;> rfl
@[simp] theorem State.touchPte_rootPageTable (s : State) (l : Leaf) (a : Acc) : (s.touchPte l a).rootPageTable = s.rootPageTable := by unfold State.touchPte; split <;> rfl
@[simp] theorem State.touchPte_tlb (s : State) (l : Leaf) (a : Acc) : (s.touchPte l a).tlb = s.tlb := by unfold State.touchPte; split <;> rfl
@[simp] theorem State.touchPte_irqPending (s : State) (l : Leaf) (a : Acc) : (s.touchPte l a).irqPending = s.irqPending := by unfold State.touchPte; split <;> rfl
@[simp] theorem State.touchPte_stimecmp (s : State) (l : Leaf) (a : Acc) : (s.touchPte l a).stimecmp = s.stimecmp := by unfold State.touchPte; split <;> rfl
@[simp] theorem State.touchPte_reservation (s : State) (l : Leaf) (a : Acc) : (s.touchPte l a).reservation = s.reservation := by unfold State.touchPte; split <;> rfl
@[simp] theorem State.touchPte_waiting (s : State) (l : Leaf) (a : Acc) : (s.touchPte l a).waiting = s.waiting := by unfold State.touchPte; split <;> rfl
@[simp] theorem State.touchPte_fpAccrued (s : State) (l : Leaf) (a : Acc) : (s.touchPte l a).fpAccrued = s.fpAccrued := by unfold State.touchPte; split <;> rfl
@[simp] theorem State.touchPte_time (s : State) (l : Leaf) (a : Acc) : (s.touchPte l a).time = s.time := by unfold State.touchPte; split <;> rfl
@[simp] theorem State.touchPte_draws (s : State) (l : Leaf) (a : Acc) : (s.touchPte l a).draws = s.draws := by unfold State.touchPte; split <;> rfl
@[simp] theorem State.touchPte_devLog (s : State) (l : Leaf) (a : Acc) : (s.touchPte l a).devLog = s.devLog := by unfold State.touchPte; split <;> rfl
@[simp] theorem State.touchPte_inbox (s : State) (l : Leaf) (a : Acc) : (s.touchPte l a).inbox = s.inbox := by unfold State.touchPte; split <;> rfl
theorem State.touchPte_mem (s : State) (l : Leaf) (a : Acc) : (s.touchPte l a).mem =
    if pteTouched l.pte a = l.pte then s.mem else s.mem.store l.addr s.mmuMode.pteSize (pteTouched l.pte a).toNat := by
  unfold State.touchPte; split <;> rfl
theorem State.touchPte_frame (s : State) (l : Leaf) (a : Acc) :
    s.touchPte l a = { s with mem := (s.touchPte l a).mem } := by
  apply State.eq_of_fields <;> simp

/-! ### `writeStatus` -/

@[simp] theorem State.writeStatus_hw (s : State) (w : Word) : (s.writeStatus w).hw = s.hw := by unfold State.writeStatus; dsimp only; split <;> rfl
@[simp] theorem State.writeStatus_regs (s : State) (w : Word) : (s.writeStatus w).regs = s.regs := by unfold State.writeStatus; dsimp only; split <;> rfl
@[simp] theorem State.writeStatus_pc (s : State) (w : Word) : (s.writeStatus w).pc = s.pc := by unfold State.writeStatus; dsimp only; split <;> rfl
@[simp] theorem State.writeStatus_priv (s : State) (w : Word) : (s.writeStatus w).priv = s.priv := by unfold State.writeStatus; dsimp only; split <;> rfl
@[simp] theorem State.writeStatus_mmuMode (s : State) (w : Word) : (s.writeStatus w).mmuMode = s.mmuMode := by unfold State.writeStatus; dsimp only; split <;> rfl
@[simp] theorem State.writeStatus_rootPageTable (s : State) (w : Word) : (s.writeStatus w).rootPageTable = s.rootPageTable := by unfold State.writeStatus; dsimp only; split <;> rfl
@[simp] theorem State.writeStatus_irqPending (s : State) (w : Word) : (s.writeStatus w).irqPending = s.irqPending := by unfold State.writeStatus; dsimp only; split <;> rfl
@[simp] theorem State.writeStatus_stimecmp (s : State) (w : Word) : (s.writeStatus w).stimecmp = s.stimecmp := by unfold State.writeStatus; dsimp only; split <;> rfl
@[simp] theorem State.writeStatus_reservation (s : State) (w : Word) : (s.writeStatus w).reservation = s.reservation := by unfold State.writeStatus; dsimp only; split <;> rfl
@[simp] theorem State.writeStatus_waiting (s : State) (w : Word) : (s.writeStatus w).waiting = s.waiting := by unfold State.writeStatus; dsimp only; split <;> rfl
@[simp] theorem State.writeStatus_fpAccrued (s : State) (w : Word) : (s.writeStatus w).fpAccrued = s.fpAccrued := by unfold State.writeStatus; dsimp only; split <;> rfl
@[simp] theorem State.writeStatus_mem (s : State) (w : Word) : (s.writeStatus w).mem = s.mem := by unfold State.writeStatus; dsimp only; split <;> rfl
@[simp] theorem State.writeStatus_time (s : State) (w : Word) : (s.writeStatus w).time = s.time := by unfold State.writeStatus; dsimp only; split <;> rfl
@[simp] theorem State.writeStatus_draws (s : State) (w : Word) : (s.writeStatus w).draws = s.draws := by unfold State.writeStatus; dsimp only; split <;> rfl
@[simp] theorem State.writeStatus_devLog (s : State) (w : Word) : (s.writeStatus w).devLog = s.devLog := by unfold State.writeStatus; dsimp only; split <;> rfl
@[simp] theorem State.writeStatus_inbox (s : State) (w : Word) : (s.writeStatus w).inbox = s.inbox := by unfold State.writeStatus; dsimp only; split <;> rfl
@[simp] theorem State.writeStatus_csr (s : State) (w : Word) :
    (s.writeStatus w).csr = { s.csr with status := validate s.hw w } := by
  unfold State.writeStatus; dsimp only; split <;> rfl
theorem State.writeStatus_tlb (s : State) (w : Word) : (s.writeStatus w).tlb =
    if (validate s.hw w ^^^ s.csr.status) &&& statusFlushMask = 0#64 then s.tlb else Tlb.empty := by
  unfold State.writeStatus; dsimp only; split <;> rfl
theorem State.writeStatus_frame (s : State) (w : Word) :
    s.writeStatus w = { s with csr := (s.writeStatus w).csr, tlb := (s.writeStatus w).tlb } := by
  apply State.eq_of_fields <;> simp

/-! ### `setPriv` -/

@[simp] theorem State.setPriv_hw (s : State) (p : Priv) : (s.setPriv p).hw = s.hw := by unfold State.setPriv; split <;> rfl
@[simp] theorem State.setPriv_regs (s : State) (p : Priv) : (s.setPriv p).regs = s.regs := by unfold State.setPriv; split <;> rfl
@[simp] theorem State.setPriv_pc (s : State) (p : Priv) : (s.setPriv p).pc = s.pc := by unfold State.setPriv; split <;> rfl
@[simp] theorem State.setPriv_csr (s : State) (p : Priv) : (s.setPriv p).csr = s.csr := by unfold State.setPriv; split <;> rfl
@[simp] theorem State.setPriv_mmuMode (s : State) (p : Priv) : (s.setPriv p).mmuMode = s.mmuMode := by unfold State.setPriv; split <;> rfl
@[simp] theorem State.setPriv_rootPageTable (s : State) (p : Priv) : (s.setPriv p).rootPageTable = s.rootPageTable := by unfold State.setPriv; split <;> rfl
@[simp] theorem State.setPriv_irqPending (s : State) (p : Priv) : (s.setPriv p).irqPending = s.irqPending := by unfold State.setPriv; split <;> rfl
@[simp] theorem State.setPriv_stimecmp (s : State) (p : Priv) : (s.setPriv p).stimecmp = s.stimecmp := by unfold State.setPriv; split <;> rfl
@[simp] theorem State.setPriv_reservation (s : State) (p : Priv) : (s.setPriv p).reservation = s.reservation := by unfold State.setPriv; split <;> rfl
@[simp] theorem State.setPriv_waiting (s : State) (p : Priv) : (s.setPriv p).waiting = s.waiting := by unfold State.setPriv; split <;> rfl
@[simp] theorem State.setPriv_fpAccrued (s : State) (p : Priv) : (s.setPriv p).fpAccrued = s.fpAccrued := by unfold State.setPriv; split <;> rfl
@[simp] theorem State.setPriv_mem (s : State) (p : Priv) : (s.setPriv p).mem = s.mem := by unfold State.setPriv; split <;> rfl
@[simp] theorem State.setPriv_time (s : State) (p : Priv) : (s.setPriv p).time = s.time := by unfold State.setPriv; split <;> rfl
@[simp] theorem State.setPriv_draws (s : State) (p : Priv) : (s.setPriv p).draws = s.draws := by unfold State.setPriv; split <;> rfl
@[simp] theorem State.setPriv_devLog (s : State) (p : Priv) : (s.setPriv p).devLog = s.devLog := by unfold State.setPriv; split <;> rfl
@[simp] theorem State.setPriv_inbox (s : State) (p : Priv) : (s.setPriv p).inbox = s.inbox := by unfold State.setPriv; split <;> rfl
@[simp] theorem State.setPriv_priv (s : State) (p : Priv) : (s.setPriv p).priv = p := by
  unfold State.setPriv; split <;> simp_all [State.tlbFlush]
theorem State.setPriv_tlb (s : State) (p : Priv) : (s.setPriv p).tlb = if p = s.priv then s.tlb else Tlb.empty := by
  unfold State.setPriv; split <;> rfl
theorem State.setPriv_frame (s : State) (p : Priv) :
    s.setPriv p = { s with priv := (s.setPriv p).priv, tlb := (s.setPriv p).tlb } := by
  apply State.eq_of_fields <;> simp

/-! ### `putTrap` -/

@[simp] theorem State.putTrap_hw (s : State) (l : Lvl) (r : TrapRegs) : (s.putTrap l r).hw = s.hw := rfl
@[simp] theorem State.putTrap_regs (s : State) (l : Lvl) (r : TrapRegs) : (s.putTrap l r).regs = s.regs := rfl
@[simp] theorem State.putTrap_pc (s : State) (l : Lvl) (r : TrapRegs) : (s.putTrap l r).pc = s.pc := rfl
@[simp] theorem State.putTrap_priv (s : State) (l : Lvl) (r : TrapRegs) : (s.putTrap l r).priv = s.priv := rfl
@[simp] theorem State.putTrap_mmuMode (s : State) (l : Lvl) (r : TrapRegs) : (s.putTrap l r).mmuMode = s.mmuMode := rfl
@[simp] theorem State.putTrap_rootPageTable (s : State) (l : Lvl) (r : TrapRegs) : (s.putTrap l r).rootPageTable = s.rootPageTable := rfl
@[simp] theorem State.putTrap_tlb (s : State) (l : Lvl) (r : TrapRegs) : (s.putTrap l r).tlb = s.tlb := rfl
@[simp] theorem State.putTrap_irqPending (s : State) (l : Lvl) (r : TrapRegs) : (s.putTrap l r).irqPending = s.irqPending := rfl
@[simp] theorem State.putTrap_stimecmp (s : State) (l : Lvl) (r : TrapRegs) : (s.putTrap l r).stimecmp = s.stimecmp := rfl
@[simp] theorem State.putTrap_reservation (s : State) (l : Lvl) (r : TrapRegs) : (s.putTrap l r).reservation = s.reservation := rfl
@[simp] theorem State.putTrap_waiting (s : State) (l : Lvl) (r : TrapRegs) : (s.putTrap l r).waiting = s.waiting := rfl
@[simp] theorem State.putTrap_fpAccrued (s : State) (l : Lvl) (r : TrapRegs) : (s.putTrap l r).fpAccrued = s.fpAccrued := rfl
@[simp] theorem State.putTrap_mem (s : State) (l : Lvl) (r : TrapRegs) : (s.putTrap l r).mem = s.mem := rfl
@[simp] theorem State.putTrap_time (s : State) (l : Lvl) (r : TrapRegs) : (s.putTrap l r).time = s.time := rfl
@[simp] theorem State.putTrap_draws (s : State) (l : Lvl) (r : TrapRegs) : (s.putTrap l r).draws = s.draws := rfl
@[simp] theorem State.putTrap_devLog (s : State) (l : Lvl) (r : TrapRegs) : (s.putTrap l r).devLog = s.devLog := rfl
@[simp] theorem State.putTrap_inbox (s : State) (l : Lvl) (r : TrapRegs) : (s.putTrap l r).inbox = s.inbox := rfl
theorem State.putTrap_csr (s : State) (l : Lvl) (r : TrapRegs) : (s.putTrap l r).csr = s.csr.putAt l r := rfl
theorem State.putTrap_frame (s : State) (l : Lvl) (r : TrapRegs) :
    s.putTrap l r = { s with csr := (s.putTrap l r).csr } := by
  apply State.eq_of_fields <;> simp

/-! ### `accrueFp` -/

@[simp] theorem State.accrueFp_hw (s : State) : (s.accrueFp).hw = s.hw := rfl
@[simp] theorem State.accrueFp_regs (s : State) : (s.accrueFp).regs = s.regs := rfl
@[simp] theorem State.accrueFp_pc (s : State) : (s.accrueFp).pc = s.pc := rfl
@[simp] theorem State.accrueFp_priv (s : State) : (s.accrueFp).priv = s.priv := rfl
@[simp] theorem State.accrueFp_mmuMode (s : State) : (s.accrueFp).mmuMode = s.mmuMode := rfl
@[simp] theorem State.accrueFp_rootPageTable (s : State) : (s.accrueFp).rootPageTable = s.rootPageTable := rfl
@[simp] theorem State.accrueFp_tlb (s : State) : (s.accrueFp).tlb = s.tlb := rfl
@[simp] theorem State.accrueFp_irqPending (s : State) : (s.accrueFp).irqPending = s.irqPending := rfl
@[simp] theorem State.accrueFp_stimecmp (s : State) : (s.accrueFp).stimecmp = s.stimecmp := rfl
@[simp] theorem State.accrueFp_reservation (s : State) : (s.accrueFp).reservation = s.reservation := rfl
@[simp] theorem State.accrueFp_waiting (s : State) : (s.accrueFp).waiting = s.waiting := rfl
@[simp] theorem State.accrueFp_fpAccrued (s : State) : (s.accrueFp).fpAccrued = s.fpAccrued := rfl
@[simp] theorem State.accrueFp_mem (s : State) : (s.accrueFp).mem = s.mem := rfl
@[simp] theorem State.accrueFp_time (s : State) : (s.accrueFp).time = s.time := rfl
@[simp] theorem State.accrueFp_draws (s : State) : (s.accrueFp).draws = s.draws := rfl
@[simp] theorem State.accrueFp_devLog (s : State) : (s.accrueFp).devLog = s.devLog := rfl
@[simp] theorem State.accrueFp_inbox (s : State) : (s.accrueFp).inbox = s.inbox := rfl
theorem State.accrueFp_frame (s : State) :
    s.accrueFp = { s with csr := (s.accrueFp).csr } := by
  apply State.eq_of_fields <;> simp

/-! ### `writeFcsr` -/

@[simp] theorem State.writeFcsr_hw (s : State) (v : BitVec 8) : (s.writeFcsr v).hw = s.hw := rfl
@[simp] theorem State.writeFcsr_regs (s : State) (v : BitVec 8) : (s.writeFcsr v).regs = s.regs := rfl
@[simp] theorem State.writeFcsr_pc (s : State) (v : BitVec 8) : (s.writeFcsr v).pc = s.pc := rfl
@[simp] theorem State.writeFcsr_priv (s : State) (v : BitVec 8) : (s.writeFcsr v).priv = s.priv := rfl
@[simp] theorem State.writeFcsr_mmuMode (s : State) (v : BitVec 8) : (s.writeFcsr v).mmuMode = s.mmuMode := rfl
@[simp] theorem State.writeFcsr_rootPageTable (s : State) (v : BitVec 8) : (s.writeFcsr v).rootPageTable = s.rootPageTable := rfl
@[simp] theorem State.writeFcsr_tlb (s : State) (v : BitVec 8) : (s.writeFcsr v).tlb = s.tlb := rfl
@[simp] theorem State.writeFcsr_irqPending (s : State) (v : BitVec 8) : (s.writeFcsr v).irqPending = s.irqPending := rfl
@[simp] theorem State.writeFcsr_stimecmp (s : State) (v : BitVec 8) : (s.writeFcsr v).stimecmp = s.stimecmp := rfl
@[simp] theorem State.writeFcsr_reservation (s : State) (v : BitVec 8) : (s.writeFcsr v).reservation = s.reservation := rfl
@[simp] theorem State.writeFcsr_waiting (s : State) (v : BitVec 8) : (s.writeFcsr v).waiting = s.waiting := rfl
@[simp] theorem State.writeFcsr_mem (s : State) (v : BitVec 8) : (s.writeFcsr v).mem = s.mem := rfl
@[simp] theorem State.writeFcsr_time (s : State) (v : BitVec 8) : (s.writeFcsr v).time = s.time := rfl
@[simp] theorem State.writeFcsr_draws (s : State) (v : BitVec 8) : (s.writeFcsr v).draws = s.draws := rfl
@[simp] theorem State.writeFcsr_devLog (s : State) (v : BitVec 8) : (s.writeFcsr v).devLog = s.devLog := rfl
@[simp] theorem State.writeFcsr_inbox (s : State) (v : BitVec 8) : (s.writeFcsr v).inbox = s.inbox := rfl
theorem State.writeFcsr_frame (s : State) (v : BitVec 8) :
    s.writeFcsr v = { s with csr := (s.writeFcsr v).csr, fpAccrued := (s.writeFcsr v).fpAccrued } := by
  apply State.eq_of_fields <;> simp

/-! ### `writeIe` -/

@[simp] theorem State.writeIe_hw (s : State) (m v : BitVec 12) : (s.writeIe m v).hw = s.hw := rfl
@[simp] theorem State.writeIe_regs (s : State) (m v : BitVec 12) : (s.writeIe m v).regs = s.regs := rfl
@[simp] theorem State.writeIe_pc (s : State) (m v : BitVec 12) : (s.writeIe m v).pc = s.pc := rfl
@[simp] theorem State.writeIe_priv (s : State) (m v : BitVec 12) : (s.writeIe m v).priv = s.priv := rfl
@[simp] theorem State.writeIe_mmuMode (s : State) (m v : BitVec 12) : (s.writeIe m v).mmuMode = s.mmuMode := rfl
@[simp] theorem State.writeIe_rootPageTable (s : State) (m v : BitVec 12) : (s.writeIe m v).rootPageTable = s.rootPageTable := rfl
@[simp] theorem State.writeIe_tlb (s : State) (m v : BitVec 12) : (s.writeIe m v).tlb = s.tlb := rfl
@[simp] theorem State.writeIe_irqPending (s : State) (m v : BitVec 12) : (s.writeIe m v).irqPending = s.irqPending := rfl
@[simp] theorem State.writeIe_stimecmp (s : State) (m v : BitVec 12) : (s.writeIe m v).stimecmp = s.stimecmp := rfl
@[simp] theorem State.writeIe_reservation (s : State) (m v : BitVec 12) : (s.writeIe m v).reservation = s.reservation := rfl
@[simp] theorem State.writeIe_waiting (s : State) (m v : BitVec 12) : (s.writeIe m v).waiting = s.waiting := rfl
@[simp] theorem State.writeIe_fpAccrued (s : State) (m v : BitVec 12) : (s.writeIe m v).fpAccrued = s.fpAccrued := rfl
@[simp] theorem State.writeIe_mem (s : State) (m v : BitVec 12) : (s.writeIe m v).mem = s.mem := rfl
@[simp] theorem State.writeIe_time (s : State) (m v : BitVec 12) : (s.writeIe m v).time = s.time := rfl
@[simp] theorem State.writeIe_draws (s : State) (m v : BitVec 12) : (s.writeIe m v).draws = s.draws := rfl
@[simp] theorem State.writeIe_devLog (s : State) (m v : BitVec 12) : (s.writeIe m v).devLog = s.devLog := rfl
@[simp] theorem State.writeIe_inbox (s : State) (m v : BitVec 12) : (s.writeIe m v).inbox = s.inbox := rfl
theorem State.writeIe_frame (s : State) (m v : BitVec 12) :
    s.writeIe m v = { s with csr := (s.writeIe m v).csr } := by
  apply State.eq_of_fields <;> simp

/-! ### `writeIp` -/

@[simp] theorem State.writeIp_hw (s : State) (m : BitVec 12) (o : CsrOp) (v : Word) : (s.writeIp m o v).hw = s.hw := rfl
@[simp] theorem State.writeIp_regs (s : State) (m : BitVec 12) (o : CsrOp) (v : Word) : (s.writeIp m o v).regs = s.regs := rfl
@[simp] theorem State.writeIp_pc (s : State) (m : BitVec 12) (o : CsrOp) (v : Word) : (s.writeIp m o v).pc = s.pc := rfl
@[simp] theorem State.writeIp_priv (s : State) (m : BitVec 12) (o : CsrOp) (v : Word) : (s.writeIp m o v).priv = s.priv := rfl
@[simp] theorem State.writeIp_mmuMode (s : State) (m : BitVec 12) (o : CsrOp) (v : Word) : (s.writeIp m o v).mmuMode = s.mmuMode := rfl
@[simp] theorem State.writeIp_rootPageTable (s : State) (m : BitVec 12) (o : CsrOp) (v : Word) : (s.writeIp m o v).rootPageTable = s.rootPageTable := rfl
@[simp] theorem State.writeIp_tlb (s : State) (m : BitVec 12) (o : CsrOp) (v : Word) : (s.writeIp m o v).tlb = s.tlb := rfl
@[simp] theorem State.writeIp_irqPending (s : State) (m : BitVec 12) (o : CsrOp) (v : Word) : (s.writeIp m o v).irqPending = s.irqPending := rfl
@[simp] theorem State.writeIp_stimecmp (s : State) (m : BitVec 12) (o : CsrOp) (v : Word) : (s.writeIp m o v).stimecmp = s.stimecmp := rfl
@[simp] theorem State.writeIp_reservation (s : State) (m : BitVec 12) (o : CsrOp) (v : Word) : (s.writeIp m o v).reservation = s.reservation := rfl
@[simp] theorem State.writeIp_waiting (s : State) (m : BitVec 12) (o : CsrOp) (v : Word) : (s.writeIp m o v).waiting = s.waiting := rfl
@[simp] theorem State.writeIp_fpAccrued (s : State) (m : BitVec 12) (o : CsrOp) (v : Word) : (s.writeIp m o v).fpAccrued = s.fpAccrued := rfl
@[simp] theorem State.writeIp_mem (s : State) (m : BitVec 12) (o : CsrOp) (v : Word) : (s.writeIp m o v).mem = s.mem := rfl
@[simp] theorem State.writeIp_time (s : State) (m : BitVec 12) (o : CsrOp) (v : Word) : (s.writeIp m o v).time = s.time := rfl
@[simp] theorem State.writeIp_draws (s : State) (m : BitVec 12) (o : CsrOp) (v : Word) : (s.writeIp m o v).draws = s.draws := rfl
@[simp] theorem State.writeIp_devLog (s : State) (m : BitVec 12) (o : CsrOp) (v : Word) : (s.writeIp m o v).devLog = s.devLog := rfl
@[simp] theorem State.writeIp_inbox (s : State) (m : BitVec 12) (o : CsrOp) (v : Word) : (s.writeIp m o v).inbox = s.inbox := rfl
theorem State.writeIp_frame (s : State) (m : BitVec 12) (o : CsrOp) (v : Word) :
    s.writeIp m o v = { s with csr := (s.writeIp m o v).csr } := by
  apply State.eq_of_fields <;> simp

/-! ### `writeMisa` -/

@[simp] theorem State.writeMisa_hw (s : State) (x : Xlen) (v : Word) : (State.writeMisa x s v).hw = s.hw := by unfold State.writeMisa; split <;> split <;> rfl
@[simp] theorem State.writeMisa_regs (s : State) (x : Xlen) (v : Word) : (State.writeMisa x s v).regs = s.regs := by unfold State.writeMisa; split <;> split <;> rfl
@[simp] theorem State.writeMisa_pc (s : State) (x : Xlen) (v : Word) : (State.writeMisa x s v).pc = s.pc := by unfold State.writeMisa; split <;> split <;> rfl
@[simp] theorem State.writeMisa_priv (s : State) (x : Xlen) (v : Word) : (State.writeMisa x s v).priv = s.priv := by unfold State.writeMisa; split <;> split <;> rfl
@[simp] theorem State.writeMisa_mmuMode (s : State) (x : Xlen) (v : Word) : (State.writeMisa x s v).mmuMode = s.mmuMode := by unfold State.writeMisa; split <;> split <;> rfl
@[simp] theorem State.writeMisa_rootPageTable (s : State) (x : Xlen) (v : Word) : (State.writeMisa x s v).rootPageTable = s.rootPageTable := by unfold State.writeMisa; split <;> split <;> rfl
@[simp] theorem State.writeMisa_irqPending (s : State) (x : Xlen) (v : Word) : (State.writeMisa x s v).irqPending = s.irqPending := by unfold State.writeMisa; split <;> split <;> rfl
@[simp] theorem State.writeMisa_stimecmp (s : State) (x : Xlen) (v : Word) : (State.writeMisa x s v).stimecmp = s.stimecmp := by unfold State.writeMisa; split <;> split <;> rfl
@[simp] theorem State.writeMisa_reservation (s : State) (x : Xlen) (v : Word) : (State.writeMisa x s v).reservation = s.reservation := by unfold State.writeMisa; split <;> split <;> rfl
@[simp] theorem State.writeMisa_waiting (s : State) (x : Xlen) (v : Word) : (State.writeMisa x s v).waiting = s.waiting := by unfold State.writeMisa; split <;> split <;> rfl
@[simp] theorem State.writeMisa_fpAccrued (s : State) (x : Xlen) (v : Word) : (State.writeMisa x s v).fpAccrued = s.fpAccrued := by unfold State.writeMisa; split <;> split <;> rfl
@[simp] theorem State.writeMisa_mem (s : State) (x : Xlen) (v : Word) : (State.writeMisa x s v).mem = s.mem := by unfold State.writeMisa; split <;> split <;> rfl
@[simp] theorem State.writeMisa_time (s : State) (x : Xlen) (v : Word) : (State.writeMisa x s v).time = s.time := by unfold State.writeMisa; split <;> split <;> rfl
@[simp] theorem State.writeMisa_draws (s : State) (x : Xlen) (v : Word) : (State.writeMisa x s v).draws = s.draws := by unfold State.writeMisa; split <;> split <;> rfl
@[simp] theorem State.writeMisa_devLog (s : State) (x : Xlen) (v : Word) : (State.writeMisa x s v).devLog = s.devLog := by unfold State.writeMisa; split <;> split <;> rfl
@[simp] theorem State.writeMisa_inbox (s : State) (x : Xlen) (v : Word) : (State.writeMisa x s v).inbox = s.inbox := by unfold State.writeMisa; split <;> split <;> rfl
theorem State.writeMisa_frame (s : State) (x : Xlen) (v : Word) :
    State.writeMisa x s v = { s with csr := (State.writeMisa x s v).csr, tlb := (State.writeMisa x s v).tlb } := by
  apply State.eq_of_fields <;> simp

/-! ### `writeSatp` -/

@[simp] theorem State.writeSatp_hw (s : State) (x : Xlen) (v : Word) : (State.writeSatp x s v).hw = s.hw := by unfold State.writeSatp; dsimp only; split <;> rfl
@[simp] theorem State.writeSatp_regs (s : State) (x : Xlen) (v : Word) : (State.writeSatp x s v).regs = s.regs := by unfold State.writeSatp; dsimp only; split <;> rfl
@[simp] theorem State.writeSatp_pc (s : State) (x : Xlen) (v : Word) : (State.writeSatp x s v).pc = s.pc := by unfold State.writeSatp; dsimp only; split <;> rfl
@[simp] theorem State.writeSatp_priv (s : State) (x : Xlen) (v : Word) : (State.writeSatp x s v).priv = s.priv := by unfold State.writeSatp; dsimp only; split <;> rfl
@[simp] theorem State.writeSatp_csr (s : State) (x : Xlen) (v : Word) : (State.writeSatp x s v).csr = s.csr := by unfold State.writeSatp; dsimp only; split <;> rfl
@[simp] theorem State.writeSatp_irqPending (s : State) (x : Xlen) (v : Word) : (State.writeSatp x s v).irqPending = s.irqPending := by unfold State.writeSatp; dsimp only; split <;> rfl
@[simp] theorem State.writeSatp_stimecmp (s : State) (x : Xlen) (v : Word) : (State.writeSatp x s v).stimecmp = s.stimecmp := by unfold State.writeSatp; dsimp only; split <;> rfl
@[simp] theorem State.writeSatp_reservation (s : State) (x : Xlen) (v : Word) : (State.writeSatp x s v).reservation = s.reservation := by unfold State.writeSatp; dsimp only; split <;> rfl
@[simp] theorem State.writeSatp_waiting (s : State) (x : Xlen) (v : Word) : (State.writeSatp x s v).waiting = s.waiting := by unfold State.writeSatp; dsimp only; split <;> rfl
@[simp] theorem State.writeSatp_fpAccrued (s : State) (x : Xlen) (v : Word) : (State.writeSatp x s v).fpAccrued = s.fpAccrued := by unfold State.writeSatp; dsimp only; split <;> rfl
@[simp] theorem State.writeSatp_mem (s : State) (x : Xlen) (v : Word) : (State.writeSatp x s v).mem = s.mem := by unfold State.writeSatp; dsimp only; split <;> rfl
@[simp] theorem State.writeSatp_time (s : State) (x : Xlen) (v : Word) : (State.writeSatp x s v).time = s.time := by unfold State.writeSatp; dsimp only; split <;> rfl
@[simp] theorem State.writeSatp_draws (s : State) (x : Xlen) (v : Word) : (State.writeSatp x s v).draws = s.draws := by unfold State.writeSatp; dsimp only; split <;> rfl
@[simp] theorem State.writeSatp_devLog (s : State) (x : Xlen) (v : Word) : (State.writeSatp x s v).devLog = s.devLog := by unfold State.writeSatp; dsimp only; split <;> rfl
@[simp] theorem State.writeSatp_inbox (s : State) (x : Xlen) (v : Word) : (State.writeSatp x s v).inbox = s.inbox := by unfold State.writeSatp; dsimp only; split <;> rfl
theorem State.writeSatp_frame (s : State) (x : Xlen) (v : Word) :
    State.writeSatp x s v = { s with mmuMode := (State.writeSatp x s v).mmuMode, rootPageTable := (State.writeSatp x s v).rootPageTable, tlb := (State.writeSatp x s v).tlb } := by
  apply State.eq_of_fields <;> simp

/-! ### `setIrq` -/

@[simp] theorem State.setIrq_hw (s : State) (c : Nat) (b : Bool) : (s.setIrq c b).hw = s.hw := rfl
@[simp] theorem State.setIrq_regs (s : State) (c : Nat) (b : Bool) : (s.setIrq c b).regs = s.regs := rfl
@[simp] theorem State.setIrq_pc (s : State) (c : Nat) (b : Bool) : (s.setIrq c b).pc = s.pc := rfl
@[simp] theorem State.setIrq_priv (s : State) (c : Nat) (b : Bool) : (s.setIrq c b).priv = s.priv := rfl
@[simp] theorem State.setIrq_csr (s : State) (c : Nat) (b : Bool) : (s.setIrq c b).csr = s.csr := rfl
@[simp] theorem State.setIrq_mmuMode (s : State) (c : Nat) (b : Bool) : (s.setIrq c b).mmuMode = s.mmuMode := rfl
@[simp] theorem State.setIrq_rootPageTable (s : State) (c : Nat) (b : Bool) : (s.setIrq c b).rootPageTable = s.rootPageTable := rfl
@[simp] theorem State.setIrq_tlb (s : State) (c : Nat) (b : Bool) : (s.setIrq c b).tlb = s.tlb := rfl
@[simp] theorem State.setIrq_stimecmp (s : State) (c : Nat) (b : Bool) : (s.setIrq c b).stimecmp = s.stimecmp := rfl
@[simp] theorem State.setIrq_reservation (s : State) (c : Nat) (b : Bool) : (s.setIrq c b).reservation = s.reservation := rfl
@[simp] theorem State.setIrq_waiting (s : State) (c : Nat) (b : Bool) : (s.setIrq c b).waiting = s.waiting := rfl
@[simp] theorem State.setIrq_fpAccrued (s : State) (c : Nat) (b : Bool) : (s.setIrq c b).fpAccrued = s.fpAccrued := rfl
@[simp] theorem State.setIrq_mem (s : State) (c : Nat) (b : Bool) : (s.setIrq c b).mem = s.mem := rfl
@[simp] theorem State.setIrq_time (s : State) (c : Nat) (b : Bool) : (s.setIrq c b).time = s.time := rfl
@[simp] theorem State.setIrq_draws (s : State) (c : Nat) (b : Bool) : (s.setIrq c b).draws = s.draws := rfl
@[simp] theorem State.setIrq_devLog (s : State) (c : Nat) (b : Bool) : (s.setIrq c b).devLog = s.devLog := rfl
@[simp] theorem State.setIrq_inbox (s : State) (c : Nat) (b : Bool) : (s.setIrq c b).inbox = s.inbox := rfl
theorem State.setIrq_frame (s : State) (c : Nat) (b : Bool) :
    s.setIrq c b = { s with irqPending := (s.setIrq c b).irqPending } := by
  apply State.eq_of_fields <;> simp

/-! ### `writeStimecmp` -/

@[simp] theorem State.writeStimecmp_hw (s : State) (v : Word) : (s.writeStimecmp v).hw = s.hw := rfl
@[simp] theorem State.writeStimecmp_regs (s : State) (v : Word) : (s.writeStimecmp v).regs = s.regs := rfl
@[simp] theorem State.writeStimecmp_pc (s : State) (v : Word) : (s.writeStimecmp v).pc = s.pc := rfl
@[simp] theorem State.writeStimecmp_priv (s : State) (v : Word) : (s.writeStimecmp v).priv = s.priv := rfl
@[simp] theorem State.writeStimecmp_csr (s : State) (v : Word) : (s.writeStimecmp v).csr = s.csr := rfl
@[simp] theorem State.writeStimecmp_mmuMode (s : State) (v : Word) : (s.writeStimecmp v).mmuMode = s.mmuMode := rfl
@[simp] theorem State.writeStimecmp_rootPageTable (s : State) (v : Word) : (s.writeStimecmp v).rootPageTable = s.rootPageTable := rfl
@[simp] theorem State.writeStimecmp_tlb (s : State) (v : Word) : (s.writeStimecmp v).tlb = s.tlb := rfl
@[simp] theorem State.writeStimecmp_reservation (s : State) (v : Word) : (s.writeStimecmp v).reservation = s.reservation := rfl
@[simp] theorem State.writeStimecmp_waiting (s : State) (v : Word) : (s.writeStimecmp v).waiting = s.waiting := rfl
@[simp] theorem State.writeStimecmp_fpAccrued (s : State) (v : Word) : (s.writeStimecmp v).fpAccrued = s.fpAccrued := rfl
@[simp] theorem State.writeStimecmp_mem (s : State) (v : Word) : (s.writeStimecmp v).mem = s.mem := rfl
@[simp] theorem State.writeStimecmp_time (s : State) (v : Word) : (s.writeStimecmp v).time = s.time := rfl
@[simp] theorem State.writeStimecmp_draws (s : State) (v : Word) : (s.writeStimecmp v).draws = s.draws := rfl
@[simp] theorem State.writeStimecmp_devLog (s : State) (v : Word) : (s.writeStimecmp v).devLog = s.devLog := rfl
@[simp] theorem State.writeStimecmp_inbox (s : State) (v : Word) : (s.writeStimecmp v).inbox = s.inbox := rfl
theorem State.writeStimecmp_frame (s : State) (v : Word) :
    s.writeStimecmp v = { s with stimecmp := (s.writeStimecmp v).stimecmp, irqPending := (s.writeStimecmp v).irqPending } := by
  apply State.eq_of_fields <;> simp

/-! ### `sampleTime` -/

@[simp] theorem State.sampleTime_hw (s : State) : (s.sampleTime).hw = s.hw := rfl
@[simp] theorem State.sampleTime_regs (s : State) : (s.sampleTime).regs = s.regs := rfl
@[simp] theorem State.sampleTime_pc (s : State) : (s.sampleTime).pc = s.pc := rfl
@[simp] theorem State.sampleTime_priv (s : State) : (s.sampleTime).priv = s.priv := rfl
@[simp] theorem State.sampleTime_csr (s : State) : (s.sampleTime).csr = s.csr := rfl
@[simp] theorem State.sampleTime_mmuMode (s : State) : (s.sampleTime).mmuMode = s.mmuMode := rfl
@[simp] theorem State.sampleTime_rootPageTable (s : State) : (s.sampleTime).rootPageTable = s.rootPageTable := rfl
@[simp] theorem State.sampleTime_tlb (s : State) : (s.sampleTime).tlb = s.tlb := rfl
@[simp] theorem State.sampleTime_irqPending (s : State) : (s.sampleTime).irqPending = s.irqPending := rfl
@[simp] theorem State.sampleTime_stimecmp (s : State) : (s.sampleTime).stimecmp = s.stimecmp := rfl
@[simp] theorem State.sampleTime_reservation (s : State) : (s.sampleTime).reservation = s.reservation := rfl
@[simp] theorem State.sampleTime_waiting (s : State) : (s.sampleTime).waiting = s.waiting := rfl
@[simp] theorem State.sampleTime_fpAccrued (s : State) : (s.sampleTime).fpAccrued = s.fpAccrued := rfl
@[simp] theorem State.sampleTime_mem (s : State) : (s.sampleTime).mem = s.mem := rfl
@[simp] theorem State.sampleTime_devLog (s : State) : (s.sampleTime).devLog = s.devLog := rfl
@[simp] theorem State.sampleTime_inbox (s : State) : (s.sampleTime).inbox = s.inbox := rfl
theorem State.sampleTime_frame (s : State) :
    s.sampleTime = { s with time := (s.sampleTime).time, draws := (s.sampleTime).draws } := by
  apply State.eq_of_fields <;> simp

/-! ### `compareTime` -/

@[simp] theorem State.compareTime_hw (s : State) : (s.compareTime).hw = s.hw := by unfold State.compareTime; split <;> rfl
@[simp] theorem State.compareTime_regs (s : State) : (s.compareTime).regs = s.regs := by unfold State.compareTime; split <;> rfl
@[simp] theorem State.compareTime_pc (s : State) : (s.compareTime).pc = s.pc := by unfold State.compareTime; split <;> rfl
@[simp] theorem State.compareTime_priv (s : State) : (s.compareTime).priv = s.priv := by unfold State.compareTime; split <;> rfl
@[simp] theorem State.compareTime_csr (s : State) : (s.compareTime).csr = s.csr := by unfold State.compareTime; split <;> rfl
@[simp] theorem State.compareTime_mmuMode (s : State) : (s.compareTime).mmuMode = s.mmuMode := by unfold State.compareTime; split <;> rfl
@[simp] theorem State.compareTime_rootPageTable (s : State) : (s.compareTime).rootPageTable = s.rootPageTable := by unfold State.compareTime; split <;> rfl
@[simp] theorem State.compareTime_tlb (s : State) : (s.compareTime).tlb = s.tlb := by unfold State.compareTime; split <;> rfl
@[simp] theorem State.compareTime_stimecmp (s : State) : (s.compareTime).stimecmp = s.stimecmp := by unfold State.compareTime; split <;> rfl
@[simp] theorem State.compareTime_reservation (s : State) : (s.compareTime).reservation = s.reservation := by unfold State.compareTime; split <;> rfl
@[simp] theorem State.compareTime_waiting (s : State) : (s.compareTime).waiting = s.waiting := by unfold State.compareTime; split <;> rfl
@[simp] theorem State.compareTime_fpAccrued (s : State) : (s.compareTime).fpAccrued = s.fpAccrued := by unfold State.compareTime; split <;> rfl
@[simp] theorem State.compareTime_mem (s : State) : (s.compareTime).mem = s.mem := by unfold State.compareTime; split <;> rfl
@[simp] theorem State.compareTime_time (s : State) : (s.compareTime).time = s.time := by unfold State.compareTime; split <;> rfl
@[simp] theorem State.compareTime_draws (s : State) : (s.compareTime).draws = s.draws := by unfold State.compareTime; split <;> rfl
@[simp] theorem State.compareTime_devLog (s : State) : (s.compareTime).devLog = s.devLog := by unfold State.compareTime; split <;> rfl
@[simp] theorem State.compareTime_inbox (s : State) : (s.compareTime).inbox = s.inbox := by unfold State.compareTime; split <;> rfl
theorem State.compareTime_irqPending (s : State) : s.compareTime.irqPending =
    if s.stce = true ∧ s.stimecmp.toNat ≤ s.time.toNat then s.irqPending ||| 0x020#12 else s.irqPending := by
  unfold State.compareTime; split <;> rfl
theorem State.compareTime_frame (s : State) :
    s.compareTime = { s with irqPending := (s.compareTime).irqPending } := by
  apply State.eq_of_fields <;> simp

/-! ### `event` -/

@[simp] theorem State.event_hw (s : State) (e : Event) : (s.event e).hw = s.hw := by cases e <;> rfl
@[simp] theorem State.event_regs (s : State) (e : Event) : (s.event e).regs = s.regs := by cases e <;> rfl
@[simp] theorem State.event_pc (s : State) (e : Event) : (s.event e).pc = s.pc := by cases e <;> rfl
@[simp] theorem State.event_priv (s : State) (e : Event) : (s.event e).priv = s.priv := by cases e <;> rfl
@[simp] theorem State.event_csr (s : State) (e : Event) : (s.event e).csr = s.csr := by cases e <;> rfl
@[simp] theorem State.event_mmuMode (s : State) (e : Event) : (s.event e).mmuMode = s.mmuMode := by cases e <;> rfl
@[simp] theorem State.event_rootPageTable (s : State) (e : Event) : (s.event e).rootPageTable = s.rootPageTable := by cases e <;> rfl
@[simp] theorem State.event_tlb (s : State) (e : Event) : (s.event e).tlb = s.tlb := by cases e <;> rfl
@[simp] theorem State.event_stimecmp (s : State) (e : Event) : (s.event e).stimecmp = s.stimecmp := by cases e <;> rfl
@[simp] theorem State.event_waiting (s : State) (e : Event) : (s.event e).waiting = s.waiting := by cases e <;> rfl
@[simp] theorem State.event_fpAccrued (s : State) (e : Event) : (s.event e).fpAccrued = s.fpAccrued := by cases e <;> rfl
@[simp] theorem State.event_time (s : State) (e : Event) : (s.event e).time = s.time := by cases e <;> rfl
@[simp] theorem State.event_draws (s : State) (e : Event) : (s.event e).draws = s.draws := by cases e <;> rfl
@[simp] theorem State.event_devLog (s : State) (e : Event) : (s.event e).devLog = s.devLog := by cases e <;> rfl
@[simp] theorem State.event_inbox (s : State) (e : Event) : (s.event e).inbox = s.inbox := by cases e <;> rfl
theorem State.event_frame (s : State) (e : Event) :
    s.event e = { s with irqPending := (s.event e).irqPending, mem := (s.event e).mem, reservation := (s.event e).reservation } := by
  apply State.eq_of_fields <;> simp

/-! ### `enterM` -/

@[simp] theorem State.enterM_hw (s : State) (i : Bool) (c : Nat) (v : Word) : (s.enterM i c v).hw = s.hw := by simp [State.enterM]
@[simp] theorem State.enterM_regs (s : State) (i : Bool) (c : Nat) (v : Word) : (s.enterM i c v).regs = s.regs := by simp [State.enterM]
@[simp] theorem State.enterM_mmuMode (s : State) (i : Bool) (c : Nat) (v : Word) : (s.enterM i c v).mmuMode = s.mmuMode := by simp [State.enterM]
@[simp] theorem State.enterM_rootPageTable (s : State) (i : Bool) (c : Nat) (v : Word) : (s.enterM i c v).rootPageTable = s.rootPageTable := by simp [State.enterM]
@[simp] theorem State.enterM_irqPending (s : State) (i : Bool) (c : Nat) (v : Word) : (s.enterM i c v).irqPending = s.irqPending := by simp [State.enterM]
@[simp] theorem State.enterM_stimecmp (s : State) (i : Bool) (c : Nat) (v : Word) : (s.enterM i c v).stimecmp = s.stimecmp := by simp [State.enterM]
@[simp] theorem State.enterM_reservation (s : State) (i : Bool) (c : Nat) (v : Word) : (s.enterM i c v).reservation = s.reservation := by simp [State.enterM]
@[simp] theorem State.enterM_waiting (s : State) (i : Bool) (c : Nat) (v : Word) : (s.enterM i c v).waiting = s.waiting := by simp [State.enterM]
@[simp] theorem State.enterM_fpAccrued (s : State) (i : Bool) (c : Nat) (v : Word) : (s.enterM i c v).fpAccrued = s.fpAccrued := by simp [State.enterM]
@[simp] theorem State.enterM_mem (s : State) (i : Bool) (c : Nat) (v : Word) : (s.enterM i c v).mem = s.mem := by simp [State.enterM]
@[simp] theorem State.enterM_time (s : State) (i : Bool) (c : Nat) (v : Word) : (s.enterM i c v).time = s.time := by simp [State.enterM]
@[simp] theorem State.enterM_draws (s : State) (i : Bool) (c : Nat) (v : Word) : (s.enterM i c v).draws = s.draws := by simp [State.enterM]
@[simp] theorem State.enterM_devLog (s : State) (i : Bool) (c : Nat) (v : Word) : (s.enterM i c v).devLog = s.devLog := by simp [State.enterM]
@[simp] theorem State.enterM_inbox (s : State) (i : Bool) (c : Nat) (v : Word) : (s.enterM i c v).inbox = s.inbox := by simp [State.enterM]
theorem State.enterM_frame (s : State) (i : Bool) (c : Nat) (v : Word) :
    s.enterM i c v = { s with csr := (s.enterM i c v).csr, priv := (s.enterM i c v).priv, tlb := (s.enterM i c v).tlb, pc := (s.enterM i c v).pc } := by
  apply State.eq_of_fields <;> simp

/-! ### `enterS` -/

@[simp] theorem State.enterS_hw (s : State) (i : Bool) (c : Nat) (v : Word) : (s.enterS i c v).hw = s.hw := by simp [State.enterS]
@[simp] theorem State.enterS_regs (s : State) (i : Bool) (c : Nat) (v : Word) : (s.enterS i c v).regs = s.regs := by simp [State.enterS]
@[simp] theorem State.enterS_mmuMode (s : State) (i : Bool) (c : Nat) (v : Word) : (s.enterS i c v).mmuMode = s.mmuMode := by simp [State.enterS]
@[simp] theorem State.enterS_rootPageTable (s : State) (i : Bool) (c : Nat) (v : Word) : (s.enterS i c v).rootPageTable = s.rootPageTable := by simp [State.enterS]
@[simp] theorem State.enterS_irqPending (s : State) (i : Bool) (c : Nat) (v : Word) : (s.enterS i c v).irqPending = s.irqPending := by simp [State.enterS]
@[simp] theorem State.enterS_stimecmp (s : State) (i : Bool) (c : Nat) (v : Word) : (s.enterS i c v).stimecmp = s.stimecmp := by simp [State.enterS]
@[simp] theorem State.enterS_reservation (s : State) (i : Bool) (c : Nat) (v : Word) : (s.enterS i c v).reservation = s.reservation := by simp [State.enterS]
@[simp] theorem State.enterS_waiting (s : State) (i : Bool) (c : Nat) (v : Word) : (s.enterS i c v).waiting = s.waiting := by simp [State.enterS]
@[simp] theorem State.enterS_fpAccrued (s : State) (i : Bool) (c : Nat) (v : Word) : (s.enterS i c v).fpAccrued = s.fpAccrued := by simp [State.enterS]
@[simp] theorem State.enterS_mem (s : State) (i : Bool) (c : Nat) (v : Word) : (s.enterS i c v).mem = s.mem := by simp [State.enterS]
@[simp] theorem State.enterS_time (s : State) (i : Bool) (c : Nat) (v : Word) : (s.enterS i c v).time = s.time := by simp [State.enterS]
@[simp] theorem State.enterS_draws (s : State) (i : Bool) (c : Nat) (v : Word) : (s.enterS i c v).draws = s.draws := by simp [State.enterS]
@[simp] theorem State.enterS_devLog (s : State) (i : Bool) (c : Nat) (v : Word) : (s.enterS i c v).devLog = s.devLog := by simp [State.enterS]
@[simp] theorem State.enterS_inbox (s : State) (i : Bool) (c : Nat) (v : Word) : (s.enterS i c v).inbox = s.inbox := by simp [State.enterS]
theorem State.enterS_frame (s : State) (i : Bool) (c : Nat) (v : Word) :
    s.enterS i c v = { s with csr := (s.enterS i c v).csr, priv := (s.enterS i c v).priv, tlb := (s.enterS i c v).tlb, pc := (s.enterS i c v).pc } := by
  apply State.eq_of_fields <;> simp

/-! ### `takeTrap` -/

@[simp] theorem State.takeTrap_hw (s : State) (i : Bool) (c : Nat) (v : Word) : (s.takeTrap i c v).hw = s.hw := by unfold State.takeTrap; split <;> simp
@[simp] theorem State.takeTrap_regs (s : State) (i : Bool) (c : Nat) (v : Word) : (s.takeTrap i c v).regs = s.regs := by unfold State.takeTrap; split <;> simp
@[simp] theorem State.takeTrap_mmuMode (s : State) (i : Bool) (c : Nat) (v : Word) : (s.takeTrap i c v).mmuMode = s.mmuMode := by unfold State.takeTrap; split <;> simp
@[simp] theorem State.takeTrap_rootPageTable (s : State) (i : Bool) (c : Nat) (v : Word) : (s.takeTrap i c v).rootPageTable = s.rootPageTable := by unfold State.takeTrap; split <;> simp
@[simp] theorem State.takeTrap_irqPending (s : State) (i : Bool) (c : Nat) (v : Word) : (s.takeTrap i c v).irqPending = s.irqPending := by unfold State.takeTrap; split <;> simp
@[simp] theorem State.takeTrap_stimecmp (s : State) (i : Bool) (c : Nat) (v : Word) : (s.takeTrap i c v).stimecmp = s.stimecmp := by unfold State.takeTrap; split <;> simp
@[simp] theorem State.takeTrap_reservation (s : State) (i : Bool) (c : Nat) (v : Word) : (s.takeTrap i c v).reservation = s.reservation := by unfold State.takeTrap; split <;> simp
@[simp] theorem State.takeTrap_waiting (s : State) (i : Bool) (c : Nat) (v : Word) : (s.takeTrap i c v).waiting = s.waiting := by unfold State.takeTrap; split <;> simp
@[simp] theorem State.takeTrap_fpAccrued (s : State) (i : Bool) (c : Nat) (v : Word) : (s.takeTrap i c v).fpAccrued = s.fpAccrued := by unfold State.takeTrap; split <;> simp
@[simp] theorem State.takeTrap_mem (s : State) (i : Bool) (c : Nat) (v : Word) : (s.takeTrap i c v).mem = s.mem := by unfold State.takeTrap; split <;> simp
@[simp] theorem State.takeTrap_time (s : State) (i : Bool) (c : Nat) (v : Word) : (s.takeTrap i c v).time = s.time := by unfold State.takeTrap; split <;> simp
@[simp] theorem State.takeTrap_draws (s : State) (i : Bool) (c : Nat) (v : Word) : (s.takeTrap i c v).draws = s.draws := by unfold State.takeTrap; split <;> simp
@[simp] theorem State.takeTrap_devLog (s : State) (i : Bool) (c : Nat) (v : Word) : (s.takeTrap i c v).devLog = s.devLog := by unfold State.takeTrap; split <;> simp
@[simp] theorem State.takeTrap_inbox (s : State) (i : Bool) (c : Nat) (v : Word) : (s.takeTrap i c v).inbox = s.inbox := by unfold State.takeTrap; split <;> simp
theorem State.takeTrap_frame (s : State) (i : Bool) (c : Nat) (v : Word) :
    s.takeTrap i c v = { s with csr := (s.takeTrap i c v).csr, priv := (s.takeTrap i c v).priv, tlb := (s.takeTrap i c v).tlb, pc := (s.takeTrap i c v).pc } := by
  apply State.eq_of_fields <;> simp

/-! ### `returnM` -/

@[simp] theorem State.returnM_hw (s : State) : (s.returnM).hw = s.hw := by simp [State.returnM]
@[simp] theorem State.returnM_regs (s : State) : (s.returnM).regs = s.regs := by simp [State.returnM]
@[simp] theorem State.returnM_mmuMode (s : State) : (s.returnM).mmuMode = s.mmuMode := by simp [State.returnM]
@[simp] theorem State.returnM_rootPageTable (s : State) : (s.returnM).rootPageTable = s.rootPageTable := by simp [State.returnM]
@[simp] theorem State.returnM_irqPending (s : State) : (s.returnM).irqPending = s.irqPending := by simp [State.returnM]
@[simp] theorem State.returnM_stimecmp (s : State) : (s.returnM).stimecmp = s.stimecmp := by simp [State.returnM]
@[simp] theorem State.returnM_reservation (s : State) : (s.returnM).reservation = s.reservation := by simp [State.returnM]
@[simp] theorem State.returnM_waiting (s : State) : (s.returnM).waiting = s.waiting := by simp [State.returnM]
@[simp] theorem State.returnM_fpAccrued (s : State) : (s.returnM).fpAccrued = s.fpAccrued := by simp [State.returnM]
@[simp] theorem State.returnM_mem (s : State) : (s.returnM).mem = s.mem := by simp [State.returnM]
@[simp] theorem State.returnM_time (s : State) : (s.returnM).time = s.time := by simp [State.returnM]
@[simp] theorem State.returnM_draws (s : State) : (s.returnM).draws = s.draws := by simp [State.returnM]
@[simp] theorem State.returnM_devLog (s : State) : (s.returnM).devLog = s.devLog := by simp [State.returnM]
@[simp] theorem State.returnM_inbox (s : State) : (s.returnM).inbox = s.inbox := by simp [State.returnM]
theorem State.returnM_frame (s : State) :
    s.returnM = { s with csr := (s.returnM).csr, priv := (s.returnM).priv, tlb := (s.returnM).tlb, pc := (s.returnM).pc } := by
  apply State.eq_of_fields <;> simp

/-! ### `returnS` -/

@[simp] theorem State.returnS_hw (s : State) : (s.returnS).hw = s.hw := by simp [State.returnS]
@[simp] theorem State.returnS_regs (s : State) : (s.returnS).regs = s.regs := by simp [State.returnS]
@[simp] theorem State.returnS_mmuMode (s : State) : (s.returnS).mmuMode = s.mmuMode := by simp [State.returnS]
@[simp] theorem State.returnS_rootPageTable (s : State) : (s.returnS).rootPageTable = s.rootPageTable := by simp [State.returnS]
@[simp] theorem State.returnS_irqPending (s : State) : (s.returnS).irqPending = s.irqPending := by simp [State.returnS]
@[simp] theorem State.returnS_stimecmp (s : State) : (s.returnS).stimecmp = s.stimecmp := by simp [State.returnS]
@[simp] theorem State.returnS_reservation (s : State) : (s.returnS).reservation = s.reservation := by simp [State.returnS]
@[simp] theorem State.returnS_waiting (s : State) : (s.returnS).waiting = s.waiting := by simp [State.returnS]
@[simp] theorem State.returnS_fpAccrued (s : State) : (s.returnS).fpAccrued = s.fpAccrued := by simp [State.returnS]
@[simp] theorem State.returnS_mem (s : State) : (s.returnS).mem = s.mem := by simp [State.returnS]
@[simp] theorem State.returnS_time (s : State) : (s.returnS).time = s.time := by simp [State.returnS]
@[simp] theorem State.returnS_draws (s : State) : (s.returnS).draws = s.draws := by simp [State.returnS]
@[simp] theorem State.returnS_devLog (s : State) : (s.returnS).devLog = s.devLog := by simp [State.returnS]
@[simp] theorem State.returnS_inbox (s : State) : (s.returnS).inbox = s.inbox := by simp [State.returnS]
theorem State.returnS_frame (s : State) :
    s.returnS = { s with csr := (s.returnS).csr, priv := (s.returnS).priv, tlb := (s.returnS).tlb, pc := (s.returnS).pc } := by
  apply State.eq_of_fields <;> simp

/-! ### XLEN depends on the parameters, the bank and the mode only -/

theorem State.xw_congr {s t : State} (hhw : t.hw = s.hw) (hcsr : t.csr = s.csr) (hpriv : t.priv = s.priv) : t.xw = s.xw := by
  simp [State.xw, State.xlen, State.xlenIn, hhw, hcsr, hpriv]

theorem State.xw_eq (s : State) : s.xw = 32 ∨ s.xw = 64 := by
  unfold State.xw; cases s.xlen <;> simp [Xlen.bits]

theorem State.xw_x32 {s : State} (h : s.xlen = .x32) : s.xw = 32 := by simp [State.xw, h, Xlen.bits]

theorem State.xw_x64 {s : State} (h : s.xlen = .x64) : s.xw = 64 := by simp [State.xw, h, Xlen.bits]

end Sys2Proof.Machine
end

