-- ==== Sys2Proof/Laws/Status.lean ====
section
/-! SUPPORT. The status word: what replacing a field does to each bit, what validation does to each field, and what a write
of the status does to the state. -/

namespace Sys2Proof.Machine

/-! ### Fields -/

theorem getLsbD_putBits {len : Nat} (w : Word) (lo : Nat) (v : BitVec len) (b : Nat) (hl : lo + len ≤ 64) :
    (putBits w lo v).getLsbD b = if lo ≤ b ∧ b < lo + len then v.getLsbD (b - lo) else w.getLsbD b := by
  unfold putBits
  simp only [BitVec.getLsbD_or, BitVec.getLsbD_and, BitVec.getLsbD_not, BitVec.getLsbD_shiftLeft, BitVec.getLsbD_setWidth,
    BitVec.getLsbD_allOnes]
  by_cases h : lo ≤ b ∧ b < lo + len
  · have h1 : b < 64 := by omega
    have h2 : ¬ b < lo := by omega
    have h3 : b - lo < 64 := by omega
    have h4 : b - lo < len := by omega
    simp [h, h1, h2, h3, h4]
  · rw [if_neg h]
    by_cases hb : b < 64
    · rcases Nat.lt_or_ge b lo with h2 | h2
      · simp [hb, h2]
      · have h4 : len ≤ b - lo := by omega
        have h5 : ¬ b - lo < len := by omega
        simp [hb, h5, BitVec.getLsbD_of_ge v _ h4]
    · simp [hb, BitVec.getLsbD_of_ge w b (by omega)]

theorem getLsbD_putBit (w : Word) (i : Nat) (x : Bool) (b : Nat) (hl : i < 64) :
    (putBit w i x).getLsbD b = if b = i then x else w.getLsbD b := by
  unfold putBit
  rw [getLsbD_putBits _ _ _ _ (by omega)]
  by_cases h : b = i
  · subst h; simp
  · rw [if_neg h, if_neg (by omega)]

/-- A two-bit field by its bits. -/
theorem extract2_eq {w w' : Word} {lo : Nat} (h0 : w.getLsbD lo = w'.getLsbD lo)
    (h1 : w.getLsbD (lo + 1) = w'.getLsbD (lo + 1)) : w.extractLsb' lo 2 = w'.extractLsb' lo 2 := by
  apply BitVec.eq_of_getLsbD_eq
  intro i hi
  have : i = 0 ∨ i = 1 := by omega
  rcases this with rfl | rfl <;> simp [*]

theorem extract2_putBits {w : Word} {lo : Nat} (v : BitVec 2) (h : lo + 2 ≤ 64) : (putBits w lo v).extractLsb' lo 2 = v := by
  apply BitVec.eq_of_getLsbD_eq
  intro i hi
  simp only [BitVec.getLsbD_extractLsb', hi, decide_true, Bool.true_and]
  rw [getLsbD_putBits _ _ _ _ h, if_pos (by omega)]
  simp

theorem extract2_putBits_ne {len : Nat} {w : Word} {lo lo' : Nat} (v : BitVec len) (h : lo + len ≤ 64)
    (hd : lo' + 2 ≤ lo ∨ lo + len ≤ lo') : (putBits w lo v).extractLsb' lo' 2 = w.extractLsb' lo' 2 := by
  apply extract2_eq <;> rw [getLsbD_putBits _ _ _ _ h, if_neg (by omega)]

/-! ### Validation (15_csr R71) -/

/-- What the validation of UXL or SXL does. -/
theorem validateXl_spec (lo : Nat) (w : Word) (hl : lo + 2 ≤ 64) :
    ((validateXl lo w).extractLsb' lo 2 = if w.extractLsb' lo 2 = 1#2 then 1#2 else 2#2)
    ∧ ∀ b, b < lo ∨ lo + 2 ≤ b → (validateXl lo w).getLsbD b = w.getLsbD b := by
  unfold validateXl
  split
  · rename_i h
    refine ⟨?_, fun _ _ => rfl⟩
    rcases h with h | h <;> simp [h]
  · rename_i h
    rw [not_or] at h
    refine ⟨?_, fun b hb => ?_⟩
    · rw [extract2_putBits _ hl, if_neg h.1]
    · rw [getLsbD_putBits _ _ _ _ hl, if_neg (by omega)]

theorem validateMpp_spec (w : Word) :
    (stMpp (validateMpp w) = if stMpp w = 2#2 then 0#2 else stMpp w)
    ∧ ∀ b, b < 11 ∨ 13 ≤ b → (validateMpp w).getLsbD b = w.getLsbD b := by
  unfold validateMpp
  split
  · exact ⟨extract2_putBits _ (by omega), fun b hb => by rw [getLsbD_putBits _ _ _ _ (by omega), if_neg (by omega)]⟩
  · exact ⟨rfl, fun _ _ => rfl⟩

theorem validateFs_spec (p : Params) (w : Word) :
    (stFs (validateFs p w) = if p.fpuPresent = false then 0#2 else if p.preciseFs = false ∧ stFs w ≠ 0#2 then 3#2 else stFs w)
    ∧ ∀ b, b < 13 ∨ 15 ≤ b → (validateFs p w).getLsbD b = w.getLsbD b := by
  unfold validateFs
  split
  · exact ⟨extract2_putBits _ (by omega), fun b hb => by rw [getLsbD_putBits _ _ _ _ (by omega), if_neg (by omega)]⟩
  · split
    · exact ⟨extract2_putBits _ (by omega), fun b hb => by rw [getLsbD_putBits _ _ _ _ (by omega), if_neg (by omega)]⟩
    · exact ⟨rfl, fun _ _ => rfl⟩

/-- Each field after validation. -/
structure Validated (p : Params) (w v : Word) : Prop where
  vs : stVs v = 0#2
  fs : stFs v = if p.fpuPresent = false then 0#2 else if p.preciseFs = false ∧ stFs w ≠ 0#2 then 3#2 else stFs w
  xs : stXs v = stFs v
  mpp : stMpp v = if stMpp w = 2#2 then 0#2 else stMpp w
  uxl : stUxl v = if p.rv64 = false then stUxl w else if stUxl w = 1#2 then 1#2 else 2#2
  sxl : stSxl v = if p.rv64 = false then stSxl w else if stSxl w = 1#2 then 1#2 else 2#2
  other : ∀ b, b ∉ [9, 10, 11, 12, 13, 14, 15, 16, 32, 33, 34, 35] → v.getLsbD b = w.getLsbD b
  bits32 : p.rv64 = false → ∀ b, 17 ≤ b → v.getLsbD b = w.getLsbD b

theorem stFs_eq_of {w w' : Word} (h : ∀ b, 13 ≤ b → b < 15 → w.getLsbD b = w'.getLsbD b) : stFs w = stFs w' :=
  extract2_eq (h _ (by omega) (by omega)) (h _ (by omega) (by omega))

theorem field_eq_of {w w' : Word} (lo : Nat) (h : ∀ b, lo ≤ b → b < lo + 2 → w.getLsbD b = w'.getLsbD b) :
    w.extractLsb' lo 2 = w'.extractLsb' lo 2 :=
  extract2_eq (h _ (by omega) (by omega)) (h _ (by omega) (by omega))

theorem validate_spec (p : Params) (w : Word) : Validated p w (validate p w) := by
  -- the width fields
  obtain ⟨a, ha, hu, hs, hao, ha32⟩ : ∃ a : Word, a = (if p.rv64 then validateXl 34 (validateXl 32 w) else w)
      ∧ (stUxl a = if p.rv64 = false then stUxl w else if stUxl w = 1#2 then 1#2 else 2#2)
      ∧ (stSxl a = if p.rv64 = false then stSxl w else if stSxl w = 1#2 then 1#2 else 2#2)
      ∧ (∀ b, b < 32 ∨ 36 ≤ b → a.getLsbD b = w.getLsbD b) ∧ (p.rv64 = false → a = w) := by
    refine ⟨_, rfl, ?_⟩
    cases p.rv64
    · simp
    · have h1 := validateXl_spec 32 w (by omega)
      have h2 := validateXl_spec 34 (validateXl 32 w) (by omega)
      have e1 : stUxl (validateXl 34 (validateXl 32 w)) = stUxl (validateXl 32 w) :=
        field_eq_of 32 fun b h h' => h2.2 b (by omega)
      have e2 : stSxl (validateXl 32 w) = stSxl w := field_eq_of 34 fun b h h' => h1.2 b (by omega)
      refine ⟨?_, ?_, fun b hb => ?_, by simp⟩
      · simp only [if_true, Bool.true_eq_false, if_false]; rw [e1]; exact h1.1
      · simp only [if_true, Bool.true_eq_false, if_false]
        have := h2.1
        rw [show (validateXl 32 w).extractLsb' 34 2 = stSxl w from e2] at this
        exact this
      · simp only [if_true]; rw [h2.2 b (by omega), h1.2 b (by omega)]
  -- MPP, FS
  have hm := validateMpp_spec a
  have hf := validateFs_spec p (validateMpp a)
  generalize hmm : validateMpp a = m at hm hf
  generalize hfm : validateFs p m = f at hf
  have hv : ∀ b, (validateVs f).getLsbD b = if 9 ≤ b ∧ b < 11 then false else f.getLsbD b := fun b => by
    unfold validateVs; rw [getLsbD_putBits _ _ _ _ (by omega)]; simp
  have hvs : stVs (validateVs f) = 0#2 := extract2_putBits _ (by omega)
  have hvf : stFs (validateVs f) = stFs f := stFs_eq_of fun b h h' => by rw [hv, if_neg (by omega)]
  have hx : ∀ b, b < 15 ∨ 17 ≤ b → (validateXs (validateVs f)).getLsbD b = (validateVs f).getLsbD b := fun b hb => by
    unfold validateXs; rw [getLsbD_putBits _ _ _ _ (by omega), if_neg (by omega)]
  have hxs : stXs (validateXs (validateVs f)) = stFs f := by
    unfold validateXs
    refine (extract2_putBits _ (by omega)).trans ?_
    rw [hvs, hvf, if_neg (by simp)]
  have hval : validate p w = validateXs (validateVs f) := by
    unfold validate; rw [← ha, hmm, hfm]
  rw [hval]
  have low : ∀ b, b ∉ [9, 10, 11, 12, 13, 14, 15, 16] → (validateXs (validateVs f)).getLsbD b = a.getLsbD b := fun b hb => by
    simp only [List.mem_cons, List.not_mem_nil, or_false, not_or] at hb
    rw [hx b (by omega), hv, if_neg (by omega), hf.2 b (by omega), hm.2 b (by omega)]
  have hmf : stFs m = stFs w := stFs_eq_of fun b h h' => by rw [hm.2 b (by omega), hao b (by omega)]
  have hfs : stFs (validateXs (validateVs f)) = stFs f :=
    (stFs_eq_of fun b h h' => hx b (by omega)).trans hvf
  refine ⟨?_, ?_, hxs.trans hfs.symm, ?_, ?_, ?_, fun b hb => ?_, fun h b hb => ?_⟩
  · exact (field_eq_of 9 fun b h h' => hx b (by omega)).trans hvs
  · rw [hfs, hf.1, hmf]
  · have h1 : stMpp (validateXs (validateVs f)) = stMpp m := field_eq_of 11 fun b h h' => by
      rw [hx b (by omega), hv, if_neg (by omega), hf.2 b (by omega)]
    have h2 : stMpp a = stMpp w := field_eq_of 11 fun b h h' => hao b (by omega)
    rw [h1, hm.1, h2]
  · exact (field_eq_of 32 fun b h h' => low b (by simp; omega)).trans hu
  · exact (field_eq_of 34 fun b h h' => low b (by simp; omega)).trans hs
  · simp only [List.mem_cons, List.not_mem_nil, or_false, not_or] at hb
    rw [low b (by simp; omega), hao b (by omega)]
  · rw [low b (by simp; omega), ha32 h]

/-! ### Writing the status word -/

/-- The word a write of `w` stores. -/
theorem writeStatus_eq (s : State) (w : Word) :
    s.writeStatus w = { s with csr := { s.csr with status := validate s.hw w }, tlb := (s.writeStatus w).tlb } := by
  unfold State.writeStatus State.tlbFlush; dsimp only; split <;> rfl

theorem writeStatus_status (s : State) (w : Word) : (s.writeStatus w).csr.status = validate s.hw w := by
  rw [writeStatus_eq]

@[simp] theorem writeStatus_csr (s : State) (w : Word) :
    (s.writeStatus w).csr = { s.csr with status := validate s.hw w } := by
  unfold State.writeStatus State.tlbFlush; dsimp only; split <;> rfl

/-- A bit of a word, masked. -/
theorem flushMask_bit (b : Nat) : statusFlushMask.getLsbD b = decide (b ∈ [11, 12, 17, 18, 19]) := by
  by_cases h : b < 64
  · revert b; decide
  · rw [BitVec.getLsbD_of_ge _ _ (by omega)]
    symm; simp; omega

/-- MPP, MPRV, SUM and MXR do not differ. -/
def SameFlushBits (v w : Word) : Prop :=
  stMpp v = stMpp w ∧ stMprv v = stMprv w ∧ stSum v = stSum w ∧ stMxr v = stMxr w

theorem flushBits_iff (v w : Word) : (v ^^^ w) &&& statusFlushMask = 0#64 ↔ SameFlushBits v w := by
  constructor
  · intro h
    have hb : ∀ b, b ∈ [11, 12, 17, 18, 19] → v.getLsbD b = w.getLsbD b := fun b hb => by
      have := congrArg (fun x => BitVec.getLsbD x b) h
      simp only [BitVec.getLsbD_and, BitVec.getLsbD_xor, flushMask_bit, hb, decide_true, Bool.and_true] at this
      simpa using this
    exact ⟨extract2_eq (hb _ (by simp)) (hb _ (by simp)), hb _ (by simp), hb _ (by simp), hb _ (by simp)⟩
  · rintro ⟨h1, h2, h3, h4⟩
    have e0 : v.getLsbD 11 = w.getLsbD 11 := by
      have := congrArg (fun x => BitVec.getLsbD x 0) h1; simpa [stMpp] using this
    have e1 : v.getLsbD 12 = w.getLsbD 12 := by
      have := congrArg (fun x => BitVec.getLsbD x 1) h1; simpa [stMpp] using this
    apply BitVec.eq_of_getLsbD_eq
    intro i _
    simp only [BitVec.getLsbD_and, BitVec.getLsbD_xor, flushMask_bit, BitVec.getLsbD_zero]
    by_cases hi : i ∈ [11, 12, 17, 18, 19]
    · have key : v.getLsbD i = w.getLsbD i := by
        simp only [List.mem_cons, List.not_mem_nil, or_false] at hi
        rcases hi with rfl | rfl | rfl | rfl | rfl
        · exact e0
        · exact e1
        · exact h2
        · exact h3
        · exact h4
      rw [key, Bool.xor_self, Bool.false_and]
    · simp [hi]

/-- The TLB after a write of the status: emptied exactly if MPP, MPRV, SUM or MXR changes. -/
theorem writeStatus_tlb (s : State) (w : Word) :
    (SameFlushBits (validate s.hw w) s.csr.status → (s.writeStatus w).tlb = s.tlb)
    ∧ (¬ SameFlushBits (validate s.hw w) s.csr.status → (s.writeStatus w).tlb = Tlb.empty) := by
  rw [← flushBits_iff]
  unfold State.writeStatus State.tlbFlush; dsimp only
  constructor <;> intro h
  · rw [if_pos h]
  · rw [if_neg h]

/-- The bits of `status` that are neither writable nor XS. -/
theorem reserved_iff (rv64 : Bool) (w : Word) :
    w &&& ~~~(mstatusWm rv64 ||| 0x18000#64) = 0#64 ↔
      ∀ b, b < 64 → (mstatusWm rv64).getLsbD b = false → b ≠ 15 → b ≠ 16 → w.getLsbD b = false := by
  have hx : ∀ b, (0x18000#64).getLsbD b = decide (b = 15 ∨ b = 16) := fun b => by
    by_cases h : b < 64
    · revert b; decide
    · rw [BitVec.getLsbD_of_ge _ _ (by omega)]; symm; simp; omega
  constructor
  · intro h b hb hm h15 h16
    have := congrArg (fun x => BitVec.getLsbD x b) h
    rw [BitVec.getLsbD_and, BitVec.getLsbD_not, BitVec.getLsbD_or, hx, hm, BitVec.getLsbD_zero] at this
    simpa only [hb, h15, h16, or_self, decide_false, decide_true, Bool.or_self, Bool.not_false, Bool.and_self,
      Bool.and_true] using this
  · intro h
    apply BitVec.eq_of_getLsbD_eq
    intro i hi
    simp only [BitVec.getLsbD_and, BitVec.getLsbD_not, BitVec.getLsbD_or, hx, BitVec.getLsbD_zero, hi, decide_true,
      Bool.true_and]
    by_cases h1 : (mstatusWm rv64).getLsbD i = true
    · simp [h1]
    · by_cases h2 : i = 15 ∨ i = 16
      · simp [h2]
      · rw [h i hi (by simpa using h1) (by omega) (by omega)]; simp

/-- The reserved bits are clear: the writable mask and XS cover every bit that is set. -/
def StatusClear (rv64 : Bool) (w : Word) : Prop :=
  ∀ b, b < 64 → (mstatusWm rv64).getLsbD b = false → b ∉ [9, 10, 15, 16] → w.getLsbD b = false

/-- A write of a word whose reserved bits are clear leaves the status legal. -/
theorem writeStatus_inv {s : State} {w : Word} (h : StatusClear s.hw.rv64 w) : StatusInv (s.writeStatus w) := by
  have v := validate_spec s.hw w
  have e := writeStatus_status s w
  have hw : (s.writeStatus w).hw = s.hw := by rw [writeStatus_eq]
  constructor
  · rw [e, v.mpp]; split
    · decide
    · assumption
  · rw [e, v.vs]
  · rw [e, v.xs]
  · intro hf; rw [hw] at hf; rw [e, v.fs, if_pos hf]
  · intro hr; rw [hw] at hr; rw [e, v.uxl, hr]; simp only [Bool.true_eq_false, if_false]; split <;> simp
  · intro hf hp
    rw [hw] at hf hp
    rw [e, v.fs]
    by_cases h0 : stFs w = 0#2
    · left; simp [h0]
    · right; simp [hf, hp, h0]
  · intro hr; rw [hw] at hr; rw [e, v.sxl, hr]; simp only [Bool.true_eq_false, if_false]; split <;> simp
  · rw [hw, e, reserved_iff]
    intro b hb hm h15 h16
    by_cases h9 : b = 9 ∨ b = 10
    · have hv := v.vs
      rcases h9 with rfl | rfl
      · have := congrArg (fun x => BitVec.getLsbD x 0) hv; simpa [stVs] using this
      · have := congrArg (fun x => BitVec.getLsbD x 1) hv; simpa [stVs] using this
    · have hc := h b hb hm (by simp; omega)
      have : ∀ b, b ∈ [11, 12, 13, 14] → (mstatusWm s.hw.rv64).getLsbD b = true := by
        cases s.hw.rv64 <;> decide
      have hmem : b ∉ [11, 12, 13, 14] := fun hm' => by rw [this b hm'] at hm; cases hm
      by_cases h32 : b ∈ [32, 33, 34, 35]
      · rcases hr : s.hw.rv64 with _ | _
        · rw [v.bits32 hr b (by simp at h32; omega)]; exact hc
        · rw [hr] at hm
          have : ∀ b, b ∈ [32, 33, 34, 35] → (mstatusWm true).getLsbD b = true := by decide
          rw [this b h32] at hm; cases hm
      · rw [v.other b (by simp at *; omega)]; exact hc

/-- Bits that a legal status has clear. -/
theorem StatusInv.clear {s : State} (h : StatusInv s) : StatusClear s.hw.rv64 s.csr.status := by
  intro b hb hm hn
  simp only [List.mem_cons, List.not_mem_nil, or_false, not_or] at hn
  exact (reserved_iff _ _).1 h.reserved b hb hm hn.2.2.1 hn.2.2.2

theorem StatusClear.putBit {r : Bool} {w : Word} (h : StatusClear r w) {i : Nat} (x : Bool) (hi : i < 64)
    (hm : (mstatusWm r).getLsbD i = true) : StatusClear r (putBit w i x) := by
  intro b hb hb' hn
  rw [getLsbD_putBit _ _ _ _ hi]
  rw [if_neg]
  · exact h b hb hb' hn
  · rintro rfl; rw [hm] at hb'; cases hb'

theorem StatusClear.putMpp {r : Bool} {w : Word} (h : StatusClear r w) (v : BitVec 2) : StatusClear r (putBits w 11 v) := by
  intro b hb hb' hn
  rw [getLsbD_putBits _ _ _ _ (by omega)]
  rw [if_neg]
  · exact h b hb hb' hn
  · intro hh
    have : b = 11 ∨ b = 12 := by omega
    rcases this with rfl | rfl <;> revert hb' <;> cases r <;> decide

theorem mstatusWm_bit (r : Bool) {i : Nat} (h : i ∈ [1, 3, 5, 7, 8, 17]) : (mstatusWm r).getLsbD i = true := by
  revert i; cases r <;> decide

end Sys2Proof.Machine
end

