-- ==== Sys2Proof/Laws/Csr.lean ====
section
/-! SUPPORT. What a CSR access can do to the state, said once for all CSRs. -/

namespace Sys2Proof.Machine

/-- What the read and the write of a CSR can do. -/
structure CsrEffect (s t : State) : Prop where
  frame : t = { s with
    csr := t.csr, mmuMode := t.mmuMode, rootPageTable := t.rootPageTable, tlb := t.tlb, irqPending := t.irqPending,
    stimecmp := t.stimecmp, fpAccrued := t.fpAccrued, draws := t.draws }
  tlb : t.tlb = s.tlb ∨ t.tlb = Tlb.empty
  status : StatusInv s → StatusInv t
  mepc : s.csr.m.epc.getLsbD 0 = false → t.csr.m.epc.getLsbD 0 = false
  sepc : s.csr.s.epc.getLsbD 0 = false → t.csr.s.epc.getLsbD 0 = false
  bank : BankInv s → BankInv t
  flush : ¬ SameFlushBits t.csr.status s.csr.status ∨ (t.mmuMode = .bare ↔ s.mmuMode ≠ .bare) ∨ t.csr.mxl ≠ s.csr.mxl →
    t.tlb = Tlb.empty

theorem CsrEffect.refl (s : State) : CsrEffect s s where
  frame  := rfl
  tlb    := .inl rfl
  status := id
  mepc   := id
  sepc   := id
  bank   := id
  flush  := by
    rintro (h | h | h)
    · exact absurd ⟨rfl, rfl, rfl, rfl⟩ h
    · exact absurd h (by by_cases hb : s.mmuMode = .bare <;> simp [hb])
    · exact absurd rfl h

/-- An update that leaves the status, the widths, the translation mode, the TLB and the trap registers alone. -/
theorem CsrEffect.of_plain {s t : State}
    (frame : t = { s with csr := t.csr, irqPending := t.irqPending, stimecmp := t.stimecmp, fpAccrued := t.fpAccrued,
                          draws := t.draws })
    (st : t.csr.status = s.csr.status) (mxl : t.csr.mxl = s.csr.mxl)
    (mepc : s.csr.m.epc.getLsbD 0 = false → t.csr.m.epc.getLsbD 0 = false)
    (sepc : s.csr.s.epc.getLsbD 0 = false → t.csr.s.epc.getLsbD 0 = false)
    (bank : BankInv s → BankInv t) : CsrEffect s t where
  frame  := by rw [frame]
  tlb    := .inl (by rw [frame])
  status := fun h => by
    have hw : t.hw = s.hw := by rw [frame]
    exact ⟨st ▸ h.mpp, st ▸ h.vs, st ▸ h.xs, by rw [hw, st]; exact h.fs, by rw [hw, st]; exact h.uxl,
      by rw [hw, st]; exact h.dirty, by rw [hw, st]; exact h.sxl, by rw [hw, st]; exact h.reserved⟩
  mepc   := mepc
  sepc   := sepc
  bank   := bank
  flush  := by
    have hm : t.mmuMode = s.mmuMode := by rw [frame]
    rw [st, mxl, hm]
    rintro (h | h | h)
    · exact absurd ⟨rfl, rfl, rfl, rfl⟩ h
    · exact absurd h (by by_cases hb : s.mmuMode = .bare <;> simp [hb])
    · exact absurd rfl h

theorem CsrEffect.trans {s t u : State} (h1 : CsrEffect s t) (h2 : CsrEffect t u)
    (hst : t.csr.status = s.csr.status) (hm : t.mmuMode = s.mmuMode) (hx : t.csr.mxl = s.csr.mxl) : CsrEffect s u where
  frame  := by rw [h2.frame, h1.frame]
  tlb    := by rcases h2.tlb with h | h
               · rw [h]; exact h1.tlb
               · exact .inr h
  status := h2.status ∘ h1.status
  mepc   := h2.mepc ∘ h1.mepc
  sepc   := h2.sepc ∘ h1.sepc
  bank   := h2.bank ∘ h1.bank
  flush  := by rw [← hst, ← hm, ← hx]; exact h2.flush

/-! ### Masks -/

theorem masked_clear {n : Nat} (w m v : BitVec n) (h : w &&& ~~~m = 0#n) : ((w &&& ~~~m) ||| (v &&& m)) &&& ~~~m = 0#n := by
  rw [h]
  ext i hi
  simp

theorem maskedWrite_clear {w m v : Word} (h : w &&& ~~~m = 0#64) : maskedWrite w m v &&& ~~~m = 0#64 := masked_clear w m v h

theorem masked_sub {n : Nat} (w m k v : BitVec n) (hk : m &&& ~~~k = 0#n) (h : w &&& ~~~k = 0#n) :
    ((w &&& ~~~m) ||| (v &&& m)) &&& ~~~k = 0#n := by
  ext i hi
  have h1 := congrArg (fun x => BitVec.getLsbD x i) hk
  have h2 := congrArg (fun x => BitVec.getLsbD x i) h
  simp [hi] at h1 h2 ⊢
  by_cases hki : k[i] = true
  · simp [hki]
  · simp only [Bool.not_eq_true] at hki
    have a1 : m[i] = false := by cases hm : m[i] <;> simp_all
    have a2 : w[i] = false := by cases hm : w[i] <;> simp_all
    simp [hki, a1, a2]

/-! ### Reads -/

theorem csrRead_effect {x : Xlen} {c : Csr} {s t : State} {old : Word} (h : csrRead x c s = some (old, t)) :
    CsrEffect s t ∧ t.csr.status = s.csr.status ∧ t.mmuMode = s.mmuMode ∧ t.csr.mxl = s.csr.mxl := by
  have self : ∀ {o : Word}, some (o, s) = some (old, t) →
      CsrEffect s t ∧ t.csr.status = s.csr.status ∧ t.mmuMode = s.mmuMode ∧ t.csr.mxl = s.csr.mxl := by
    rintro o ho; cases ho; exact ⟨.refl s, rfl, rfl, rfl⟩
  have fp : CsrEffect s s.accrueFp := .of_plain rfl rfl rfl id id fun h => ⟨h.1, h.2, h.3, h.4, h.5, h.6, h.7, h.8, h.9, h.10, h.11, h.12⟩
  cases c
  all_goals simp only [csrRead] at h
  case fflags | frm | fcsr =>
    split at h
    · cases h; exact ⟨fp, rfl, rfl, rfl⟩
    · cases h
  case seed =>
    split at h
    · cases h
      exact ⟨.of_plain rfl rfl rfl id id fun h => ⟨h.1, h.2, h.3, h.4, h.5, h.6, h.7, h.8, h.9, h.10, h.11, h.12⟩, rfl, rfl, rfl⟩
    · cases h
  case satp =>
    split at h
    · cases h
    · exact self h
  case stimecmp | stimecmph | time | timeh =>
    split at h
    · exact self h
    · cases h
  all_goals exact self h

/-! ### Writes -/

theorem maskedWrite_statusClear {r : Bool} {w wm v : Word} (h : StatusClear r w)
    (hm : ∀ b, (mstatusWm r).getLsbD b = false → wm.getLsbD b = false) : StatusClear r (maskedWrite w wm v) := by
  intro b hb hb' hn
  unfold maskedWrite
  simp only [BitVec.getLsbD_or, BitVec.getLsbD_and, BitVec.getLsbD_not]
  rw [h b hb hb' hn, hm b hb']
  simp

theorem sstatusWm_sub (r : Bool) (b : Nat) (h : (mstatusWm r).getLsbD b = false) : (sstatusWm r).getLsbD b = false := by
  by_cases hb : b < 64
  · have : ∀ b, b < 64 → (mstatusWm r).getLsbD b = false → (sstatusWm r).getLsbD b = false := by cases r <;> decide
    exact this b hb h
  · exact BitVec.getLsbD_of_ge _ _ (by omega)

theorem writeStatus_effect {s : State} {w : Word}
    (h : StatusInv s → StatusClear s.hw.rv64 w) : CsrEffect s (s.writeStatus w) where
  frame  := by rw [writeStatus_eq]
  tlb    := by
    have := writeStatus_tlb s w
    by_cases hb : SameFlushBits (validate s.hw w) s.csr.status
    · exact .inl (this.1 hb)
    · exact .inr (this.2 hb)
  status := fun hs => writeStatus_inv (h hs)
  mepc   := by rw [writeStatus_eq]; exact id
  sepc   := by rw [writeStatus_eq]; exact id
  bank   := fun b => by
    rw [writeStatus_eq]
    exact ⟨b.1, b.2, b.3, b.4, b.5, b.6, b.7, b.8, b.9, b.10, b.11, b.12⟩
  flush  := by
    intro hd
    have e := writeStatus_eq s w
    have hmmu : (s.writeStatus w).mmuMode = s.mmuMode := by rw [e]
    have hmxl : (s.writeStatus w).csr.mxl = s.csr.mxl := by rw [e]
    rw [writeStatus_status, hmmu, hmxl] at hd
    rcases hd with hd | hd | hd
    · exact (writeStatus_tlb s w).2 hd
    · exact absurd hd (by by_cases hb : s.mmuMode = .bare <;> simp [hb])
    · exact absurd rfl hd

theorem or_and_clear {n : Nat} (a b m : BitVec n) : (a ||| b) &&& m = (a &&& m) ||| (b &&& m) := by
  ext i hi
  simp [Bool.and_or_distrib_right]

theorem setIrq_clear (s : State) {c : Nat} (b : Bool) (hc : c ∈ [1, 3, 5, 7, 9, 11]) (h : s.irqPending &&& ~~~0xAAA#12 = 0#12) :
    (s.setIrq c b).irqPending &&& ~~~0xAAA#12 = 0#12 := by
  have h0 : ∀ c, c ∈ [1, 3, 5, 7, 9, 11] → (1#12 <<< c) &&& ~~~0xAAA#12 = 0#12 := by decide
  have h1 := h0 c hc
  unfold State.setIrq
  dsimp only
  generalize 1#12 <<< c = k at *
  generalize ~~~0xAAA#12 = m at *
  split
  · rw [or_and_clear, h, h1]; rfl
  · rw [BitVec.and_assoc, BitVec.and_comm (~~~k), ← BitVec.and_assoc, h]; simp

theorem writeStimecmp_effect (s : State) (v : Word) : CsrEffect s (s.writeStimecmp v) := by
  refine .of_plain rfl rfl rfl id id fun h => ⟨h.1, h.2, ?_, h.4, h.5, h.6, h.7, h.8, h.9, h.10, h.11, h.12⟩
  exact setIrq_clear { s with stimecmp := v } _ (by simp) h.3

theorem writeMxl_effect (s : State) (m : Xlen) (hm : s.hw.rv64 = false → m = .x32) :
    CsrEffect s ({ s with csr := { s.csr with mxl := m } }.tlbFlush) where
  frame  := rfl
  tlb    := .inr rfl
  status := fun h => ⟨h.1, h.2, h.3, h.4, h.5, h.6, h.7, h.8⟩
  mepc   := id
  sepc   := id
  bank   := fun h => ⟨h.1, h.2, h.3, h.4, h.5, h.6, h.7, h.8, h.9, hm, h.11, h.12⟩
  flush  := fun _ => rfl

theorem writeSatp_effect {x : Xlen} {s : State} (v : Word) (hx : s.hw.rv64 = false → x = .x32) :
    CsrEffect s (s.writeSatp x v) := by
  have hroot : (satpRoot x v).toNat % 4096 = 0 := by
    cases x <;> simp only [satpRoot, BitVec.toNat_setWidth, BitVec.toNat_append] <;> simp [Nat.shiftLeft_eq]
  have hmode : s.hw.rv64 = false → satpMode x v = .bare ∨ satpMode x v = .sv32 := fun h => by
    rw [hx h]; simp only [satpMode]; split <;> simp
  unfold State.writeSatp
  dsimp only
  split
  · rename_i hb
    exact ⟨rfl, .inl rfl, fun h => ⟨h.1, h.2, h.3, h.4, h.5, h.6, h.7, h.8⟩, id, id,
      fun h => ⟨h.1, h.2, h.3, h.4, h.5, h.6, h.7, h.8, h.9, h.10, hroot, hmode⟩, by
        rintro (h | h | h)
        · exact absurd ⟨rfl, rfl, rfl, rfl⟩ h
        · exact absurd h (by dsimp only; rw [hb]; by_cases hb : s.mmuMode = .bare <;> simp [hb])
        · exact absurd rfl h⟩
  · exact ⟨rfl, .inr rfl, fun h => ⟨h.1, h.2, h.3, h.4, h.5, h.6, h.7, h.8⟩, id, id,
      fun h => ⟨h.1, h.2, h.3, h.4, h.5, h.6, h.7, h.8, h.9, h.10, hroot, hmode⟩, fun _ => rfl⟩

theorem csrWrite_effect {x : Xlen} {c : Csr} {op : CsrOp} {v new : Word} {s : State} (hx : s.hw.rv64 = false → x = .x32) :
    CsrEffect s (csrWrite x c op v new s) := by
  cases c
  all_goals simp only [csrWrite]
  case sstatus => exact writeStatus_effect fun h => maskedWrite_statusClear h.clear (sstatusWm_sub _)
  case mstatus => exact writeStatus_effect fun h => maskedWrite_statusClear h.clear fun _ h => h
  case seed | senvcfg | time | timeh | mvendorid | marchid | mimpid | mhartid | zero => exact .refl s
  case fflags | frm | fcsr =>
    exact .of_plain rfl rfl rfl id id fun h => ⟨h.1, h.2, h.3, h.4, h.5, h.6, h.7, h.8, h.9, h.10, h.11, h.12⟩
  case medeleg =>
    exact .of_plain rfl rfl rfl id id fun h => ⟨h.1, h.2, h.3, masked_clear _ _ _ h.4, h.5, h.6, h.7, h.8, h.9, h.10, h.11, h.12⟩
  case mideleg =>
    exact .of_plain rfl rfl rfl id id fun h => ⟨h.1, h.2, h.3, h.4, masked_clear _ _ _ h.5, h.6, h.7, h.8, h.9, h.10, h.11, h.12⟩
  case mie =>
    exact .of_plain rfl rfl rfl id id fun h => ⟨masked_clear _ _ _ h.1, h.2, h.3, h.4, h.5, h.6, h.7, h.8, h.9, h.10, h.11, h.12⟩
  case sie =>
    exact .of_plain rfl rfl rfl id id fun h =>
      ⟨masked_sub _ _ _ _ (by decide) h.1, h.2, h.3, h.4, h.5, h.6, h.7, h.8, h.9, h.10, h.11, h.12⟩
  case mip =>
    exact .of_plain rfl rfl rfl id id fun h => ⟨h.1, masked_clear _ _ _ h.2, h.3, h.4, h.5, h.6, h.7, h.8, h.9, h.10, h.11, h.12⟩
  case sip =>
    exact .of_plain rfl rfl rfl id id fun h =>
      ⟨h.1, masked_sub _ _ _ _ (by decide) h.2, h.3, h.4, h.5, h.6, h.7, h.8, h.9, h.10, h.11, h.12⟩
  case mseccfg =>
    exact .of_plain rfl rfl rfl id id fun h =>
      ⟨h.1, h.2, h.3, h.4, h.5, h.6, h.7, maskedWrite_clear h.8, h.9, h.10, h.11, h.12⟩
  case menvcfg | menvcfgh =>
    exact .of_plain rfl rfl rfl id id fun h =>
      ⟨h.1, h.2, h.3, h.4, h.5, maskedWrite_clear h.6, h.7, h.8, h.9, h.10, h.11, h.12⟩
  case tvec l =>
    cases l <;> exact .of_plain rfl rfl rfl id id fun h => ⟨h.1, h.2, h.3, h.4, h.5, h.6, h.7, h.8, h.9, h.10, h.11, h.12⟩
  case scratch l =>
    cases l <;> exact .of_plain rfl rfl rfl id id fun h => ⟨h.1, h.2, h.3, h.4, h.5, h.6, h.7, h.8, h.9, h.10, h.11, h.12⟩
  case cause l =>
    cases l <;> exact .of_plain rfl rfl rfl id id fun h => ⟨h.1, h.2, h.3, h.4, h.5, h.6, h.7, h.8, h.9, h.10, h.11, h.12⟩
  case tval l =>
    cases l <;> exact .of_plain rfl rfl rfl id id fun h => ⟨h.1, h.2, h.3, h.4, h.5, h.6, h.7, h.8, h.9, h.10, h.11, h.12⟩
  case counteren l =>
    cases l <;> exact .of_plain rfl rfl rfl id id fun h => ⟨h.1, h.2, h.3, h.4, h.5, h.6, h.7, h.8, h.9, h.10, h.11, h.12⟩
  case epc l =>
    have he : ∀ w n : Word, w.getLsbD 0 = false → (maskedWrite w (~~~1#64) n).getLsbD 0 = false := fun w n h => by
      unfold maskedWrite; simp at *; simp [h]
    cases l
    · exact .of_plain rfl rfl rfl (he _ _) id fun h => ⟨h.1, h.2, h.3, h.4, h.5, h.6, h.7, h.8, h.9, h.10, h.11, h.12⟩
    · exact .of_plain rfl rfl rfl id (he _ _) fun h => ⟨h.1, h.2, h.3, h.4, h.5, h.6, h.7, h.8, h.9, h.10, h.11, h.12⟩
  case misa =>
    unfold State.writeMisa
    cases x
    · dsimp only; split
      · rename_i h; exact writeMxl_effect s _ fun hr => by rw [h.2] at hr; cases hr
      · exact .refl s
    · dsimp only; split
      · exact writeMxl_effect s _ fun _ => rfl
      · exact .refl s
  case satp => exact writeSatp_effect _ hx
  case stimecmp => exact writeStimecmp_effect s _
  case stimecmph => exact writeStimecmp_effect s _

/-- What a CSR access that succeeds can do. -/
theorem csrAccess_effect {a : BitVec 12} {v : Word} {op : CsrOp} {s t : State} {old : Word}
    (h : csrAccess a v op s = some (old, t)) : CsrEffect s t := by
  unfold csrAccess at h
  split at h
  · cases h
  · split at h
    · cases h
    · rename_i c _
      split at h
      · cases h
      · rename_i old' u hr
        cases h
        obtain ⟨e, h1, h2, h3⟩ := csrRead_effect hr
        have hw : u.hw = s.hw := by rw [e.frame]
        refine e.trans (csrWrite_effect fun hf => ?_) h1 h2 h3
        rw [hw] at hf
        simp [State.xlen, State.xlenIn, xlenFor, hf]

end Sys2Proof.Machine
end

