-- ==== Sys2Proof/Laws/Decode.lean ====
section
/-! SUPPORT. The decoder's fields and immediates of the encoder's words: one lemma per format and field. -/

namespace Sys2Proof

theorem bit_of_even {n : Nat} {v : BitVec n} (h : evenBits v = true) : v.getLsbD 0 = false := by simpa [evenBits] using h

/-- The low `k` bits of a value whose low `k` bits are 0. -/
theorem bit_of_low {n : Nat} {v : BitVec n} (k i : Nat) (h : (v.extractLsb' 0 k == 0#k) = true) (hi : i < k) :
    v.getLsbD i = false := by
  have := congrArg (fun x => BitVec.getLsbD x i) (eq_of_beq h)
  simpa [hi] using this

@[simp] theorem encR_fOpcode (f7 : BitVec 7) (rs2 rs1 : Reg) (f3 : BitVec 3) (rd : Reg) (op : BitVec 7) :
    fOpcode (encR f7 rs2 rs1 f3 rd op) = op := by
  apply BitVec.eq_of_getLsbD_eq; intro i hi
  unfold fOpcode encR
  simp only [BitVec.getLsbD_extractLsb', BitVec.getLsbD_append]
  interval_cases i <;> simp

@[simp] theorem encR_fRd (f7 : BitVec 7) (rs2 rs1 : Reg) (f3 : BitVec 3) (rd : Reg) (op : BitVec 7) :
    fRd (encR f7 rs2 rs1 f3 rd op) = rd := by
  apply BitVec.eq_of_getLsbD_eq; intro i hi
  unfold fRd encR
  simp only [BitVec.getLsbD_extractLsb', BitVec.getLsbD_append]
  interval_cases i <;> simp

@[simp] theorem encR_fFunct3 (f7 : BitVec 7) (rs2 rs1 : Reg) (f3 : BitVec 3) (rd : Reg) (op : BitVec 7) :
    fFunct3 (encR f7 rs2 rs1 f3 rd op) = f3 := by
  apply BitVec.eq_of_getLsbD_eq; intro i hi
  unfold fFunct3 encR
  simp only [BitVec.getLsbD_extractLsb', BitVec.getLsbD_append]
  interval_cases i <;> simp

@[simp] theorem encR_fRs1 (f7 : BitVec 7) (rs2 rs1 : Reg) (f3 : BitVec 3) (rd : Reg) (op : BitVec 7) :
    fRs1 (encR f7 rs2 rs1 f3 rd op) = rs1 := by
  apply BitVec.eq_of_getLsbD_eq; intro i hi
  unfold fRs1 encR
  simp only [BitVec.getLsbD_extractLsb', BitVec.getLsbD_append]
  interval_cases i <;> simp

@[simp] theorem encR_fRs2 (f7 : BitVec 7) (rs2 rs1 : Reg) (f3 : BitVec 3) (rd : Reg) (op : BitVec 7) :
    fRs2 (encR f7 rs2 rs1 f3 rd op) = rs2 := by
  apply BitVec.eq_of_getLsbD_eq; intro i hi
  unfold fRs2 encR
  simp only [BitVec.getLsbD_extractLsb', BitVec.getLsbD_append]
  interval_cases i <;> simp

@[simp] theorem encR_fFunct7 (f7 : BitVec 7) (rs2 rs1 : Reg) (f3 : BitVec 3) (rd : Reg) (op : BitVec 7) :
    fFunct7 (encR f7 rs2 rs1 f3 rd op) = f7 := by
  apply BitVec.eq_of_getLsbD_eq; intro i hi
  unfold fFunct7 encR
  simp only [BitVec.getLsbD_extractLsb', BitVec.getLsbD_append]
  interval_cases i <;> simp

@[simp] theorem encI_fOpcode (imm : BitVec 12) (rs1 : Reg) (f3 : BitVec 3) (rd : Reg) (op : BitVec 7) :
    fOpcode (encI imm rs1 f3 rd op) = op := by
  apply BitVec.eq_of_getLsbD_eq; intro i hi
  unfold fOpcode encI
  simp only [BitVec.getLsbD_extractLsb', BitVec.getLsbD_append]
  interval_cases i <;> simp

@[simp] theorem encI_fRd (imm : BitVec 12) (rs1 : Reg) (f3 : BitVec 3) (rd : Reg) (op : BitVec 7) :
    fRd (encI imm rs1 f3 rd op) = rd := by
  apply BitVec.eq_of_getLsbD_eq; intro i hi
  unfold fRd encI
  simp only [BitVec.getLsbD_extractLsb', BitVec.getLsbD_append]
  interval_cases i <;> simp

@[simp] theorem encI_fFunct3 (imm : BitVec 12) (rs1 : Reg) (f3 : BitVec 3) (rd : Reg) (op : BitVec 7) :
    fFunct3 (encI imm rs1 f3 rd op) = f3 := by
  apply BitVec.eq_of_getLsbD_eq; intro i hi
  unfold fFunct3 encI
  simp only [BitVec.getLsbD_extractLsb', BitVec.getLsbD_append]
  interval_cases i <;> simp

@[simp] theorem encI_fRs1 (imm : BitVec 12) (rs1 : Reg) (f3 : BitVec 3) (rd : Reg) (op : BitVec 7) :
    fRs1 (encI imm rs1 f3 rd op) = rs1 := by
  apply BitVec.eq_of_getLsbD_eq; intro i hi
  unfold fRs1 encI
  simp only [BitVec.getLsbD_extractLsb', BitVec.getLsbD_append]
  interval_cases i <;> simp

@[simp] theorem encI_immI (imm : BitVec 12) (rs1 : Reg) (f3 : BitVec 3) (rd : Reg) (op : BitVec 7) :
    immI (encI imm rs1 f3 rd op) = imm := by
  apply BitVec.eq_of_getLsbD_eq; intro i hi
  unfold immI encI
  simp only [BitVec.getLsbD_extractLsb', BitVec.getLsbD_append]
  interval_cases i <;> simp

@[simp] theorem encI_fCsr (imm : BitVec 12) (rs1 : Reg) (f3 : BitVec 3) (rd : Reg) (op : BitVec 7) :
    fCsr (encI imm rs1 f3 rd op) = imm := by
  apply BitVec.eq_of_getLsbD_eq; intro i hi
  unfold fCsr encI
  simp only [BitVec.getLsbD_extractLsb', BitVec.getLsbD_append]
  interval_cases i <;> simp

@[simp] theorem encS_fOpcode (imm : BitVec 12) (rs2 rs1 : Reg) (f3 : BitVec 3) (op : BitVec 7) :
    fOpcode (encS imm rs2 rs1 f3 op) = op := by
  apply BitVec.eq_of_getLsbD_eq; intro i hi
  unfold fOpcode encS
  simp only [BitVec.getLsbD_extractLsb', BitVec.getLsbD_append]
  interval_cases i <;> simp

@[simp] theorem encS_fFunct3 (imm : BitVec 12) (rs2 rs1 : Reg) (f3 : BitVec 3) (op : BitVec 7) :
    fFunct3 (encS imm rs2 rs1 f3 op) = f3 := by
  apply BitVec.eq_of_getLsbD_eq; intro i hi
  unfold fFunct3 encS
  simp only [BitVec.getLsbD_extractLsb', BitVec.getLsbD_append]
  interval_cases i <;> simp

@[simp] theorem encS_fRs1 (imm : BitVec 12) (rs2 rs1 : Reg) (f3 : BitVec 3) (op : BitVec 7) :
    fRs1 (encS imm rs2 rs1 f3 op) = rs1 := by
  apply BitVec.eq_of_getLsbD_eq; intro i hi
  unfold fRs1 encS
  simp only [BitVec.getLsbD_extractLsb', BitVec.getLsbD_append]
  interval_cases i <;> simp

@[simp] theorem encS_fRs2 (imm : BitVec 12) (rs2 rs1 : Reg) (f3 : BitVec 3) (op : BitVec 7) :
    fRs2 (encS imm rs2 rs1 f3 op) = rs2 := by
  apply BitVec.eq_of_getLsbD_eq; intro i hi
  unfold fRs2 encS
  simp only [BitVec.getLsbD_extractLsb', BitVec.getLsbD_append]
  interval_cases i <;> simp

@[simp] theorem encS_immS (imm : BitVec 12) (rs2 rs1 : Reg) (f3 : BitVec 3) (op : BitVec 7) :
    immS (encS imm rs2 rs1 f3 op) = imm := by
  apply BitVec.eq_of_getLsbD_eq; intro i hi
  unfold immS encS
  simp only [BitVec.getLsbD_extractLsb', BitVec.getLsbD_append]
  interval_cases i <;> simp

@[simp] theorem encB_fOpcode (imm : BitVec 13) (rs2 rs1 : Reg) (f3 : BitVec 3) (op : BitVec 7) :
    fOpcode (encB imm rs2 rs1 f3 op) = op := by
  apply BitVec.eq_of_getLsbD_eq; intro i hi
  unfold fOpcode encB
  simp only [BitVec.getLsbD_extractLsb', BitVec.getLsbD_append]
  interval_cases i <;> simp

@[simp] theorem encB_fFunct3 (imm : BitVec 13) (rs2 rs1 : Reg) (f3 : BitVec 3) (op : BitVec 7) :
    fFunct3 (encB imm rs2 rs1 f3 op) = f3 := by
  apply BitVec.eq_of_getLsbD_eq; intro i hi
  unfold fFunct3 encB
  simp only [BitVec.getLsbD_extractLsb', BitVec.getLsbD_append]
  interval_cases i <;> simp

@[simp] theorem encB_fRs1 (imm : BitVec 13) (rs2 rs1 : Reg) (f3 : BitVec 3) (op : BitVec 7) :
    fRs1 (encB imm rs2 rs1 f3 op) = rs1 := by
  apply BitVec.eq_of_getLsbD_eq; intro i hi
  unfold fRs1 encB
  simp only [BitVec.getLsbD_extractLsb', BitVec.getLsbD_append]
  interval_cases i <;> simp

@[simp] theorem encB_fRs2 (imm : BitVec 13) (rs2 rs1 : Reg) (f3 : BitVec 3) (op : BitVec 7) :
    fRs2 (encB imm rs2 rs1 f3 op) = rs2 := by
  apply BitVec.eq_of_getLsbD_eq; intro i hi
  unfold fRs2 encB
  simp only [BitVec.getLsbD_extractLsb', BitVec.getLsbD_append]
  interval_cases i <;> simp

@[simp] theorem encB_immB (imm : BitVec 13) (rs2 rs1 : Reg) (f3 : BitVec 3) (op : BitVec 7) (h : evenBits imm = true) :
    immB (encB imm rs2 rs1 f3 op) = imm := by
  have h0 := bit_of_even h
  simp at h0
  apply BitVec.eq_of_getLsbD_eq; intro i hi
  unfold immB encB
  simp only [BitVec.getLsbD_extractLsb', BitVec.getLsbD_append]
  interval_cases i <;> simp [*]

@[simp] theorem encU_fOpcode (imm : BitVec 20) (rd : Reg) (op : BitVec 7) :
    fOpcode (encU imm rd op) = op := by
  apply BitVec.eq_of_getLsbD_eq; intro i hi
  unfold fOpcode encU
  simp only [BitVec.getLsbD_extractLsb', BitVec.getLsbD_append]
  interval_cases i <;> simp

@[simp] theorem encU_fRd (imm : BitVec 20) (rd : Reg) (op : BitVec 7) :
    fRd (encU imm rd op) = rd := by
  apply BitVec.eq_of_getLsbD_eq; intro i hi
  unfold fRd encU
  simp only [BitVec.getLsbD_extractLsb', BitVec.getLsbD_append]
  interval_cases i <;> simp

@[simp] theorem encU_immU (imm : BitVec 20) (rd : Reg) (op : BitVec 7) :
    immU (encU imm rd op) = imm := by
  apply BitVec.eq_of_getLsbD_eq; intro i hi
  unfold immU encU
  simp only [BitVec.getLsbD_extractLsb', BitVec.getLsbD_append]
  interval_cases i <;> simp

@[simp] theorem encJ_fOpcode (imm : BitVec 21) (rd : Reg) (op : BitVec 7) :
    fOpcode (encJ imm rd op) = op := by
  apply BitVec.eq_of_getLsbD_eq; intro i hi
  unfold fOpcode encJ
  simp only [BitVec.getLsbD_extractLsb', BitVec.getLsbD_append]
  interval_cases i <;> simp

@[simp] theorem encJ_fRd (imm : BitVec 21) (rd : Reg) (op : BitVec 7) :
    fRd (encJ imm rd op) = rd := by
  apply BitVec.eq_of_getLsbD_eq; intro i hi
  unfold fRd encJ
  simp only [BitVec.getLsbD_extractLsb', BitVec.getLsbD_append]
  interval_cases i <;> simp

@[simp] theorem encJ_immJ (imm : BitVec 21) (rd : Reg) (op : BitVec 7) (h : evenBits imm = true) :
    immJ (encJ imm rd op) = imm := by
  have h0 := bit_of_even h
  simp at h0
  apply BitVec.eq_of_getLsbD_eq; intro i hi
  unfold immJ encJ
  simp only [BitVec.getLsbD_extractLsb', BitVec.getLsbD_append]
  interval_cases i <;> simp [*]

@[simp] theorem encShift_fOpcode (f6 shamt : BitVec 6) (rs1 : Reg) (f3 : BitVec 3) (rd : Reg) (op : BitVec 7) :
    fOpcode (encShift f6 shamt rs1 f3 rd op) = op := by
  apply BitVec.eq_of_getLsbD_eq; intro i hi
  unfold fOpcode encShift
  simp only [BitVec.getLsbD_extractLsb', BitVec.getLsbD_append]
  interval_cases i <;> simp

@[simp] theorem encShift_fRd (f6 shamt : BitVec 6) (rs1 : Reg) (f3 : BitVec 3) (rd : Reg) (op : BitVec 7) :
    fRd (encShift f6 shamt rs1 f3 rd op) = rd := by
  apply BitVec.eq_of_getLsbD_eq; intro i hi
  unfold fRd encShift
  simp only [BitVec.getLsbD_extractLsb', BitVec.getLsbD_append]
  interval_cases i <;> simp

@[simp] theorem encShift_fFunct3 (f6 shamt : BitVec 6) (rs1 : Reg) (f3 : BitVec 3) (rd : Reg) (op : BitVec 7) :
    fFunct3 (encShift f6 shamt rs1 f3 rd op) = f3 := by
  apply BitVec.eq_of_getLsbD_eq; intro i hi
  unfold fFunct3 encShift
  simp only [BitVec.getLsbD_extractLsb', BitVec.getLsbD_append]
  interval_cases i <;> simp

@[simp] theorem encShift_fRs1 (f6 shamt : BitVec 6) (rs1 : Reg) (f3 : BitVec 3) (rd : Reg) (op : BitVec 7) :
    fRs1 (encShift f6 shamt rs1 f3 rd op) = rs1 := by
  apply BitVec.eq_of_getLsbD_eq; intro i hi
  unfold fRs1 encShift
  simp only [BitVec.getLsbD_extractLsb', BitVec.getLsbD_append]
  interval_cases i <;> simp

@[simp] theorem encShift_fShamt (f6 shamt : BitVec 6) (rs1 : Reg) (f3 : BitVec 3) (rd : Reg) (op : BitVec 7) :
    fShamt (encShift f6 shamt rs1 f3 rd op) = shamt := by
  apply BitVec.eq_of_getLsbD_eq; intro i hi
  unfold fShamt encShift
  simp only [BitVec.getLsbD_extractLsb', BitVec.getLsbD_append]
  interval_cases i <;> simp

@[simp] theorem encShift_fFunct6 (f6 shamt : BitVec 6) (rs1 : Reg) (f3 : BitVec 3) (rd : Reg) (op : BitVec 7) :
    fFunct6 (encShift f6 shamt rs1 f3 rd op) = f6 := by
  apply BitVec.eq_of_getLsbD_eq; intro i hi
  unfold fFunct6 encShift
  simp only [BitVec.getLsbD_extractLsb', BitVec.getLsbD_append]
  interval_cases i <;> simp

@[simp] theorem encA_fOpcode (f5 : BitVec 5) (aq rl : Bool) (rs2 rs1 : Reg) (f3 : BitVec 3) (rd : Reg) :
    fOpcode (encA f5 aq rl rs2 rs1 f3 rd) = 0x2F#7 := by
  apply BitVec.eq_of_getLsbD_eq; intro i hi
  unfold fOpcode encA
  simp only [BitVec.getLsbD_extractLsb', BitVec.getLsbD_append]
  interval_cases i <;> simp

@[simp] theorem encA_fRd (f5 : BitVec 5) (aq rl : Bool) (rs2 rs1 : Reg) (f3 : BitVec 3) (rd : Reg) :
    fRd (encA f5 aq rl rs2 rs1 f3 rd) = rd := by
  apply BitVec.eq_of_getLsbD_eq; intro i hi
  unfold fRd encA
  simp only [BitVec.getLsbD_extractLsb', BitVec.getLsbD_append]
  interval_cases i <;> simp

@[simp] theorem encA_fFunct3 (f5 : BitVec 5) (aq rl : Bool) (rs2 rs1 : Reg) (f3 : BitVec 3) (rd : Reg) :
    fFunct3 (encA f5 aq rl rs2 rs1 f3 rd) = f3 := by
  apply BitVec.eq_of_getLsbD_eq; intro i hi
  unfold fFunct3 encA
  simp only [BitVec.getLsbD_extractLsb', BitVec.getLsbD_append]
  interval_cases i <;> simp

@[simp] theorem encA_fRs1 (f5 : BitVec 5) (aq rl : Bool) (rs2 rs1 : Reg) (f3 : BitVec 3) (rd : Reg) :
    fRs1 (encA f5 aq rl rs2 rs1 f3 rd) = rs1 := by
  apply BitVec.eq_of_getLsbD_eq; intro i hi
  unfold fRs1 encA
  simp only [BitVec.getLsbD_extractLsb', BitVec.getLsbD_append]
  interval_cases i <;> simp

@[simp] theorem encA_fRs2 (f5 : BitVec 5) (aq rl : Bool) (rs2 rs1 : Reg) (f3 : BitVec 3) (rd : Reg) :
    fRs2 (encA f5 aq rl rs2 rs1 f3 rd) = rs2 := by
  apply BitVec.eq_of_getLsbD_eq; intro i hi
  unfold fRs2 encA
  simp only [BitVec.getLsbD_extractLsb', BitVec.getLsbD_append]
  interval_cases i <;> simp

@[simp] theorem encA_fFunct5 (f5 : BitVec 5) (aq rl : Bool) (rs2 rs1 : Reg) (f3 : BitVec 3) (rd : Reg) :
    fFunct5 (encA f5 aq rl rs2 rs1 f3 rd) = f5 := by
  apply BitVec.eq_of_getLsbD_eq; intro i hi
  unfold fFunct5 encA
  simp only [BitVec.getLsbD_extractLsb', BitVec.getLsbD_append]
  interval_cases i <;> simp

@[simp] theorem encA_fAq (f5 : BitVec 5) (aq rl : Bool) (rs2 rs1 : Reg) (f3 : BitVec 3) (rd : Reg) :
    fAq (encA f5 aq rl rs2 rs1 f3 rd) = aq := by
  unfold fAq encA
  simp only [BitVec.getLsbD_append]
  simp

@[simp] theorem encA_fRl (f5 : BitVec 5) (aq rl : Bool) (rs2 rs1 : Reg) (f3 : BitVec 3) (rd : Reg) :
    fRl (encA f5 aq rl rs2 rs1 f3 rd) = rl := by
  unfold fRl encA
  simp only [BitVec.getLsbD_append]
  simp

@[simp] theorem encFence_fOpcode (fm pred succ : BitVec 4) (rs1 rd : Reg) :
    fOpcode (encFence fm pred succ rs1 rd) = 0x0F#7 := by
  apply BitVec.eq_of_getLsbD_eq; intro i hi
  unfold fOpcode encFence
  simp only [BitVec.getLsbD_extractLsb', BitVec.getLsbD_append]
  interval_cases i <;> simp

@[simp] theorem encFence_fRd (fm pred succ : BitVec 4) (rs1 rd : Reg) :
    fRd (encFence fm pred succ rs1 rd) = rd := by
  apply BitVec.eq_of_getLsbD_eq; intro i hi
  unfold fRd encFence
  simp only [BitVec.getLsbD_extractLsb', BitVec.getLsbD_append]
  interval_cases i <;> simp

@[simp] theorem encFence_fFunct3 (fm pred succ : BitVec 4) (rs1 rd : Reg) :
    fFunct3 (encFence fm pred succ rs1 rd) = 0#3 := by
  apply BitVec.eq_of_getLsbD_eq; intro i hi
  unfold fFunct3 encFence
  simp only [BitVec.getLsbD_extractLsb', BitVec.getLsbD_append]
  interval_cases i <;> simp

@[simp] theorem encFence_fRs1 (fm pred succ : BitVec 4) (rs1 rd : Reg) :
    fRs1 (encFence fm pred succ rs1 rd) = rs1 := by
  apply BitVec.eq_of_getLsbD_eq; intro i hi
  unfold fRs1 encFence
  simp only [BitVec.getLsbD_extractLsb', BitVec.getLsbD_append]
  interval_cases i <;> simp

@[simp] theorem encFence_bits28 (fm pred succ : BitVec 4) (rs1 rd : Reg) :
    (encFence fm pred succ rs1 rd).extractLsb' 28 4 = fm := by
  apply BitVec.eq_of_getLsbD_eq; intro i hi
  unfold encFence
  simp only [BitVec.getLsbD_extractLsb', BitVec.getLsbD_append]
  interval_cases i <;> simp

@[simp] theorem encFence_bits24 (fm pred succ : BitVec 4) (rs1 rd : Reg) :
    (encFence fm pred succ rs1 rd).extractLsb' 24 4 = pred := by
  apply BitVec.eq_of_getLsbD_eq; intro i hi
  unfold encFence
  simp only [BitVec.getLsbD_extractLsb', BitVec.getLsbD_append]
  interval_cases i <;> simp

@[simp] theorem encFence_bits20 (fm pred succ : BitVec 4) (rs1 rd : Reg) :
    (encFence fm pred succ rs1 rd).extractLsb' 20 4 = succ := by
  apply BitVec.eq_of_getLsbD_eq; intro i hi
  unfold encFence
  simp only [BitVec.getLsbD_extractLsb', BitVec.getLsbD_append]
  interval_cases i <;> simp

@[simp] theorem encCR_gOp (f4 : BitVec 4) (rd rs2 : Reg) (op : BitVec 2) :
    gOp (encCR f4 rd rs2 op) = op := by
  apply BitVec.eq_of_getLsbD_eq; intro i hi
  unfold gOp encCR
  simp only [BitVec.getLsbD_extractLsb', BitVec.getLsbD_append]
  interval_cases i <;> simp

@[simp] theorem encCR_gRd (f4 : BitVec 4) (rd rs2 : Reg) (op : BitVec 2) :
    gRd (encCR f4 rd rs2 op) = rd := by
  apply BitVec.eq_of_getLsbD_eq; intro i hi
  unfold gRd encCR
  simp only [BitVec.getLsbD_extractLsb', BitVec.getLsbD_append]
  interval_cases i <;> simp

@[simp] theorem encCR_gRs2 (f4 : BitVec 4) (rd rs2 : Reg) (op : BitVec 2) :
    gRs2 (encCR f4 rd rs2 op) = rs2 := by
  apply BitVec.eq_of_getLsbD_eq; intro i hi
  unfold gRs2 encCR
  simp only [BitVec.getLsbD_extractLsb', BitVec.getLsbD_append]
  interval_cases i <;> simp

@[simp] theorem encCR_gFunct3 (f4 : BitVec 4) (rd rs2 : Reg) (op : BitVec 2) :
    gFunct3 (encCR f4 rd rs2 op) = f4.extractLsb' 1 3 := by
  apply BitVec.eq_of_getLsbD_eq; intro i hi
  unfold gFunct3 encCR
  simp only [BitVec.getLsbD_extractLsb', BitVec.getLsbD_append]
  interval_cases i <;> simp

@[simp] theorem encCR_gBit12 (f4 : BitVec 4) (rd rs2 : Reg) (op : BitVec 2) :
    gBit12 (encCR f4 rd rs2 op) = f4.extractLsb' 0 1 := by
  apply BitVec.eq_of_getLsbD_eq; intro i hi
  unfold gBit12 encCR
  simp only [BitVec.getLsbD_extractLsb', BitVec.getLsbD_append]
  interval_cases i; simp

@[simp] theorem encCI_gOp (f3 : BitVec 3) (imm : BitVec 6) (rd : Reg) (op : BitVec 2) :
    gOp (encCI f3 imm rd op) = op := by
  apply BitVec.eq_of_getLsbD_eq; intro i hi
  unfold gOp encCI
  simp only [BitVec.getLsbD_extractLsb', BitVec.getLsbD_append]
  interval_cases i <;> simp

@[simp] theorem encCI_gRd (f3 : BitVec 3) (imm : BitVec 6) (rd : Reg) (op : BitVec 2) :
    gRd (encCI f3 imm rd op) = rd := by
  apply BitVec.eq_of_getLsbD_eq; intro i hi
  unfold gRd encCI
  simp only [BitVec.getLsbD_extractLsb', BitVec.getLsbD_append]
  interval_cases i <;> simp

@[simp] theorem encCI_gFunct3 (f3 : BitVec 3) (imm : BitVec 6) (rd : Reg) (op : BitVec 2) :
    gFunct3 (encCI f3 imm rd op) = f3 := by
  apply BitVec.eq_of_getLsbD_eq; intro i hi
  unfold gFunct3 encCI
  simp only [BitVec.getLsbD_extractLsb', BitVec.getLsbD_append]
  interval_cases i <;> simp

@[simp] theorem encCI_cImm6 (f3 : BitVec 3) (imm : BitVec 6) (rd : Reg) (op : BitVec 2) :
    cImm6 (encCI f3 imm rd op) = imm := by
  apply BitVec.eq_of_getLsbD_eq; intro i hi
  unfold cImm6 encCI
  simp only [BitVec.getLsbD_extractLsb', BitVec.getLsbD_append]
  interval_cases i <;> simp

@[simp] theorem encCAddi4spn_gOp (u : BitVec 10) (rd : CReg) :
    gOp (encCAddi4spn u rd) = 0#2 := by
  apply BitVec.eq_of_getLsbD_eq; intro i hi
  unfold gOp encCAddi4spn
  simp only [BitVec.getLsbD_extractLsb', BitVec.getLsbD_append]
  interval_cases i <;> simp

@[simp] theorem encCAddi4spn_gRs2c (u : BitVec 10) (rd : CReg) :
    gRs2c (encCAddi4spn u rd) = rd := by
  apply BitVec.eq_of_getLsbD_eq; intro i hi
  unfold gRs2c encCAddi4spn
  simp only [BitVec.getLsbD_extractLsb', BitVec.getLsbD_append]
  interval_cases i <;> simp

@[simp] theorem encCAddi4spn_gFunct3 (u : BitVec 10) (rd : CReg) :
    gFunct3 (encCAddi4spn u rd) = 0#3 := by
  apply BitVec.eq_of_getLsbD_eq; intro i hi
  unfold gFunct3 encCAddi4spn
  simp only [BitVec.getLsbD_extractLsb', BitVec.getLsbD_append]
  interval_cases i <;> simp

@[simp] theorem encCAddi4spn_cImmAddi4spn (u : BitVec 10) (rd : CReg) (h : mult4 u = true) :
    cImmAddi4spn (encCAddi4spn u rd) = u := by
  have h0 := bit_of_low 2 0 h (by decide)
  have h1 := bit_of_low 2 1 h (by decide)
  simp at h0 h1
  apply BitVec.eq_of_getLsbD_eq; intro i hi
  unfold cImmAddi4spn encCAddi4spn
  simp only [BitVec.getLsbD_extractLsb', BitVec.getLsbD_append]
  interval_cases i <;> simp [*]

@[simp] theorem encCW_gOp (f3 : BitVec 3) (u : BitVec 7) (rs1 r2 : CReg) :
    gOp (encCW f3 u rs1 r2) = 0#2 := by
  apply BitVec.eq_of_getLsbD_eq; intro i hi
  unfold gOp encCW
  simp only [BitVec.getLsbD_extractLsb', BitVec.getLsbD_append]
  interval_cases i <;> simp

@[simp] theorem encCW_gRs2c (f3 : BitVec 3) (u : BitVec 7) (rs1 r2 : CReg) :
    gRs2c (encCW f3 u rs1 r2) = r2 := by
  apply BitVec.eq_of_getLsbD_eq; intro i hi
  unfold gRs2c encCW
  simp only [BitVec.getLsbD_extractLsb', BitVec.getLsbD_append]
  interval_cases i <;> simp

@[simp] theorem encCW_gRs1c (f3 : BitVec 3) (u : BitVec 7) (rs1 r2 : CReg) :
    gRs1c (encCW f3 u rs1 r2) = rs1 := by
  apply BitVec.eq_of_getLsbD_eq; intro i hi
  unfold gRs1c encCW
  simp only [BitVec.getLsbD_extractLsb', BitVec.getLsbD_append]
  interval_cases i <;> simp

@[simp] theorem encCW_gFunct3 (f3 : BitVec 3) (u : BitVec 7) (rs1 r2 : CReg) :
    gFunct3 (encCW f3 u rs1 r2) = f3 := by
  apply BitVec.eq_of_getLsbD_eq; intro i hi
  unfold gFunct3 encCW
  simp only [BitVec.getLsbD_extractLsb', BitVec.getLsbD_append]
  interval_cases i <;> simp

@[simp] theorem encCW_cImmW (f3 : BitVec 3) (u : BitVec 7) (rs1 r2 : CReg) (h : mult4 u = true) :
    cImmW (encCW f3 u rs1 r2) = u := by
  have h0 := bit_of_low 2 0 h (by decide)
  have h1 := bit_of_low 2 1 h (by decide)
  simp at h0 h1
  apply BitVec.eq_of_getLsbD_eq; intro i hi
  unfold cImmW encCW
  simp only [BitVec.getLsbD_extractLsb', BitVec.getLsbD_append]
  interval_cases i <;> simp [*]

@[simp] theorem encCD_gOp (f3 : BitVec 3) (u : BitVec 8) (rs1 r2 : CReg) :
    gOp (encCD f3 u rs1 r2) = 0#2 := by
  apply BitVec.eq_of_getLsbD_eq; intro i hi
  unfold gOp encCD
  simp only [BitVec.getLsbD_extractLsb', BitVec.getLsbD_append]
  interval_cases i <;> simp

@[simp] theorem encCD_gRs2c (f3 : BitVec 3) (u : BitVec 8) (rs1 r2 : CReg) :
    gRs2c (encCD f3 u rs1 r2) = r2 := by
  apply BitVec.eq_of_getLsbD_eq; intro i hi
  unfold gRs2c encCD
  simp only [BitVec.getLsbD_extractLsb', BitVec.getLsbD_append]
  interval_cases i <;> simp

@[simp] theorem encCD_gRs1c (f3 : BitVec 3) (u : BitVec 8) (rs1 r2 : CReg) :
    gRs1c (encCD f3 u rs1 r2) = rs1 := by
  apply BitVec.eq_of_getLsbD_eq; intro i hi
  unfold gRs1c encCD
  simp only [BitVec.getLsbD_extractLsb', BitVec.getLsbD_append]
  interval_cases i <;> simp

@[simp] theorem encCD_gFunct3 (f3 : BitVec 3) (u : BitVec 8) (rs1 r2 : CReg) :
    gFunct3 (encCD f3 u rs1 r2) = f3 := by
  apply BitVec.eq_of_getLsbD_eq; intro i hi
  unfold gFunct3 encCD
  simp only [BitVec.getLsbD_extractLsb', BitVec.getLsbD_append]
  interval_cases i <;> simp

@[simp] theorem encCD_cImmD (f3 : BitVec 3) (u : BitVec 8) (rs1 r2 : CReg) (h : mult8 u = true) :
    cImmD (encCD f3 u rs1 r2) = u := by
  have h0 := bit_of_low 3 0 h (by decide)
  have h1 := bit_of_low 3 1 h (by decide)
  have h2 := bit_of_low 3 2 h (by decide)
  simp at h0 h1 h2
  apply BitVec.eq_of_getLsbD_eq; intro i hi
  unfold cImmD encCD
  simp only [BitVec.getLsbD_extractLsb', BitVec.getLsbD_append]
  interval_cases i <;> simp [*]

@[simp] theorem encCAddi16sp_gOp (n : BitVec 10) :
    gOp (encCAddi16sp n) = 1#2 := by
  apply BitVec.eq_of_getLsbD_eq; intro i hi
  unfold gOp encCAddi16sp
  simp only [BitVec.getLsbD_extractLsb', BitVec.getLsbD_append]
  interval_cases i <;> simp

@[simp] theorem encCAddi16sp_gRd (n : BitVec 10) :
    gRd (encCAddi16sp n) = 2#5 := by
  apply BitVec.eq_of_getLsbD_eq; intro i hi
  unfold gRd encCAddi16sp
  simp only [BitVec.getLsbD_extractLsb', BitVec.getLsbD_append]
  interval_cases i <;> simp

@[simp] theorem encCAddi16sp_gFunct3 (n : BitVec 10) :
    gFunct3 (encCAddi16sp n) = 3#3 := by
  apply BitVec.eq_of_getLsbD_eq; intro i hi
  unfold gFunct3 encCAddi16sp
  simp only [BitVec.getLsbD_extractLsb', BitVec.getLsbD_append]
  interval_cases i <;> simp

@[simp] theorem encCAddi16sp_cImmAddi16sp (n : BitVec 10) (h : mult16 n = true) :
    cImmAddi16sp (encCAddi16sp n) = n := by
  have h0 := bit_of_low 4 0 h (by decide)
  have h1 := bit_of_low 4 1 h (by decide)
  have h2 := bit_of_low 4 2 h (by decide)
  have h3 := bit_of_low 4 3 h (by decide)
  simp at h0 h1 h2 h3
  apply BitVec.eq_of_getLsbD_eq; intro i hi
  unfold cImmAddi16sp encCAddi16sp
  simp only [BitVec.getLsbD_extractLsb', BitVec.getLsbD_append]
  interval_cases i <;> simp [*]

@[simp] theorem encCBimm_gOp (sel : BitVec 2) (imm : BitVec 6) (rd : CReg) :
    gOp (encCBimm sel imm rd) = 1#2 := by
  apply BitVec.eq_of_getLsbD_eq; intro i hi
  unfold gOp encCBimm
  simp only [BitVec.getLsbD_extractLsb', BitVec.getLsbD_append]
  interval_cases i <;> simp

@[simp] theorem encCBimm_gRs1c (sel : BitVec 2) (imm : BitVec 6) (rd : CReg) :
    gRs1c (encCBimm sel imm rd) = rd := by
  apply BitVec.eq_of_getLsbD_eq; intro i hi
  unfold gRs1c encCBimm
  simp only [BitVec.getLsbD_extractLsb', BitVec.getLsbD_append]
  interval_cases i <;> simp

@[simp] theorem encCBimm_gFunct3 (sel : BitVec 2) (imm : BitVec 6) (rd : CReg) :
    gFunct3 (encCBimm sel imm rd) = 4#3 := by
  apply BitVec.eq_of_getLsbD_eq; intro i hi
  unfold gFunct3 encCBimm
  simp only [BitVec.getLsbD_extractLsb', BitVec.getLsbD_append]
  interval_cases i <;> simp

@[simp] theorem encCBimm_gSel (sel : BitVec 2) (imm : BitVec 6) (rd : CReg) :
    gSel (encCBimm sel imm rd) = sel := by
  apply BitVec.eq_of_getLsbD_eq; intro i hi
  unfold gSel encCBimm
  simp only [BitVec.getLsbD_extractLsb', BitVec.getLsbD_append]
  interval_cases i <;> simp

@[simp] theorem encCBimm_cImm6 (sel : BitVec 2) (imm : BitVec 6) (rd : CReg) :
    cImm6 (encCBimm sel imm rd) = imm := by
  apply BitVec.eq_of_getLsbD_eq; intro i hi
  unfold cImm6 encCBimm
  simp only [BitVec.getLsbD_extractLsb', BitVec.getLsbD_append]
  interval_cases i <;> simp

@[simp] theorem encCA_gOp (b12 : BitVec 1) (f2 : BitVec 2) (rd rs2 : CReg) :
    gOp (encCA b12 f2 rd rs2) = 1#2 := by
  apply BitVec.eq_of_getLsbD_eq; intro i hi
  unfold gOp encCA
  simp only [BitVec.getLsbD_extractLsb', BitVec.getLsbD_append]
  interval_cases i <;> simp

@[simp] theorem encCA_gRs1c (b12 : BitVec 1) (f2 : BitVec 2) (rd rs2 : CReg) :
    gRs1c (encCA b12 f2 rd rs2) = rd := by
  apply BitVec.eq_of_getLsbD_eq; intro i hi
  unfold gRs1c encCA
  simp only [BitVec.getLsbD_extractLsb', BitVec.getLsbD_append]
  interval_cases i <;> simp

@[simp] theorem encCA_gRs2c (b12 : BitVec 1) (f2 : BitVec 2) (rd rs2 : CReg) :
    gRs2c (encCA b12 f2 rd rs2) = rs2 := by
  apply BitVec.eq_of_getLsbD_eq; intro i hi
  unfold gRs2c encCA
  simp only [BitVec.getLsbD_extractLsb', BitVec.getLsbD_append]
  interval_cases i <;> simp

@[simp] theorem encCA_gFunct3 (b12 : BitVec 1) (f2 : BitVec 2) (rd rs2 : CReg) :
    gFunct3 (encCA b12 f2 rd rs2) = 4#3 := by
  apply BitVec.eq_of_getLsbD_eq; intro i hi
  unfold gFunct3 encCA
  simp only [BitVec.getLsbD_extractLsb', BitVec.getLsbD_append]
  interval_cases i <;> simp

@[simp] theorem encCA_gSel (b12 : BitVec 1) (f2 : BitVec 2) (rd rs2 : CReg) :
    gSel (encCA b12 f2 rd rs2) = 3#2 := by
  apply BitVec.eq_of_getLsbD_eq; intro i hi
  unfold gSel encCA
  simp only [BitVec.getLsbD_extractLsb', BitVec.getLsbD_append]
  interval_cases i <;> simp

@[simp] theorem encCA_gBit12 (b12 : BitVec 1) (f2 : BitVec 2) (rd rs2 : CReg) :
    gBit12 (encCA b12 f2 rd rs2) = b12 := by
  apply BitVec.eq_of_getLsbD_eq; intro i hi
  unfold gBit12 encCA
  simp only [BitVec.getLsbD_extractLsb', BitVec.getLsbD_append]
  interval_cases i; simp

@[simp] theorem encCA_gFunct2 (b12 : BitVec 1) (f2 : BitVec 2) (rd rs2 : CReg) :
    gFunct2 (encCA b12 f2 rd rs2) = f2 := by
  apply BitVec.eq_of_getLsbD_eq; intro i hi
  unfold gFunct2 encCA
  simp only [BitVec.getLsbD_extractLsb', BitVec.getLsbD_append]
  interval_cases i <;> simp

@[simp] theorem encCJ_gOp (f3 : BitVec 3) (o : BitVec 12) :
    gOp (encCJ f3 o) = 1#2 := by
  apply BitVec.eq_of_getLsbD_eq; intro i hi
  unfold gOp encCJ
  simp only [BitVec.getLsbD_extractLsb', BitVec.getLsbD_append]
  interval_cases i <;> simp

@[simp] theorem encCJ_gFunct3 (f3 : BitVec 3) (o : BitVec 12) :
    gFunct3 (encCJ f3 o) = f3 := by
  apply BitVec.eq_of_getLsbD_eq; intro i hi
  unfold gFunct3 encCJ
  simp only [BitVec.getLsbD_extractLsb', BitVec.getLsbD_append]
  interval_cases i <;> simp

@[simp] theorem encCJ_cOffJ (f3 : BitVec 3) (o : BitVec 12) (h : evenBits o = true) :
    cOffJ (encCJ f3 o) = o := by
  have h0 := bit_of_even h
  simp at h0
  apply BitVec.eq_of_getLsbD_eq; intro i hi
  unfold cOffJ encCJ
  simp only [BitVec.getLsbD_extractLsb', BitVec.getLsbD_append]
  interval_cases i <;> simp [*]

@[simp] theorem encCB_gOp (f3 : BitVec 3) (o : BitVec 9) (rs1 : CReg) :
    gOp (encCB f3 o rs1) = 1#2 := by
  apply BitVec.eq_of_getLsbD_eq; intro i hi
  unfold gOp encCB
  simp only [BitVec.getLsbD_extractLsb', BitVec.getLsbD_append]
  interval_cases i <;> simp

@[simp] theorem encCB_gFunct3 (f3 : BitVec 3) (o : BitVec 9) (rs1 : CReg) :
    gFunct3 (encCB f3 o rs1) = f3 := by
  apply BitVec.eq_of_getLsbD_eq; intro i hi
  unfold gFunct3 encCB
  simp only [BitVec.getLsbD_extractLsb', BitVec.getLsbD_append]
  interval_cases i <;> simp

@[simp] theorem encCB_gRs1c (f3 : BitVec 3) (o : BitVec 9) (rs1 : CReg) :
    gRs1c (encCB f3 o rs1) = rs1 := by
  apply BitVec.eq_of_getLsbD_eq; intro i hi
  unfold gRs1c encCB
  simp only [BitVec.getLsbD_extractLsb', BitVec.getLsbD_append]
  interval_cases i <;> simp

@[simp] theorem encCB_cOffB (f3 : BitVec 3) (o : BitVec 9) (rs1 : CReg) (h : evenBits o = true) :
    cOffB (encCB f3 o rs1) = o := by
  have h0 := bit_of_even h
  simp at h0
  apply BitVec.eq_of_getLsbD_eq; intro i hi
  unfold cOffB encCB
  simp only [BitVec.getLsbD_extractLsb', BitVec.getLsbD_append]
  interval_cases i <;> simp [*]

@[simp] theorem encCLwsp_gOp (u : BitVec 8) (rd : Reg) :
    gOp (encCLwsp u rd) = 2#2 := by
  apply BitVec.eq_of_getLsbD_eq; intro i hi
  unfold gOp encCLwsp
  simp only [BitVec.getLsbD_extractLsb', BitVec.getLsbD_append]
  interval_cases i <;> simp

@[simp] theorem encCLwsp_gFunct3 (u : BitVec 8) (rd : Reg) :
    gFunct3 (encCLwsp u rd) = 2#3 := by
  apply BitVec.eq_of_getLsbD_eq; intro i hi
  unfold gFunct3 encCLwsp
  simp only [BitVec.getLsbD_extractLsb', BitVec.getLsbD_append]
  interval_cases i <;> simp

@[simp] theorem encCLwsp_gRd (u : BitVec 8) (rd : Reg) :
    gRd (encCLwsp u rd) = rd := by
  apply BitVec.eq_of_getLsbD_eq; intro i hi
  unfold gRd encCLwsp
  simp only [BitVec.getLsbD_extractLsb', BitVec.getLsbD_append]
  interval_cases i <;> simp

@[simp] theorem encCLwsp_cImmLwsp (u : BitVec 8) (rd : Reg) (h : mult4 u = true) :
    cImmLwsp (encCLwsp u rd) = u := by
  have h0 := bit_of_low 2 0 h (by decide)
  have h1 := bit_of_low 2 1 h (by decide)
  simp at h0 h1
  apply BitVec.eq_of_getLsbD_eq; intro i hi
  unfold cImmLwsp encCLwsp
  simp only [BitVec.getLsbD_extractLsb', BitVec.getLsbD_append]
  interval_cases i <;> simp [*]

@[simp] theorem encCLdsp_gOp (u : BitVec 9) (rd : Reg) :
    gOp (encCLdsp u rd) = 2#2 := by
  apply BitVec.eq_of_getLsbD_eq; intro i hi
  unfold gOp encCLdsp
  simp only [BitVec.getLsbD_extractLsb', BitVec.getLsbD_append]
  interval_cases i <;> simp

@[simp] theorem encCLdsp_gFunct3 (u : BitVec 9) (rd : Reg) :
    gFunct3 (encCLdsp u rd) = 3#3 := by
  apply BitVec.eq_of_getLsbD_eq; intro i hi
  unfold gFunct3 encCLdsp
  simp only [BitVec.getLsbD_extractLsb', BitVec.getLsbD_append]
  interval_cases i <;> simp

@[simp] theorem encCLdsp_gRd (u : BitVec 9) (rd : Reg) :
    gRd (encCLdsp u rd) = rd := by
  apply BitVec.eq_of_getLsbD_eq; intro i hi
  unfold gRd encCLdsp
  simp only [BitVec.getLsbD_extractLsb', BitVec.getLsbD_append]
  interval_cases i <;> simp

@[simp] theorem encCLdsp_cImmLdsp (u : BitVec 9) (rd : Reg) (h : mult8 u = true) :
    cImmLdsp (encCLdsp u rd) = u := by
  have h0 := bit_of_low 3 0 h (by decide)
  have h1 := bit_of_low 3 1 h (by decide)
  have h2 := bit_of_low 3 2 h (by decide)
  simp at h0 h1 h2
  apply BitVec.eq_of_getLsbD_eq; intro i hi
  unfold cImmLdsp encCLdsp
  simp only [BitVec.getLsbD_extractLsb', BitVec.getLsbD_append]
  interval_cases i <;> simp [*]

@[simp] theorem encCSwsp_gOp (u : BitVec 8) (rs2 : Reg) :
    gOp (encCSwsp u rs2) = 2#2 := by
  apply BitVec.eq_of_getLsbD_eq; intro i hi
  unfold gOp encCSwsp
  simp only [BitVec.getLsbD_extractLsb', BitVec.getLsbD_append]
  interval_cases i <;> simp

@[simp] theorem encCSwsp_gFunct3 (u : BitVec 8) (rs2 : Reg) :
    gFunct3 (encCSwsp u rs2) = 6#3 := by
  apply BitVec.eq_of_getLsbD_eq; intro i hi
  unfold gFunct3 encCSwsp
  simp only [BitVec.getLsbD_extractLsb', BitVec.getLsbD_append]
  interval_cases i <;> simp

@[simp] theorem encCSwsp_gRs2 (u : BitVec 8) (rs2 : Reg) :
    gRs2 (encCSwsp u rs2) = rs2 := by
  apply BitVec.eq_of_getLsbD_eq; intro i hi
  unfold gRs2 encCSwsp
  simp only [BitVec.getLsbD_extractLsb', BitVec.getLsbD_append]
  interval_cases i <;> simp

@[simp] theorem encCSwsp_cImmSwsp (u : BitVec 8) (rs2 : Reg) (h : mult4 u = true) :
    cImmSwsp (encCSwsp u rs2) = u := by
  have h0 := bit_of_low 2 0 h (by decide)
  have h1 := bit_of_low 2 1 h (by decide)
  simp at h0 h1
  apply BitVec.eq_of_getLsbD_eq; intro i hi
  unfold cImmSwsp encCSwsp
  simp only [BitVec.getLsbD_extractLsb', BitVec.getLsbD_append]
  interval_cases i <;> simp [*]

@[simp] theorem encCSdsp_gOp (u : BitVec 9) (rs2 : Reg) :
    gOp (encCSdsp u rs2) = 2#2 := by
  apply BitVec.eq_of_getLsbD_eq; intro i hi
  unfold gOp encCSdsp
  simp only [BitVec.getLsbD_extractLsb', BitVec.getLsbD_append]
  interval_cases i <;> simp

@[simp] theorem encCSdsp_gFunct3 (u : BitVec 9) (rs2 : Reg) :
    gFunct3 (encCSdsp u rs2) = 7#3 := by
  apply BitVec.eq_of_getLsbD_eq; intro i hi
  unfold gFunct3 encCSdsp
  simp only [BitVec.getLsbD_extractLsb', BitVec.getLsbD_append]
  interval_cases i <;> simp

@[simp] theorem encCSdsp_gRs2 (u : BitVec 9) (rs2 : Reg) :
    gRs2 (encCSdsp u rs2) = rs2 := by
  apply BitVec.eq_of_getLsbD_eq; intro i hi
  unfold gRs2 encCSdsp
  simp only [BitVec.getLsbD_extractLsb', BitVec.getLsbD_append]
  interval_cases i <;> simp

@[simp] theorem encCSdsp_cImmSdsp (u : BitVec 9) (rs2 : Reg) (h : mult8 u = true) :
    cImmSdsp (encCSdsp u rs2) = u := by
  have h0 := bit_of_low 3 0 h (by decide)
  have h1 := bit_of_low 3 1 h (by decide)
  have h2 := bit_of_low 3 2 h (by decide)
  simp at h0 h1 h2
  apply BitVec.eq_of_getLsbD_eq; intro i hi
  unfold cImmSdsp encCSdsp
  simp only [BitVec.getLsbD_extractLsb', BitVec.getLsbD_append]
  interval_cases i <;> simp [*]

end Sys2Proof
end

