-- ==== Sys2Proof/Laws/Memory.lean ====
section
/-! SUPPORT. Keyed lists and memory: a read after a write, the canonical form, and what a store of several bytes does. -/

namespace Sys2Proof.Machine

/-! ### Keyed lists -/

theorem assocGet_put {α : Type} (l : List (Nat × α)) (k j : Nat) (v : α) :
    assocGet (assocPut l k v) j = if j = k then some v else assocGet l j := by
  induction l with
  | nil => simp only [assocPut, assocGet]; split <;> split <;> simp_all
  | cons p t ih =>
    obtain ⟨a, w⟩ := p
    simp only [assocPut]
    split
    · simp only [assocGet, eq_comm (a := k)]
    · split
      · subst_vars
        simp only [assocGet, eq_comm (a := a)]
        split <;> rfl
      · rename_i h1 h2
        simp only [assocGet, ih]
        by_cases ha : a = j
        · rw [if_pos ha, if_pos ha, if_neg (by omega)]
        · rw [if_neg ha, if_neg ha]

theorem assocGet_erase {α : Type} (l : List (Nat × α)) (k j : Nat) :
    assocGet (assocErase l k) j = if j = k then none else assocGet l j := by
  induction l with
  | nil => simp [assocErase, assocGet]
  | cons p t ih =>
    obtain ⟨a, w⟩ := p
    simp only [assocErase, List.filter_cons, assocGet] at ih ⊢
    by_cases h : a = k
    · subst h; simp only [bne_self_eq_false, Bool.false_eq_true, if_false, ih]; split <;> simp_all [eq_comm]
    · simp only [bne_iff_ne.2 h, if_true, assocGet, ih]; split <;> split <;> simp_all

theorem mem_of_assocGet {α : Type} {l : List (Nat × α)} {k : Nat} {v : α} (h : assocGet l k = some v) : (k, v) ∈ l := by
  induction l with
  | nil => simp [assocGet] at h
  | cons p t ih =>
    obtain ⟨a, w⟩ := p
    simp only [assocGet] at h
    split at h
    · simp_all
    · exact List.mem_cons_of_mem _ (ih h)

theorem mem_assocPut {α : Type} {l : List (Nat × α)} {k : Nat} {v : α} {p : Nat × α} (h : p ∈ assocPut l k v) :
    p = (k, v) ∨ p ∈ l := by
  induction l with
  | nil => simpa [assocPut] using h
  | cons q t ih =>
    simp only [assocPut] at h
    split at h
    · simpa using h
    · split at h
      · rcases List.mem_cons.1 h with h | h
        · exact .inl h
        · exact .inr (List.mem_cons_of_mem _ h)
      · rcases List.mem_cons.1 h with h | h
        · exact .inr (by simp [h])
        · rcases ih h with h | h
          · exact .inl h
          · exact .inr (List.mem_cons_of_mem _ h)

theorem mem_assocErase {α : Type} {l : List (Nat × α)} {k : Nat} {p : Nat × α} (h : p ∈ assocErase l k) : p ∈ l :=
  (List.mem_filter.1 h).1

theorem assocSorted_put {α : Type} {l : List (Nat × α)} (k : Nat) (v : α) (h : assocSorted l) :
    assocSorted (assocPut l k v) := by
  induction l with
  | nil => simp [assocPut, assocSorted]
  | cons q t ih =>
    obtain ⟨hq, ht⟩ := List.pairwise_cons.1 h
    simp only [assocPut]
    split
    · rename_i hk
      refine List.Pairwise.cons ?_ h
      intro r hr
      rcases List.mem_cons.1 hr with hr | hr
      · subst hr; exact hk
      · exact Nat.lt_trans hk (hq r hr)
    · split
      · rename_i _ hk; subst hk
        exact List.Pairwise.cons (fun r hr => hq r hr) ht
      · rename_i h1 h2
        refine List.Pairwise.cons ?_ (ih ht)
        intro r hr
        rcases mem_assocPut hr with hr | hr
        · subst hr; show q.1 < k; omega
        · exact hq r hr

theorem assocSorted_erase {α : Type} {l : List (Nat × α)} (k : Nat) (h : assocSorted l) : assocSorted (assocErase l k) :=
  List.Pairwise.filter _ h

/-! ### Bytes -/

/-- A read after a write. -/
theorem readByte_writeByte (m : Memory) (a b : Nat) (v : Byte) :
    (m.writeByte a v).readByte b = if b = a then v else m.readByte b := by
  unfold Memory.readByte Memory.writeByte
  split
  · rename_i h; rw [assocGet_erase]; split <;> simp [h]
  · rw [assocGet_put]; split <;> simp

/-- A write keeps the canonical form. -/
theorem writeByte_wf {m : Memory} (a : Nat) (v : Byte) (h : Memory.wf m) : Memory.wf (m.writeByte a v) := by
  unfold Memory.writeByte
  split
  · exact ⟨assocSorted_erase a h.1, fun c hc => h.2 c (mem_assocErase hc)⟩
  · rename_i hv
    refine ⟨assocSorted_put a v h.1, fun c hc => ?_⟩
    rcases mem_assocPut hc with hc | hc
    · subst hc; exact hv
    · exact h.2 c hc

theorem mem_writeByte {m : Memory} {a : Nat} {v : Byte} {c : Host.Cell} (h : c ∈ m.writeByte a v) : c.1 = a ∨ c ∈ m := by
  unfold Memory.writeByte at h
  split at h
  · exact .inr (mem_assocErase h)
  · rcases mem_assocPut h with h | h
    · exact .inl (by simp [h])
    · exact .inr h

/-! ### Several bytes -/

theorem store_wf (n : Nat) {m : Memory} (pa v : Nat) (h : Memory.wf m) : Memory.wf (m.store pa n v) := by
  induction n generalizing m pa v with
  | zero => exact h
  | succ n ih => exact ih _ _ (writeByte_wf _ _ h)

theorem mem_store (n : Nat) {m : Memory} {pa v : Nat} {c : Host.Cell} (h : c ∈ m.store pa n v) :
    (pa ≤ c.1 ∧ c.1 < pa + n) ∨ c ∈ m := by
  induction n generalizing m pa v with
  | zero => exact .inr h
  | succ n ih =>
    rcases ih h with h | h
    · exact .inl ⟨by omega, by omega⟩
    · rcases mem_writeByte h with h | h
      · exact .inl ⟨by omega, by omega⟩
      · exact .inr h

/-- A store changes its bytes, to the bytes of the value, and nothing else. -/
theorem store_bytesStored (n : Nat) (m : Memory) (pa v : Nat) : BytesStored m (m.store pa n v) pa n v := by
  induction n generalizing m pa v with
  | zero => intro a; simp [Memory.store]
  | succ n ih =>
    intro a
    simp only [Memory.store]
    rw [ih (m.writeByte pa (BitVec.ofNat 8 v)) (pa + 1) (v / 256) a, readByte_writeByte]
    by_cases h1 : a = pa
    · subst h1; simp
    · by_cases h2 : pa ≤ a ∧ a < pa + (n + 1)
      · have h3 : pa + 1 ≤ a ∧ a < pa + 1 + n := ⟨by omega, by omega⟩
        rw [if_pos h3, if_pos h2, Nat.div_div_eq_div_mul, show a - pa = (a - (pa + 1)) + 1 by omega, Nat.pow_succ,
          Nat.mul_comm]
      · have h3 : ¬ (pa + 1 ≤ a ∧ a < pa + 1 + n) := by omega
        rw [if_neg h3, if_neg h2, if_neg h1]

/-- A load is the little-endian number of its bytes. -/
theorem load_eq_bytesAt (n : Nat) (m : Memory) (pa : Nat) : m.load pa n = bytesAt m pa n := by
  induction n generalizing pa with
  | zero => simp [Memory.load, bytesAt]
  | succ n ih =>
    simp only [Memory.load, ih, bytesAt, List.range_succ_eq_map, List.map_cons, List.map_map, List.sum_cons]
    congr 1
    · simp
    · rw [← List.sum_map_mul_left]
      congr 1
      apply List.map_congr_left
      intro k _
      simp only [Function.comp, Nat.succ_eq_add_one, Nat.pow_succ, show pa + 1 + k = pa + (k + 1) by omega]
      ring

theorem load_lt (n : Nat) (m : Memory) (pa : Nat) : m.load pa n < 256 ^ n := by
  induction n generalizing pa with
  | zero => simp [Memory.load]
  | succ n ih =>
    have h1 := (m.readByte pa).isLt
    have h2 := ih (pa + 1)
    simp only [Memory.load, Nat.pow_succ]
    omega

/-- Memories with the same bytes load the same. -/
theorem load_congr (n : Nat) {m m' : Memory} {pa : Nat} (h : ∀ a, pa ≤ a → a < pa + n → m'.readByte a = m.readByte a) :
    m'.load pa n = m.load pa n := by
  induction n generalizing pa with
  | zero => rfl
  | succ n ih =>
    simp only [Memory.load]
    rw [h pa (Nat.le_refl _) (by omega), ih fun a h1 h2 => h a (by omega) (by omega)]

/-- A load after a store of the same bytes gives the value stored. -/
theorem load_store (n : Nat) (m : Memory) (pa v : Nat) : (m.store pa n v).load pa n = v % 256 ^ n := by
  suffices hs : ∀ (n : Nat) (m' : Memory) (pa v : Nat),
      (∀ a, pa ≤ a → a < pa + n → m'.readByte a = BitVec.ofNat 8 (v / 256 ^ (a - pa))) → m'.load pa n = v % 256 ^ n by
    apply hs
    intro a h1 h2
    rw [store_bytesStored n m pa v a, if_pos ⟨h1, h2⟩]
  intro n
  induction n with
  | zero => intro m' pa v _; simp [Memory.load, Nat.mod_one]
  | succ n ih =>
    intro m' pa v h
    simp only [Memory.load]
    rw [h pa (Nat.le_refl _) (by omega), ih m' (pa + 1) (v / 256) (fun a h1 h2 => by
      rw [h a (by omega) (by omega), Nat.div_div_eq_div_mul, show a - pa = (a - (pa + 1)) + 1 by omega, Nat.pow_succ,
        Nat.mul_comm])]
    rw [Nat.sub_self, Nat.pow_zero, Nat.div_one, BitVec.toNat_ofNat, show (2 : Nat) ^ 8 = 256 from rfl, Nat.pow_succ,
      Nat.mul_comm (256 ^ n) 256, Nat.mod_mul]

/-! ### Bytes from outside -/

theorem storeBytes_wf (p : Params) (bs : List Byte) {m : Memory} (pa : Nat) (h : Memory.wf m) :
    Memory.wf (storeBytes p m pa bs) := by
  induction bs generalizing m pa with
  | nil => exact h
  | cons b bs ih =>
    simp only [storeBytes]
    apply ih
    split
    · exact writeByte_wf _ _ h
    · exact h

theorem mem_storeBytes (p : Params) (bs : List Byte) {m : Memory} {pa : Nat} {c : Host.Cell}
    (h : c ∈ storeBytes p m pa bs) : Params.inRam p c.1 1 = true ∨ c ∈ m := by
  induction bs generalizing m pa with
  | nil => exact .inr h
  | cons b bs ih =>
    simp only [storeBytes] at h
    rcases ih h with h | h
    · exact .inl h
    · split at h
      · rename_i hr
        rcases mem_writeByte h with h | h
        · exact .inl (h ▸ hr)
        · exact .inr h
      · exact .inr h

/-- The bytes another agent writes inside RAM are stored, and no others change. -/
theorem readByte_storeBytes (p : Params) (bs : List Byte) (m : Memory) (pa a : Nat)
    (h : Params.inRam p pa bs.length = true) :
    (storeBytes p m pa bs).readByte a =
      if pa ≤ a ∧ a < pa + bs.length then bs.getD (a - pa) 0#8 else m.readByte a := by
  induction bs generalizing m pa with
  | nil => simp [storeBytes]
  | cons b bs ih =>
    have h0 : Params.inRam p pa 1 = true := by
      simp only [Params.inRam, List.length_cons, Bool.and_eq_true, decide_eq_true_eq] at h ⊢; omega
    have h1 : Params.inRam p (pa + 1) bs.length = true := by
      simp only [Params.inRam, List.length_cons, Bool.and_eq_true, decide_eq_true_eq] at h ⊢; omega
    simp only [storeBytes, if_pos h0]
    rw [ih _ _ h1, readByte_writeByte]
    simp only [List.length_cons]
    by_cases h1 : a = pa
    · subst h1; simp
    · by_cases h2 : pa ≤ a ∧ a < pa + (bs.length + 1)
      · have h3 : pa + 1 ≤ a ∧ a < pa + 1 + bs.length := ⟨by omega, by omega⟩
        rw [if_pos h3, if_pos h2, show a - pa = (a - (pa + 1)) + 1 by omega, List.getD_cons_succ]
      · have h3 : ¬ (pa + 1 ≤ a ∧ a < pa + 1 + bs.length) := by omega
        rw [if_neg h3, if_neg h2, if_neg h1]

end Sys2Proof.Machine
end

