-- ==== Sys2Proof/Laws/Ops.lean ====
section
/-! SUPPORT. One lemma for each shared operation that says once everything it can do, for the provers to cite. -/

namespace Sys2Proof.Machine

/-! ### Addresses -/

theorem pageOff_lt (va : Word) : pageOff va < 4096 := Nat.mod_lt _ (by decide)

theorem vpnOf_toNat (va : Word) : (vpnOf va).toNat = va.toNat / 4096 := by
  have := va.isLt
  simp only [vpnOf, BitVec.extractLsb'_toNat, Nat.shiftRight_eq_div_pow]
  omega

theorem physAddr_mod (ppn : BitVec 52) (va : Word) : physAddr ppn va % 4096 = va.toNat % 4096 := by
  simp only [physAddr, pageOff]; omega

theorem physAddr_div (ppn : BitVec 52) (va : Word) : physAddr ppn va / 4096 = ppn.toNat := by
  have := pageOff_lt va
  simp only [physAddr]; omega

theorem physAddr_vpnOf (va : Word) : physAddr (vpnOf va) va = va.toNat := by
  simp only [physAddr, vpnOf_toNat, pageOff]; omega

theorem tlbSlot_lt (s : State) (v : BitVec 52) : s.tlbSlot v < 2 ^ s.hw.tlbBits :=
  Nat.mod_lt _ (Nat.two_pow_pos _)

/-- The effective address is `x[rs1] + imm` modulo 2^XLEN (43_load_store R340). -/
theorem ea_toNat {m : Nat} (s : State) (rs1 : Reg) (imm : BitVec m) (hm : m ≤ 32) :
    ((s.ea rs1 imm).toNat : Int) = ((s.x s.xw rs1).toNat + imm.toInt) % 2 ^ s.xw := by
  have hxw := s.xw_eq
  have hle : s.xw ≤ 64 := by omega
  have hmx : m ≤ s.xw := by omega
  simp only [State.ea]
  generalize s.x s.xw rs1 = a
  generalize hw : s.xw = w at *
  have hlt : (a + imm.signExtend w).toNat < 2 ^ 64 :=
    Nat.lt_of_lt_of_le (BitVec.isLt _) (Nat.pow_le_pow_right (by decide) hle)
  rw [BitVec.toNat_setWidth, Nat.mod_eq_of_lt hlt, BitVec.toNat_add]
  have hs : ((imm.signExtend w).toNat : Int) = imm.toInt % 2 ^ w := by
    have h1 := BitVec.toInt_signExtend_of_le (x := imm) hmx
    have h2 := Int.bmod_emod (x := ((imm.signExtend w).toNat : Int)) (m := 2 ^ w)
    have := (imm.signExtend w).isLt
    push_cast at h2
    rw [← h1, BitVec.toInt_eq_toNat_bmod, h2, Int.emod_eq_of_lt (by omega) (by exact_mod_cast this)]
  push_cast
  rw [Int.add_emod, hs]
  simp [Int.add_emod]

/-! ### The TLB -/

/-- A hit answers from the entry in the slot of the page. -/
theorem tlbHit_some {s : State} {v : BitVec 52} {acc : Acc} {p : BitVec 52} :
    s.tlbHit v acc = some p ↔
      ∃ e, assocGet s.tlb.slots (s.tlbSlot v) = some e ∧ e.vpn = v ∧ e.has acc = true ∧ e.ppn = p := by
  unfold State.tlbHit
  cases assocGet s.tlb.slots (s.tlbSlot v) with
  | none => simp
  | some e => simp only [Option.some.injEq, exists_eq_left']; split <;> simp_all

theorem has_add (e : TlbEntry) (acc : Acc) : (e.add acc).has acc = true := by cases acc <;> rfl
theorem add_vpn (e : TlbEntry) (acc : Acc) : (e.add acc).vpn = e.vpn := by cases acc <;> rfl
theorem add_ppn (e : TlbEntry) (acc : Acc) : (e.add acc).ppn = e.ppn := by cases acc <;> rfl

/-- A fill leaves an entry of the page filled that allows the access. -/
theorem tlbFilled_spec (s : State) (v p : BitVec 52) (acc : Acc) :
    (s.tlbFilled v p acc).vpn = v ∧ (s.tlbFilled v p acc).ppn = p ∧ (s.tlbFilled v p acc).has acc = true := by
  unfold State.tlbFilled
  split
  · split
    · rename_i h; exact ⟨by rw [add_vpn, h.1], by rw [add_ppn, h.2], has_add _ _⟩
    · exact ⟨add_vpn _ _, add_ppn _ _, has_add _ _⟩
  · exact ⟨add_vpn _ _, add_ppn _ _, has_add _ _⟩

theorem has_perms {e : TlbEntry} {acc : Acc} (h : e.has acc = true) : e.r = true ∨ e.w = true ∨ e.x = true := by
  cases acc <;> simp_all [TlbEntry.has]

/-- An entry that loses its slot was in it. -/
theorem mem_tlbDisplaced {s : State} {v p : BitVec 52} {e : TlbEntry} (h : e ∈ s.tlbDisplaced v p) :
    ∃ q ∈ s.tlb.slots, q.2 = e := by
  unfold State.tlbDisplaced at h
  split at h
  · rename_i d hd
    split at h
    · simp at h
    · simp only [List.mem_singleton] at h; subst h; exact ⟨_, mem_of_assocGet hd, rfl⟩
  · simp at h

/-- A fill keeps the invariant of the TLB. -/
theorem tlbInstall_inv {s : State} (v p : BitVec 52) (acc : Acc) (h : TlbInv s) : TlbInv (s.tlbInstall v p acc) := by
  unfold State.tlbInstall
  split
  · rename_i hr
    obtain ⟨h1, h2, h3⟩ := tlbFilled_spec s v p acc
    refine ⟨assocSorted_put _ _ h.sorted, fun q hq => ?_, fun q hq => ?_, fun e he => ?_⟩
    · rcases mem_assocPut hq with hq | hq
      · subst hq; simp [h1, State.tlbSlot]
      · exact h.slot q hq
    · rcases mem_assocPut hq with hq | hq
      · subst hq; exact ⟨by simpa [h2] using hr, has_perms h3⟩
      · exact h.held q hq
    · rcases List.mem_append.1 he with he | he
      · obtain ⟨q, hq, rfl⟩ := mem_tlbDisplaced he; exact h.held q hq
      · exact h.gone e he
  · exact h

/-- The invariant of the TLB depends on the TLB and the parameters only. -/
theorem TlbInv.congr {s t : State} (h : TlbInv s) (htlb : t.tlb = s.tlb) (hhw : t.hw = s.hw) : TlbInv t :=
  ⟨htlb ▸ h.sorted, by rw [htlb, hhw]; exact h.slot, by rw [htlb, hhw]; exact h.held, by rw [htlb, hhw]; exact h.gone⟩

theorem TlbInv.of_empty {t : State} (h : t.tlb = Tlb.empty) : TlbInv t :=
  ⟨by simp [h], by simp [h], by simp [h], by simp [h]⟩

/-! ### The walk -/

/-- Where a walk can end (20_memory R183). -/
theorem walkFrom_ok {s : State} {va : Word} {acc : Acc} {i a : Nat} {l : Leaf} (h : walkFrom s va acc i a = .ok l) :
    Params.inRam s.hw l.addr s.mmuMode.pteSize = true
    ∧ l.pte = BitVec.ofNat 64 (s.mem.load l.addr s.mmuMode.pteSize)
    ∧ pteV l.pte = true ∧ (pteR l.pte = true ∨ pteX l.pte = true) := by
  induction i generalizing a with
  | zero =>
    unfold walkFrom at h
    dsimp only at h
    split at h
    · split at h
      · simp at h
      · split at h
        · rename_i h1 h2 h3
          simp only [Except.ok.injEq] at h; subst h
          exact ⟨h1, rfl, by simpa using (not_or.1 h2).1, h3⟩
        · simp at h
    · simp at h
  | succ i ih =>
    unfold walkFrom at h
    dsimp only at h
    split at h
    · split at h
      · simp at h
      · split at h
        · rename_i h1 h2 h3
          simp only [Except.ok.injEq] at h; subst h
          exact ⟨h1, rfl, by simpa using (not_or.1 h2).1, h3⟩
        · exact ih h
    · simp at h

theorem walkFrom_error {s : State} {va : Word} {acc : Acc} {i a : Nat} {e : Exc} (h : walkFrom s va acc i a = .error e) :
    e = acc.pageFault ∨ e = acc.accessFault := by
  induction i generalizing a with
  | zero =>
    unfold walkFrom at h
    dsimp only at h
    split at h
    · split at h
      · simp_all
      · split at h
        · simp at h
        · simp_all
    · simp_all
  | succ i ih =>
    unfold walkFrom at h
    dsimp only at h
    split at h
    · split at h
      · simp_all
      · split at h
        · simp at h
        · exact ih h
    · simp_all

/-- Everything a walk that succeeds does (20_memory R183 to R186). -/
theorem walk_ok {s : State} {va : Word} {acc : Acc} {eff : Priv} {p : BitVec 52} {u : State}
    (h : walk s va acc eff = .ok (p, u)) :
    ∃ l, walkFrom s va acc s.mmuMode.top s.rootPageTable.toNat = .ok l ∧ permitted s.csr.status l.pte acc eff = true
      ∧ p = BitVec.ofNat 52 (leafPpn s.mmuMode va l) ∧ u = s.touchPte l acc := by
  unfold walk at h
  split at h
  · simp at h
  · split at h
    · simp at h
    · rename_i l hl
      split at h
      · simp at h
      · split at h
        · simp at h
        · rename_i hp _
          simp only [Except.ok.injEq, Prod.mk.injEq] at h
          exact ⟨l, hl, by simpa using hp, h.1.symm, h.2.symm⟩

theorem walk_error {s : State} {va : Word} {acc : Acc} {eff : Priv} {e : Exc} (h : walk s va acc eff = .error e) :
    e = acc.pageFault ∨ e = acc.accessFault := by
  unfold walk at h
  split at h
  · simp_all
  · split at h
    · rename_i hl; simp only [Except.error.injEq] at h; subst h; exact walkFrom_error hl
    · split at h
      · simp_all
      · split at h <;> simp_all

/-! ### The walk, level by level -/

/-- The table of the paging modes is the model's (20_memory R180). -/
theorem svMode_some {k : MmuMode} {m : SvMode} (h : svMode k = some m) :
    m.levels - 1 = k.top ∧ m.bits = k.vpnBits ∧ m.size = k.pteSize ∧ k ≠ .bare := by
  cases k <;> simp only [svMode, Option.some.injEq, reduceCtorEq] at h <;> subst h <;> decide

theorem signExtend_eq_iff {w : Nat} (va : Word) (h1 : 0 < w) (h2 : w < 64) :
    (va.setWidth w).signExtend 64 = va ↔ -2 ^ (w - 1) ≤ va.toInt ∧ va.toInt < 2 ^ (w - 1) := by
  have hz : ((va.setWidth w).signExtend 64).toInt = va.toInt.bmod (2 ^ w) := by
    rw [BitVec.toInt_signExtend_of_le (by omega), BitVec.toInt_setWidth]
    rw [BitVec.toInt_eq_toNat_bmod, Int.bmod_bmod_of_dvd]
    exact_mod_cast Nat.pow_dvd_pow 2 (by omega)
  have hp : (2 : Int) ^ w = 2 * 2 ^ (w - 1) := by rw [← Int.pow_succ']; congr 1; omega
  have hp0 : (0 : Int) < 2 ^ (w - 1) := by positivity
  rw [← BitVec.toInt_inj, hz]
  constructor
  · intro h
    have a := Int.le_bmod (x := va.toInt) (m := 2 ^ w) (by positivity)
    have b := Int.bmod_lt (x := va.toInt) (m := 2 ^ w) (by positivity)
    push_cast at a b
    omega
  · rintro ⟨a, b⟩
    apply Int.bmod_eq_of_le
    · push_cast; omega
    · push_cast; omega

theorem canonical_iff {k : MmuMode} {m : SvMode} (h : svMode k = some m) (va : Word) :
    k.canonical va = true ↔ Canonical m va := by
  cases k <;> simp only [svMode, Option.some.injEq, reduceCtorEq] at h <;> subst h <;>
    simp only [MmuMode.canonical, Canonical, beq_iff_eq, true_or, Nat.reduceEqDiff, false_or]
  · exact signExtend_eq_iff va (by decide) (by decide)
  · exact signExtend_eq_iff va (by decide) (by decide)
  · exact signExtend_eq_iff va (by decide) (by decide)

/-- One level of the walk. -/
theorem walkFrom_level {s : State} {m : SvMode} (hm : svMode s.mmuMode = some m) (va : Word) (acc : Acc) (i a : Nat) :
    walkFrom s va acc i a =
      if Params.inRam s.hw (pteAddr m va i a) m.size = true then
        let pte := BitVec.ofNat 64 (s.mem.load (pteAddr m va i a) m.size)
        if pteV pte = false ∨ (pteR pte = false ∧ pteW pte = true) then .error acc.pageFault
        else if pteR pte = true ∨ pteX pte = true then .ok ⟨i, pteAddr m va i a, pte⟩
        else
          match i with
          | 0     => .error acc.pageFault
          | j + 1 => walkFrom s va acc j (ppnOf pte * 4096)
      else .error acc.accessFault := by
  obtain ⟨_, h2, h3, _⟩ := svMode_some hm
  have hp : ∀ p : Word, (ptePpn p).toNat = ppnOf p := fun p => by
    simp [ptePpn, ppnOf, BitVec.extractLsb'_toNat, Nat.shiftRight_eq_div_pow]
  have hv : a + s.mmuMode.vpnField va i * s.mmuMode.pteSize = pteAddr m va i a := by
    simp only [MmuMode.vpnField, pteAddr, h2, h3]
  cases i <;> rw [walkFrom] <;> simp only [hv, h3, hp]

theorem pteIs_load {s : State} {m : SvMode} {va : Word} {i a : Nat} {pte : Word} (h : PteIs s m va i a pte) :
    BitVec.ofNat 64 (s.mem.load (pteAddr m va i a) m.size) = pte := by
  rw [load_eq_bytesAt, ← h.2]; simp

/-- A walk goes on from every place it comes to. -/
theorem walkFrom_reaches {s : State} {m : SvMode} (hm : svMode s.mmuMode = some m) {va : Word} (acc : Acc) {i a : Nat}
    (h : WalkReaches s m va i a) :
    walkFrom s va acc s.mmuMode.top s.rootPageTable.toNat = walkFrom s va acc i a := by
  induction h with
  | root => rw [(svMode_some hm).1]
  | next pte here entry valid r w x ih =>
    rw [ih, walkFrom_level hm, if_pos entry.1]
    dsimp only
    rw [pteIs_load entry]
    simp [valid, r, w, x]

/-- Where a walk that ends in a leaf has come to. -/
theorem reaches_of_walkFrom {s : State} {m : SvMode} (hm : svMode s.mmuMode = some m) {va : Word} {acc : Acc} {i a : Nat}
    {l : Leaf} (h : WalkReaches s m va i a) (hl : walkFrom s va acc i a = .ok l) :
    ∃ b, WalkReaches s m va l.level b ∧ l.addr = pteAddr m va l.level b ∧ PteIs s m va l.level b l.pte := by
  have entry : ∀ j b, Params.inRam s.hw (pteAddr m va j b) m.size = true →
      PteIs s m va j b (BitVec.ofNat 64 (s.mem.load (pteAddr m va j b) m.size)) := by
    intro j b hr
    refine ⟨hr, ?_⟩
    have h1 := load_lt m.size s.mem (pteAddr m va j b)
    have h2 : 256 ^ m.size ≤ 2 ^ 64 := by
      have : m.size ≤ 8 := by
        revert hm; cases s.mmuMode <;> simp only [svMode, Option.some.injEq, reduceCtorEq, false_imp_iff] <;> rintro rfl <;> decide
      calc 256 ^ m.size ≤ 256 ^ 8 := Nat.pow_le_pow_right (by decide) this
        _ = 2 ^ 64 := by norm_num
    rw [← load_eq_bytesAt, BitVec.toNat_ofNat, Nat.mod_eq_of_lt (by omega)]
  induction i generalizing a with
  | zero =>
    rw [walkFrom_level hm] at hl
    dsimp only at hl
    split at hl
    · rename_i hr
      split at hl
      · simp at hl
      · split at hl
        · cases hl; exact ⟨a, h, rfl, entry _ _ hr⟩
        · simp at hl
    · simp at hl
  | succ i ih =>
    rw [walkFrom_level hm] at hl
    dsimp only at hl
    split at hl
    · rename_i hr
      split at hl
      · simp at hl
      · rename_i hv
        split at hl
        · cases hl; exact ⟨a, h, rfl, entry _ _ hr⟩
        · rename_i hx
          simp only [not_or, Bool.not_eq_true, not_and, Bool.not_eq_false] at hv hx
          exact ih (.next _ h (entry _ _ hr) hv.1 hx.1 (by simpa [hx.1] using hv.2) hx.2) hl
    · simp at hl

theorem permitted_iff (st pte : Word) (acc : Acc) (eff : Priv) :
    permitted st pte acc eff = true ↔ LeafPermits st pte acc eff := by
  constructor
  · intro h
    constructor <;> intros <;> cases acc <;> cases eff <;> simp_all [permitted]
  · rintro ⟨h1, h2, h3, h4, h5⟩
    cases acc <;> cases eff <;> simp_all [permitted]
    all_goals (try cases h : pteU pte) <;> simp_all

theorem acc_codes (acc : Acc) : acc.pageFault.code = pageFaultCode acc ∧ acc.accessFault.code = accessFaultCode acc := by
  cases acc <;> exact ⟨rfl, rfl⟩

/-! ### Translation -/

/-- What the page tables say now is an identity, or a walk that changes no more than the leaf entry. -/
theorem newTranslation_ok {acc : Acc} {va : Word} {s t : State} {p : BitVec 52}
    (h : newTranslation acc va s = .ok (p, t)) :
    (identityMapped s acc = true ∧ p = vpnOf va ∧ t = s)
    ∨ ∃ l, identityMapped s acc = false ∧ walkFrom s va acc s.mmuMode.top s.rootPageTable.toNat = .ok l
        ∧ permitted s.csr.status l.pte acc (s.effPriv acc) = true ∧ p = BitVec.ofNat 52 (leafPpn s.mmuMode va l)
        ∧ t = s.touchPte l acc := by
  unfold newTranslation at h
  split at h
  · rename_i hi
    simp only [Except.ok.injEq, Prod.mk.injEq] at h
    exact .inl ⟨by simpa [identityMapped] using hi, h.1.symm, h.2.symm⟩
  · rename_i hi
    obtain ⟨l, h1, h2, h3, h4⟩ := walk_ok h
    exact .inr ⟨l, by simpa [identityMapped] using hi, h1, h2, h3, h4⟩

theorem newTranslation_error {acc : Acc} {va : Word} {s : State} {e : Exc} (h : newTranslation acc va s = .error e) :
    e = acc.pageFault ∨ e = acc.accessFault := by
  unfold newTranslation at h
  split at h
  · simp at h
  · exact walk_error h

/-- An old translation is one made since the last flush that the page tables do not say any more. -/
theorem mem_oldPages {acc : Acc} {va : Word} {s : State} {p : BitVec 52} :
    p ∈ oldPages acc va s ↔
      p ∈ s.keptPages (vpnOf va) acc ∧ ∀ q t, newTranslation acc va s = .ok (q, t) → p ≠ q := by
  unfold oldPages
  cases newTranslation acc va s with
  | error e => simp
  | ok r =>
    obtain ⟨q, t⟩ := r
    simp only [List.mem_filter, bne_iff_ne, ne_eq, Except.ok.injEq, Prod.mk.injEq, and_congr_right_iff]
    exact fun _ => ⟨by rintro h q' t' ⟨rfl, rfl⟩; exact h, fun h => h q t ⟨rfl, rfl⟩⟩

theorem tlbHit_kept {s : State} {v p : BitVec 52} {acc : Acc} (h : s.tlbHit v acc = some p) : p ∈ s.keptPages v acc := by
  simp [State.keptPages, h]

/-- The pages kept are those of the entries kept. -/
theorem mem_keptPages {acc : Acc} {va : Word} {s : State} {p : BitVec 52} :
    p ∈ s.keptPages (vpnOf va) acc ↔ ∃ e, Kept s acc va e ∧ e.ppn = p := by
  have hv : ∀ e : TlbEntry, e.vpn.toNat = va.toNat / 4096 ↔ e.vpn = vpnOf va := fun e => by
    rw [← vpnOf_toNat]; exact ⟨BitVec.eq_of_toNat_eq, fun h => by rw [h]⟩
  simp only [State.keptPages, List.mem_append, Option.mem_toList, tlbHit_some, List.mem_map, List.mem_filter,
    Bool.and_eq_true, beq_iff_eq, Kept, hv, State.tlbSlot, vpnOf_toNat]
  constructor
  · rintro (⟨e, h1, h2, h3, h4⟩ | ⟨e, ⟨h1, h2, h3⟩, h4⟩)
    · exact ⟨e, ⟨.inl h1, h2, h3⟩, h4⟩
    · exact ⟨e, ⟨.inr h1, h2, h3⟩, h4⟩
  · rintro ⟨e, ⟨h1 | h1, h2, h3⟩, h4⟩
    · exact .inl ⟨e, h1, h2, h3, h4⟩
    · exact .inr ⟨e, ⟨h1, h2, h3⟩, h4⟩

theorem oldPages_nil {acc : Acc} {va : Word} {s : State} (h : MappingSettled s acc va) : oldPages acc va s = [] := by
  refine List.eq_nil_iff_forall_not_mem.2 fun p hp => ?_
  obtain ⟨h1, h2⟩ := mem_oldPages.1 hp
  obtain ⟨e, he, rfl⟩ := mem_keptPages.1 h1
  obtain ⟨t, ht⟩ := h e he
  exact h2 _ _ ht rfl

/-- Without a change of the mapping a translation is R170's: a hit, or what the page tables say, which fills the TLB
(20_memory R170). -/
theorem translate_settled {acc : Acc} {va : Word} {s : State} (h : MappingSettled s acc va) :
    translate acc va s =
      match s.tlbHit (vpnOf va) acc with
      | some p => .ok (physAddr p va) s
      | none   =>
        match newTranslation acc va s with
        | .error e     => .exc e va s
        | .ok (p, t) => .ok (physAddr p va) (t.tlbInstall (vpnOf va) p acc) := by
  have hm : ∀ p, p ∈ s.keptPages (vpnOf va) acc → ∃ t, newTranslation acc va s = .ok (p, t) := by
    intro p hp
    obtain ⟨e, he, rfl⟩ := mem_keptPages.1 hp
    exact h e he
  unfold translate
  rw [oldPages_nil h]
  simp only [List.getElem?_nil]
  cases hh : s.tlbHit (vpnOf va) acc with
  | none => cases newTranslation acc va s <;> simp
  | some p => obtain ⟨t, ht⟩ := hm p (tlbHit_kept hh); simp [ht]

/-- What a translation that succeeds can be: one made since the last flush, an identity, or a walk (20_memory R170,
70_reset_and_hazards R592). -/
theorem translate_ok {acc : Acc} {va : Word} {s u : State} {pa : Nat} (h : translate acc va s = .ok pa u) :
    (∃ p ∈ s.keptPages (vpnOf va) acc, pa = physAddr p va ∧ u = s)
    ∨ (identityMapped s acc = true ∧ pa = physAddr (vpnOf va) va ∧ u = s.tlbInstall (vpnOf va) (vpnOf va) acc)
    ∨ ∃ p l, identityMapped s acc = false ∧ walkFrom s va acc s.mmuMode.top s.rootPageTable.toNat = .ok l
        ∧ permitted s.csr.status l.pte acc (s.effPriv acc) = true ∧ p = BitVec.ofNat 52 (leafPpn s.mmuMode va l)
        ∧ pa = physAddr p va ∧ u = (s.touchPte l acc).tlbInstall (vpnOf va) p acc := by
  unfold translate at h
  split at h
  · rename_i p hp
    simp only [Res.ok.injEq] at h
    exact .inl ⟨p, (mem_oldPages.1 (List.mem_of_getElem? hp)).1, h.1.symm, h.2.symm⟩
  · split at h
    · simp at h
    · rename_i p s' hn
      split at h
      · rename_i hh
        simp only [Res.ok.injEq] at h
        exact .inl ⟨p, tlbHit_kept hh, h.1.symm, h.2.symm⟩
      · simp only [Res.ok.injEq] at h
        obtain ⟨rfl, rfl⟩ := h
        rcases newTranslation_ok hn with ⟨h1, rfl, rfl⟩ | ⟨l, h1, h2, h3, h4, rfl⟩
        · exact .inr (.inl ⟨h1, rfl, rfl⟩)
        · exact .inr (.inr ⟨p, l, h1, h2, h3, h4, rfl, rfl⟩)

/-- A translation that raises changes nothing and reports the address (20_memory R187). -/
theorem translate_exc {acc : Acc} {va : Word} {s u : State} {e : Exc} {tv : Word} (h : translate acc va s = .exc e tv u) :
    u = s ∧ tv = va ∧ (e = acc.pageFault ∨ e = acc.accessFault) := by
  unfold translate at h
  split at h
  · simp at h
  · split at h
    · rename_i hn
      simp only [Res.exc.injEq] at h
      exact ⟨h.2.2.symm, h.2.1.symm, h.1 ▸ newTranslation_error hn⟩
    · split at h <;> simp at h

/-- The bytes the walker changes are those of the leaf (20_memory R185). -/
theorem touchPte_bytes {s : State} {l : Leaf} {acc : Acc} {a : Nat}
    (h : (s.touchPte l acc).mem.readByte a ≠ s.mem.readByte a) : l.addr ≤ a ∧ a < l.addr + s.mmuMode.pteSize := by
  rw [State.touchPte_mem] at h
  split at h
  · exact absurd rfl h
  · rw [store_bytesStored _ _ _ _ a] at h
    by_contra hc
    rw [if_neg hc] at h
    exact h rfl

/-- A translation changes only the TLB and memory. -/
theorem translate_frame {acc : Acc} {va : Word} {s u : State} {pa : Nat} (h : translate acc va s = .ok pa u) :
    u = { s with tlb := u.tlb, mem := u.mem } := by
  rcases translate_ok h with ⟨p, _, _, rfl⟩ | ⟨_, _, rfl⟩ | ⟨p, l, _, _, _, _, _, rfl⟩ <;>
    apply State.eq_of_fields <;> simp

theorem translate_mod {acc : Acc} {va : Word} {s u : State} {pa : Nat} (h : translate acc va s = .ok pa u) :
    pa % 4096 = va.toNat % 4096 := by
  rcases translate_ok h with ⟨p, _, rfl, _⟩ | ⟨_, rfl, _⟩ | ⟨p, l, _, _, _, _, rfl, _⟩ <;> exact physAddr_mod _ _

/-! ### The invariants of memory and TLB under the shared operations -/

theorem inRam_byte {p : Params} {pa n a : Nat} (h : Params.inRam p pa n = true) (h1 : pa ≤ a) (h2 : a < pa + n) :
    Params.inRam p a 1 = true := by
  simp only [Params.inRam, Bool.and_eq_true, decide_eq_true_eq] at *; omega

theorem MemInv.congr {s t : State} (h : MemInv s) (hmem : t.mem = s.mem) (hhw : t.hw = s.hw) : MemInv t :=
  ⟨hmem ▸ h.canonical, by rw [hmem, hhw]; exact h.inWindow⟩

/-- A store inside RAM keeps the invariant of memory. -/
theorem MemInv.store {s : State} (h : MemInv s) {pa n : Nat} (v : Nat) (hr : Params.inRam s.hw pa n = true) :
    MemInv { s with mem := s.mem.store pa n v } := by
  refine ⟨store_wf _ _ _ h.canonical, fun c hc => ?_⟩
  rcases mem_store _ hc with hc | hc
  · exact inRam_byte hr hc.1 hc.2
  · exact h.inWindow c hc

theorem translate_memInv {acc : Acc} {va : Word} {s u : State} {pa : Nat} (h : translate acc va s = .ok pa u)
    (hs : MemInv s) : MemInv u := by
  rcases translate_ok h with ⟨p, _, _, rfl⟩ | ⟨_, _, rfl⟩ | ⟨p, l, _, hl, _, _, _, rfl⟩
  · exact hs
  · exact hs.congr (by simp) (by simp)
  · refine MemInv.congr (s := s.touchPte l acc) ?_ (by simp) (by simp)
    unfold State.touchPte
    split
    · exact hs
    · exact hs.store _ (walkFrom_ok hl).1

theorem translate_tlbInv {acc : Acc} {va : Word} {s u : State} {pa : Nat} (h : translate acc va s = .ok pa u)
    (hs : TlbInv s) : TlbInv u := by
  rcases translate_ok h with ⟨p, _, _, rfl⟩ | ⟨_, _, rfl⟩ | ⟨p, l, _, hl, _, _, _, rfl⟩
  · exact hs
  · exact tlbInstall_inv _ _ _ hs
  · exact tlbInstall_inv _ _ _ (hs.congr (by simp) (by simp))

/-! ### Data accesses -/

theorem target_ram {p : Params} {pa n : Nat} : Params.target p pa n = some .ram ↔ Params.inRam p pa n = true := by
  unfold Params.target; split
  · simp_all
  · rename_i h; simp only [Option.map_eq_some_iff, h, Bool.false_eq_true, iff_false]; rintro ⟨r, _, hr⟩; simp at hr

theorem target_device {p : Params} {pa n : Nat} {r : Region} :
    Params.target p pa n = some (.device r) ↔ Params.inRam p pa n = false ∧ Params.region p pa n = some r := by
  unfold Params.target; split
  · simp_all
  · rename_i h; simp [h]

theorem target_none {p : Params} {pa n : Nat} :
    Params.target p pa n = none ↔ Params.inRam p pa n = false ∧ Params.region p pa n = none := by
  unfold Params.target; split
  · simp_all
  · rename_i h; simp [h]

/-- `Accessible`, as the operations look at it. -/
theorem accessible_iff {p : Params} {pa n : Nat} : Accessible p pa n ↔ Params.target p pa n ≠ none := by
  unfold Accessible
  rw [ne_eq (Params.target p pa n), target_none]
  cases Params.inRam p pa n <;> simp

/-- An access inside one page is one part. -/
theorem translateParts_one {acc : Acc} {va : Word} {n : Nat} {s : State} (h : pageOff va + n ≤ 4096) :
    translateParts acc va n s =
      match translate acc va s with
      | .exc e tv t => .exc e tv t
      | .ok pa t    => .ok [⟨va, pa, n⟩] t := by
  have h1 : firstPart va n = n := by unfold firstPart; omega
  unfold translateParts
  rw [h1]
  cases translate acc va s <;> simp

/-- An access across a page boundary is two parts, the low one first; when the high one does not translate, a low one that is
not accessible is reported before it. -/
theorem translateParts_two {acc : Acc} {va : Word} {n k : Nat} {s : State} (hk : k = 4096 - pageOff va) (h : k < n) :
    translateParts acc va n s =
      match translate acc va s with
      | .exc e tv t => .exc e tv t
      | .ok pa t    =>
        match translate acc (s.vaPlus va k) t with
        | .ok pa' u   => .ok [⟨va, pa, k⟩, ⟨s.vaPlus va k, pa', n - k⟩] u
        | .exc e tv u => if Params.target s.hw pa k = none then .exc acc.accessFault va u else .exc e tv u := by
  have h0 := pageOff_lt va
  have h1 : firstPart va n = k := by unfold firstPart; omega
  unfold translateParts
  rw [h1]
  cases translate acc va s with
  | exc e tv t => rfl
  | ok pa t => exact if_neg (by omega)

/-- The translations of an access change only the TLB and memory, and keep their invariants, whether or not they all
succeed. -/
theorem translateParts_spec {acc : Acc} {va : Word} {n : Nat} {s : State} :
    (∀ ps u, translateParts acc va n s = .ok ps u →
      u = { s with tlb := u.tlb, mem := u.mem } ∧ (MemInv s → MemInv u) ∧ (TlbInv s → TlbInv u))
    ∧ ∀ e tv u, translateParts acc va n s = .exc e tv u →
      u = { s with tlb := u.tlb, mem := u.mem } ∧ (MemInv s → MemInv u) ∧ (TlbInv s → TlbInv u) := by
  have good : ∀ {va' : Word} {s' u' : State} {pa : Nat}, translate acc va' s' = .ok pa u' →
      u' = { s' with tlb := u'.tlb, mem := u'.mem } ∧ (MemInv s' → MemInv u') ∧ (TlbInv s' → TlbInv u') :=
    fun h => ⟨translate_frame h, translate_memInv h, translate_tlbInv h⟩
  unfold translateParts
  dsimp only
  constructor
  · intro ps u h
    split at h
    · simp at h
    · rename_i pa t ht
      obtain ⟨f1, m1, t1⟩ := good ht
      split at h
      · simp only [Res.ok.injEq] at h; rw [← h.2]; exact ⟨f1, m1, t1⟩
      · split at h
        · rename_i hu
          obtain ⟨f2, m2, t2⟩ := good hu
          simp only [Res.ok.injEq] at h; rw [← h.2]; exact ⟨by rw [f2, f1], m2 ∘ m1, t2 ∘ t1⟩
        · split at h <;> simp at h
  · intro e tv u h
    split at h
    · rename_i ht
      simp only [Res.exc.injEq] at h
      rw [← h.2.2, (translate_exc ht).1]; exact ⟨rfl, id, id⟩
    · rename_i pa t ht
      obtain ⟨f1, m1, t1⟩ := good ht
      split at h
      · simp at h
      · split at h
        · simp at h
        · rename_i hu
          have hu := (translate_exc hu).1
          split at h <;>
          · simp only [Res.exc.injEq] at h
            rw [← h.2.2, hu]; exact ⟨f1, m1, t1⟩

/-- The state a read of parts leaves. -/
def Res.state {α : Type} (r : Res α) : State :=
  match r with
  | .ok _ t    => t
  | .exc _ _ t => t

/-- Reading the parts changes only the count of free values and the log of the device calls, whether or not it succeeds. -/
theorem readParts_frame (ps : List Part) (s : State) :
    (readParts ps s).state =
      { s with draws := (readParts ps s).state.draws, devLog := (readParts ps s).state.devLog } := by
  induction ps generalizing s with
  | nil => rfl
  | cons p ps ih =>
    unfold readParts
    split
    · rfl
    · have := ih s
      cases h : readParts ps s <;> rw [h] at this <;> exact this
    · rename_i r _
      have := ih { s with draws := s.draws + 1, devLog := .read r.dev (p.pa - r.base) p.n :: s.devLog }
      cases h : readParts ps { s with draws := s.draws + 1, devLog := .read r.dev (p.pa - r.base) p.n :: s.devLog } <;>
        rw [h] at this <;> exact this

/-- Reading a part and then the others: what `PartRead` says of the first. -/
theorem readParts_cons {s t : State} {p : Part} {ps : List Part} {v : Nat} (h : PartRead s p.pa p.n v t) :
    (∀ w u, readParts ps t = .ok w u → readParts (p :: ps) s = .ok (v + 2 ^ (8 * p.n) * w) u)
    ∧ ∀ e tv u, readParts ps t = .exc e tv u → readParts (p :: ps) s = .exc e tv u := by
  rcases h with ⟨h1, rfl, rfl⟩ | ⟨h1, r, h2, rfl, rfl⟩
  · constructor <;> intros <;> rename_i hr <;> rw [readParts, target_ram.2 h1] <;> dsimp only <;> rw [hr]
    rw [load_eq_bytesAt]
  · constructor <;> intros <;> rename_i hr <;> rw [readParts, target_device.2 ⟨h1, h2⟩] <;> dsimp only <;> rw [hr]
    rw [show (256 : Nat) = 2 ^ 8 from rfl, ← pow_mul]

/-- Writing the parts changes only RAM and the log of the device calls, and keeps the invariant of memory. -/
theorem writeParts_spec (ps : List Part) (v : Nat) (s : State) :
    writeParts ps v s = { s with mem := (writeParts ps v s).mem, devLog := (writeParts ps v s).devLog }
    ∧ (MemInv s → MemInv (writeParts ps v s)) := by
  induction ps generalizing v s with
  | nil => exact ⟨rfl, id⟩
  | cons p ps ih =>
    have h1 : writePart p v s = { s with mem := (writePart p v s).mem, devLog := (writePart p v s).devLog } := by
      unfold writePart; split <;> rfl
    have h2 : MemInv s → MemInv (writePart p v s) := by
      intro hm
      unfold writePart
      split
      · rename_i hr; exact hm.store _ (target_ram.1 hr)
      · exact hm.congr rfl rfl
      · exact hm
    obtain ⟨f, m⟩ := ih (v / 2 ^ (8 * p.n)) (writePart p v s)
    exact ⟨by simp only [writeParts]; rw [f, h1], m ∘ h2⟩

/-- Everything a read can do but its value: a call of a device that was made before a later part failed stays made. -/
theorem memRead_spec {va : Word} {n : Nat} {s : State} :
    (∀ v u, memRead va n s = .ok v u →
      u = { s with tlb := u.tlb, mem := u.mem, draws := u.draws, devLog := u.devLog }
      ∧ (MemInv s → MemInv u) ∧ (TlbInv s → TlbInv u))
    ∧ ∀ e tv u, memRead va n s = .exc e tv u →
      u = { s with tlb := u.tlb, mem := u.mem, draws := u.draws, devLog := u.devLog }
      ∧ (MemInv s → MemInv u) ∧ (TlbInv s → TlbInv u) := by
  have all : (memRead va n s).state = { s with
        tlb := (memRead va n s).state.tlb, mem := (memRead va n s).state.mem,
        draws := (memRead va n s).state.draws, devLog := (memRead va n s).state.devLog }
      ∧ (MemInv s → MemInv (memRead va n s).state) ∧ (TlbInv s → TlbInv (memRead va n s).state) := by
    unfold memRead
    split
    · rename_i ht
      obtain ⟨f, m, tl⟩ := translateParts_spec.2 _ _ _ ht
      exact ⟨by simp only [Res.state]; rw [f], m, tl⟩
    · rename_i ps t ht
      obtain ⟨f, m, tl⟩ := translateParts_spec.1 _ _ ht
      have hf := readParts_frame ps t
      exact ⟨by rw [hf, f], fun hm => (m hm).congr (by rw [hf]) (by rw [hf]), fun h => (tl h).congr (by rw [hf]) (by rw [hf])⟩
  constructor
  · intro v u h; rw [h] at all; exact all
  · intro e tv u h; rw [h] at all; exact all

/-- Everything a write can do but which bytes. -/
theorem memWrite_spec {va : Word} {n v : Nat} {s : State} :
    (∀ x u, memWrite va n v s = .ok x u →
      u = { s with tlb := u.tlb, mem := u.mem, devLog := u.devLog } ∧ (MemInv s → MemInv u) ∧ (TlbInv s → TlbInv u))
    ∧ ∀ e tv u, memWrite va n v s = .exc e tv u →
      u = { s with tlb := u.tlb, mem := u.mem } ∧ (MemInv s → MemInv u) ∧ (TlbInv s → TlbInv u) := by
  unfold memWrite
  refine ⟨fun x u h => ?_, fun e tv u h => ?_⟩
  · split at h
    · simp at h
    · rename_i ps t ht
      obtain ⟨f, m, tl⟩ := translateParts_spec.1 _ _ ht
      split at h
      · simp at h
      · simp only [Res.ok.injEq] at h
        obtain ⟨_, rfl⟩ := h
        obtain ⟨hf, hm⟩ := writeParts_spec ps v t
        exact ⟨by rw [hf, f], hm ∘ m, fun ht => (tl ht).congr (by rw [hf]) (by rw [hf])⟩
  · split at h
    · rename_i ht
      simp only [Res.exc.injEq] at h
      rw [← h.2.2]; exact translateParts_spec.2 _ _ _ ht
    · rename_i ht
      split at h
      · simp only [Res.exc.injEq] at h
        rw [← h.2.2]; exact translateParts_spec.1 _ _ ht
      · simp at h

/-- Everything the checks of an atomic can do (45_atomics R392). -/
theorem atomicAddr_spec {acc : Acc} {va : Word} {n : Nat} {s : State} :
    (∀ pa u, atomicAddr acc va n s = .ok pa u →
      va.toNat % n = 0 ∧ translate acc va s = .ok pa u ∧ Params.inRam s.hw pa n = true)
    ∧ ∀ e tv u, atomicAddr acc va n s = .exc e tv u →
      tv = va ∧ u = { s with tlb := u.tlb, mem := u.mem } ∧ (MemInv s → MemInv u) ∧ (TlbInv s → TlbInv u) := by
  unfold atomicAddr
  refine ⟨fun pa u h => ?_, fun e tv u h => ?_⟩
  · split at h
    · simp at h
    · rename_i hm
      split at h
      · simp at h
      · rename_i pa' t ht
        have hw : t.hw = s.hw := by rw [translate_frame ht]
        split at h
        · rename_i hr
          simp only [Res.ok.injEq] at h
          obtain ⟨rfl, rfl⟩ := h
          exact ⟨by simpa using hm, ht, hw ▸ hr⟩
        · simp at h
  · split at h
    · simp only [Res.exc.injEq] at h
      obtain ⟨rfl, rfl, rfl⟩ := h
      exact ⟨rfl, rfl, id, id⟩
    · split at h
      · rename_i ht
        simp only [Res.exc.injEq] at h
        obtain ⟨rfl, rfl, rfl⟩ := h
        obtain ⟨h1, h2, _⟩ := translate_exc ht
        subst h1 h2
        exact ⟨rfl, rfl, id, id⟩
      · rename_i pa' t ht
        split at h
        · simp at h
        · simp only [Res.exc.injEq] at h
          obtain ⟨rfl, rfl, rfl⟩ := h
          exact ⟨rfl, translate_frame ht, translate_memInv ht, translate_tlbInv ht⟩

/-! ### Registers -/

theorem setX_get {n : Nat} (s : State) (rd : Reg) (v : BitVec n) : RegWritten s (s.setX rd v) rd v := by
  intro i
  rw [State.setX_regs]
  by_cases h0 : rd = 0#5
  · simp [h0]
  · rw [if_neg h0]
    show (s.regs.set rd.toNat (v.signExtend 64) rd.isLt)[i.toNat]'i.isLt = _
    rw [Vector.getElem_set]
    by_cases h1 : i = rd
    · subst h1; simp [h0]
    · rw [if_neg (fun h => h1 (BitVec.eq_of_toNat_eq h.symm)), if_neg (by simp [h1])]
      rfl

/-- `pc + len` modulo 2^XLEN (10_state R26, R27). -/
theorem nextPc_toNat (s : State) (len : Nat) :
    ((s.nextPc len).setWidth 64).toNat = (s.vpc.toNat + len) % 2 ^ s.xw := by
  have hle : s.xw ≤ 64 := by have := s.xw_eq; omega
  have hp : (2 : Nat) ^ s.xw ≤ 2 ^ 64 := Nat.pow_le_pow_right (by decide) hle
  have hv : s.vpc.toNat = s.pcX.toNat := by
    unfold State.vpc
    rw [BitVec.toNat_setWidth, Nat.mod_eq_of_lt (Nat.lt_of_lt_of_le s.pcX.isLt hp)]
  unfold State.nextPc
  rw [BitVec.toNat_setWidth, Nat.mod_eq_of_lt (Nat.lt_of_lt_of_le (BitVec.isLt _) hp), BitVec.toNat_add,
    BitVec.toNat_ofNat, hv]
  simp

/-- An instruction that ends by retiring does what `Retires` says. -/
theorem retire_setX {n : Nat} (s u : State) (len : Nat) (rd : Reg) (v : BitVec n) :
    ∃ t, retire s (u.setX rd v) len = .next t ∧ Retires s u t len rd v := by
  refine ⟨_, rfl, setX_get u rd v, nextPc_toNat s len, fun a => by simp, ?_⟩
  apply State.eq_of_fields <;> simp

end Sys2Proof.Machine
end

