-- ==== Sys2Proof/Laws/Exec.lean ====
section
/-! SUPPORT. What executing an instruction can do, said once for all 132: it retires, or traps, or writes a CSR, or returns
from a trap. The whole-machine statements follow from this by a short case analysis. -/

namespace Sys2Proof.Machine

/-- The data effects of an instruction before its registers and pc are written: RAM, TLB, reservation, `waiting`, the free
values taken and the device calls. -/
structure Data (s u : State) : Prop where
  frame : u = { s with
    tlb := u.tlb, mem := u.mem, reservation := u.reservation, waiting := u.waiting, draws := u.draws, devLog := u.devLog }
  mem : MemInv s → MemInv u
  tlb : TlbInv s → TlbInv u
  res : ReservationInv s → ReservationInv u

theorem Data.refl (s : State) : Data s s := ⟨rfl, id, id, id⟩

/-- How executing `i` in `s` can end. -/
inductive Runs (i : Instr) (s : State) : Result → Prop
  /-- It retires, or jumps to `p`. -/
  | retires {n : Nat} (u : State) (rd : Reg) (v : BitVec n) (p : BitVec s.xw) (hu : Data s u)
      (even : i.wf .x64 = true ∨ i.wf .x32 = true → s.pc.getLsbD 0 = false → p.getLsbD 0 = false) :
      Runs i s (.next ((u.setX rd v).setPc p))
  /-- It takes an exception. -/
  | traps (u : State) (c : Nat) (tv : Word) (hu : Data s u) : Runs i s (.next (u.takeTrap false c tv))
  /-- It is a CSR instruction that succeeds. -/
  | csr (a : BitVec 12) (v : Word) (op : CsrOp) (rd : Reg) (old : Word) (u : State)
      (hu : csrAccess a v op s = some (old, u)) :
      Runs i s (.next ((u.setX rd (old.setWidth s.xw)).setPc (s.nextPc 4)))
  /-- It is `MRET` in M. -/
  | mret (hi : i = .mret) (hp : s.priv = .M) : Runs i s (.next s.returnM)
  /-- It is `SRET` in S or M. -/
  | sret (hi : i = .sret) (hp : s.priv ≠ .U) : Runs i s (.next s.returnS)

/-! ### Evenness of addresses -/

theorem bit0_setWidth {n : Nat} (m : Nat) (v : BitVec n) (hm : 0 < m) : (v.setWidth m).getLsbD 0 = v.getLsbD 0 := by
  simp [hm]

theorem bit0_add {n : Nat} (a b : BitVec n) (ha : a.getLsbD 0 = false) (hb : b.getLsbD 0 = false) :
    (a + b).getLsbD 0 = false := by
  rcases n with _ | n
  · simp [BitVec.getLsbD_of_ge]
  · have h : ∀ x : BitVec (n + 1), x.getLsbD 0 = decide (x.toNat % 2 = 1) := fun x => by
      rw [← BitVec.testBit_toNat]; simp [Nat.testBit_zero]
    rw [h] at *
    simp only [decide_eq_false_iff_not] at *
    rw [BitVec.toNat_add, Nat.pow_succ, Nat.mod_mul_left_mod]
    omega

theorem bit0_pcX {s : State} (h : s.pc.getLsbD 0 = false) : s.pcX.getLsbD 0 = false := by
  have := s.xw_eq
  unfold State.pcX
  rw [bit0_setWidth _ _ (by omega), h]

theorem bit0_ofNat {n : Nat} (k : Nat) (hk : k % 2 = 0) : (BitVec.ofNat n k).getLsbD 0 = false := by
  simp [BitVec.getLsbD_ofNat, Nat.testBit_zero, hk]

theorem bit0_nextPc {s : State} {len : Nat} (hl : len % 2 = 0) (h : s.pc.getLsbD 0 = false) :
    (s.nextPc len).getLsbD 0 = false :=
  bit0_add _ _ (bit0_pcX h) (bit0_ofNat _ hl)

theorem bit0_pcPlus {s : State} {m : Nat} {off : BitVec m} (ho : off.getLsbD 0 = false) (h : s.pc.getLsbD 0 = false) :
    (s.pcPlus off).getLsbD 0 = false := by
  refine bit0_add _ _ (bit0_pcX h) ?_
  rcases m with _ | m
  · simp [BitVec.getLsbD_signExtend]
    intro _
    simp [BitVec.msb, BitVec.getMsbD]
  · have := s.xw_eq
    rw [BitVec.getLsbD_signExtend, if_pos (Nat.succ_pos m), ho, Bool.and_false]

theorem bit0_and_not_one {n : Nat} (t : BitVec n) : (t &&& ~~~1#n).getLsbD 0 = false := by
  rcases n with _ | n
  · simp [BitVec.getLsbD_of_ge]
  · simp

/-! ### The forms -/

theorem runs_retire {n : Nat} {i : Instr} {s u : State} (rd : Reg) (v : BitVec n) {len : Nat} (hl : len % 2 = 0)
    (hu : Data s u) : Runs i s (retire s (u.setX rd v) len) :=
  .retires u rd v _ hu fun _ h => bit0_nextPc hl h

theorem runs_retire_state {i : Instr} {s u : State} {len : Nat} (hl : len % 2 = 0) (hu : Data s u) :
    Runs i s (retire s u len) := by
  have := runs_retire (i := i) 0#5 (0#64) hl hu
  simpa [State.setX] using this

theorem runs_raise {i : Instr} {s u : State} (e : Exc) (tv : Word) (hu : Data s u) : Runs i s (raise e tv u) :=
  .traps u _ tv hu

theorem runs_illegal {i : Instr} {s : State} (b : BitVec 32) : Runs i s (illegal b s) := runs_raise _ _ (Data.refl s)

theorem runs_need64 {i : Instr} {s : State} {b : BitVec 32} {k : Result} (hk : Runs i s k) : Runs i s (need64 b s k) := by
  unfold need64; split
  · exact hk
  · exact runs_illegal b

theorem runs_opShift {i : Instr} {s : State} {len : Nat} {b : BitVec 32} {f : (n : Nat) → BitVec n → Nat → BitVec n}
    {rd rs1 : Reg} {sh : BitVec 6} (hl : len % 2 = 0) : Runs i s (opShift len b f rd rs1 sh s) := by
  unfold opShift; split
  · exact runs_retire _ _ hl (Data.refl s)
  · exact runs_illegal b

theorem runs_opJal {m : Nat} {i : Instr} {s : State} {len : Nat} {rd : Reg} {off : BitVec m}
    (ho : i.wf .x64 = true ∨ i.wf .x32 = true → off.getLsbD 0 = false) : Runs i s (opJal len rd off s) :=
  .retires s rd _ _ (Data.refl s) fun hi h => bit0_pcPlus (ho hi) h

theorem runs_opJalr {i : Instr} {s : State} {len : Nat} {rd rs1 : Reg} {imm : BitVec 12} :
    Runs i s (opJalr len rd rs1 imm s) :=
  .retires s rd _ _ (Data.refl s) fun _ _ => bit0_and_not_one _

theorem runs_opBranch {m : Nat} {i : Instr} {s : State} {len : Nat} {b : Bool} {off : BitVec m} (hl : len % 2 = 0)
    (ho : i.wf .x64 = true ∨ i.wf .x32 = true → off.getLsbD 0 = false) : Runs i s (opBranch len b off s) := by
  unfold opBranch; split
  · have := Runs.retires (i := i) s 0#5 (0#64) (s.pcPlus off) (Data.refl s) fun hi h => bit0_pcPlus (ho hi) h
    simpa [State.setX] using this
  · exact runs_retire_state hl (Data.refl s)

theorem Data.of_read {s u : State}
    (f : u = { s with tlb := u.tlb, mem := u.mem, draws := u.draws, devLog := u.devLog }) (m : MemInv s → MemInv u)
    (t : TlbInv s → TlbInv u) : Data s u := by
  refine ⟨by rw [f], m, t, fun hr => ?_⟩
  unfold ReservationInv at *; rw [f]; exact hr

theorem Data.of_tlbMem {s u : State} (f : u = { s with tlb := u.tlb, mem := u.mem }) (m : MemInv s → MemInv u)
    (t : TlbInv s → TlbInv u) : Data s u := by
  refine ⟨by rw [f], m, t, fun hr => ?_⟩
  unfold ReservationInv at *; rw [f]; exact hr

theorem Data.of_translate {acc : Acc} {va : Word} {s u : State} {pa : Nat} (h : translate acc va s = .ok pa u) : Data s u :=
  .of_tlbMem (translate_frame h) (translate_memInv h) (translate_tlbInv h)

theorem runs_opLoad {m : Nat} {i : Instr} {s : State} {len n : Nat} {sg : Bool} {rd rs1 : Reg} {imm : BitVec m}
    (hl : len % 2 = 0) : Runs i s (opLoad len n sg rd rs1 imm s) := by
  unfold opLoad; split
  · rename_i h
    obtain ⟨f, mm, t⟩ := memRead_spec.2 _ _ _ h
    exact runs_raise _ _ (.of_read f mm t)
  · rename_i h
    obtain ⟨f, mm, t⟩ := memRead_spec.1 _ _ h
    exact runs_retire _ _ hl (.of_read f mm t)

theorem runs_opStore {m : Nat} {i : Instr} {s : State} {len n : Nat} {rs1 rs2 : Reg} {imm : BitVec m}
    (hl : len % 2 = 0) : Runs i s (opStore len n rs1 rs2 imm s) := by
  unfold opStore; split
  · rename_i h
    obtain ⟨f, mm, t⟩ := memWrite_spec.2 _ _ _ h
    exact runs_raise _ _ (.of_tlbMem f mm t)
  · rename_i h
    obtain ⟨f, mm, t⟩ := memWrite_spec.1 _ _ h
    refine runs_retire_state hl ⟨by rw [f], mm, t, fun hr => ?_⟩
    unfold ReservationInv at *; rw [f]; exact hr

theorem Data.of_atomic_exc {acc : Acc} {va : Word} {n : Nat} {s u : State} {e : Exc} {tv : Word}
    (h : atomicAddr acc va n s = .exc e tv u) : Data s u := by
  obtain ⟨_, f, m, t⟩ := atomicAddr_spec.2 _ _ _ h
  exact .of_tlbMem f m t

theorem runs_opLr {i : Instr} {s : State} {n : Nat} {rd rs1 : Reg} (hn : n = 4 ∨ n = 8) :
    Runs i s (opLr n rd rs1 s) := by
  unfold opLr; split
  · rename_i h; exact runs_raise _ _ (Data.of_atomic_exc h)
  · rename_i pa t h
    obtain ⟨h1, h2, h3⟩ := atomicAddr_spec.1 _ _ h
    have d := Data.of_translate h2
    have hm := translate_mod h2
    refine runs_retire _ _ rfl ⟨by rw [d.frame], fun hs => (d.mem hs).congr rfl rfl, fun hs => (d.tlb hs).congr rfl rfl, ?_⟩
    intro _ r hr
    obtain rfl : r = ⟨pa, n⟩ := by simpa using hr.symm
    refine ⟨hn, ?_, ?_⟩
    · rcases hn with rfl | rfl <;> dsimp only <;> omega
    · rw [d.frame]; exact h3

/-- A store of an atomic. -/
theorem Data.of_atomic_store {acc : Acc} {va : Word} {n : Nat} {s t : State} {pa : Nat} (v : Nat)
    (h : atomicAddr acc va n s = .ok pa t) : Data s { t with mem := t.mem.store pa n v } := by
  obtain ⟨_, h2, h3⟩ := atomicAddr_spec.1 _ _ h
  have d := Data.of_translate h2
  have hw : t.hw = s.hw := by rw [d.frame]
  exact ⟨by rw [d.frame], fun hs => (d.mem hs).store _ (hw ▸ h3), fun hs => (d.tlb hs).congr rfl rfl, d.res⟩

theorem runs_opSc {i : Instr} {s : State} {n : Nat} {rd rs1 rs2 : Reg} : Runs i s (opSc n rd rs1 rs2 s) := by
  unfold opSc; split
  · rename_i h; exact runs_raise _ _ (Data.of_atomic_exc h)
  · rename_i pa t h
    dsimp only
    split
    · have d := Data.of_atomic_store (s.x (8 * n) rs2).toNat h
      refine runs_retire _ _ rfl ⟨?_, fun hs => (d.mem hs).congr rfl rfl, fun hs => (d.tlb hs).congr rfl rfl, ?_⟩
      · have f := (Data.of_translate (atomicAddr_spec.1 _ _ h).2.1).frame
        rw [f]
      · intro _ r hr; simp at hr
    · have d := Data.of_translate (atomicAddr_spec.1 _ _ h).2.1
      refine runs_retire _ _ rfl ⟨by rw [d.frame], fun hs => (d.mem hs).congr rfl rfl, fun hs => (d.tlb hs).congr rfl rfl, ?_⟩
      intro _ r hr; simp at hr

theorem runs_opAmo {i : Instr} {s : State} {n : Nat} {f : (w : Nat) → BitVec w → BitVec w → BitVec w} {rd rs1 rs2 : Reg} :
    Runs i s (opAmo n f rd rs1 rs2 s) := by
  unfold opAmo; split
  · rename_i h; exact runs_raise _ _ (Data.of_atomic_exc h)
  · rename_i h; exact runs_retire _ _ rfl (Data.of_atomic_store _ h)

theorem runs_opCsr {i : Instr} {s : State} {b : BitVec 32} {op : CsrOp} {rd : Reg} {a : BitVec 12} {v : Word} :
    Runs i s (opCsr b op rd a v s) := by
  unfold opCsr; split
  · exact runs_illegal b
  · rename_i h; exact .csr _ _ _ _ _ _ h

theorem even_of_evenBits {n : Nat} {v : BitVec n} (h : evenBits v = true ∨ evenBits v = true) : v.getLsbD 0 = false := by
  rcases h with h | h <;> simpa [evenBits] using h

/-- What executing an instruction can do. -/
theorem exec_runs (i : Instr) (s : State) : Runs i s (exec i s) := by
  cases i with
  | jal rd off => exact runs_opJal even_of_evenBits
  | jalr rd rs1 imm => exact runs_opJalr
  | beq a b off => exact runs_opBranch rfl even_of_evenBits
  | bne a b off => exact runs_opBranch rfl even_of_evenBits
  | blt a b off => exact runs_opBranch rfl even_of_evenBits
  | bge a b off => exact runs_opBranch rfl even_of_evenBits
  | bltu a b off => exact runs_opBranch rfl even_of_evenBits
  | bgeu a b off => exact runs_opBranch rfl even_of_evenBits
  | cJal off => exact runs_opJal fun h => by simpa [Instr.wf, Xlen.is64, evenBits] using h
  | cJ off => exact runs_opJal even_of_evenBits
  | cBeqz a off => exact runs_opBranch rfl even_of_evenBits
  | cBnez a off => exact runs_opBranch rfl even_of_evenBits
  | cJr a => exact runs_opJalr
  | cJalr a => exact runs_opJalr
  | slli rd a sh => exact runs_opShift rfl
  | srli rd a sh => exact runs_opShift rfl
  | srai rd a sh => exact runs_opShift rfl
  | cSrli rd sh => exact runs_opShift rfl
  | cSrai rd sh => exact runs_opShift rfl
  | cSlli rd sh => exact runs_opShift rfl
  | lb rd a imm => exact runs_opLoad rfl
  | lh rd a imm => exact runs_opLoad rfl
  | lw rd a imm => exact runs_opLoad rfl
  | lbu rd a imm => exact runs_opLoad rfl
  | lhu rd a imm => exact runs_opLoad rfl
  | lwu rd a imm => exact runs_need64 (runs_opLoad rfl)
  | ld rd a imm => exact runs_need64 (runs_opLoad rfl)
  | cLw rd a imm => exact runs_opLoad rfl
  | cLd rd a imm => exact runs_need64 (runs_opLoad rfl)
  | cLwsp rd imm => exact runs_opLoad rfl
  | cLdsp rd imm => exact runs_need64 (runs_opLoad rfl)
  | sb a b imm => exact runs_opStore rfl
  | sh a b imm => exact runs_opStore rfl
  | sw a b imm => exact runs_opStore rfl
  | sd a b imm => exact runs_need64 (runs_opStore rfl)
  | cSw a b imm => exact runs_opStore rfl
  | cSd a b imm => exact runs_need64 (runs_opStore rfl)
  | cSwsp a imm => exact runs_opStore rfl
  | cSdsp a imm => exact runs_need64 (runs_opStore rfl)
  | fence => exact runs_retire_state rfl (Data.refl s)
  | fenceI => exact runs_retire_state rfl (Data.refl s)
  | cNop => exact runs_retire_state rfl (Data.refl s)
  | lrW rd a => exact runs_opLr (.inl rfl)
  | lrD rd a => exact runs_need64 (runs_opLr (.inr rfl))
  | scW => exact runs_opSc
  | scD => exact runs_need64 runs_opSc
  | amoswapW | amoaddW | amoxorW | amoandW | amoorW | amominW | amomaxW | amominuW | amomaxuW => exact runs_opAmo
  | amoswapD | amoaddD | amoxorD | amoandD | amoorD | amominD | amomaxD | amominuD | amomaxuD =>
    exact runs_need64 runs_opAmo
  | csrrw | csrrs | csrrc | csrrwi | csrrsi | csrrci => exact runs_opCsr
  | ecall => exact runs_raise _ _ (Data.refl s)
  | ebreak => exact runs_raise _ _ (Data.refl s)
  | cEbreak => exact runs_raise _ _ (Data.refl s)
  | mret =>
    simp only [exec, execMret]; split
    · exact runs_illegal _
    · rename_i h; exact .mret rfl (by simpa using h)
  | sret =>
    simp only [exec, execSret]; split
    · exact runs_illegal _
    · rename_i h; exact .sret rfl fun hu => h (.inl hu)
  | wfi =>
    simp only [exec, execWfi]; split
    · exact runs_illegal _
    · exact runs_retire_state rfl ⟨rfl, fun h => h.congr rfl rfl, fun h => h.congr rfl rfl, id⟩
  | sfenceVma a b =>
    simp only [exec, execSfenceVma]; split
    · exact runs_illegal _
    · exact runs_retire_state rfl ⟨rfl, fun h => h.congr rfl rfl, fun _ => .of_empty rfl, id⟩
  | addiw | slliw | srliw | sraiw | addw | subw | sllw | srlw | sraw | mulw | divw | divuw | remw | remuw | cAddiw | cSubw
  | cAddw => exact runs_need64 (runs_retire _ _ rfl (Data.refl s))
  | lui | auipc | addi | slti | sltiu | xori | ori | andi | add | sub | sll | slt | sltu | xor | srl | sra | or | and | mul
  | mulh | mulhsu | mulhu | div | divu | rem | remu | cAddi4spn | cAddi | cLi | cAddi16sp | cLui | cAndi | cSub | cXor | cOr
  | cAnd | cMv | cAdd => exact runs_retire _ _ rfl (Data.refl s)

/-! ### The forms of the statements -/

/-- A load runs the one load operation, of its form's operands. -/
theorem exec_load {i : Instr} {f : MemForm} {s : State} (hf : loadForm i = some f) (hw : widthOk s f.only64) :
    exec i s = opLoad f.len f.n f.signed f.reg f.rs1 f.imm s := by
  cases i <;> simp only [loadForm, Option.some.injEq, reduceCtorEq] at hf <;> subst hf <;> first
    | rfl
    | exact if_pos (hw rfl)

/-- A store runs the one store operation, of its form's operands. -/
theorem exec_store {i : Instr} {f : MemForm} {s : State} (hf : storeForm i = some f) (hw : widthOk s f.only64) :
    exec i s = opStore f.len f.n f.rs1 f.reg f.imm s := by
  cases i <;> simp only [storeForm, Option.some.injEq, reduceCtorEq] at hf <;> subst hf <;> first
    | rfl
    | exact if_pos (hw rfl)

/-- The first two access checks, as the statements write them (15_csr R61). -/
theorem csrDenied_false {a : BitVec 12} {v : Word} {p : Priv} (hp : a.toNat / 256 % 4 ≤ p.toNat)
    (ho : a.toNat / 1024 = 3 → v = 0#64) : csrDenied a v p = false := by
  have h1 : (a.extractLsb' 10 2 == 3#2) = decide (a.toNat / 1024 = 3) := by
    rw [Bool.eq_iff_iff]
    simp [← BitVec.toNat_inj, BitVec.extractLsb'_toNat, Nat.shiftRight_eq_div_pow]
    have := a.isLt
    omega
  have h2 : (a.extractLsb' 8 2).toNat = a.toNat / 256 % 4 := by
    simp [BitVec.extractLsb'_toNat, Nat.shiftRight_eq_div_pow]
  unfold csrDenied
  rw [h1, h2, Bool.or_eq_false_iff]
  exact ⟨by by_cases h : a.toNat / 1024 = 3 <;> simp [h, ho], by simpa using hp⟩

/-- A CSR instruction whose CSR can be read completes with what the read gives, and leaves what the write leaves. -/
theorem csr_done {s t : State} {i : Instr} {f : CsrForm} {c : Csr} {old : Word} (hf : csrForm s i = some f)
    (hp : f.csr.toNat / 256 % 4 ≤ s.priv.toNat) (ho : f.csr.toNat / 1024 = 3 → f.operand = 0#64)
    (hm : csrMap s.xlen f.csr = some c) (hr : csrRead s.xlen c s = some (old, t)) :
    CsrDone s i f old (csrWrite s.xlen c f.op f.operand (csrNew f.op old f.operand) t) := by
  have ha : csrAccess f.csr f.operand f.op s =
      some (old, csrWrite s.xlen c f.op f.operand (csrNew f.op old f.operand) t) := by
    unfold csrAccess
    rw [if_neg (by simp [csrDenied_false hp ho]), hm]
    dsimp only
    rw [hr]
  obtain ⟨t', h1, h2⟩ := retire_setX s (csrWrite s.xlen c f.op f.operand (csrNew f.op old f.operand) t) 4 f.rd
    (old.setWidth s.xw)
  refine ⟨t', ?_, h2⟩
  rw [← h1]
  cases i <;> simp only [csrForm, Option.some.injEq, reduceCtorEq] at hf <;> subst hf <;>
    simp only [exec, execCsrrw, execCsrrs, execCsrrc, execCsrrwi, execCsrrsi, execCsrrci, opCsr, State.xa] <;>
    dsimp only at ha <;> rw [ha]

end Sys2Proof.Machine
end

