-- ==== Sys2Proof/Laws/PerInstr.lean ====
section
/-! SUPPORT. What holds of every instruction as syntax, one lemma for each constructor: the first halfword of its word says
how long it is (30_encoding R200). -/

namespace Sys2Proof.Laws.Length

/-- The first halfword of the encoding of `i` says whether there is a second. -/
def Statement (i : Instr) : Prop :=
  match encode i with
  | .c16 w => isShort w = true
  | .c32 w => isShort (w.extractLsb' 0 16) = false

theorem long_of {w : BitVec 32} (h : (fOpcode w).extractLsb' 0 2 = 3#2) : isShort (w.extractLsb' 0 16) = false := by
  have e : (w.extractLsb' 0 16).extractLsb' 0 2 = (fOpcode w).extractLsb' 0 2 := by
    apply BitVec.eq_of_getLsbD_eq; intro i hi
    unfold fOpcode
    interval_cases i <;> simp
  unfold isShort
  rw [e, h]; rfl

theorem short_of {w : BitVec 16} (h : gOp w ≠ 3#2) : isShort w = true := by
  unfold isShort
  exact bne_iff_ne.2 h

theorem lui (rd : Reg) (imm : BitVec 20) : Statement (.lui rd imm) :=
  long_of (by rw [encU_fOpcode]; rfl)
theorem auipc (rd : Reg) (imm : BitVec 20) : Statement (.auipc rd imm) :=
  long_of (by rw [encU_fOpcode]; rfl)
theorem addi (rd rs1 : Reg) (imm : BitVec 12) : Statement (.addi rd rs1 imm) :=
  long_of (by rw [encI_fOpcode]; rfl)
theorem slti (rd rs1 : Reg) (imm : BitVec 12) : Statement (.slti rd rs1 imm) :=
  long_of (by rw [encI_fOpcode]; rfl)
theorem sltiu (rd rs1 : Reg) (imm : BitVec 12) : Statement (.sltiu rd rs1 imm) :=
  long_of (by rw [encI_fOpcode]; rfl)
theorem xori (rd rs1 : Reg) (imm : BitVec 12) : Statement (.xori rd rs1 imm) :=
  long_of (by rw [encI_fOpcode]; rfl)
theorem ori (rd rs1 : Reg) (imm : BitVec 12) : Statement (.ori rd rs1 imm) :=
  long_of (by rw [encI_fOpcode]; rfl)
theorem andi (rd rs1 : Reg) (imm : BitVec 12) : Statement (.andi rd rs1 imm) :=
  long_of (by rw [encI_fOpcode]; rfl)
theorem slli (rd rs1 : Reg) (shamt : BitVec 6) : Statement (.slli rd rs1 shamt) :=
  long_of (by rw [encShift_fOpcode]; rfl)
theorem srli (rd rs1 : Reg) (shamt : BitVec 6) : Statement (.srli rd rs1 shamt) :=
  long_of (by rw [encShift_fOpcode]; rfl)
theorem srai (rd rs1 : Reg) (shamt : BitVec 6) : Statement (.srai rd rs1 shamt) :=
  long_of (by rw [encShift_fOpcode]; rfl)
theorem add (rd rs1 rs2 : Reg) : Statement (.add rd rs1 rs2) :=
  long_of (by rw [encR_fOpcode]; rfl)
theorem sub (rd rs1 rs2 : Reg) : Statement (.sub rd rs1 rs2) :=
  long_of (by rw [encR_fOpcode]; rfl)
theorem sll (rd rs1 rs2 : Reg) : Statement (.sll rd rs1 rs2) :=
  long_of (by rw [encR_fOpcode]; rfl)
theorem slt (rd rs1 rs2 : Reg) : Statement (.slt rd rs1 rs2) :=
  long_of (by rw [encR_fOpcode]; rfl)
theorem sltu (rd rs1 rs2 : Reg) : Statement (.sltu rd rs1 rs2) :=
  long_of (by rw [encR_fOpcode]; rfl)
theorem xor (rd rs1 rs2 : Reg) : Statement (.xor rd rs1 rs2) :=
  long_of (by rw [encR_fOpcode]; rfl)
theorem srl (rd rs1 rs2 : Reg) : Statement (.srl rd rs1 rs2) :=
  long_of (by rw [encR_fOpcode]; rfl)
theorem sra (rd rs1 rs2 : Reg) : Statement (.sra rd rs1 rs2) :=
  long_of (by rw [encR_fOpcode]; rfl)
theorem or (rd rs1 rs2 : Reg) : Statement (.or rd rs1 rs2) :=
  long_of (by rw [encR_fOpcode]; rfl)
theorem and (rd rs1 rs2 : Reg) : Statement (.and rd rs1 rs2) :=
  long_of (by rw [encR_fOpcode]; rfl)
theorem addiw (rd rs1 : Reg) (imm : BitVec 12) : Statement (.addiw rd rs1 imm) :=
  long_of (by rw [encI_fOpcode]; rfl)
theorem slliw (rd rs1 : Reg) (shamt : BitVec 5) : Statement (.slliw rd rs1 shamt) :=
  long_of (by rw [encR_fOpcode]; rfl)
theorem srliw (rd rs1 : Reg) (shamt : BitVec 5) : Statement (.srliw rd rs1 shamt) :=
  long_of (by rw [encR_fOpcode]; rfl)
theorem sraiw (rd rs1 : Reg) (shamt : BitVec 5) : Statement (.sraiw rd rs1 shamt) :=
  long_of (by rw [encR_fOpcode]; rfl)
theorem addw (rd rs1 rs2 : Reg) : Statement (.addw rd rs1 rs2) :=
  long_of (by rw [encR_fOpcode]; rfl)
theorem subw (rd rs1 rs2 : Reg) : Statement (.subw rd rs1 rs2) :=
  long_of (by rw [encR_fOpcode]; rfl)
theorem sllw (rd rs1 rs2 : Reg) : Statement (.sllw rd rs1 rs2) :=
  long_of (by rw [encR_fOpcode]; rfl)
theorem srlw (rd rs1 rs2 : Reg) : Statement (.srlw rd rs1 rs2) :=
  long_of (by rw [encR_fOpcode]; rfl)
theorem sraw (rd rs1 rs2 : Reg) : Statement (.sraw rd rs1 rs2) :=
  long_of (by rw [encR_fOpcode]; rfl)
theorem jal (rd : Reg) (offset : BitVec 21) : Statement (.jal rd offset) :=
  long_of (by rw [encJ_fOpcode]; rfl)
theorem jalr (rd rs1 : Reg) (imm : BitVec 12) : Statement (.jalr rd rs1 imm) :=
  long_of (by rw [encI_fOpcode]; rfl)
theorem beq (rs1 rs2 : Reg) (offset : BitVec 13) : Statement (.beq rs1 rs2 offset) :=
  long_of (by rw [encB_fOpcode]; rfl)
theorem bne (rs1 rs2 : Reg) (offset : BitVec 13) : Statement (.bne rs1 rs2 offset) :=
  long_of (by rw [encB_fOpcode]; rfl)
theorem blt (rs1 rs2 : Reg) (offset : BitVec 13) : Statement (.blt rs1 rs2 offset) :=
  long_of (by rw [encB_fOpcode]; rfl)
theorem bge (rs1 rs2 : Reg) (offset : BitVec 13) : Statement (.bge rs1 rs2 offset) :=
  long_of (by rw [encB_fOpcode]; rfl)
theorem bltu (rs1 rs2 : Reg) (offset : BitVec 13) : Statement (.bltu rs1 rs2 offset) :=
  long_of (by rw [encB_fOpcode]; rfl)
theorem bgeu (rs1 rs2 : Reg) (offset : BitVec 13) : Statement (.bgeu rs1 rs2 offset) :=
  long_of (by rw [encB_fOpcode]; rfl)
theorem lb (rd rs1 : Reg) (imm : BitVec 12) : Statement (.lb rd rs1 imm) :=
  long_of (by rw [encI_fOpcode]; rfl)
theorem lh (rd rs1 : Reg) (imm : BitVec 12) : Statement (.lh rd rs1 imm) :=
  long_of (by rw [encI_fOpcode]; rfl)
theorem lw (rd rs1 : Reg) (imm : BitVec 12) : Statement (.lw rd rs1 imm) :=
  long_of (by rw [encI_fOpcode]; rfl)
theorem lbu (rd rs1 : Reg) (imm : BitVec 12) : Statement (.lbu rd rs1 imm) :=
  long_of (by rw [encI_fOpcode]; rfl)
theorem lhu (rd rs1 : Reg) (imm : BitVec 12) : Statement (.lhu rd rs1 imm) :=
  long_of (by rw [encI_fOpcode]; rfl)
theorem lwu (rd rs1 : Reg) (imm : BitVec 12) : Statement (.lwu rd rs1 imm) :=
  long_of (by rw [encI_fOpcode]; rfl)
theorem ld (rd rs1 : Reg) (imm : BitVec 12) : Statement (.ld rd rs1 imm) :=
  long_of (by rw [encI_fOpcode]; rfl)
theorem sb (rs1 rs2 : Reg) (imm : BitVec 12) : Statement (.sb rs1 rs2 imm) :=
  long_of (by rw [encS_fOpcode]; rfl)
theorem sh (rs1 rs2 : Reg) (imm : BitVec 12) : Statement (.sh rs1 rs2 imm) :=
  long_of (by rw [encS_fOpcode]; rfl)
theorem sw (rs1 rs2 : Reg) (imm : BitVec 12) : Statement (.sw rs1 rs2 imm) :=
  long_of (by rw [encS_fOpcode]; rfl)
theorem sd (rs1 rs2 : Reg) (imm : BitVec 12) : Statement (.sd rs1 rs2 imm) :=
  long_of (by rw [encS_fOpcode]; rfl)
theorem fence (fm pred succ : BitVec 4) (rs1 rd : Reg) : Statement (.fence fm pred succ rs1 rd) :=
  long_of (by rw [encFence_fOpcode]; rfl)
theorem fenceI (imm : BitVec 12) (rs1 rd : Reg) : Statement (.fenceI imm rs1 rd) :=
  long_of (by rw [encI_fOpcode]; rfl)
theorem mul (rd rs1 rs2 : Reg) : Statement (.mul rd rs1 rs2) :=
  long_of (by rw [encR_fOpcode]; rfl)
theorem mulh (rd rs1 rs2 : Reg) : Statement (.mulh rd rs1 rs2) :=
  long_of (by rw [encR_fOpcode]; rfl)
theorem mulhsu (rd rs1 rs2 : Reg) : Statement (.mulhsu rd rs1 rs2) :=
  long_of (by rw [encR_fOpcode]; rfl)
theorem mulhu (rd rs1 rs2 : Reg) : Statement (.mulhu rd rs1 rs2) :=
  long_of (by rw [encR_fOpcode]; rfl)
theorem mulw (rd rs1 rs2 : Reg) : Statement (.mulw rd rs1 rs2) :=
  long_of (by rw [encR_fOpcode]; rfl)
theorem div (rd rs1 rs2 : Reg) : Statement (.div rd rs1 rs2) :=
  long_of (by rw [encR_fOpcode]; rfl)
theorem divu (rd rs1 rs2 : Reg) : Statement (.divu rd rs1 rs2) :=
  long_of (by rw [encR_fOpcode]; rfl)
theorem rem (rd rs1 rs2 : Reg) : Statement (.rem rd rs1 rs2) :=
  long_of (by rw [encR_fOpcode]; rfl)
theorem remu (rd rs1 rs2 : Reg) : Statement (.remu rd rs1 rs2) :=
  long_of (by rw [encR_fOpcode]; rfl)
theorem divw (rd rs1 rs2 : Reg) : Statement (.divw rd rs1 rs2) :=
  long_of (by rw [encR_fOpcode]; rfl)
theorem divuw (rd rs1 rs2 : Reg) : Statement (.divuw rd rs1 rs2) :=
  long_of (by rw [encR_fOpcode]; rfl)
theorem remw (rd rs1 rs2 : Reg) : Statement (.remw rd rs1 rs2) :=
  long_of (by rw [encR_fOpcode]; rfl)
theorem remuw (rd rs1 rs2 : Reg) : Statement (.remuw rd rs1 rs2) :=
  long_of (by rw [encR_fOpcode]; rfl)
theorem lrW (rd rs1 : Reg) (aq rl : Bool) : Statement (.lrW rd rs1 aq rl) :=
  long_of (by rw [encA_fOpcode]; rfl)
theorem lrD (rd rs1 : Reg) (aq rl : Bool) : Statement (.lrD rd rs1 aq rl) :=
  long_of (by rw [encA_fOpcode]; rfl)
theorem scW (rd rs1 rs2 : Reg) (aq rl : Bool) : Statement (.scW rd rs1 rs2 aq rl) :=
  long_of (by rw [encA_fOpcode]; rfl)
theorem scD (rd rs1 rs2 : Reg) (aq rl : Bool) : Statement (.scD rd rs1 rs2 aq rl) :=
  long_of (by rw [encA_fOpcode]; rfl)
theorem amoswapW (rd rs1 rs2 : Reg) (aq rl : Bool) : Statement (.amoswapW rd rs1 rs2 aq rl) :=
  long_of (by rw [encA_fOpcode]; rfl)
theorem amoaddW (rd rs1 rs2 : Reg) (aq rl : Bool) : Statement (.amoaddW rd rs1 rs2 aq rl) :=
  long_of (by rw [encA_fOpcode]; rfl)
theorem amoxorW (rd rs1 rs2 : Reg) (aq rl : Bool) : Statement (.amoxorW rd rs1 rs2 aq rl) :=
  long_of (by rw [encA_fOpcode]; rfl)
theorem amoandW (rd rs1 rs2 : Reg) (aq rl : Bool) : Statement (.amoandW rd rs1 rs2 aq rl) :=
  long_of (by rw [encA_fOpcode]; rfl)
theorem amoorW (rd rs1 rs2 : Reg) (aq rl : Bool) : Statement (.amoorW rd rs1 rs2 aq rl) :=
  long_of (by rw [encA_fOpcode]; rfl)
theorem amominW (rd rs1 rs2 : Reg) (aq rl : Bool) : Statement (.amominW rd rs1 rs2 aq rl) :=
  long_of (by rw [encA_fOpcode]; rfl)
theorem amomaxW (rd rs1 rs2 : Reg) (aq rl : Bool) : Statement (.amomaxW rd rs1 rs2 aq rl) :=
  long_of (by rw [encA_fOpcode]; rfl)
theorem amominuW (rd rs1 rs2 : Reg) (aq rl : Bool) : Statement (.amominuW rd rs1 rs2 aq rl) :=
  long_of (by rw [encA_fOpcode]; rfl)
theorem amomaxuW (rd rs1 rs2 : Reg) (aq rl : Bool) : Statement (.amomaxuW rd rs1 rs2 aq rl) :=
  long_of (by rw [encA_fOpcode]; rfl)
theorem amoswapD (rd rs1 rs2 : Reg) (aq rl : Bool) : Statement (.amoswapD rd rs1 rs2 aq rl) :=
  long_of (by rw [encA_fOpcode]; rfl)
theorem amoaddD (rd rs1 rs2 : Reg) (aq rl : Bool) : Statement (.amoaddD rd rs1 rs2 aq rl) :=
  long_of (by rw [encA_fOpcode]; rfl)
theorem amoxorD (rd rs1 rs2 : Reg) (aq rl : Bool) : Statement (.amoxorD rd rs1 rs2 aq rl) :=
  long_of (by rw [encA_fOpcode]; rfl)
theorem amoandD (rd rs1 rs2 : Reg) (aq rl : Bool) : Statement (.amoandD rd rs1 rs2 aq rl) :=
  long_of (by rw [encA_fOpcode]; rfl)
theorem amoorD (rd rs1 rs2 : Reg) (aq rl : Bool) : Statement (.amoorD rd rs1 rs2 aq rl) :=
  long_of (by rw [encA_fOpcode]; rfl)
theorem amominD (rd rs1 rs2 : Reg) (aq rl : Bool) : Statement (.amominD rd rs1 rs2 aq rl) :=
  long_of (by rw [encA_fOpcode]; rfl)
theorem amomaxD (rd rs1 rs2 : Reg) (aq rl : Bool) : Statement (.amomaxD rd rs1 rs2 aq rl) :=
  long_of (by rw [encA_fOpcode]; rfl)
theorem amominuD (rd rs1 rs2 : Reg) (aq rl : Bool) : Statement (.amominuD rd rs1 rs2 aq rl) :=
  long_of (by rw [encA_fOpcode]; rfl)
theorem amomaxuD (rd rs1 rs2 : Reg) (aq rl : Bool) : Statement (.amomaxuD rd rs1 rs2 aq rl) :=
  long_of (by rw [encA_fOpcode]; rfl)
theorem csrrw (rd : Reg) (csr : BitVec 12) (rs1 : Reg) : Statement (.csrrw rd csr rs1) :=
  long_of (by rw [encI_fOpcode]; rfl)
theorem csrrs (rd : Reg) (csr : BitVec 12) (rs1 : Reg) : Statement (.csrrs rd csr rs1) :=
  long_of (by rw [encI_fOpcode]; rfl)
theorem csrrc (rd : Reg) (csr : BitVec 12) (rs1 : Reg) : Statement (.csrrc rd csr rs1) :=
  long_of (by rw [encI_fOpcode]; rfl)
theorem csrrwi (rd : Reg) (csr : BitVec 12) (uimm : BitVec 5) : Statement (.csrrwi rd csr uimm) :=
  long_of (by rw [encI_fOpcode]; rfl)
theorem csrrsi (rd : Reg) (csr : BitVec 12) (uimm : BitVec 5) : Statement (.csrrsi rd csr uimm) :=
  long_of (by rw [encI_fOpcode]; rfl)
theorem csrrci (rd : Reg) (csr : BitVec 12) (uimm : BitVec 5) : Statement (.csrrci rd csr uimm) :=
  long_of (by rw [encI_fOpcode]; rfl)
theorem ecall : Statement (.ecall) :=
  long_of rfl
theorem ebreak : Statement (.ebreak) :=
  long_of rfl
theorem mret : Statement (.mret) :=
  long_of rfl
theorem sret : Statement (.sret) :=
  long_of rfl
theorem wfi : Statement (.wfi) :=
  long_of rfl
theorem sfenceVma (rs1 rs2 : Reg) : Statement (.sfenceVma rs1 rs2) :=
  long_of (by rw [encR_fOpcode]; rfl)
theorem cAddi4spn (rd : CReg) (nzuimm : BitVec 10) : Statement (.cAddi4spn rd nzuimm) :=
  short_of (by rw [encCAddi4spn_gOp]; decide)
theorem cLw (rd rs1 : CReg) (uimm : BitVec 7) : Statement (.cLw rd rs1 uimm) :=
  short_of (by rw [encCW_gOp]; decide)
theorem cLd (rd rs1 : CReg) (uimm : BitVec 8) : Statement (.cLd rd rs1 uimm) :=
  short_of (by rw [encCD_gOp]; decide)
theorem cSw (rs1 rs2 : CReg) (uimm : BitVec 7) : Statement (.cSw rs1 rs2 uimm) :=
  short_of (by rw [encCW_gOp]; decide)
theorem cSd (rs1 rs2 : CReg) (uimm : BitVec 8) : Statement (.cSd rs1 rs2 uimm) :=
  short_of (by rw [encCD_gOp]; decide)
theorem cNop (imm : BitVec 6) : Statement (.cNop imm) :=
  short_of (by rw [encCI_gOp]; decide)
theorem cAddi (rd : Reg) (imm : BitVec 6) : Statement (.cAddi rd imm) :=
  short_of (by rw [encCI_gOp]; decide)
theorem cJal (offset : BitVec 12) : Statement (.cJal offset) :=
  short_of (by rw [encCJ_gOp]; decide)
theorem cAddiw (rd : Reg) (imm : BitVec 6) : Statement (.cAddiw rd imm) :=
  short_of (by rw [encCI_gOp]; decide)
theorem cLi (rd : Reg) (imm : BitVec 6) : Statement (.cLi rd imm) :=
  short_of (by rw [encCI_gOp]; decide)
theorem cAddi16sp (nzimm : BitVec 10) : Statement (.cAddi16sp nzimm) :=
  short_of (by rw [encCAddi16sp_gOp]; decide)
theorem cLui (rd : Reg) (nzimm : BitVec 6) : Statement (.cLui rd nzimm) :=
  short_of (by rw [encCI_gOp]; decide)
theorem cSrli (rd : CReg) (shamt : BitVec 6) : Statement (.cSrli rd shamt) :=
  short_of (by rw [encCBimm_gOp]; decide)
theorem cSrai (rd : CReg) (shamt : BitVec 6) : Statement (.cSrai rd shamt) :=
  short_of (by rw [encCBimm_gOp]; decide)
theorem cAndi (rd : CReg) (imm : BitVec 6) : Statement (.cAndi rd imm) :=
  short_of (by rw [encCBimm_gOp]; decide)
theorem cSub (rd rs2 : CReg) : Statement (.cSub rd rs2) :=
  short_of (by rw [encCA_gOp]; decide)
theorem cXor (rd rs2 : CReg) : Statement (.cXor rd rs2) :=
  short_of (by rw [encCA_gOp]; decide)
theorem cOr (rd rs2 : CReg) : Statement (.cOr rd rs2) :=
  short_of (by rw [encCA_gOp]; decide)
theorem cAnd (rd rs2 : CReg) : Statement (.cAnd rd rs2) :=
  short_of (by rw [encCA_gOp]; decide)
theorem cSubw (rd rs2 : CReg) : Statement (.cSubw rd rs2) :=
  short_of (by rw [encCA_gOp]; decide)
theorem cAddw (rd rs2 : CReg) : Statement (.cAddw rd rs2) :=
  short_of (by rw [encCA_gOp]; decide)
theorem cJ (offset : BitVec 12) : Statement (.cJ offset) :=
  short_of (by rw [encCJ_gOp]; decide)
theorem cBeqz (rs1 : CReg) (offset : BitVec 9) : Statement (.cBeqz rs1 offset) :=
  short_of (by rw [encCB_gOp]; decide)
theorem cBnez (rs1 : CReg) (offset : BitVec 9) : Statement (.cBnez rs1 offset) :=
  short_of (by rw [encCB_gOp]; decide)
theorem cSlli (rd : Reg) (shamt : BitVec 6) : Statement (.cSlli rd shamt) :=
  short_of (by rw [encCI_gOp]; decide)
theorem cLwsp (rd : Reg) (uimm : BitVec 8) : Statement (.cLwsp rd uimm) :=
  short_of (by rw [encCLwsp_gOp]; decide)
theorem cLdsp (rd : Reg) (uimm : BitVec 9) : Statement (.cLdsp rd uimm) :=
  short_of (by rw [encCLdsp_gOp]; decide)
theorem cJr (rs1 : Reg) : Statement (.cJr rs1) :=
  short_of (by rw [encCR_gOp]; decide)
theorem cMv (rd rs2 : Reg) : Statement (.cMv rd rs2) :=
  short_of (by rw [encCR_gOp]; decide)
theorem cEbreak : Statement (.cEbreak) :=
  short_of (by rw [encCR_gOp]; decide)
theorem cJalr (rs1 : Reg) : Statement (.cJalr rs1) :=
  short_of (by rw [encCR_gOp]; decide)
theorem cAdd (rd rs2 : Reg) : Statement (.cAdd rd rs2) :=
  short_of (by rw [encCR_gOp]; decide)
theorem cSwsp (rs2 : Reg) (uimm : BitVec 8) : Statement (.cSwsp rs2 uimm) :=
  short_of (by rw [encCSwsp_gOp]; decide)
theorem cSdsp (rs2 : Reg) (uimm : BitVec 9) : Statement (.cSdsp rs2 uimm) :=
  short_of (by rw [encCSdsp_gOp]; decide)

end Sys2Proof.Laws.Length
end

