-- ==== Sys2Proof/Laws/Step.lean ====
section
/-! SUPPORT. What a step can do before it executes an instruction, said once. -/

namespace Sys2Proof.Machine

/-- What time, waiting, the interrupt check and the fetch do to the state. -/
structure Prelude (s t : State) : Prop where
  frame : t = { s with
    inbox := t.inbox, time := t.time, irqPending := t.irqPending, draws := t.draws, waiting := t.waiting, tlb := t.tlb,
    mem := t.mem }
  time : s.time.toNat ≤ t.time.toNat
  mem : MemInv s → MemInv t
  tlb : TlbInv s → TlbInv t
  irq : s.irqPending &&& ~~~0xAAA#12 = 0#12 → t.irqPending &&& ~~~0xAAA#12 = 0#12

theorem Prelude.refl (s : State) : Prelude s s := ⟨rfl, Nat.le_refl _, id, id, id⟩

theorem Prelude.trans {s t u : State} (h1 : Prelude s t) (h2 : Prelude t u) : Prelude s u :=
  ⟨by rw [h2.frame, h1.frame], h1.time.trans h2.time, h2.mem ∘ h1.mem, h2.tlb ∘ h1.tlb, h2.irq ∘ h1.irq⟩

/-- How what comes before execution can end. -/
inductive Before (s : State) : Pre → Prop
  /-- The parameters are those of no machine. -/
  | bad (h : s.hw.wf = false) : Before s (.stop (.fault .badParameters))
  /-- An external event is due. -/
  | event (e : Event) (rest : List (Nat × Event)) (h : s.inbox = (0, e) :: rest) :
      Before s (.stop (.next ({ s with inbox := rest }.event e)))
  /-- The hart waits. -/
  | waits (t : State) (h : Prelude s t) : Before s (.stop (.next t))
  /-- It traps: an interrupt, a fetch that fails, or bits that are no instruction. -/
  | traps (t : State) (int : Bool) (c : Nat) (tv : Word) (h : Prelude s t) :
      Before s (.stop (.next (t.takeTrap int c tv)))
  /-- A floating-point encoding on a machine with an FPU. -/
  | refused (h : s.hw.fpuPresent = true) : Before s (.stop (.refused .floatingPoint))
  /-- An instruction is fetched. -/
  | run (i : Instr) (t : State) (e : Encoded) (h : Prelude s t) (hd : decode t.xlen e = .ok i) : Before s (.run i t)

theorem sampleTime_prelude (s : State) : Prelude s s.sampleTime := by
  refine ⟨rfl, ?_, fun h => h.congr rfl rfl, fun h => h.congr rfl rfl, id⟩
  unfold State.sampleTime; dsimp only; split <;> omega

theorem compareTime_prelude (s : State) : Prelude s s.compareTime := by
  unfold State.compareTime; split
  · exact ⟨rfl, Nat.le_refl _, fun h => h.congr rfl rfl, fun h => h.congr rfl rfl, setIrq_clear s true (by simp)⟩
  · exact .refl s

theorem wake_prelude {s t : State} (h : wake s = some t) : Prelude s t := by
  unfold wake at h
  split at h
  · cases h; exact .refl s
  · split at h
    · cases h; exact ⟨rfl, Nat.le_refl _, fun h => h.congr rfl rfl, fun h => h.congr rfl rfl, id⟩
    · split at h
      · cases h; exact ⟨rfl, Nat.le_refl _, fun h => h.congr rfl rfl, fun h => h.congr rfl rfl, id⟩
      · cases h

theorem translate_prelude {acc : Acc} {va : Word} {s u : State} {pa : Nat} (h : translate acc va s = .ok pa u) :
    Prelude s u := by
  have f := translate_frame h
  exact ⟨by rw [f], by rw [f], translate_memInv h, translate_tlbInv h, by rw [f]; exact id⟩

theorem ramHalf_spec {va : Word} {pa : Nat} {s : State} :
    (∀ h u, ramHalf va pa s = .ok h u → u = s) ∧ ∀ e tv u, ramHalf va pa s = .exc e tv u → u = s := by
  unfold ramHalf
  constructor <;> intros <;> split at * <;> simp_all

theorem fetch_prelude {s u : State} :
    (∀ e, fetch s = .ok e u → Prelude s u) ∧ ∀ e tv, fetch s = .exc e tv u → Prelude s u := by
  have half : ∀ {va : Word} {s u : State}, (∀ h, fetchHalf va s = .ok h u → Prelude s u)
      ∧ ∀ e tv, fetchHalf va s = .exc e tv u → Prelude s u := by
    intro va s u
    unfold fetchHalf
    constructor
    · intro h hh
      split at hh
      · cases hh
      · rename_i ht; rw [ramHalf_spec.1 _ _ hh]; exact translate_prelude ht
    · intro e tv hh
      split at hh
      · rename_i ht; cases hh; rw [(translate_exc ht).1]; exact .refl s
      · rename_i ht; rw [ramHalf_spec.2 _ _ _ hh]; exact translate_prelude ht
  unfold fetch
  constructor
  · intro e h
    split at h
    · cases h
    · rename_i ht
      split at h
      · cases h
      · rename_i hr
        obtain rfl := ramHalf_spec.1 _ _ hr
        split at h
        · cases h; exact translate_prelude ht
        · split at h
          · cases h
          · rename_i hh
            cases h
            split at hh
            · exact (translate_prelude ht).trans (half.1 _ hh)
            · rw [ramHalf_spec.1 _ _ hh]; exact translate_prelude ht
  · intro e tv h
    split at h
    · rename_i ht; cases h; rw [(translate_exc ht).1]; exact .refl s
    · rename_i ht
      split at h
      · rename_i hr
        cases h; rw [ramHalf_spec.2 _ _ _ hr]; exact translate_prelude ht
      · rename_i hr
        obtain rfl := ramHalf_spec.1 _ _ hr
        split at h
        · cases h
        · split at h
          · rename_i hh
            cases h
            split at hh
            · exact (translate_prelude ht).trans (half.2 _ _ hh)
            · rw [ramHalf_spec.2 _ _ _ hh]; exact translate_prelude ht
          · cases h

/-- What comes before execution can do. -/
theorem preStep_before (s : State) : Before s (preStep s) := by
  unfold preStep
  split
  · rename_i h; exact .bad h
  · split
    · rename_i e rest h; exact .event e rest h
    · have h0 : Prelude s ({ s with inbox := tick s.inbox }) :=
        ⟨rfl, Nat.le_refl _, fun h => h.congr rfl rfl, fun h => h.congr rfl rfl, id⟩
      have h1 := (h0.trans (sampleTime_prelude _)).trans (compareTime_prelude _)
      generalize ({ s with inbox := tick s.inbox } : State).sampleTime.compareTime = a at h1
      unfold hartStep
      split
      · exact .waits a h1
      · rename_i b hb
        have h2 := h1.trans (wake_prelude hb)
        unfold fetchStep
        split
        · exact .traps b true _ _ h2
        · split
          · rename_i hf; exact .traps _ false _ _ (h2.trans (fetch_prelude.2 _ _ hf))
          · rename_i t hf
            have h3 := h2.trans (fetch_prelude.1 _ hf)
            unfold decodeStep
            split
            · rename_i hd; exact .run _ _ _ h3 hd
            · split
              · rename_i hp; exact .refused (by rw [h3.frame] at hp; exact hp)
              · exact .traps _ false _ _ h3
            · exact .traps _ false _ _ h3

end Sys2Proof.Machine
end

