-- ==== Sys2Proof/Tests/Slice0.lean ====
section
/-! SUPPORT. Tests: every constructor's word, the terms no word encodes, one step of every instruction, and a witness for the
hypotheses of every statement. The words and the expected results are the spec's own: the examples of the rules in 41 to 48
and the vectors of 95 and 96, none of them the model's answer. -/

namespace Sys2Proof.Tests

open Sys2Proof.Machine

/-! ### Words (the examples of 41 to 48; 96) -/

/-- An XLEN, a word and the instruction the spec says it is. -/
abbrev Row := Xlen × Encoded × Instr

/-- The word decodes to the instruction, which is well-formed and encodes to the word. -/
def Row.ok (r : Row) : Bool :=
  decide (decode r.1 r.2.1 = .ok r.2.2) && r.2.2.wf r.1 && decide (encode r.2.2 = r.2.1)

theorem test_decode_alu_immediate : ([
  (.x64, .c32 0xFFFFF2B7#32, .lui 5#5 0xFFFFF#20),
  (.x64, .c32 0xFFFFF297#32, .auipc 5#5 0xFFFFF#20),
  (.x64, .c32 0x7FF30293#32, .addi 5#5 6#5 0x7FF#12),
  (.x64, .c32 0xFFF32293#32, .slti 5#5 6#5 0xFFF#12),
  (.x64, .c32 0xFFF33293#32, .sltiu 5#5 6#5 0xFFF#12),
  (.x64, .c32 0xFFF34293#32, .xori 5#5 6#5 0xFFF#12),
  (.x64, .c32 0x0F036293#32, .ori 5#5 6#5 0xF0#12),
  (.x64, .c32 0x0FF37293#32, .andi 5#5 6#5 0xFF#12),
  (.x64, .c32 0x03F31293#32, .slli 5#5 6#5 0x3F#6),
  (.x64, .c32 0x03F35293#32, .srli 5#5 6#5 0x3F#6),
  (.x64, .c32 0x43F35293#32, .srai 5#5 6#5 0x3F#6)] : List Row).all Row.ok = true := by decide

theorem test_decode_alu_register : ([
  (.x64, .c32 0x007302B3#32, .add 5#5 6#5 7#5),
  (.x64, .c32 0x407302B3#32, .sub 5#5 6#5 7#5),
  (.x64, .c32 0x007312B3#32, .sll 5#5 6#5 7#5),
  (.x64, .c32 0x007322B3#32, .slt 5#5 6#5 7#5),
  (.x64, .c32 0x007332B3#32, .sltu 5#5 6#5 7#5),
  (.x64, .c32 0x007342B3#32, .xor 5#5 6#5 7#5),
  (.x64, .c32 0x007352B3#32, .srl 5#5 6#5 7#5),
  (.x64, .c32 0x407352B3#32, .sra 5#5 6#5 7#5),
  (.x64, .c32 0x007362B3#32, .or 5#5 6#5 7#5),
  (.x64, .c32 0x007372B3#32, .and 5#5 6#5 7#5)] : List Row).all Row.ok = true := by decide

theorem test_decode_word : ([
  (.x64, .c32 0xFFF3029B#32, .addiw 5#5 6#5 0xFFF#12),
  (.x64, .c32 0x01F3129B#32, .slliw 5#5 6#5 0x1F#5),
  (.x64, .c32 0x01F3529B#32, .srliw 5#5 6#5 0x1F#5),
  (.x64, .c32 0x41F3529B#32, .sraiw 5#5 6#5 0x1F#5),
  (.x64, .c32 0x007302BB#32, .addw 5#5 6#5 7#5),
  (.x64, .c32 0x407302BB#32, .subw 5#5 6#5 7#5),
  (.x64, .c32 0x007312BB#32, .sllw 5#5 6#5 7#5),
  (.x64, .c32 0x007352BB#32, .srlw 5#5 6#5 7#5),
  (.x64, .c32 0x407352BB#32, .sraw 5#5 6#5 7#5)] : List Row).all Row.ok = true := by decide

theorem test_decode_control : ([
  (.x64, .c32 0xFFDFF0EF#32, .jal 1#5 0x1FFFFC#21),
  (.x64, .c32 0xFFF280E7#32, .jalr 1#5 5#5 0xFFF#12),
  (.x64, .c32 0x7E000FE3#32, .beq 0#5 0#5 0xFFE#13),
  (.x64, .c32 0xFE731CE3#32, .bne 6#5 7#5 0x1FF8#13),
  (.x64, .c32 0x00734863#32, .blt 6#5 7#5 0x10#13),
  (.x64, .c32 0x00735863#32, .bge 6#5 7#5 0x10#13),
  (.x64, .c32 0x00736863#32, .bltu 6#5 7#5 0x10#13),
  (.x64, .c32 0xFE737CE3#32, .bgeu 6#5 7#5 0x1FF8#13)] : List Row).all Row.ok = true := by decide

theorem test_decode_load_store : ([
  (.x64, .c32 0xFFF30283#32, .lb 5#5 6#5 0xFFF#12),
  (.x64, .c32 0x00331283#32, .lh 5#5 6#5 0x3#12),
  (.x64, .c32 0xFFC32283#32, .lw 5#5 6#5 0xFFC#12),
  (.x64, .c32 0x00834283#32, .lbu 5#5 6#5 0x8#12),
  (.x64, .c32 0x00835283#32, .lhu 5#5 6#5 0x8#12),
  (.x64, .c32 0x00836283#32, .lwu 5#5 6#5 0x8#12),
  (.x64, .c32 0x00833283#32, .ld 5#5 6#5 0x8#12),
  (.x64, .c32 0x00730423#32, .sb 6#5 7#5 0x8#12),
  (.x64, .c32 0x007313A3#32, .sh 6#5 7#5 0x7#12),
  (.x64, .c32 0xFE732E23#32, .sw 6#5 7#5 0xFFC#12),
  (.x64, .c32 0x007331A3#32, .sd 6#5 7#5 0x3#12),
  (.x64, .c32 0x0FF0000F#32, .fence 0#4 0xF#4 0xF#4 0#5 0#5),
  (.x64, .c32 0x0000100F#32, .fenceI 0#12 0#5 0#5)] : List Row).all Row.ok = true := by decide

theorem test_decode_muldiv : ([
  (.x64, .c32 0x027302B3#32, .mul 5#5 6#5 7#5),
  (.x64, .c32 0x027312B3#32, .mulh 5#5 6#5 7#5),
  (.x64, .c32 0x027322B3#32, .mulhsu 5#5 6#5 7#5),
  (.x64, .c32 0x027332B3#32, .mulhu 5#5 6#5 7#5),
  (.x64, .c32 0x027302BB#32, .mulw 5#5 6#5 7#5),
  (.x64, .c32 0x027342B3#32, .div 5#5 6#5 7#5),
  (.x64, .c32 0x027352B3#32, .divu 5#5 6#5 7#5),
  (.x64, .c32 0x027362B3#32, .rem 5#5 6#5 7#5),
  (.x64, .c32 0x027372B3#32, .remu 5#5 6#5 7#5),
  (.x64, .c32 0x027342BB#32, .divw 5#5 6#5 7#5),
  (.x64, .c32 0x027352BB#32, .divuw 5#5 6#5 7#5),
  (.x64, .c32 0x027362BB#32, .remw 5#5 6#5 7#5),
  (.x64, .c32 0x027372BB#32, .remuw 5#5 6#5 7#5)] : List Row).all Row.ok = true := by decide

theorem test_decode_atomic_word : ([
  (.x64, .c32 0x100322AF#32, .lrW 5#5 6#5 false false),
  (.x64, .c32 0x160332AF#32, .lrD 5#5 6#5 true true),
  (.x64, .c32 0x187322AF#32, .scW 5#5 6#5 7#5 false false),
  (.x64, .c32 0x187332AF#32, .scD 5#5 6#5 7#5 false false),
  (.x64, .c32 0x087322AF#32, .amoswapW 5#5 6#5 7#5 false false),
  (.x64, .c32 0x067322AF#32, .amoaddW 5#5 6#5 7#5 true true),
  (.x64, .c32 0x207322AF#32, .amoxorW 5#5 6#5 7#5 false false),
  (.x64, .c32 0x607322AF#32, .amoandW 5#5 6#5 7#5 false false),
  (.x64, .c32 0x407322AF#32, .amoorW 5#5 6#5 7#5 false false),
  (.x64, .c32 0x807322AF#32, .amominW 5#5 6#5 7#5 false false),
  (.x64, .c32 0xA07322AF#32, .amomaxW 5#5 6#5 7#5 false false),
  (.x64, .c32 0xC07322AF#32, .amominuW 5#5 6#5 7#5 false false),
  (.x64, .c32 0xE07322AF#32, .amomaxuW 5#5 6#5 7#5 false false)] : List Row).all Row.ok = true := by decide

theorem test_decode_atomic_double : ([
  (.x64, .c32 0x087332AF#32, .amoswapD 5#5 6#5 7#5 false false),
  (.x64, .c32 0x007332AF#32, .amoaddD 5#5 6#5 7#5 false false),
  (.x64, .c32 0x207332AF#32, .amoxorD 5#5 6#5 7#5 false false),
  (.x64, .c32 0x607332AF#32, .amoandD 5#5 6#5 7#5 false false),
  (.x64, .c32 0x407332AF#32, .amoorD 5#5 6#5 7#5 false false),
  (.x64, .c32 0x807332AF#32, .amominD 5#5 6#5 7#5 false false),
  (.x64, .c32 0xA07332AF#32, .amomaxD 5#5 6#5 7#5 false false),
  (.x64, .c32 0xC07332AF#32, .amominuD 5#5 6#5 7#5 false false),
  (.x64, .c32 0xE07332AF#32, .amomaxuD 5#5 6#5 7#5 false false)] : List Row).all Row.ok = true := by decide

theorem test_decode_csr : ([
  (.x64, .c32 0xF1431073#32, .csrrw 0#5 0xF14#12 6#5),
  (.x64, .c32 0xF14322F3#32, .csrrs 5#5 0xF14#12 6#5),
  (.x64, .c32 0x340332F3#32, .csrrc 5#5 0x340#12 6#5),
  (.x64, .c32 0x340FD2F3#32, .csrrwi 5#5 0x340#12 0x1F#5),
  (.x64, .c32 0x340862F3#32, .csrrsi 5#5 0x340#12 0x10#5),
  (.x64, .c32 0x3400F2F3#32, .csrrci 5#5 0x340#12 0x1#5)] : List Row).all Row.ok = true := by decide

theorem test_decode_system : ([
  (.x64, .c32 0x00000073#32, .ecall),
  (.x64, .c32 0x00100073#32, .ebreak),
  (.x64, .c32 0x30200073#32, .mret),
  (.x64, .c32 0x10200073#32, .sret),
  (.x64, .c32 0x10500073#32, .wfi),
  (.x64, .c32 0x12730073#32, .sfenceVma 6#5 7#5)] : List Row).all Row.ok = true := by decide

theorem test_decode_compressed_q0 : ([
  (.x64, .c16 0x1FFC#16, .cAddi4spn 7#3 0x3FC#10),
  (.x64, .c16 0x5DE8#16, .cLw 2#3 3#3 0x7C#7),
  (.x64, .c16 0x7DE8#16, .cLd 2#3 3#3 0xF8#8),
  (.x64, .c16 0xC044#16, .cSw 0#3 1#3 0x4#7),
  (.x64, .c16 0xE404#16, .cSd 0#3 1#3 0x8#8)] : List Row).all Row.ok = true := by decide

theorem test_decode_compressed_q1 : ([
  (.x64, .c16 0x0001#16, .cNop 0#6),
  (.x64, .c16 0x157D#16, .cAddi 10#5 0x3F#6),
  (.x32, .c16 0x3FFD#16, .cJal 0xFFE#12),
  (.x64, .c16 0x2505#16, .cAddiw 10#5 0x1#6),
  (.x64, .c16 0x557D#16, .cLi 10#5 0x3F#6),
  (.x64, .c16 0x717D#16, .cAddi16sp 0x3F0#10),
  (.x64, .c16 0x757D#16, .cLui 10#5 0x3F#6),
  (.x64, .c16 0x907D#16, .cSrli 0#3 0x3F#6),
  (.x64, .c16 0x947D#16, .cSrai 0#3 0x3F#6),
  (.x64, .c16 0x987D#16, .cAndi 0#3 0x3F#6),
  (.x64, .c16 0x8C05#16, .cSub 0#3 1#3),
  (.x64, .c16 0x8C25#16, .cXor 0#3 1#3),
  (.x64, .c16 0x8C45#16, .cOr 0#3 1#3),
  (.x64, .c16 0x8C65#16, .cAnd 0#3 1#3),
  (.x64, .c16 0x9C05#16, .cSubw 0#3 1#3),
  (.x64, .c16 0x9C25#16, .cAddw 0#3 1#3),
  (.x64, .c16 0xBFFD#16, .cJ 0xFFE#12),
  (.x64, .c16 0xDC7D#16, .cBeqz 0#3 0x1FE#9),
  (.x64, .c16 0xEC7D#16, .cBnez 0#3 0xFE#9)] : List Row).all Row.ok = true := by decide

theorem test_decode_compressed_q2 : ([
  (.x64, .c16 0x157E#16, .cSlli 10#5 0x3F#6),
  (.x64, .c16 0x557E#16, .cLwsp 10#5 0xFC#8),
  (.x64, .c16 0x757E#16, .cLdsp 10#5 0x1F8#9),
  (.x64, .c16 0x8082#16, .cJr 1#5),
  (.x64, .c16 0x852E#16, .cMv 10#5 11#5),
  (.x64, .c16 0x9002#16, .cEbreak),
  (.x64, .c16 0x9282#16, .cJalr 5#5),
  (.x64, .c16 0x952E#16, .cAdd 10#5 11#5),
  (.x64, .c16 0xDFAA#16, .cSwsp 10#5 0xFC#8),
  (.x64, .c16 0xFFAA#16, .cSdsp 10#5 0x1F8#9)] : List Row).all Row.ok = true := by decide
/-- Words that are no instruction, with the reason (30_encoding R222, R224 to R228; 47_system R438). -/
theorem test_decode_rejects : ([
  (.x64, .c16 0x0000#16, .reserved), (.x64, .c32 0xFFFFFFFF#32, .unrecognised), (.x32, .c32 0x02031293#32, .reserved),
  (.x32, .c32 0x00836283#32, .wrongXlen), (.x64, .c16 0x2005#16, .reserved), (.x64, .c16 0x2000#16, .floatingPoint),
  (.x64, .c32 0x0000000B#32, .custom), (.x64, .c32 0x00200073#32, .unrecognised), (.x64, .c32 0x120000F3#32, .unrecognised),
  (.x64, .c32 0x00004073#32, .unrecognised)]
    : List (Xlen × Encoded × Reject)).all (fun r => decide (decode r.1 r.2.1 = .error r.2.2)) = true := by decide

/-- The bytes of a program, one instruction after another (30_encoding R200). -/
theorem test_decode_bytes : decodeBytes .x64 [0x7D#8, 0x15#8, 0x93#8, 0x00#8, 0xF0#8, 0xFF#8] =
    .ok (.cAddi 10#5 0x3F#6, [0x93#8, 0x00#8, 0xF0#8, 0xFF#8]) := by decide

/-! ### Terms that no word encodes: one for each check of `Instr.wf` -/

theorem test_ill_formed : ([
  (.x32, .slli 1#5 1#5 32#6), (.x32, .srli 1#5 1#5 32#6), (.x32, .srai 1#5 1#5 63#6), (.x32, .cSrli 1#3 32#6),
  (.x32, .cSrai 1#3 32#6), (.x32, .cSlli 1#5 32#6), (.x32, .addiw 1#5 1#5 1#12), (.x32, .slliw 1#5 1#5 1#5),
  (.x32, .srliw 1#5 1#5 1#5), (.x32, .sraiw 1#5 1#5 1#5), (.x32, .addw 1#5 1#5 1#5), (.x32, .subw 1#5 1#5 1#5),
  (.x32, .sllw 1#5 1#5 1#5), (.x32, .srlw 1#5 1#5 1#5), (.x32, .sraw 1#5 1#5 1#5), (.x32, .lwu 1#5 1#5 0#12),
  (.x32, .ld 1#5 1#5 0#12), (.x32, .sd 1#5 1#5 0#12), (.x32, .mulw 1#5 1#5 1#5), (.x32, .divw 1#5 1#5 1#5),
  (.x32, .divuw 1#5 1#5 1#5), (.x32, .remw 1#5 1#5 1#5), (.x32, .remuw 1#5 1#5 1#5)]
    : List (Xlen × Instr)).all (fun r => !r.2.wf r.1) = true := by decide

theorem test_ill_formed_atomic : ([
  .lrD 1#5 1#5 false false, .scD 1#5 1#5 1#5 false false, .amoswapD 1#5 1#5 1#5 false false,
  .amoaddD 1#5 1#5 1#5 false false, .amoxorD 1#5 1#5 1#5 false false, .amoandD 1#5 1#5 1#5 false false,
  .amoorD 1#5 1#5 1#5 false false, .amominD 1#5 1#5 1#5 false false, .amomaxD 1#5 1#5 1#5 false false,
  .amominuD 1#5 1#5 1#5 false false, .amomaxuD 1#5 1#5 1#5 false false] : List Instr).all (fun i => !i.wf .x32) = true := by
  decide

theorem test_ill_formed_offsets : ([
  .jal 1#5 1#21, .beq 1#5 1#5 1#13, .bne 1#5 1#5 3#13, .blt 1#5 1#5 1#13, .bge 1#5 1#5 1#13, .bltu 1#5 1#5 1#13,
  .bgeu 1#5 1#5 1#13, .cJ 1#12, .cBeqz 1#3 1#9, .cBnez 1#3 1#9] : List Instr).all (fun i => !i.wf .x64) = true := by decide

theorem test_ill_formed_compressed : ([
  (.x64, .cAddi4spn 1#3 0#10), (.x64, .cAddi4spn 1#3 2#10), (.x64, .cLw 1#3 1#3 2#7), (.x64, .cLd 1#3 1#3 4#8),
  (.x32, .cLd 1#3 1#3 8#8), (.x64, .cSw 1#3 1#3 1#7), (.x64, .cSd 1#3 1#3 4#8), (.x32, .cSd 1#3 1#3 8#8),
  (.x64, .cAddi 0#5 1#6), (.x64, .cJal 2#12), (.x32, .cJal 1#12), (.x32, .cAddiw 1#5 1#6), (.x64, .cAddiw 0#5 1#6),
  (.x64, .cAddi16sp 0#10), (.x64, .cAddi16sp 8#10), (.x64, .cLui 2#5 1#6), (.x64, .cLui 1#5 0#6), (.x32, .cSubw 1#3 1#3),
  (.x32, .cAddw 1#3 1#3)] : List (Xlen × Instr)).all (fun r => !r.2.wf r.1) = true := by decide

theorem test_ill_formed_compressed_q2 : ([
  (.x64, .cLwsp 0#5 4#8), (.x64, .cLwsp 1#5 2#8), (.x64, .cLdsp 0#5 8#9), (.x64, .cLdsp 1#5 4#9), (.x32, .cLdsp 1#5 8#9),
  (.x64, .cJr 0#5), (.x64, .cMv 1#5 0#5), (.x64, .cJalr 0#5), (.x64, .cAdd 1#5 0#5), (.x64, .cSwsp 1#5 2#8),
  (.x64, .cSdsp 1#5 4#9), (.x32, .cSdsp 1#5 8#9)] : List (Xlen × Instr)).all (fun r => !r.2.wf r.1) = true := by decide

/-! ### One step of every instruction (96_test_vectors_instructions; the machine of 95_test_vectors) -/

/-- A machine that leaves reset at XLEN `x`. -/
def machine (x : Xlen) : Params := { Params.default with rv64 := x.is64 }

/-- The state after reset with some registers set and eight bytes of memory at `addr`. -/
def start (x : Xlen) (regs : List (Nat × Nat)) (addr mem : Nat) : State :=
  let s := State.resetOf (machine x)
  let t := regs.foldl (fun s p => s.setX (BitVec.ofNat 5 p.1) (BitVec.ofNat s.xw p.2)) s
  { t with mem := Memory.store [] addr 8 mem }

/-- The state an encoded instruction leaves. -/
def after (e : Encoded) (s : State) : Option State :=
  match decode s.xlen e with
  | .ok i =>
    match exec i s with
    | .next t => some t
    | _       => none
  | .error _ => none

/-- A row of 96: the word, the registers and the eight bytes at `addr` before; the registers that change, the pc and the
sixteen bytes at `addr` after. -/
structure Case where
  xlen : Xlen
  e    : Encoded
  regs : List (Nat × Nat)
  addr : Nat
  mem  : Nat
  regs' : List (Nat × Nat)
  pc'  : Nat
  mem' : Nat

/-- The row holds, and no other of the registers looked at changes. -/
def Case.ok (c : Case) : Bool :=
  match after c.e (start c.xlen c.regs c.addr c.mem) with
  | some t =>
    decide (t.pc.toNat = c.pc') && decide (t.mem.load c.addr 16 = c.mem')
    && ([0, 1, 2, 5, 6, 7, 8, 9, 10] ++ (c.regs' ++ c.regs).map Prod.fst).all fun i =>
      decide ((t.x t.xw (BitVec.ofNat 5 i)).toNat = ((c.regs' ++ c.regs).lookup i).getD 0)
  | none => false

theorem test_alu_immediate_1 : ([
  ⟨.x32, .c32 0x800002B7#32, [], 0x80001000, 0x0, [(5, 0x80000000)], 0x80000004, 0x0⟩,
  ⟨.x64, .c32 0x00001297#32, [], 0x80001000, 0x0, [(5, 0x80001000)], 0x80000004, 0x0⟩,
  ⟨.x32, .c32 0x80000297#32, [], 0x80001000, 0x0, [(5, 0x0)], 0x80000004, 0x0⟩,
  ⟨.x32, .c32 0xFFF00293#32, [], 0x80001000, 0x0, [(5, 0xFFFFFFFF)], 0x80000004, 0x0⟩,
  ⟨.x64, .c32 0xFFF32293#32, [(6, 0xFFFFFFFFFFFFFFFE)], 0x80001000, 0x0, [(5, 0x1)], 0x80000004, 0x0⟩,
  ⟨.x64, .c32 0x00032293#32, [(6, 0x8000000000000000)], 0x80001000, 0x0, [(5, 0x1)], 0x80000004, 0x0⟩,
  ⟨.x64, .c32 0xFFF33293#32, [(6, 0x5)], 0x80001000, 0x0, [(5, 0x1)], 0x80000004, 0x0⟩,
  ⟨.x64, .c32 0x00133293#32, [(6, 0x1)], 0x80001000, 0x0, [(5, 0x0)], 0x80000004, 0x0⟩,
  ⟨.x64, .c32 0xFFF34293#32, [(6, 0xFF00FF00FF00FF)], 0x80001000, 0x0, [(5, 0xFF00FF00FF00FF00)], 0x80000004, 0x0⟩] : List Case).all Case.ok = true := by decide

theorem test_alu_immediate_2 : ([
  ⟨.x64, .c32 0x80036293#32, [(6, 0x7FF)], 0x80001000, 0x0, [(5, 0xFFFFFFFFFFFFFFFF)], 0x80000004, 0x0⟩,
  ⟨.x64, .c32 0xFF037293#32, [(6, 0x123456789ABCDEFF)], 0x80001000, 0x0, [(5, 0x123456789ABCDEF0)], 0x80000004, 0x0⟩,
  ⟨.x32, .c32 0x0FF37293#32, [(6, 0xDEADBEEF)], 0x80001000, 0x0, [(5, 0xEF)], 0x80000004, 0x0⟩,
  ⟨.x32, .c32 0x01F31293#32, [(6, 0x3)], 0x80001000, 0x0, [(5, 0x80000000)], 0x80000004, 0x0⟩,
  ⟨.x64, .c32 0x03F35293#32, [(6, 0x8000000000000000)], 0x80001000, 0x0, [(5, 0x1)], 0x80000004, 0x0⟩,
  ⟨.x64, .c32 0x00035293#32, [(6, 0xABCD)], 0x80001000, 0x0, [(5, 0xABCD)], 0x80000004, 0x0⟩,
  ⟨.x32, .c32 0x41F35293#32, [(6, 0x80000000)], 0x80001000, 0x0, [(5, 0xFFFFFFFF)], 0x80000004, 0x0⟩,
  ⟨.x64, .c32 0x40435293#32, [(6, 0x7FFFFFFFFFFFFF00)], 0x80001000, 0x0, [(5, 0x7FFFFFFFFFFFFF0)], 0x80000004, 0x0⟩] : List Case).all Case.ok = true := by decide

theorem test_alu_register_1 : ([
  ⟨.x32, .c32 0x007302B3#32, [(6, 0xFFFFFFFF), (7, 0x2)], 0x80001000, 0x0, [(5, 0x1)], 0x80000004, 0x0⟩,
  ⟨.x64, .c32 0x007302B3#32, [(6, 0xFFFFFFFFFFFFFFFF), (7, 0x1)], 0x80001000, 0x0, [(5, 0x0)], 0x80000004, 0x0⟩,
  ⟨.x64, .c32 0x407302B3#32, [(6, 0x8000000000000000), (7, 0x1)], 0x80001000, 0x0, [(5, 0x7FFFFFFFFFFFFFFF)], 0x80000004, 0x0⟩,
  ⟨.x64, .c32 0x007312B3#32, [(6, 0x1), (7, 0x41)], 0x80001000, 0x0, [(5, 0x2)], 0x80000004, 0x0⟩,
  ⟨.x64, .c32 0x007312B3#32, [(6, 0x1), (7, 0xFFFFFFFFFFFFFFC0)], 0x80001000, 0x0, [(5, 0x1)], 0x80000004, 0x0⟩,
  ⟨.x64, .c32 0x007322B3#32, [(6, 0xFFFFFFFFFFFFFFFF), (7, 0x1)], 0x80001000, 0x0, [(5, 0x1)], 0x80000004, 0x0⟩,
  ⟨.x64, .c32 0x007322B3#32, [(6, 0x8000000000000000), (7, 0x7FFFFFFFFFFFFFFF)], 0x80001000, 0x0, [(5, 0x1)], 0x80000004, 0x0⟩,
  ⟨.x64, .c32 0x007332B3#32, [(6, 0xFFFFFFFFFFFFFFFF), (7, 0x1)], 0x80001000, 0x0, [(5, 0x0)], 0x80000004, 0x0⟩,
  ⟨.x64, .c32 0x007032B3#32, [(7, 0x0)], 0x80001000, 0x0, [(5, 0x0)], 0x80000004, 0x0⟩] : List Case).all Case.ok = true := by decide

theorem test_alu_register_2 : ([
  ⟨.x64, .c32 0x007342B3#32, [(6, 0xFF00FF00), (7, 0xFF00FF0)], 0x80001000, 0x0, [(5, 0xF0F0F0F0)], 0x80000004, 0x0⟩,
  ⟨.x64, .c32 0x007352B3#32, [(6, 0x8000000000000000), (7, 0x3F)], 0x80001000, 0x0, [(5, 0x1)], 0x80000004, 0x0⟩,
  ⟨.x64, .c32 0x407352B3#32, [(6, 0x8000000000000000), (7, 0x3F)], 0x80001000, 0x0, [(5, 0xFFFFFFFFFFFFFFFF)], 0x80000004, 0x0⟩,
  ⟨.x64, .c32 0x407352B3#32, [(6, 0x8000000000000000), (7, 0x7F)], 0x80001000, 0x0, [(5, 0xFFFFFFFFFFFFFFFF)], 0x80000004, 0x0⟩,
  ⟨.x64, .c32 0x007362B3#32, [(6, 0xFF00FF00), (7, 0xFF00FF0)], 0x80001000, 0x0, [(5, 0xFFF0FFF0)], 0x80000004, 0x0⟩,
  ⟨.x64, .c32 0x007372B3#32, [(6, 0xFF00FF00), (7, 0xFF00FF0)], 0x80001000, 0x0, [(5, 0xF000F00)], 0x80000004, 0x0⟩] : List Case).all Case.ok = true := by decide

theorem test_word_1 : ([
  ⟨.x64, .c32 0x0013029B#32, [(6, 0x7FFFFFFF)], 0x80001000, 0x0, [(5, 0xFFFFFFFF80000000)], 0x80000004, 0x0⟩,
  ⟨.x64, .c32 0xFFF3029B#32, [(6, 0x0)], 0x80001000, 0x0, [(5, 0xFFFFFFFFFFFFFFFF)], 0x80000004, 0x0⟩,
  ⟨.x64, .c32 0x01F3129B#32, [(6, 0x1)], 0x80001000, 0x0, [(5, 0xFFFFFFFF80000000)], 0x80000004, 0x0⟩,
  ⟨.x64, .c32 0x0043129B#32, [(6, 0xFFFFFFFF12345678)], 0x80001000, 0x0, [(5, 0x23456780)], 0x80000004, 0x0⟩,
  ⟨.x64, .c32 0x0003529B#32, [(6, 0x80000000)], 0x80001000, 0x0, [(5, 0xFFFFFFFF80000000)], 0x80000004, 0x0⟩,
  ⟨.x64, .c32 0x01F3529B#32, [(6, 0xFFFFFFFF80000000)], 0x80001000, 0x0, [(5, 0x1)], 0x80000004, 0x0⟩,
  ⟨.x64, .c32 0x41F3529B#32, [(6, 0x80000000)], 0x80001000, 0x0, [(5, 0xFFFFFFFFFFFFFFFF)], 0x80000004, 0x0⟩,
  ⟨.x64, .c32 0x4043529B#32, [(6, 0xAAAAAAAA7FFFFFF0)], 0x80001000, 0x0, [(5, 0x7FFFFFF)], 0x80000004, 0x0⟩,
  ⟨.x64, .c32 0x007302BB#32, [(6, 0x7FFFFFFF), (7, 0x1)], 0x80001000, 0x0, [(5, 0xFFFFFFFF80000000)], 0x80000004, 0x0⟩] : List Case).all Case.ok = true := by decide

theorem test_word_2 : ([
  ⟨.x64, .c32 0x007302BB#32, [(6, 0xFFFFFFFF), (7, 0x1)], 0x80001000, 0x0, [(5, 0x0)], 0x80000004, 0x0⟩,
  ⟨.x64, .c32 0x407302BB#32, [(6, 0x0), (7, 0x1)], 0x80001000, 0x0, [(5, 0xFFFFFFFFFFFFFFFF)], 0x80000004, 0x0⟩,
  ⟨.x64, .c32 0x407302BB#32, [(6, 0x80000000), (7, 0x1)], 0x80001000, 0x0, [(5, 0x7FFFFFFF)], 0x80000004, 0x0⟩,
  ⟨.x64, .c32 0x007312BB#32, [(6, 0x1), (7, 0x3F)], 0x80001000, 0x0, [(5, 0xFFFFFFFF80000000)], 0x80000004, 0x0⟩,
  ⟨.x64, .c32 0x007312BB#32, [(6, 0x1), (7, 0x20)], 0x80001000, 0x0, [(5, 0x1)], 0x80000004, 0x0⟩,
  ⟨.x64, .c32 0x007352BB#32, [(6, 0xFFFFFFFF80000000), (7, 0x4)], 0x80001000, 0x0, [(5, 0x8000000)], 0x80000004, 0x0⟩,
  ⟨.x64, .c32 0x007352BB#32, [(6, 0x80000000), (7, 0x20)], 0x80001000, 0x0, [(5, 0xFFFFFFFF80000000)], 0x80000004, 0x0⟩,
  ⟨.x64, .c32 0x407352BB#32, [(6, 0x80000000), (7, 0x4)], 0x80001000, 0x0, [(5, 0xFFFFFFFFF8000000)], 0x80000004, 0x0⟩,
  ⟨.x64, .c32 0x407352BB#32, [(6, 0x180000000), (7, 0x24)], 0x80001000, 0x0, [(5, 0xFFFFFFFFF8000000)], 0x80000004, 0x0⟩] : List Case).all Case.ok = true := by decide

theorem test_jumps : ([
  ⟨.x64, .c32 0x008000EF#32, [], 0x80001000, 0x0, [(1, 0x80000004)], 0x80000008, 0x0⟩,
  ⟨.x64, .c32 0x800000EF#32, [], 0x80001000, 0x0, [(1, 0x80000004)], 0x7FF00000, 0x0⟩,
  ⟨.x64, .c32 0x000300E7#32, [(6, 0x80000101)], 0x80001000, 0x0, [(1, 0x80000004)], 0x80000100, 0x0⟩,
  ⟨.x32, .c32 0x000300E7#32, [(6, 0xFFFFFFFF)], 0x80001000, 0x0, [(1, 0x80000004)], 0xFFFFFFFE, 0x0⟩] : List Case).all Case.ok = true := by decide

theorem test_branches_1 : ([
  ⟨.x64, .c32 0x00730863#32, [(6, 0x5), (7, 0x5)], 0x80001000, 0x0, [], 0x80000010, 0x0⟩,
  ⟨.x64, .c32 0x00000163#32, [], 0x80001000, 0x0, [], 0x80000002, 0x0⟩,
  ⟨.x64, .c32 0xFE731CE3#32, [(6, 0x5), (7, 0x6)], 0x80001000, 0x0, [], 0x7FFFFFF8, 0x0⟩,
  ⟨.x64, .c32 0xFE631CE3#32, [(6, 0x5)], 0x80001000, 0x0, [], 0x80000004, 0x0⟩,
  ⟨.x64, .c32 0x00734863#32, [(6, 0xFFFFFFFFFFFFFFFF), (7, 0x1)], 0x80001000, 0x0, [], 0x80000010, 0x0⟩,
  ⟨.x32, .c32 0x00734863#32, [(6, 0x80000000), (7, 0x0)], 0x80001000, 0x0, [], 0x80000010, 0x0⟩,
  ⟨.x64, .c32 0x00735863#32, [(6, 0xFFFFFFFFFFFFFFFF), (7, 0x1)], 0x80001000, 0x0, [], 0x80000004, 0x0⟩,
  ⟨.x64, .c32 0x00735863#32, [(6, 0x7), (7, 0x7)], 0x80001000, 0x0, [], 0x80000010, 0x0⟩,
  ⟨.x64, .c32 0x00736863#32, [(6, 0xFFFFFFFFFFFFFFFF), (7, 0x1)], 0x80001000, 0x0, [], 0x80000004, 0x0⟩] : List Case).all Case.ok = true := by decide

theorem test_branches_2 : ([
  ⟨.x64, .c32 0x00737863#32, [(6, 0xFFFFFFFFFFFFFFFF), (7, 0x1)], 0x80001000, 0x0, [], 0x80000010, 0x0⟩,
  ⟨.x64, .c32 0x00737863#32, [(6, 0x7), (7, 0x7)], 0x80001000, 0x0, [], 0x80000010, 0x0⟩] : List Case).all Case.ok = true := by decide

theorem test_loads_1 : ([
  ⟨.x64, .c32 0x00030283#32, [(6, 0x80001000)], 0x80001000, 0x89ABCDEF007FFF80, [(5, 0xFFFFFFFFFFFFFF80)], 0x80000004, 0x89ABCDEF007FFF80⟩,
  ⟨.x64, .c32 0x00230283#32, [(6, 0x80001000)], 0x80001000, 0x89ABCDEF007FFF80, [(5, 0x7F)], 0x80000004, 0x89ABCDEF007FFF80⟩,
  ⟨.x64, .c32 0x00031283#32, [(6, 0x80001000)], 0x80001000, 0x89ABCDEF007FFF80, [(5, 0xFFFFFFFFFFFFFF80)], 0x80000004, 0x89ABCDEF007FFF80⟩,
  ⟨.x64, .c32 0x00331283#32, [(6, 0x80001000)], 0x80001000, 0x89ABCDEF007FFF80, [(5, 0xFFFFFFFFFFFFEF00)], 0x80000004, 0x89ABCDEF007FFF80⟩,
  ⟨.x32, .c32 0x00432283#32, [(6, 0x80001000)], 0x80001000, 0x89ABCDEF007FFF80, [(5, 0x89ABCDEF)], 0x80000004, 0x89ABCDEF007FFF80⟩,
  ⟨.x64, .c32 0x00432283#32, [(6, 0x80001000)], 0x80001000, 0x89ABCDEF007FFF80, [(5, 0xFFFFFFFF89ABCDEF)], 0x80000004, 0x89ABCDEF007FFF80⟩,
  ⟨.x64, .c32 0x00034283#32, [(6, 0x80001000)], 0x80001000, 0x89ABCDEF007FFF80, [(5, 0x80)], 0x80000004, 0x89ABCDEF007FFF80⟩,
  ⟨.x64, .c32 0x00035283#32, [(6, 0x80001000)], 0x80001000, 0x89ABCDEF007FFF80, [(5, 0xFF80)], 0x80000004, 0x89ABCDEF007FFF80⟩,
  ⟨.x64, .c32 0x00436283#32, [(6, 0x80001000)], 0x80001000, 0x89ABCDEF007FFF80, [(5, 0x89ABCDEF)], 0x80000004, 0x89ABCDEF007FFF80⟩] : List Case).all Case.ok = true := by decide

theorem test_loads_2 : ([
  ⟨.x64, .c32 0x00033283#32, [(6, 0x80001000)], 0x80001000, 0x89ABCDEF007FFF80, [(5, 0x89ABCDEF007FFF80)], 0x80000004, 0x89ABCDEF007FFF80⟩,
  ⟨.x64, .c32 0x00133283#32, [(6, 0x80001000)], 0x80001000, 0x89ABCDEF007FFF80, [(5, 0x89ABCDEF007FFF)], 0x80000004, 0x89ABCDEF007FFF80⟩] : List Case).all Case.ok = true := by decide

theorem test_stores : ([
  ⟨.x64, .c32 0x00730023#32, [(6, 0x80001000), (7, 0x1122334455667788)], 0x80001000, 0x0, [], 0x80000004, 0x88⟩,
  ⟨.x64, .c32 0x00731023#32, [(6, 0x80001000), (7, 0x1122334455667788)], 0x80001000, 0x0, [], 0x80000004, 0x7788⟩,
  ⟨.x64, .c32 0x007313A3#32, [(6, 0x80001000), (7, 0x1122334455667788)], 0x80001000, 0x0, [], 0x80000004, 0x778800000000000000⟩,
  ⟨.x64, .c32 0x00732023#32, [(6, 0x80001000), (7, 0x1122334455667788)], 0x80001000, 0x0, [], 0x80000004, 0x55667788⟩,
  ⟨.x32, .c32 0x00732023#32, [(6, 0x80001000), (7, 0xAABBCCDD)], 0x80001000, 0x0, [], 0x80000004, 0xAABBCCDD⟩,
  ⟨.x64, .c32 0x00733023#32, [(6, 0x80001000), (7, 0x1122334455667788)], 0x80001000, 0x0, [], 0x80000004, 0x1122334455667788⟩,
  ⟨.x64, .c32 0x007331A3#32, [(6, 0x80001000), (7, 0x1122334455667788)], 0x80001000, 0x0, [], 0x80000004, 0x1122334455667788000000⟩] : List Case).all Case.ok = true := by decide

theorem test_multiply_1 : ([
  ⟨.x64, .c32 0x027302B3#32, [(6, 0xFFFFFFFFFFFFFFFF), (7, 0xFFFFFFFFFFFFFFFF)], 0x80001000, 0x0, [(5, 0x1)], 0x80000004, 0x0⟩,
  ⟨.x64, .c32 0x027302B3#32, [(6, 0x7), (7, 0xFFFFFFFFFFFFFFFD)], 0x80001000, 0x0, [(5, 0xFFFFFFFFFFFFFFEB)], 0x80000004, 0x0⟩,
  ⟨.x64, .c32 0x027312B3#32, [(6, 0xFFFFFFFFFFFFFFFF), (7, 0xFFFFFFFFFFFFFFFF)], 0x80001000, 0x0, [(5, 0x0)], 0x80000004, 0x0⟩,
  ⟨.x32, .c32 0x027312B3#32, [(6, 0xFFFFFFFF), (7, 0xFFFFFFFF)], 0x80001000, 0x0, [(5, 0x0)], 0x80000004, 0x0⟩,
  ⟨.x64, .c32 0x027322B3#32, [(6, 0xFFFFFFFFFFFFFFFF), (7, 0xFFFFFFFFFFFFFFFF)], 0x80001000, 0x0, [(5, 0xFFFFFFFFFFFFFFFF)], 0x80000004, 0x0⟩,
  ⟨.x32, .c32 0x027322B3#32, [(6, 0x80000000), (7, 0xFFFFFFFF)], 0x80001000, 0x0, [(5, 0x80000000)], 0x80000004, 0x0⟩,
  ⟨.x64, .c32 0x027332B3#32, [(6, 0xFFFFFFFFFFFFFFFF), (7, 0xFFFFFFFFFFFFFFFF)], 0x80001000, 0x0, [(5, 0xFFFFFFFFFFFFFFFE)], 0x80000004, 0x0⟩,
  ⟨.x32, .c32 0x027332B3#32, [(6, 0xFFFFFFFF), (7, 0xFFFFFFFF)], 0x80001000, 0x0, [(5, 0xFFFFFFFE)], 0x80000004, 0x0⟩,
  ⟨.x64, .c32 0x027302BB#32, [(6, 0x10000), (7, 0x10000)], 0x80001000, 0x0, [(5, 0x0)], 0x80000004, 0x0⟩] : List Case).all Case.ok = true := by decide

theorem test_multiply_2 : ([
  ⟨.x64, .c32 0x027302BB#32, [(6, 0x12345678FFFFFFFF), (7, 0xABCDEF0100000002)], 0x80001000, 0x0, [(5, 0xFFFFFFFFFFFFFFFE)], 0x80000004, 0x0⟩] : List Case).all Case.ok = true := by decide

theorem test_divide : ([
  ⟨.x64, .c32 0x027342B3#32, [(6, 0x2A), (7, 0x0)], 0x80001000, 0x0, [(5, 0xFFFFFFFFFFFFFFFF)], 0x80000004, 0x0⟩,
  ⟨.x64, .c32 0x027342B3#32, [(6, 0x8000000000000000), (7, 0xFFFFFFFFFFFFFFFF)], 0x80001000, 0x0, [(5, 0x8000000000000000)], 0x80000004, 0x0⟩,
  ⟨.x64, .c32 0x027352B3#32, [(6, 0xFFFFFFFFFFFFFFF9), (7, 0x2)], 0x80001000, 0x0, [(5, 0x7FFFFFFFFFFFFFFC)], 0x80000004, 0x0⟩,
  ⟨.x64, .c32 0x027352B3#32, [(6, 0x8000000000000000), (7, 0xFFFFFFFFFFFFFFFF)], 0x80001000, 0x0, [(5, 0x0)], 0x80000004, 0x0⟩,
  ⟨.x64, .c32 0x027362B3#32, [(6, 0x2A), (7, 0x0)], 0x80001000, 0x0, [(5, 0x2A)], 0x80000004, 0x0⟩,
  ⟨.x64, .c32 0x027362B3#32, [(6, 0x8000000000000000), (7, 0xFFFFFFFFFFFFFFFF)], 0x80001000, 0x0, [(5, 0x0)], 0x80000004, 0x0⟩,
  ⟨.x64, .c32 0x027372B3#32, [(6, 0xFFFFFFFFFFFFFFF9), (7, 0x2)], 0x80001000, 0x0, [(5, 0x1)], 0x80000004, 0x0⟩,
  ⟨.x64, .c32 0x027372B3#32, [(6, 0x2A), (7, 0x0)], 0x80001000, 0x0, [(5, 0x2A)], 0x80000004, 0x0⟩] : List Case).all Case.ok = true := by decide

theorem test_divide_word : ([
  ⟨.x64, .c32 0x027352BB#32, [(6, 0x7), (7, 0x0)], 0x80001000, 0x0, [(5, 0xFFFFFFFFFFFFFFFF)], 0x80000004, 0x0⟩,
  ⟨.x64, .c32 0x027352BB#32, [(6, 0xFFFFFFFE), (7, 0xFFFFFFFF00000002)], 0x80001000, 0x0, [(5, 0x7FFFFFFF)], 0x80000004, 0x0⟩,
  ⟨.x64, .c32 0x027362BB#32, [(6, 0x80000007), (7, 0x0)], 0x80001000, 0x0, [(5, 0xFFFFFFFF80000007)], 0x80000004, 0x0⟩,
  ⟨.x64, .c32 0x027372BB#32, [(6, 0x80000007), (7, 0x0)], 0x80001000, 0x0, [(5, 0xFFFFFFFF80000007)], 0x80000004, 0x0⟩,
  ⟨.x64, .c32 0x027372BB#32, [(6, 0xFFFFFFFF), (7, 0x80000000)], 0x80001000, 0x0, [(5, 0x7FFFFFFF)], 0x80000004, 0x0⟩] : List Case).all Case.ok = true := by decide

theorem test_atomic_word_1 : ([
  ⟨.x64, .c32 0x100322AF#32, [(6, 0x80001000)], 0x80001000, 0xFFFFFFFF80000001, [(5, 0xFFFFFFFF80000001)], 0x80000004, 0xFFFFFFFF80000001⟩,
  ⟨.x64, .c32 0x100332AF#32, [(6, 0x80001000)], 0x80001000, 0xFFFFFFFF80000001, [(5, 0xFFFFFFFF80000001)], 0x80000004, 0xFFFFFFFF80000001⟩,
  ⟨.x64, .c32 0x187322AF#32, [(6, 0x80001000), (7, 0x1122334455667788)], 0x80001000, 0xFFFFFFFF80000001, [(5, 0x1)], 0x80000004, 0xFFFFFFFF80000001⟩,
  ⟨.x64, .c32 0x187322AF#32, [(6, 0x80001000), (7, 0x1122334455667788)], 0x80001000, 0xFFFFFFFF80000001, [(5, 0x1)], 0x80000004, 0xFFFFFFFF80000001⟩,
  ⟨.x64, .c32 0x087322AF#32, [(6, 0x80001000), (7, 0x1122334455667788)], 0x80001000, 0xFFFFFFFF80000001, [(5, 0xFFFFFFFF80000001)], 0x80000004, 0xFFFFFFFF55667788⟩,
  ⟨.x32, .c32 0x007322AF#32, [(6, 0x80001000), (7, 0x7FFFFFFF)], 0x80001000, 0x1, [(5, 0x1)], 0x80000004, 0x80000000⟩,
  ⟨.x64, .c32 0x007322AF#32, [(6, 0x80001000), (7, 0x1)], 0x80001000, 0xAAAAAAAAFFFFFFFF, [(5, 0xFFFFFFFFFFFFFFFF)], 0x80000004, 0xAAAAAAAA00000000⟩,
  ⟨.x64, .c32 0x207322AF#32, [(6, 0x80001000), (7, 0xFFFFFFFF)], 0x80001000, 0xF0F0F0F, [(5, 0xF0F0F0F)], 0x80000004, 0xF0F0F0F0⟩,
  ⟨.x64, .c32 0x607322AF#32, [(6, 0x80001000), (7, 0xFF00FF00)], 0x80001000, 0x12345678, [(5, 0x12345678)], 0x80000004, 0x12005600⟩] : List Case).all Case.ok = true := by decide

theorem test_atomic_word_2 : ([
  ⟨.x64, .c32 0x407322AF#32, [(6, 0x80001000), (7, 0xFF00FF00)], 0x80001000, 0x12345678, [(5, 0x12345678)], 0x80000004, 0xFF34FF78⟩,
  ⟨.x64, .c32 0x807322AF#32, [(6, 0x80001000), (7, 0x1)], 0x80001000, 0xFFFFFFFF, [(5, 0xFFFFFFFFFFFFFFFF)], 0x80000004, 0xFFFFFFFF⟩,
  ⟨.x64, .c32 0x807322AF#32, [(6, 0x80001000), (7, 0x180000000)], 0x80001000, 0x7FFFFFFF, [(5, 0x7FFFFFFF)], 0x80000004, 0x80000000⟩,
  ⟨.x64, .c32 0xA07322AF#32, [(6, 0x80001000), (7, 0x1)], 0x80001000, 0xFFFFFFFF, [(5, 0xFFFFFFFFFFFFFFFF)], 0x80000004, 0x1⟩,
  ⟨.x64, .c32 0xC07322AF#32, [(6, 0x80001000), (7, 0x1)], 0x80001000, 0xFFFFFFFF, [(5, 0xFFFFFFFFFFFFFFFF)], 0x80000004, 0x1⟩,
  ⟨.x64, .c32 0xE07322AF#32, [(6, 0x80001000), (7, 0x1)], 0x80001000, 0xFFFFFFFF, [(5, 0xFFFFFFFFFFFFFFFF)], 0x80000004, 0xFFFFFFFF⟩] : List Case).all Case.ok = true := by decide

theorem test_atomic_double : ([
  ⟨.x64, .c32 0x087332AF#32, [(6, 0x80001000), (7, 0x1122334455667788)], 0x80001000, 0xFFFFFFFF80000001, [(5, 0xFFFFFFFF80000001)], 0x80000004, 0x1122334455667788⟩,
  ⟨.x64, .c32 0x007332AF#32, [(6, 0x80001000), (7, 0x1)], 0x80001000, 0xFFFFFFFFFFFFFFFF, [(5, 0xFFFFFFFFFFFFFFFF)], 0x80000004, 0x0⟩,
  ⟨.x64, .c32 0x207332AF#32, [(6, 0x80001000), (7, 0xFFFFFFFFFFFFFFFF)], 0x80001000, 0xF0F0F0F0F0F0F0F, [(5, 0xF0F0F0F0F0F0F0F)], 0x80000004, 0xF0F0F0F0F0F0F0F0⟩,
  ⟨.x64, .c32 0x607332AF#32, [(6, 0x80001000), (7, 0xFF00FF00FF00FF00)], 0x80001000, 0x123456789ABCDEF0, [(5, 0x123456789ABCDEF0)], 0x80000004, 0x120056009A00DE00⟩,
  ⟨.x64, .c32 0x407332AF#32, [(6, 0x80001000), (7, 0xFF00FF00FF00FF00)], 0x80001000, 0x123456789ABCDEF0, [(5, 0x123456789ABCDEF0)], 0x80000004, 0xFF34FF78FFBCFFF0⟩,
  ⟨.x64, .c32 0x807332AF#32, [(6, 0x80001000), (7, 0x1)], 0x80001000, 0xFFFFFFFFFFFFFFFF, [(5, 0xFFFFFFFFFFFFFFFF)], 0x80000004, 0xFFFFFFFFFFFFFFFF⟩,
  ⟨.x64, .c32 0xA07332AF#32, [(6, 0x80001000), (7, 0x1)], 0x80001000, 0xFFFFFFFFFFFFFFFF, [(5, 0xFFFFFFFFFFFFFFFF)], 0x80000004, 0x1⟩,
  ⟨.x64, .c32 0xC07332AF#32, [(6, 0x80001000), (7, 0x1)], 0x80001000, 0xFFFFFFFFFFFFFFFF, [(5, 0xFFFFFFFFFFFFFFFF)], 0x80000004, 0x1⟩,
  ⟨.x64, .c32 0xE07332AF#32, [(6, 0x80001000), (7, 0x1)], 0x80001000, 0xFFFFFFFFFFFFFFFF, [(5, 0xFFFFFFFFFFFFFFFF)], 0x80000004, 0xFFFFFFFFFFFFFFFF⟩] : List Case).all Case.ok = true := by decide

theorem test_compressed_q0 : ([
  ⟨.x64, .c16 0x0040#16, [(2, 0x80002000)], 0x80001000, 0x0, [(8, 0x80002004)], 0x80000002, 0x0⟩,
  ⟨.x64, .c16 0x1FFC#16, [(2, 0x80002000)], 0x80001000, 0x0, [(15, 0x800023FC)], 0x80000002, 0x0⟩,
  ⟨.x64, .c16 0x4048#16, [(8, 0x80001000)], 0x80001004, 0x89ABCDEF, [(10, 0xFFFFFFFF89ABCDEF)], 0x80000002, 0x89ABCDEF⟩,
  ⟨.x64, .c16 0x5C68#16, [(8, 0x80001000)], 0x8000107C, 0x12345678, [(10, 0x12345678)], 0x80000002, 0x12345678⟩,
  ⟨.x64, .c16 0x6408#16, [(8, 0x80001000)], 0x80001008, 0x1122334455667788, [(10, 0x1122334455667788)], 0x80000002, 0x1122334455667788⟩,
  ⟨.x64, .c16 0x7C68#16, [(8, 0x80001000)], 0x800010F8, 0x8877665544332211, [(10, 0x8877665544332211)], 0x80000002, 0x8877665544332211⟩,
  ⟨.x64, .c16 0xC048#16, [(8, 0x80001000), (10, 0x1122334455667788)], 0x80001000, 0x0, [], 0x80000002, 0x5566778800000000⟩,
  ⟨.x64, .c16 0xE408#16, [(8, 0x80001000), (10, 0x1122334455667788)], 0x80001008, 0x0, [], 0x80000002, 0x1122334455667788⟩] : List Case).all Case.ok = true := by decide

theorem test_compressed_q1_1 : ([
  ⟨.x64, .c16 0x0001#16, [], 0x80001000, 0x0, [], 0x80000002, 0x0⟩,
  ⟨.x64, .c16 0x157D#16, [(10, 0x0)], 0x80001000, 0x0, [(10, 0xFFFFFFFFFFFFFFFF)], 0x80000002, 0x0⟩,
  ⟨.x64, .c16 0x0501#16, [(10, 0x5)], 0x80001000, 0x0, [(10, 0x5)], 0x80000002, 0x0⟩,
  ⟨.x32, .c16 0x2801#16, [], 0x80001000, 0x0, [(1, 0x80000002)], 0x80000010, 0x0⟩,
  ⟨.x32, .c16 0x3001#16, [], 0x80001000, 0x0, [(1, 0x80000002)], 0x7FFFF800, 0x0⟩,
  ⟨.x64, .c16 0x2505#16, [(10, 0x7FFFFFFF)], 0x80001000, 0x0, [(10, 0xFFFFFFFF80000000)], 0x80000002, 0x0⟩,
  ⟨.x64, .c16 0x2501#16, [(10, 0x180000000)], 0x80001000, 0x0, [(10, 0xFFFFFFFF80000000)], 0x80000002, 0x0⟩,
  ⟨.x64, .c16 0x5501#16, [], 0x80001000, 0x0, [(10, 0xFFFFFFFFFFFFFFE0)], 0x80000002, 0x0⟩,
  ⟨.x64, .c16 0x4015#16, [], 0x80001000, 0x0, [], 0x80000002, 0x0⟩] : List Case).all Case.ok = true := by decide

theorem test_compressed_q1_2 : ([
  ⟨.x64, .c16 0x7139#16, [(2, 0x80002000)], 0x80001000, 0x0, [(2, 0x80001FC0)], 0x80000002, 0x0⟩,
  ⟨.x64, .c16 0x7101#16, [(2, 0x80002000)], 0x80001000, 0x0, [(2, 0x80001E00)], 0x80000002, 0x0⟩,
  ⟨.x64, .c16 0x6505#16, [], 0x80001000, 0x0, [(10, 0x1000)], 0x80000002, 0x0⟩,
  ⟨.x64, .c16 0x657D#16, [], 0x80001000, 0x0, [(10, 0x1F000)], 0x80000002, 0x0⟩,
  ⟨.x64, .c16 0x8005#16, [(8, 0x8000000000000000)], 0x80001000, 0x0, [(8, 0x4000000000000000)], 0x80000002, 0x0⟩,
  ⟨.x64, .c16 0x907D#16, [(8, 0x8000000000000000)], 0x80001000, 0x0, [(8, 0x1)], 0x80000002, 0x0⟩,
  ⟨.x64, .c16 0x8405#16, [(8, 0x8000000000000000)], 0x80001000, 0x0, [(8, 0xC000000000000000)], 0x80000002, 0x0⟩,
  ⟨.x32, .c16 0x847D#16, [(8, 0x80000000)], 0x80001000, 0x0, [(8, 0xFFFFFFFF)], 0x80000002, 0x0⟩,
  ⟨.x64, .c16 0x9841#16, [(8, 0xFFFF)], 0x80001000, 0x0, [(8, 0xFFF0)], 0x80000002, 0x0⟩] : List Case).all Case.ok = true := by decide

theorem test_compressed_q1_3 : ([
  ⟨.x64, .c16 0x883D#16, [(8, 0xFFFF)], 0x80001000, 0x0, [(8, 0xF)], 0x80000002, 0x0⟩] : List Case).all Case.ok = true := by decide

theorem test_compressed_q1_register_1 : ([
  ⟨.x64, .c16 0x8C05#16, [(8, 0x0), (9, 0x1)], 0x80001000, 0x0, [(8, 0xFFFFFFFFFFFFFFFF)], 0x80000002, 0x0⟩,
  ⟨.x64, .c16 0x8C25#16, [(8, 0xFF00), (9, 0xFF0)], 0x80001000, 0x0, [(8, 0xF0F0)], 0x80000002, 0x0⟩,
  ⟨.x64, .c16 0x8C45#16, [(8, 0xFF00), (9, 0xFF0)], 0x80001000, 0x0, [(8, 0xFFF0)], 0x80000002, 0x0⟩,
  ⟨.x64, .c16 0x8C65#16, [(8, 0xFF00), (9, 0xFF0)], 0x80001000, 0x0, [(8, 0xF00)], 0x80000002, 0x0⟩,
  ⟨.x64, .c16 0x9C05#16, [(8, 0x80000000), (9, 0x1)], 0x80001000, 0x0, [(8, 0x7FFFFFFF)], 0x80000002, 0x0⟩,
  ⟨.x64, .c16 0x9C25#16, [(8, 0x7FFFFFFF), (9, 0x1)], 0x80001000, 0x0, [(8, 0xFFFFFFFF80000000)], 0x80000002, 0x0⟩,
  ⟨.x64, .c16 0xBFFD#16, [], 0x80001000, 0x0, [], 0x7FFFFFFE, 0x0⟩,
  ⟨.x64, .c16 0xB001#16, [], 0x80001000, 0x0, [], 0x7FFFF800, 0x0⟩,
  ⟨.x64, .c16 0xC401#16, [(8, 0x0)], 0x80001000, 0x0, [], 0x80000008, 0x0⟩] : List Case).all Case.ok = true := by decide

theorem test_compressed_q1_register_2 : ([
  ⟨.x64, .c16 0xC401#16, [(8, 0x1)], 0x80001000, 0x0, [], 0x80000002, 0x0⟩,
  ⟨.x64, .c16 0xF001#16, [(8, 0x1)], 0x80001000, 0x0, [], 0x7FFFFF00, 0x0⟩,
  ⟨.x64, .c16 0xEC7D#16, [(8, 0x0)], 0x80001000, 0x0, [], 0x80000002, 0x0⟩] : List Case).all Case.ok = true := by decide

theorem test_compressed_q2_1 : ([
  ⟨.x64, .c16 0x157E#16, [(10, 0x1)], 0x80001000, 0x0, [(10, 0x8000000000000000)], 0x80000002, 0x0⟩,
  ⟨.x64, .c16 0x0012#16, [], 0x80001000, 0x0, [], 0x80000002, 0x0⟩,
  ⟨.x64, .c16 0x4512#16, [(2, 0x80002000)], 0x80002004, 0x80000000, [(10, 0xFFFFFFFF80000000)], 0x80000002, 0x80000000⟩,
  ⟨.x64, .c16 0x557E#16, [(2, 0x80002000)], 0x800020FC, 0x7FFFFFFF, [(10, 0x7FFFFFFF)], 0x80000002, 0x7FFFFFFF⟩,
  ⟨.x64, .c16 0x6522#16, [(2, 0x80002000)], 0x80002008, 0x1122334455667788, [(10, 0x1122334455667788)], 0x80000002, 0x1122334455667788⟩,
  ⟨.x64, .c16 0x757E#16, [(2, 0x80002000)], 0x800021F8, 0x8877665544332211, [(10, 0x8877665544332211)], 0x80000002, 0x8877665544332211⟩,
  ⟨.x64, .c16 0x8082#16, [(1, 0x80000101)], 0x80001000, 0x0, [], 0x80000100, 0x0⟩,
  ⟨.x64, .c16 0x852E#16, [(11, 0x1234)], 0x80001000, 0x0, [(10, 0x1234)], 0x80000002, 0x0⟩,
  ⟨.x64, .c16 0x802E#16, [(11, 0x1234)], 0x80001000, 0x0, [], 0x80000002, 0x0⟩] : List Case).all Case.ok = true := by decide

theorem test_compressed_q2_2 : ([
  ⟨.x64, .c16 0x9282#16, [(5, 0x80000201)], 0x80001000, 0x0, [(1, 0x80000002)], 0x80000200, 0x0⟩,
  ⟨.x64, .c16 0x9082#16, [(1, 0x80000200)], 0x80001000, 0x0, [(1, 0x80000002)], 0x80000200, 0x0⟩,
  ⟨.x64, .c16 0x952E#16, [(10, 0xFFFFFFFFFFFFFFFF), (11, 0x2)], 0x80001000, 0x0, [(10, 0x1)], 0x80000002, 0x0⟩,
  ⟨.x64, .c16 0x902E#16, [(11, 0x2)], 0x80001000, 0x0, [], 0x80000002, 0x0⟩,
  ⟨.x64, .c16 0xC22A#16, [(2, 0x80002000), (10, 0x1122334455667788)], 0x80002000, 0x0, [], 0x80000002, 0x5566778800000000⟩,
  ⟨.x64, .c16 0xDFAA#16, [(2, 0x80002000), (10, 0xAABBCCDD)], 0x800020FC, 0x0, [], 0x80000002, 0xAABBCCDD⟩,
  ⟨.x64, .c16 0xE42A#16, [(2, 0x80002000), (10, 0x1122334455667788)], 0x80002008, 0x0, [], 0x80000002, 0x1122334455667788⟩,
  ⟨.x64, .c16 0xFFAA#16, [(2, 0x80002000), (10, 0x1122334455667788)], 0x800021F8, 0x0, [], 0x80000002, 0x1122334455667788⟩] : List Case).all Case.ok = true := by decide

/-- What of a state the system vectors of 96, section 7, show. -/
structure Seen where
  priv   : Priv
  pc     : Nat
  status : Nat
  mepc   : Nat
  mcause : Nat
  mtval  : Nat
  sepc   : Nat
  scause : Nat
deriving DecidableEq, Repr

/-- What `t` shows. -/
def seen (t : State) : Seen :=
  ⟨t.priv, t.pc.toNat, t.csr.status.toNat, t.csr.m.epc.toNat, t.csr.m.causeCode.toNat, t.csr.m.tval.toNat,
    t.csr.s.epc.toNat, t.csr.s.causeCode.toNat⟩

/-- The state of section 7: mode, status, delegation, `mepc` and `sepc`, with `mtvec` 0x80000100 and `stvec` 0x80000200. -/
def sys (p : Priv) (status : Word) (medeleg : BitVec 16) (mepc sepc : Word) : State :=
  let s := State.resetOf (machine .x64)
  { s with
    priv := p
    csr := { s.csr with
      status := status, medeleg := medeleg
      m := { s.csr.m with tvec := 0x80000100#64, epc := mepc }
      s := { s.csr.s with tvec := 0x80000200#64, epc := sepc } } }

/-- A row of section 7. -/
def sysOk (r : Nat × State × Seen) : Bool :=
  decide ((after (.c32 (BitVec.ofNat 32 r.1)) r.2.1).map seen = some r.2.2)

theorem test_ecall_ebreak : ([
  (0x00000073, sys .U 0xA0000000A#64 0x100#16 0#64 0#64, ⟨.S, 0x80000200, 0xA00000028, 0, 0, 0, 0x80000000, 8⟩),
  (0x00000073, sys .S 0xA0000000A#64 0x100#16 0#64 0#64, ⟨.M, 0x80000100, 0xA00000882, 0x80000000, 9, 0, 0, 0⟩),
  (0x00000073, sys .M 0xA00000008#64 0xB3FF#16 0#64 0#64, ⟨.M, 0x80000100, 0xA00001880, 0x80000000, 11, 0, 0, 0⟩),
  (0x00100073, sys .M 0xA00000000#64 0#16 0#64 0#64, ⟨.M, 0x80000100, 0xA00001800, 0x80000000, 3, 0, 0, 0⟩),
  (0x00100073, sys .U 0xA00000000#64 8#16 0#64 0#64, ⟨.S, 0x80000200, 0xA00000000, 0, 0, 0, 0x80000000, 3⟩)]
    : List (Nat × State × Seen)).all sysOk = true := by decide

theorem test_mret : ([
  (0x30200073, sys .M 0xA00000880#64 0#16 0x80002000#64 0#64, ⟨.S, 0x80002000, 0xA00000088, 0x80002000, 0, 0, 0, 0⟩),
  (0x30200073, sys .M 0xA00020080#64 0#16 0x80002000#64 0#64, ⟨.U, 0x80002000, 0xA00000088, 0x80002000, 0, 0, 0, 0⟩),
  (0x30200073, sys .M 0xA00021808#64 0#16 0x80002000#64 0#64, ⟨.M, 0x80002000, 0xA00020080, 0x80002000, 0, 0, 0, 0⟩),
  (0x30200073, sys .S 0xA00000000#64 0#16 0#64 0#64, ⟨.M, 0x80000100, 0xA00000800, 0x80000000, 2, 0x30200073, 0, 0⟩)]
    : List (Nat × State × Seen)).all sysOk = true := by decide

theorem test_sret : ([
  (0x10200073, sys .S 0xA00000002#64 0#16 0#64 0x10000#64, ⟨.U, 0x10000, 0xA00000020, 0, 0, 0, 0x10000, 0⟩),
  (0x10200073, sys .M 0xA00021920#64 0#16 0#64 0x80003000#64, ⟨.S, 0x80003000, 0xA00001822, 0, 0, 0, 0x80003000, 0⟩),
  (0x10200073, sys .S 0xA00400000#64 0#16 0#64 0#64, ⟨.M, 0x80000100, 0xA00400800, 0x80000000, 2, 0x10200073, 0, 0⟩),
  (0x10200073, sys .M 0xA00400000#64 0#16 0#64 0x80003000#64, ⟨.U, 0x80003000, 0xA00400020, 0, 0, 0, 0x80003000, 0⟩)]
    : List (Nat × State × Seen)).all sysOk = true := by decide

theorem test_wfi_sfence_fence : ([
  (0x10500073, sys .U 0xA00000000#64 0#16 0#64 0#64, ⟨.U, 0x80000004, 0xA00000000, 0, 0, 0, 0, 0⟩),
  (0x10500073, sys .S 0xA00200000#64 0#16 0#64 0#64, ⟨.M, 0x80000100, 0xA00200800, 0x80000000, 2, 0x10500073, 0, 0⟩),
  (0x12730073, sys .S 0xA00000000#64 0#16 0#64 0#64, ⟨.S, 0x80000004, 0xA00000000, 0, 0, 0, 0, 0⟩),
  (0x12000073, sys .S 0xA00100000#64 0#16 0#64 0#64, ⟨.M, 0x80000100, 0xA00100800, 0x80000000, 2, 0x12000073, 0, 0⟩),
  (0x0FF0000F, sys .U 0xA00000000#64 0#16 0#64 0#64, ⟨.U, 0x80000004, 0xA00000000, 0, 0, 0, 0, 0⟩),
  (0x0000100F, sys .U 0xA00000000#64 0#16 0#64 0#64, ⟨.U, 0x80000004, 0xA00000000, 0, 0, 0, 0, 0⟩)]
    : List (Nat × State × Seen)).all sysOk = true := by decide

/-- `C.EBREAK`, 0x9002. -/
theorem test_c_ebreak : (after (.c16 0x9002#16) (sys .M 0xA00000000#64 0#16 0#64 0#64)).map seen =
    some ⟨.M, 0x80000100, 0xA00001800, 0x80000000, 3, 0, 0, 0⟩ := by decide

/-- A state with `mscratch` and x6 set. -/
def scratchState (scratch x6 : Word) : State :=
  let s := (State.resetOf (machine .x64)).setX 6#5 x6
  { s with csr := { s.csr with m := { s.csr.m with scratch := scratch } } }

/-- The six CSR instructions on `mscratch` (96, section 6): x5 and `mscratch` after. -/
theorem test_csr : ([
  (0x340312F3, 0xABCD, 0x1234, 0xABCD, 0x1234), (0x340322F3, 0x0F, 0xF0, 0x0F, 0xFF), (0x340332F3, 0xABCD, 0xFF, 0xABCD, 0xAB00),
  (0x340FD2F3, 0xABCD, 0, 0xABCD, 0x1F), (0x340862F3, 1, 0, 1, 0x11)]
    : List (Nat × Nat × Nat × Nat × Nat)).all (fun r =>
      decide ((after (.c32 (BitVec.ofNat 32 r.1)) (scratchState (BitVec.ofNat 64 r.2.1) (BitVec.ofNat 64 r.2.2.1))).map
        (fun t => (t.x 64 5#5, t.csr.m.scratch)) = some (BitVec.ofNat 64 r.2.2.2.1, BitVec.ofNat 64 r.2.2.2.2))) = true := by
  decide

/-- `csrrci x0, mstatus, 8` = 0x30047073 clears MIE (46_zicsr R427). -/
theorem test_csrrci : (after (.c32 0x30047073#32) (sys .M 0xA00000008#64 0#16 0#64 0#64)).map (·.csr.status) =
    some 0xA00000000#64 := by decide

/-- A step takes the timer interrupt before it fetches, at the vectored address (60_exceptions R543, R544, R548). -/
theorem test_interrupt : (match step { sys .M 0xA00000008#64 0#16 0#64 0#64 with
      csr := { (sys .M 0xA00000008#64 0#16 0#64 0#64).csr with
        ie := 0x080#12, m := { (sys .M 0xA00000008#64 0#16 0#64 0#64).csr.m with tvec := 0x80000101#64 } }
      irqPending := 0x080#12 } with
    | .next t => decide (t.pc = 0x8000011C#64) && t.csr.m.causeInt && decide (t.csr.m.causeCode.toNat = 7)
    | _ => false) = true := by decide

/-- A step of a word placed where it fetches (log 14): `addi x1, x0, -1`. -/
theorem test_step : (match step (State.reset.withFetchWord 32 0xFFF00093) with
    | .next t => decide (t.x 64 1#5 = 0xFFFFFFFFFFFFFFFF#64) && decide (t.pc = 0x80000004#64)
    | _ => false) = true := by decide

/-- The same of a 16-bit word that only XLEN = 32 has: `c.jal +8`. -/
theorem test_step_rv32 : (match step (State.reset.withFetchWord 16 0x2021) with
    | .next t => decide (t.x 64 1#5 = 0xFFFFFFFF80000002#64) && decide (t.pc = 0x80000008#64)
    | _ => false) = true := by decide

/-! ### Witnesses: the hypotheses of the statements are met

One theorem for each statement that has hypotheses, with a conjunct or an alternative for each of its clauses. -/

/-- After reset, XLEN = 64 and XLEN = 32. -/
abbrev r64 : State := start .x64 [] 0x80001000 0
abbrev r32 : State := start .x32 [] 0x80001000 0

/-- A machine with 1 GiB of RAM, a device and, if asked for, an FPU. -/
def bigMachine (fpu : Bool) : Params :=
  { Params.default with ramSize := 0x40000000, mmio := [⟨0x10000000, 0x1000, 1⟩], fpuPresent := fpu }

/-- Its state after reset. -/
def big : State := State.resetOf (bigMachine false)

/-- SV39 in mode `p`: pages of 1 GiB at 0 (user: `u`), and the next one invalid; some accessed bits not yet set. -/
def paged (p : Priv) (pte : Nat) (pc : Word) : State :=
  { big with
    priv := p, mmuMode := .sv39, rootPageTable := 0x80010000#56, pc := pc
    mem := (Memory.store [] 0x80010000 8 pte).store 0xBFFFFFFE 2 0x0003 }

/-- The leaf 0x80000000, with the flags V, R, W, X, A and D; in `leafFresh` A and D are clear. -/
abbrev leaf : Nat := 0x200000CF
abbrev leafFresh : Nat := 0x2000000F
/-- The same for user mode. -/
abbrev leafUser : Nat := 0x200000DF

/-- x6 and x7 set. -/
def withX (s : State) (a b : Word) : State := (s.setX 6#5 a).setX 7#5 b

theorem witness_DecodeOfEncode : (Instr.cAddi4spn 2#3 1020#10).wf .x64 = true ∧ (Instr.slli 1#5 1#5 31#6).wf .x32 = true := by
  decide

theorem witness_DecodedWordIsEncoding : ∃ i, decode .x32 (.c16 0x2021#16) = .ok i := ⟨_, rfl⟩

theorem witness_ReservedEncodings :
    (let w := 0x04001013#32; field w 0 7 = 0x13#7 ∧ field w 12 3 = 1#3 ∧ field w 26 6 ≠ 0#6)
    ∧ (let w := 0x44005013#32; field w 0 7 = 0x13#7 ∧ field w 12 3 = 5#3 ∧ field w 26 6 ≠ 0#6 ∧ field w 26 6 ≠ 16#6)
    ∧ (let w := 0x02005013#32; field w 0 7 = 0x13#7 ∧ field w 12 3 = 5#3 ∧ w.getLsbD 25 = true)
    ∧ (let w := 0x0200101B#32; field w 0 7 = 0x1B#7 ∧ field w 12 3 = 1#3 ∧ field w 25 7 ≠ 0#7)
    ∧ (let w := 0x4200501B#32; field w 0 7 = 0x1B#7 ∧ field w 12 3 = 5#3 ∧ field w 25 7 ≠ 0#7 ∧ field w 25 7 ≠ 32#7)
    ∧ (let w := 0x1010202F#32; field w 0 7 = 0x2F#7 ∧ field w 12 3 = 2#3 ∧ field w 27 5 = 2#5 ∧ field w 20 5 ≠ 0#5)
    ∧ (let w := 0x001C#16; field w 0 2 = 0#2 ∧ field w 13 3 = 0#3 ∧ field w 5 8 = 0#8)
    ∧ (let w := 0x6101#16; field w 0 2 = 1#2 ∧ field w 13 3 = 3#3 ∧ w.getLsbD 12 = false ∧ field w 2 5 = 0#5 ∧ field w 7 5 ≠ 0#5)
    ∧ (let w := 0x4002#16; field w 0 2 = 2#2 ∧ field w 13 3 = 2#3 ∧ field w 7 5 = 0#5)
    ∧ (let w := 0x6002#16; field w 0 2 = 2#2 ∧ field w 13 3 = 3#3 ∧ field w 7 5 = 0#5)
    ∧ (let w := 0x8002#16; field w 0 2 = 2#2 ∧ field w 12 4 = 8#4 ∧ field w 2 10 = 0#10)
    ∧ (let w := 0x2005#16; field w 0 2 = 1#2 ∧ field w 13 3 = 1#3 ∧ field w 7 5 = 0#5)
    ∧ (let w := 0x1002#16; field w 0 2 = 2#2 ∧ field w 13 3 = 0#3 ∧ w.getLsbD 12 = true)
    ∧ (let w := 0x9001#16; field w 0 2 = 1#2 ∧ field w 13 3 = 4#3 ∧ w.getLsbD 11 = false ∧ w.getLsbD 12 = true)
    ∧ (let w := 0x8000#16; field w 0 2 = 0#2 ∧ field w 13 3 = 4#3)
    ∧ (let w := 0x9C41#16; field w 0 2 = 1#2 ∧ field w 13 3 = 4#3 ∧ field w 10 3 = 7#3 ∧ w.getLsbD 6 = true)
    ∧ field 0xFFFFFF7F#32 0 7 = 0x7F#7 ∧ r64.xlen = .x64 ∧ r32.xlen = .x32 := by decide

theorem witness_FloatingPointEncodings :
    field 0x00000053#32 0 7 = 0x53#7 ∧ (field 0x2000#16 0 2 = 0#2 ∧ field 0x2000#16 13 3 = 1#3)
    ∧ (field 0xE002#16 0 2 = 2#2 ∧ field 0xE002#16 13 3 = 7#3) ∧ r32.xlen = .x32 ∧ r32.hw.fpuPresent = false
    ∧ (State.resetOf (bigMachine true)).xlen = .x64 ∧ (State.resetOf (bigMachine true)).hw.fpuPresent = true := by decide

theorem witness_OnlyAtXlen64 :
    (Instr.slli 1#5 1#5 32#6).wf .x64 = true ∧ (Instr.slli 1#5 1#5 32#6).wf .x32 = false
    ∧ (∀ rd imm, Instr.slli 1#5 1#5 32#6 ≠ .cAddiw rd imm)
    ∧ (Instr.cLd 0#3 0#3 8#8).wf .x64 = true ∧ (Instr.cLd 0#3 0#3 8#8).wf .x32 = false
    ∧ (Instr.cAddiw 1#5 0#6).wf .x64 = true ∧ (Instr.cAddiw 1#5 0#6).wf .x32 = false
    ∧ decode .x32 (encode (.cAddiw 1#5 0#6)) = .ok (.cJal 0x040#12)
    ∧ r32.xlen = .x32 ∧ r32.hw.fpuPresent = false :=
  ⟨by decide, by decide, fun _ _ h => by (cases h), by decide, by decide, by decide, by decide, by decide, by decide, by decide⟩

theorem no_event {s : State} (h : s.inbox = []) : ∀ e rest, s.inbox ≠ (0, e) :: rest := by simp [h]

/-- The next step of `s` begins with a fetch. -/
theorem ready_of {s t : State} (h1 : s.hw.wf = true) (h2 : s.inbox = [])
    (h3 : wake ({ s with inbox := tick s.inbox }.sampleTime.compareTime) = some t)
    (h4 : t.pendingInt = none) : ReadyToFetch s t :=
  ⟨h1, no_event h2, h3, h4⟩

theorem witness_StepRunsDecoded_one : ∃ t u, ReadyToFetch (start .x64 [] 0x80000000 0xFFF00093) t
    ∧ translate .exec t.vpc t = .ok 0x80000000 u
    ∧ pageOff t.vpc + (Encoded.c32 0xFFF00093#32).len ≤ 4096 ∧ Params.inRam u.hw 0x80000000 4 = true
    ∧ (∀ k, k < 4 → (Encoded.c32 0xFFF00093#32).bytes[k]? = some (u.mem.readByte (0x80000000 + k)))
    ∧ decode u.xlen (.c32 0xFFF00093#32) = .ok (.addi 1#5 0#5 0xFFF#12) :=
  ⟨_, _, ready_of (by decide) rfl rfl rfl, rfl, by decide, rfl, by decide, rfl⟩

theorem witness_StepRunsDecoded_two : ∃ t u v,
    ReadyToFetch { start .x64 [] 0x80000FFE 0xFFF00093 with pc := 0x80000FFE#64 } t
    ∧ translate .exec t.vpc t = .ok 0x80000FFE u ∧ pageOff t.vpc = 4094 ∧ Params.inRam u.hw 0x80000FFE 2 = true
    ∧ translate .exec (t.vaPlus t.vpc 2) u = .ok 0x80001000 v ∧ Params.inRam v.hw 0x80001000 2 = true
    ∧ bytesAt u.mem 0x80000FFE 2 = (0xFFF00093#32).toNat % 65536 ∧ bytesAt v.mem 0x80001000 2 = (0xFFF00093#32).toNat / 65536
    ∧ decode v.xlen (.c32 0xFFF00093#32) = .ok (.addi 1#5 0#5 0xFFF#12) :=
  ⟨_, _, _, ready_of (by decide) rfl rfl rfl, rfl, rfl, rfl, rfl, rfl, rfl, rfl, rfl⟩

theorem witness_StepNeverStops : r64.hw.wf = true ∧ r32.hw.wf = true ∧ r32.hw.fpuPresent = false := by decide

theorem witness_StepIllegalInstruction : ∃ t u, ReadyToFetch r64 t ∧ fetch t = .ok (.c16 0#16) u
    ∧ decode u.xlen (.c16 0#16) = .error .reserved ∧ Reject.reserved ≠ .floatingPoint :=
  ⟨_, _, ready_of (by decide) rfl rfl rfl, rfl, rfl, by decide⟩

theorem witness_FetchFaults_translation : ∃ t u, ReadyToFetch (paged .S leaf 0x40000000#64) t
    ∧ translate .exec t.vpc t = .exc .instrPageFault 0x40000000#64 u :=
  ⟨_, _, ready_of (by decide) rfl rfl rfl, rfl⟩

theorem witness_FetchFaults_ram : ∃ t u, ReadyToFetch { r64 with pc := 0#64 } t
    ∧ translate .exec t.vpc t = .ok 0 u ∧ Params.inRam u.hw 0 2 = false :=
  ⟨_, _, ready_of (by decide) rfl rfl rfl, rfl, rfl⟩

theorem witness_FetchFaults_second_ram : ∃ t u v,
    ReadyToFetch { start .x64 [] 0x800FFFF8 0x0003000000000000 with pc := 0x800FFFFE#64 } t
    ∧ translate .exec t.vpc t = .ok 0x800FFFFE u ∧ Params.inRam u.hw 0x800FFFFE 2 = true
    ∧ bytesAt u.mem 0x800FFFFE 2 % 4 = 3 ∧ pageOff t.vpc = 4094
    ∧ translate .exec (t.vaPlus t.vpc 2) u = .ok 0x80100000 v ∧ Params.inRam v.hw 0x80100000 2 = false :=
  ⟨_, _, _, ready_of (by decide) rfl rfl rfl, rfl, rfl, rfl, rfl, rfl, rfl⟩

theorem witness_FetchFaults_second_translation : ∃ t u v, ReadyToFetch (paged .S leaf 0x3FFFFFFE#64) t
    ∧ translate .exec t.vpc t = .ok 0xBFFFFFFE u ∧ Params.inRam u.hw 0xBFFFFFFE 2 = true
    ∧ bytesAt u.mem 0xBFFFFFFE 2 % 4 = 3 ∧ pageOff t.vpc = 4094
    ∧ translate .exec (t.vaPlus t.vpc 2) u = .exc .instrPageFault 0x40000000#64 v :=
  ⟨_, _, _, ready_of (by decide) rfl rfl rfl, rfl, rfl, rfl, rfl, rfl⟩

/-- A state in which the machine timer interrupt is pending and enabled. -/
def timerPending : State :=
  { sys .M 0xA00000008#64 0#16 0#64 0#64 with
    csr := { (sys .M 0xA00000008#64 0#16 0#64 0#64).csr with ie := 0x080#12 }, irqPending := 0x080#12 }

theorem witness_InterruptCheck : ∃ (t : State) (cand : Nat → Bool), timerPending.hw.wf = true
    ∧ (∀ e rest, timerPending.inbox ≠ (0, e) :: rest)
    ∧ wake ({ timerPending with inbox := tick timerPending.inbox }.sampleTime.compareTime) = some t
    ∧ (∀ c, cand c = (decide (c ∈ [1, 3, 5, 7, 9, 11])
        && (t.csr.ip.getLsbD c || t.irqPending.getLsbD c) && t.csr.ie.getLsbD c
        && (if t.csr.mideleg.getLsbD c
            then decide (t.priv = .U) || (decide (t.priv = .S) && t.csr.status.getLsbD 1)
            else decide (t.priv ≠ .M) || t.csr.status.getLsbD 3)))
    ∧ cand 7 = true ∧ ∀ d, d ∈ ([11, 3, 7, 9, 1, 5].takeWhile (· ≠ 7)) → cand d = false :=
  ⟨_, _, by decide, no_event rfl, rfl, fun _ => rfl, by decide, by decide⟩

theorem witness_InterruptCheck_none : ∃ (t : State), wake ({ r64 with inbox := tick r64.inbox }.sampleTime.compareTime) = some t
    ∧ ∀ c, (decide (c ∈ [1, 3, 5, 7, 9, 11]) && (t.csr.ip.getLsbD c || t.irqPending.getLsbD c) && t.csr.ie.getLsbD c
        && (if t.csr.mideleg.getLsbD c
            then decide (t.priv = .U) || (decide (t.priv = .S) && t.csr.status.getLsbD 1)
            else decide (t.priv ≠ .M) || t.csr.status.getLsbD 3)) = false := by
  refine ⟨_, rfl, fun c => ?_⟩
  have h : ∀ s : State, s.csr.ie = 0#12 → s.csr.ie.getLsbD c = false := fun s h => by rw [h]; exact BitVec.getLsbD_zero
  rw [h]
  · simp
  · rfl

/-- Waiting, with and without an interrupt that wakes the hart. -/
theorem witness_WaitRule :
    ({ timerPending with waiting := true } : State).hw.wf = true
    ∧ (∀ e rest, ({ timerPending with waiting := true } : State).inbox ≠ (0, e) :: rest)
    ∧ (let t := ({ timerPending with waiting := true, inbox := tick [] } : State).sampleTime.compareTime
       (t.csr.ip ||| t.irqPending) &&& t.csr.ie ≠ 0#12)
    ∧ (let t := ({ r64 with waiting := true, inbox := tick [] } : State).sampleTime.compareTime
       (t.csr.ip ||| t.irqPending) &&& t.csr.ie = 0#12) :=
  ⟨by decide, no_event rfl, by decide, by decide⟩

theorem witness_TimeAndComparator :
    (∃ t, step r64 = .next t)
    ∧ (∃ s : State, s.csr.m.envcfg.getLsbD 63 = true ∧ s.stimecmp.toNat ≤ s.sampleTime.time.toNat)
    ∧ r64.csr.m.envcfg.getLsbD 63 = false :=
  ⟨⟨_, rfl⟩,
   ⟨{ r64 with stimecmp := 0#64, csr := { r64.csr with m := { r64.csr.m with envcfg := 0x8000000000000000#64 } } },
     by decide, Nat.zero_le _⟩, by decide⟩

theorem witness_ExternalEvents :
    (∃ s : State, s.hw.wf = true ∧ s.inbox = (0, .post .mei) :: []) ∧ (∃ s : State, s.hw.wf = true ∧ s.inbox = (0, .clear .ssi) :: [])
    ∧ (∃ s : State, s.hw.wf = true ∧ s.inbox = (0, .brk) :: [])
    ∧ ∃ s : State, s.hw.wf = true ∧ s.inbox = (0, .ramWrite 0x800FFFFF [0xAB#8]) :: []
        ∧ Params.inRam s.hw 0x800FFFFF [0xAB#8].length = true :=
  ⟨⟨{ r64 with inbox := [(0, .post .mei)] }, by decide, rfl⟩, ⟨{ r64 with inbox := [(0, .clear .ssi)] }, by decide, rfl⟩,
   ⟨{ r64 with inbox := [(0, .brk)] }, by decide, rfl⟩,
   ⟨{ r64 with inbox := [(0, .ramWrite 0x800FFFFF [0xAB#8])] }, by decide, rfl, by decide⟩⟩

/-- `MRET` from M to U: it lowers the mode, and it changes the mode and MPP. -/
theorem witness_OnlyReturnsLowerPrivilege_TlbFlushPoints :
    ∃ t, exec .mret (sys .M 0xA00000080#64 0#16 0#64 0#64) = .next t ∧ t.priv.toNat < Priv.M.toNat ∧ t.priv ≠ .M :=
  ⟨_, rfl, by decide, by decide⟩

theorem witness_UserModeIsolation :
    let s := sys .U 0xA00000000#64 0#16 0#64 0#64
    s.hw.fpuPresent = false ∧ s.priv = .U ∧ ∃ t, exec (.addi 1#5 1#5 1#12) s = .next t ∧ t.priv = .U :=
  ⟨by decide, by decide, _, rfl, by decide⟩

/-- A state whose status and trap registers hold values meets the invariants, and steps. -/
def invState : State := paged .M leaf 0x80000000#64

theorem witness_StatusInv : StatusInv invState ∧ StatusInv (sys .S 0xA00000122#64 0x300#16 0#64 0#64)
    ∧ StatusInv (State.resetOf (bigMachine true)) := by
  refine ⟨?_, ?_, ?_⟩ <;> constructor <;> decide

theorem witness_Invariants : MemInv invState ∧ TlbInv invState ∧ PcInv invState ∧ BankInv invState ∧ ReservationInv invState
    ∧ X0Inv invState ∧ ∃ t, step invState = .next t := by
  refine ⟨⟨by decide, by decide⟩, ⟨by decide, by decide, fun _ h => (List.not_mem_nil h).elim, fun _ h => (List.not_mem_nil h).elim⟩,
    ⟨by decide, by decide, by decide⟩, ?_, ?_, rfl, _, rfl⟩
  · constructor <;> decide
  · intro r h; cases h

theorem witness_Reset : Params.default.wf = true ∧ (machine .x32).wf = true ∧ (bigMachine true).wf = true := by decide

theorem witness_TrapTarget :
    (let s := sys .U 0xA00000000#64 0x100#16 0#64 0#64
     s.priv ≠ .M ∧ (if false then s.csr.mideleg.getLsbD 8 else s.csr.medeleg.getLsbD 8) = true)
    ∧ (let s := sys .S 0xA00000000#64 0#16 0#64 0#64
       (if true then s.csr.mideleg.getLsbD 5 else s.csr.medeleg.getLsbD 5) = false) := by decide

theorem witness_TrapEntry_TrapVector :
    ((sys .U 0xA00000000#64 0x100#16 0#64 0#64).takeTrap false 8 0#64).priv = .S
    ∧ ((sys .M 0xA00000000#64 0x100#16 0#64 0#64).takeTrap true 11 0#64).priv = .M
    ∧ StatusInv (sys .U 0xA00000000#64 0x100#16 0#64 0#64) ∧ StatusInv (sys .M 0xA00000000#64 0x100#16 0#64 0#64)
    ∧ (0x80000101#64).getLsbD 0 = true := by
  refine ⟨by decide, by decide, ?_, ?_, by decide⟩ <;> constructor <;> decide

theorem witness_Mret_Sret :
    (sys .S 0#64 0#16 0#64 0#64).priv ≠ .M ∧ (sys .M 0xA00001880#64 0#16 0#64 0#64).priv = .M
    ∧ StatusInv (sys .M 0xA00001880#64 0#16 0#64 0#64)
    ∧ (sys .U 0#64 0#16 0#64 0#64).priv = .U ∧ stTsr (sys .S 0xA00400000#64 0#16 0#64 0#64).csr.status = true
    ∧ stTsr (sys .S 0xA00000120#64 0#16 0#64 0#64).csr.status = false ∧ StatusInv (sys .S 0xA00000120#64 0#16 0#64 0#64) := by
  refine ⟨by decide, by decide, ?_, by decide, by decide, by decide, ?_⟩ <;> constructor <;> decide

theorem witness_EnvironmentCallAndBreakpoint :
    (8 : Nat) = (match (sys .U 0#64 0#16 0#64 0#64).priv with | .U => 8 | .S => 9 | .M => 11)
    ∧ ((sys .U 0#64 0x100#16 0#64 0#64).takeTrap false 8 0#64).priv = .S
    ∧ ((sys .U 0#64 0#16 0#64 0#64).takeTrap false 3 0#64).priv = .M := by decide

theorem witness_WaitAndTranslationFence :
    (let s := sys .S 0x300000#64 0#16 0#64 0#64
     s.priv ≠ .M ∧ stTw s.csr.status = true ∧ s.priv = .S ∧ stTvm s.csr.status = true)
    ∧ (let s := sys .S 0#64 0#16 0#64 0#64; stTw s.csr.status = false ∧ s.priv = .S ∧ stTvm s.csr.status = false) := by decide

/-! The statements of the integer, multiply, divide, jump and branch instructions name operand values only. -/

theorem witness_operands : ∃ (s : State) (a b : BitVec s.xw) (c d : BitVec 32), a = s.x s.xw 6#5 ∧ b = s.x s.xw 7#5 ∧ s.xlen = .x64
    ∧ c.toNat = (s.x 64 6#5).toNat % 2 ^ 32 ∧ d.toNat = (s.x 64 7#5).toNat % 2 ^ 32
    ∧ (a.toInt = -2 ^ 63 ∧ b.toInt = -1) :=
  ⟨withX r64 0x8000000000000000#64 0xFFFFFFFFFFFFFFFF#64, _, _, 0#32, 0xFFFFFFFF#32, rfl, rfl, by decide, by decide, by decide,
    by decide, by decide⟩

theorem witness_ShiftImmediate : (r32.xlen = .x32 → (31#6).toNat < 32) ∧ (r64.xlen = .x32 → (63#6).toNat < 32) := by decide

theorem witness_Jumps : r32.xlen = .x32
    ∧ ∃ l4 l2 : BitVec r32.xw, l4.toNat = (r32.vpc.toNat + 4) % 2 ^ r32.xw ∧ l2.toNat = (r32.vpc.toNat + 2) % 2 ^ r32.xw :=
  ⟨by decide, 0x80000004#32, 0x80000002#32, by decide, by decide⟩

/-! Memory -/

theorem widthOk_false (s : State) : widthOk s false := fun h => by cases h

/-- The load and the store of these tests: `ld x5, 0(x6)` and `sw x7, -4(x6)`. -/
abbrev loadI : Instr := .ld 5#5 6#5 0#12
abbrev storeI : Instr := .sw 6#5 7#5 0xFFC#12

theorem witness_TranslationFrame :
    (∃ u, translate .read 0x1234#64 (paged .S leafFresh 0#64) = .ok 0x80001234 u
      ∧ u.mem.readByte 0x80010000 ≠ (paged .S leafFresh 0#64).mem.readByte 0x80010000)
    ∧ (∃ u, translate .write 0x1234#64 r64 = .ok 0x1234 u ∧ identityMapped r64 .write = true)
    ∧ ∃ u, translate .write 0x40000000#64 (paged .S leaf 0#64) = .exc .storePageFault 0x40000000#64 u :=
  ⟨⟨_, rfl, by decide⟩, ⟨_, rfl, by decide⟩, _, rfl⟩

/-- Nothing is kept of any page after a flush. -/
theorem not_kept {s : State} (h : s.tlb = Tlb.empty) (acc : Acc) (va : Word) (e : TlbEntry) : ¬ Kept s acc va e := by
  rintro ⟨hk, -, -⟩
  rw [h] at hk
  exact hk.elim (fun h => by cases h) (by simp)

/-- The first page of RAM, mapped to itself for reads. -/
abbrev ramEntry : TlbEntry := ⟨0x80000#52, 0x80000#52, true, false, false⟩

/-- An entry of page 15 that was made under another mapping. -/
abbrev oldEntry : TlbEntry := ⟨0xF#52, 0x80000#52, true, false, false⟩

/-- A mapping that was not changed since, in which an entry answers a read and does not allow a write; and nothing kept. -/
theorem witness_TlbLookupAndFill_settled :
    (let s := ({ r64 with tlb := ⟨[(0, ramEntry)], []⟩ } : State)
     assocGet s.tlb.slots ((0x80000FFF#64).toNat / 4096 % 2 ^ s.hw.tlbBits) = some ramEntry
     ∧ ramEntry.vpn.toNat = (0x80000FFF#64).toNat / 4096 ∧ ramEntry.has .read = true ∧ ramEntry.has .write = false
     ∧ identityMapped s .write = true ∧ MappingSettled s .read 0x80000FFF#64 ∧ MappingSettled s .write 0x80000FFF#64)
    ∧ MappingSettled r64 .exec 0x80000FFF#64 := by
  refine ⟨⟨by decide, by decide, by decide, by decide, by decide, ?_, ?_⟩, fun e h => absurd h (not_kept rfl _ _ _)⟩
  · rintro e ⟨h | h, -, -⟩
    · cases h; exact ⟨_, rfl⟩
    · cases h
  · rintro e ⟨h | h, -, hw⟩
    · cases h; cases hw
    · cases h

/-- Translations to a page of RAM and to one outside it. -/
theorem witness_TlbLookupAndFill_fill :
    (∃ u, translate .exec 0x80000FFF#64 r64 = .ok 0x80000FFF u
        ∧ Params.inRam r64.hw (0x80000FFF / 4096 * 4096) 4096 = true)
    ∧ ∃ u, translate .exec 0x80100000#64 r64 = .ok 0x80100000 u
        ∧ Params.inRam r64.hw (0x80100000 / 4096 * 4096) 4096 = false :=
  ⟨⟨_, rfl, by decide⟩, _, rfl, by decide⟩

/-- A mapping that was changed without a fence: the old page is one of the choices, whether or not its entry still has its
slot (70_reset_and_hazards R592). -/
theorem witness_TlbLookupAndFill_changed :
    (let s := ({ r64 with tlb := ⟨[(15, oldEntry)], []⟩ } : State)
     Kept s .read 0xFFFF#64 oldEntry ∧ oldPages .read 0xFFFF#64 s = [0x80000#52] ∧ oldPages .write 0xFFFF#64 s = [])
    ∧ (let s := ({ r64 with tlb := ⟨[], [oldEntry]⟩ } : State)
       Kept s .read 0xFFFF#64 oldEntry ∧ oldPages .read 0xFFFF#64 s = [0x80000#52]) :=
  ⟨⟨⟨.inl rfl, by decide, by decide⟩, by decide, by decide⟩, ⟨.inr (by simp), by decide, by decide⟩, by decide⟩

/-- A state in S with SV39 whose root table holds `pte` at its first place. -/
def rooted (p : Priv) (pte : Nat) : State := paged p pte 0#64

/-- The parameters of SV39 (20_memory R180). -/
abbrev sv39 : SvMode := ⟨3, 9, 8, 39⟩

/-- Nothing kept, translation on; an address that is not canonical, and the last one that is. -/
theorem witness_WalkGrants_premises :
    identityMapped (rooted .S leaf) .read = false ∧ (∀ e, ¬ Kept (rooted .S leaf) .read 0#64 e)
    ∧ svMode (rooted .S leaf).mmuMode = some sv39
    ∧ ¬ Canonical sv39 0x4000000000#64 ∧ Canonical sv39 0x3FFFFFFFFF#64 ∧ Canonical sv39 0xFFFFFFC000000000#64 := by
  refine ⟨by decide, not_kept rfl _ _, rfl, ?_, ?_, ?_⟩ <;> unfold Canonical <;> decide

/-- The root table outside RAM; an entry that is not valid; a pointer at level 0 (a table that points to itself). -/
theorem witness_WalkGrants_faults :
    (let s := ({ rooted .S leaf with rootPageTable := 0#56 } : State)
     WalkReaches s sv39 0#64 2 0 ∧ Params.inRam s.hw (pteAddr sv39 0#64 2 0) sv39.size = false)
    ∧ (PteIs (rooted .S leaf) sv39 0x40000000#64 2 0x80010000 0#64 ∧ pteV 0#64 = false)
    ∧ (let s := rooted .S 0x20004001
       WalkReaches s sv39 0#64 0 0x80010000 ∧ PteIs s sv39 0#64 0 0x80010000 0x20004001#64
       ∧ pteR 0x20004001#64 = false ∧ pteX 0x20004001#64 = false) := by
  have e : ∀ i, i < 3 → PteIs (rooted .S 0x20004001) sv39 0#64 i 0x80010000 0x20004001#64 := by
    intro i hi
    match i, hi with
    | 0, _ | 1, _ | 2, _ => exact ⟨by decide, by decide⟩
  exact ⟨⟨.root, by decide⟩, ⟨⟨by decide, by decide⟩, by decide⟩,
    .next _ (.next _ .root (e 2 (by decide)) (by decide) (by decide) (by decide) (by decide)) (e 1 (by decide)) (by decide)
      (by decide) (by decide) (by decide), e 0 (by decide), by decide, by decide⟩

/-- Leaves: one that does not permit the access (U may not use a page of S), a superpage that is not aligned, and one that
grants a write. -/
theorem witness_WalkGrants_leaves :
    (WalkReaches (rooted .U leaf) sv39 0#64 2 0x80010000 ∧ PteIs (rooted .U leaf) sv39 0#64 2 0x80010000 0x200000CF#64
      ∧ ¬ LeafPermits (rooted .U leaf).csr.status 0x200000CF#64 .read ((rooted .U leaf).effPriv .read))
    ∧ (PteIs (rooted .S 0x200004CF) sv39 0#64 2 0x80010000 0x200004CF#64 ∧ ppnOf 0x200004CF#64 % 2 ^ (2 * sv39.bits) ≠ 0)
    ∧ (let s := rooted .S leafFresh
       WalkReaches s sv39 0#64 2 0x80010000 ∧ PteIs s sv39 0#64 2 0x80010000 0x2000000F#64
       ∧ LeafPermits s.csr.status 0x2000000F#64 .write (s.effPriv .write) ∧ ppnOf 0x2000000F#64 % 2 ^ (2 * sv39.bits) = 0) := by
  refine ⟨⟨.root, ⟨by decide, by decide⟩, fun h => absurd (h.user (by decide)) (by decide)⟩,
    ⟨⟨by decide, by decide⟩, by decide⟩, .root, ⟨by decide, by decide⟩, ?_, by decide⟩
  constructor <;> decide

/-- The last doubleword of a page, in bare mode and through a page table; and the last bytes of RAM. -/
theorem witness_LoadsFromRam :
    (∃ f u, loadForm loadI = some f ∧ widthOk (withX r64 0x80000FF8#64 0#64) f.only64
      ∧ translate .read ((withX r64 0x80000FF8#64 0#64).ea f.rs1 f.imm) (withX r64 0x80000FF8#64 0#64) = .ok 0x80000FF8 u
      ∧ pageOff ((withX r64 0x80000FF8#64 0#64).ea f.rs1 f.imm) + f.n ≤ 4096 ∧ Params.inRam r64.hw 0x80000FF8 f.n = true)
    ∧ ∃ f u, loadForm (.lb 5#5 6#5 0xFFF#12) = some f ∧ widthOk (withX r32 0x80100000#64 0#64) f.only64
      ∧ translate .read ((withX r32 0x80100000#64 0#64).ea f.rs1 f.imm) (withX r32 0x80100000#64 0#64) = .ok 0x800FFFFF u
      ∧ pageOff ((withX r32 0x80100000#64 0#64).ea f.rs1 f.imm) + f.n ≤ 4096 ∧ Params.inRam r32.hw 0x800FFFFF f.n = true :=
  ⟨⟨_, _, rfl, fun _ => rfl, rfl, by decide, by decide⟩, _, _, rfl, widthOk_false _, rfl, by decide, by decide⟩

theorem witness_StoresToRam :
    (∃ f u, storeForm storeI = some f ∧ widthOk (withX r64 0x80001000#64 7#64) f.only64
      ∧ translate .write ((withX r64 0x80001000#64 7#64).ea f.rs1 f.imm) (withX r64 0x80001000#64 7#64) = .ok 0x80000FFC u
      ∧ pageOff ((withX r64 0x80001000#64 7#64).ea f.rs1 f.imm) + f.n ≤ 4096 ∧ Params.inRam r64.hw 0x80000FFC f.n = true)
    ∧ ∃ f u, storeForm storeI = some f ∧ widthOk (withX (paged .S leafFresh 0#64) 4#64 7#64) f.only64
      ∧ translate .write ((withX (paged .S leafFresh 0#64) 4#64 7#64).ea f.rs1 f.imm) (withX (paged .S leafFresh 0#64) 4#64 7#64)
          = .ok 0x80000000 u
      ∧ pageOff ((withX (paged .S leafFresh 0#64) 4#64 7#64).ea f.rs1 f.imm) + f.n ≤ 4096
      ∧ Params.inRam (bigMachine false) 0x80000000 f.n = true :=
  ⟨⟨_, _, rfl, widthOk_false _, rfl, by decide, by decide⟩, _, _, rfl, widthOk_false _, rfl, by decide, by decide⟩

/-- A machine with a device right above RAM. -/
def devAbove : State := State.resetOf { Params.default with mmio := [⟨0x80100000, 0x1000, 1⟩] }

/-- A load of one byte of the first page and seven of the second, both in RAM. -/
theorem witness_SplitAccesses_ram :
    let s := withX r64 0x80000FFF#64 0#64
    ∃ f u w, loadForm loadI = some f ∧ widthOk s f.only64
      ∧ 1 = 4096 - (s.ea f.rs1 f.imm).toNat % 4096 ∧ 1 < f.n
      ∧ translate .read (s.ea f.rs1 f.imm) s = .ok 0x80000FFF u
      ∧ translate .read (s.vaPlus (s.ea f.rs1 f.imm) 1) u = .ok 0x80001000 w
      ∧ PartRead w 0x80000FFF 1 (bytesAt w.mem 0x80000FFF 1) w
      ∧ PartRead w 0x80001000 (f.n - 1) (bytesAt w.mem 0x80001000 (f.n - 1)) w :=
  ⟨_, _, _, rfl, fun _ => rfl, by decide, by decide, rfl, rfl, .inl ⟨by decide, rfl, rfl⟩, .inl ⟨by decide, rfl, rfl⟩⟩

/-- A load whose last four bytes are in a device region (20_memory R162), and a store of seven bytes in RAM and one there. -/
theorem witness_SplitAccesses_device :
    (let s := withX devAbove 0x800FFFFC#64 0#64
     ∃ f u w w2 b, loadForm loadI = some f ∧ widthOk s f.only64
      ∧ 4 = 4096 - (s.ea f.rs1 f.imm).toNat % 4096 ∧ 4 < f.n
      ∧ translate .read (s.ea f.rs1 f.imm) s = .ok 0x800FFFFC u
      ∧ translate .read (s.vaPlus (s.ea f.rs1 f.imm) 4) u = .ok 0x80100000 w
      ∧ PartRead w 0x800FFFFC 4 (bytesAt w.mem 0x800FFFFC 4) w ∧ PartRead w 0x80100000 (f.n - 4) b w2)
    ∧ (let s := withX devAbove 0x800FFFF9#64 0#64
       ∃ f u w, storeForm (.sd 6#5 7#5 0#12) = some f ∧ widthOk s f.only64
      ∧ 7 = 4096 - (s.ea f.rs1 f.imm).toNat % 4096 ∧ 7 < f.n
      ∧ translate .write (s.ea f.rs1 f.imm) s = .ok 0x800FFFF9 u
      ∧ translate .write (s.vaPlus (s.ea f.rs1 f.imm) 7) u = .ok 0x80100000 w
      ∧ Accessible s.hw 0x800FFFF9 7 ∧ Accessible s.hw 0x80100000 (f.n - 7)) :=
  ⟨⟨_, _, _, _, _, rfl, fun _ => rfl, by decide, by decide, rfl, rfl, .inl ⟨by decide, rfl, rfl⟩,
      .inr ⟨by decide, _, rfl, rfl, rfl⟩⟩,
   _, _, _, rfl, fun _ => rfl, by decide, by decide, rfl, rfl, .inl (by decide), .inr (by decide)⟩

theorem witness_DataFaults_translation :
    let s := withX (paged .S leaf 0#64) 0x40000004#64 0#64
    ∃ f u, storeForm storeI = some f ∧ widthOk s f.only64
      ∧ translate .write (s.ea f.rs1 f.imm) s = .exc .storePageFault 0x40000000#64 u :=
  ⟨_, _, rfl, widthOk_false _, rfl⟩

theorem not_accessible {p : Params} {pa n : Nat} (h1 : Params.inRam p pa n = false) (h2 : Params.region p pa n = none) :
    ¬ Accessible p pa n := by
  rintro (h | h)
  · rw [h1] at h; cases h
  · exact h h2

/-- The last byte below RAM, and the first byte above it. -/
theorem witness_DataFaults_one :
    (let s := withX r64 0x7FFFFFFF#64 0#64
     ∃ f u, loadForm (.lb 5#5 6#5 0#12) = some f ∧ widthOk s f.only64
      ∧ f.n = min f.n (4096 - (s.ea f.rs1 f.imm).toNat % 4096)
      ∧ translate .read (s.ea f.rs1 f.imm) s = .ok 0x7FFFFFFF u ∧ ¬ Accessible s.hw 0x7FFFFFFF f.n)
    ∧ (let s := withX r64 0x80100000#64 0#64
       ∃ f u, storeForm (.sb 6#5 7#5 0#12) = some f ∧ widthOk s f.only64
      ∧ f.n = min f.n (4096 - (s.ea f.rs1 f.imm).toNat % 4096)
      ∧ translate .write (s.ea f.rs1 f.imm) s = .ok 0x80100000 u ∧ ¬ Accessible s.hw 0x80100000 f.n) :=
  ⟨⟨_, _, rfl, widthOk_false _, by decide, rfl, not_accessible (by decide) (by decide)⟩,
   _, _, rfl, widthOk_false _, by decide, rfl, not_accessible (by decide) (by decide)⟩

/-- The high part does not translate; the low part is in RAM, and (the page of the leaf that is no RAM) is not. -/
theorem witness_DataFaults_second_translation :
    (let s := withX (paged .S leaf 0#64) 0x3FFFFFFE#64 0#64
     ∃ f u w, loadForm loadI = some f ∧ widthOk s f.only64
      ∧ 2 = min f.n (4096 - (s.ea f.rs1 f.imm).toNat % 4096) ∧ 2 < f.n
      ∧ translate .read (s.ea f.rs1 f.imm) s = .ok 0xBFFFFFFE u ∧ Accessible s.hw 0xBFFFFFFE 2
      ∧ translate .read (s.vaPlus (s.ea f.rs1 f.imm) 2) u = .exc .loadPageFault 0x40000000#64 w)
    ∧ (let s := withX (paged .S 0xCF 0#64) 0x3FFFFFFE#64 0#64
       ∃ f u w, loadForm loadI = some f ∧ widthOk s f.only64
      ∧ 2 = min f.n (4096 - (s.ea f.rs1 f.imm).toNat % 4096) ∧ 2 < f.n
      ∧ translate .read (s.ea f.rs1 f.imm) s = .ok 0x3FFFFFFE u ∧ ¬ Accessible s.hw 0x3FFFFFFE 2
      ∧ translate .read (s.vaPlus (s.ea f.rs1 f.imm) 2) u = .exc .loadPageFault 0x40000000#64 w) :=
  ⟨⟨_, _, _, rfl, fun _ => rfl, by decide, by decide, rfl, .inl (by decide), rfl⟩,
   _, _, _, rfl, fun _ => rfl, by decide, by decide, rfl, not_accessible (by decide) (by decide), rfl⟩

/-- Both parts translate: a store to RAM and above it; a load whose low part is not accessible; and a load whose low part is
in a device region and whose high part is above it. -/
theorem witness_DataFaults_second :
    (let s := withX r64 0x80100002#64 0#64
     ∃ f u w, storeForm storeI = some f ∧ widthOk s f.only64
      ∧ 2 = min f.n (4096 - (s.ea f.rs1 f.imm).toNat % 4096) ∧ 2 < f.n
      ∧ translate .write (s.ea f.rs1 f.imm) s = .ok 0x800FFFFE u
      ∧ translate .write (s.vaPlus (s.ea f.rs1 f.imm) 2) u = .ok 0x80100000 w
      ∧ ¬ Accessible s.hw 0x80100000 (f.n - 2) ∧ Accessible s.hw 0x800FFFFE 2)
    ∧ (let s := withX r64 0x7FFFFFFE#64 0#64
       ∃ f u w, loadForm loadI = some f ∧ widthOk s f.only64
      ∧ 2 = min f.n (4096 - (s.ea f.rs1 f.imm).toNat % 4096) ∧ 2 < f.n
      ∧ translate .read (s.ea f.rs1 f.imm) s = .ok 0x7FFFFFFE u
      ∧ translate .read (s.vaPlus (s.ea f.rs1 f.imm) 2) u = .ok 0x80000000 w
      ∧ ¬ Accessible s.hw 0x7FFFFFFE 2)
    ∧ (let s := withX devAbove 0x80100FFC#64 0#64
       ∃ f u w w1 a, loadForm loadI = some f ∧ widthOk s f.only64
      ∧ 4 = min f.n (4096 - (s.ea f.rs1 f.imm).toNat % 4096) ∧ 4 < f.n
      ∧ translate .read (s.ea f.rs1 f.imm) s = .ok 0x80100FFC u
      ∧ translate .read (s.vaPlus (s.ea f.rs1 f.imm) 4) u = .ok 0x80101000 w
      ∧ ¬ Accessible s.hw 0x80101000 (f.n - 4) ∧ Accessible s.hw 0x80100FFC 4 ∧ PartRead w 0x80100FFC 4 a w1) :=
  ⟨⟨_, _, _, rfl, widthOk_false _, by decide, by decide, rfl, rfl, not_accessible (by decide) (by decide), .inl (by decide)⟩,
   ⟨_, _, _, rfl, fun _ => rfl, by decide, by decide, rfl, rfl, not_accessible (by decide) (by decide)⟩,
   _, _, _, _, _, rfl, fun _ => rfl, by decide, by decide, rfl, rfl, not_accessible (by decide) (by decide), .inr (by decide),
   .inr ⟨by decide, _, rfl, rfl, rfl⟩⟩

/-- A load whose low part is in a device region calls the device before its high part faults (20_memory R160), with the
address of the high part as trap value (R163); a store there calls nothing (R165). -/
theorem test_split_device :
    ([(loadI, [.read 1 0xFFC 4], 5), (.sd 6#5 7#5 0#12, [], 7)] : List (Instr × List DevAccess × Nat)).all (fun r =>
      match exec r.1 (withX devAbove 0x80100FFC#64 0#64) with
      | .next t => decide (t.devLog = r.2.1 ∧ t.csr.m.causeCode.toNat = r.2.2 ∧ t.csr.m.tval = 0x80101000#64)
      | _       => false) = true := by decide

/-- The last doubleword of a device region. -/
theorem witness_DeviceAccesses :
    let s := withX big 0x10000FF8#64 0#64
    ∃ f g u w r, loadForm loadI = some f ∧ storeForm (.sd 6#5 7#5 0#12) = some g ∧ widthOk s f.only64
      ∧ pageOff (s.ea f.rs1 f.imm) + f.n ≤ 4096 ∧ Params.inRam s.hw 0x10000FF8 f.n = false
      ∧ Params.region s.hw 0x10000FF8 f.n = some r ∧ translate .read (s.ea f.rs1 f.imm) s = .ok 0x10000FF8 u
      ∧ translate .write (s.ea g.rs1 g.imm) s = .ok 0x10000FF8 w :=
  ⟨_, _, _, _, _, rfl, rfl, fun _ => rfl, by decide, by decide, rfl, rfl, rfl⟩

/-- `LR.D`, `SC.W` and the AMOs on the last aligned word of RAM; the reservation held, and not held. -/
theorem witness_Atomics :
    let s : State := { withX r64 0x800FFFF8#64 0#64 with reservation := some ⟨0x800FFFF8, 4⟩ }
    s.xlen = .x64 ∧ (s.x s.xw 6#5).toNat % 8 = 0 ∧ (s.x s.xw 6#5).toNat % 4 = 0
      ∧ (∃ u, translate .read (s.xa 6#5) s = .ok 0x800FFFF8 u) ∧ (∃ u, translate .write (s.xa 6#5) s = .ok 0x800FFFF8 u)
      ∧ Params.inRam s.hw 0x800FFFF8 8 = true ∧ Params.inRam s.hw 0x800FFFF8 4 = true
      ∧ s.reservation = some ⟨0x800FFFF8, 4⟩ ∧ r64.reservation ≠ some ⟨0x800FFFF8, 4⟩ :=
  ⟨by decide, by decide, by decide, ⟨_, rfl⟩, ⟨_, rfl⟩, by decide, by decide, rfl, by decide⟩

theorem witness_AtomicOperations : let s := withX r64 0x800FFFF8#64 0xFFFFFFFF00000002#64
    ∃ f u, amoForm (.amoaddW 5#5 6#5 7#5 true true) = some f ∧ (s.x s.xw f.rs1).toNat % f.n = 0
      ∧ translate .write (s.xa f.rs1) s = .ok 0x800FFFF8 u ∧ Params.inRam s.hw 0x800FFFF8 f.n = true
      ∧ ∃ old b : BitVec (8 * f.n), old.toNat = bytesAt u.mem 0x800FFFF8 f.n ∧ b.toNat = (s.x 64 f.rs2).toNat % 256 ^ f.n :=
  ⟨_, _, rfl, by decide, rfl, by decide, 0#32, 2#32, by decide, by decide⟩

theorem witness_AtomicFaults :
    atomicForm (.lrW 5#5 6#5 false false) = some (.read, 4, 6#5)
    ∧ ((withX r64 0x80001002#64 0#64).x r64.xw 6#5).toNat % 4 ≠ 0
    ∧ atomicForm (.amomaxuD 5#5 6#5 7#5 false false) = some (.write, 8, 6#5)
    ∧ (∃ u, translate .write ((withX (paged .S leaf 0#64) 0x40000000#64 0#64).xa 6#5) (withX (paged .S leaf 0#64) 0x40000000#64 0#64)
        = .exc .storePageFault 0x40000000#64 u)
    ∧ ∃ u, translate .write ((withX big 0x10000000#64 0#64).xa 6#5) (withX big 0x10000000#64 0#64) = .ok 0x10000000 u
        ∧ Params.inRam u.hw 0x10000000 8 = false :=
  ⟨rfl, by decide, rfl, ⟨_, rfl⟩, _, rfl, by decide⟩

/-! CSRs -/

theorem witness_CsrCompletes :
    (∃ f, csrForm r64 (.csrrs 5#5 0xF14#12 0#5) = some f ∧ (f.csr.toNat / 1024 = 3 → f.operand = 0#64)
      ∧ f.csr.toNat / 256 % 4 ≤ r64.priv.toNat ∧ csrMap r64.xlen f.csr = some .mhartid ∧ csrOpen r64 .mhartid)
    ∧ ∃ f, csrForm (sys .U 0#64 0#16 0#64 0#64) (.csrrwi 5#5 0xC01#12 0#5) = some f
      ∧ (f.csr.toNat / 1024 = 3 → f.operand = 0#64) ∧ f.csr.toNat / 256 % 4 ≤ Priv.U.toNat
      ∧ csrMap .x64 f.csr = some .time :=
  ⟨⟨_, rfl, fun _ => by decide, by decide, rfl, trivial⟩, _, rfl, fun _ => rfl, by decide, rfl⟩

theorem witness_CsrDenied :
    (∃ f, csrForm (withX r64 1#64 0#64) (.csrrw 0#5 0xF14#12 6#5) = some f ∧ f.csr.toNat / 1024 = 3 ∧ f.operand ≠ 0#64)
    ∧ (∃ f, csrForm (sys .U 0#64 0#16 0#64 0#64) (.csrrs 5#5 0x300#12 0#5) = some f
        ∧ (sys .U 0#64 0#16 0#64 0#64).priv.toNat < f.csr.toNat / 256 % 4)
    ∧ (∃ f, csrForm r64 (.csrrw 0#5 0x7C0#12 6#5) = some f ∧ csrMap r64.xlen f.csr = none)
    ∧ ∃ f, csrForm r64 (.csrrs 5#5 0x003#12 0#5) = some f ∧ csrMap r64.xlen f.csr = some .fcsr ∧ ¬ csrOpen r64 .fcsr :=
  ⟨⟨_, rfl, by decide, by decide⟩, ⟨_, rfl, by decide⟩, ⟨_, rfl, rfl⟩, _, rfl, rfl, fun h => by cases h.1⟩

theorem witness_StatusCsrs :
    (∃ f, csrForm invState (.csrrw 5#5 0x300#12 6#5) = some f ∧ StatusInv invState ∧ invState.hw.fpuPresent = false
      ∧ f.csr = 0x300#12 ∧ invState.priv = .M)
    ∧ ∃ f, csrForm (sys .S 0xA00000122#64 0x300#16 0#64 0#64) (.csrrci 5#5 0x100#12 31#5) = some f ∧ f.csr = 0x100#12
      ∧ (sys .S 0xA00000122#64 0x300#16 0#64 0#64).priv ≠ .U :=
  ⟨⟨_, rfl, witness_StatusInv.1, rfl, rfl, rfl⟩, _, rfl, rfl, by decide⟩

/-- A CSR instruction on `a`: `csrrs x5, a, x0`. -/
abbrev readCsr (a : BitVec 12) : Instr := .csrrs 5#5 a 0#5

/-- S at XLEN = 64 with STCE set, M at XLEN = 64 and at XLEN = 32. -/
abbrev timerS : State :=
  { r64 with priv := .S, csr := { r64.csr with m := { r64.csr.m with envcfg := 0x8000000000000000#64 } } }
abbrev timerM32 : State := { r32 with csr := { r32.csr with m := { r32.csr.m with envcfg := 0x8000000000000000#64 } } }

/-- M with an FPU that is on. -/
def fpuM : State :=
  let s := State.resetOf (bigMachine true)
  { s with csr := { s.csr with status := s.csr.status ||| 0x6000#64 }, fpAccrued := 0x11#5 }

/-- One state for each alternative; `mie` and `mip` from M, `sie` and `sip` from S. -/
theorem witness_InterruptCsrs :
    (∃ f g, csrForm r64 (readCsr 0x304#12) = some f ∧ csrForm r64 (readCsr 0x344#12) = some g
      ∧ f.csr.toNat / 256 = 3 ∧ r64.priv = .M ∧ f.csr.toNat % 256 = 0x04 ∧ g.csr.toNat / 256 = 3 ∧ g.csr.toNat % 256 = 0x44)
    ∧ ∃ f g, csrForm timerS (readCsr 0x104#12) = some f ∧ csrForm timerS (readCsr 0x144#12) = some g
      ∧ f.csr.toNat / 256 = 1 ∧ timerS.priv ≠ .U ∧ f.csr.toNat % 256 = 0x04 ∧ g.csr.toNat / 256 = 1 ∧ g.csr.toNat % 256 = 0x44 :=
  ⟨⟨_, _, rfl, rfl, by decide, rfl, by decide, by decide, by decide⟩,
   _, _, rfl, rfl, by decide, by decide, by decide, by decide, by decide⟩

/-- Every register of the statement from M, those of S from S too; a cause with the interrupt flag. -/
theorem witness_TrapCsrs :
    (∀ a : Nat, a ∈ [0x305, 0x340, 0x341, 0x342, 0x343, 0x302, 0x303] →
      ∃ f, csrForm invState (readCsr (BitVec.ofNat 12 a)) = some f ∧ f.csr.toNat = a ∧ f.csr.toNat / 256 = 3 ∧ invState.priv = .M)
    ∧ (∀ a : Nat, a ∈ [0x105, 0x140, 0x141, 0x142, 0x143] →
      ∃ f, csrForm timerS (readCsr (BitVec.ofNat 12 a)) = some f ∧ f.csr.toNat = a ∧ f.csr.toNat / 256 = 1 ∧ timerS.priv ≠ .U)
    ∧ (invState.csr.at .m).epc.getLsbD 0 = false ∧ (timerS.csr.at .s).epc.getLsbD 0 = false
    ∧ invState.csr.medeleg &&& ~~~0xB3FF#16 = 0#16 ∧ invState.csr.mideleg &&& ~~~0x222#12 = 0#12
    ∧ (let s : State := { r64 with csr := { r64.csr with m := { r64.csr.m with causeInt := true, causeCode := 7#63 } } }
       let old : Word := BitVec.ofBool true ++ 7#63
       (∀ b, b < s.xw - 1 → old.getLsbD b = (s.csr.at .m).causeCode.getLsbD b)
       ∧ old.getLsbD (s.xw - 1) = (s.csr.at .m).causeInt ∧ old.toNat < 2 ^ s.xw) := by
  refine ⟨fun a h => ⟨_, rfl, ?_, ?_, rfl⟩, fun a h => ⟨_, rfl, ?_, ?_, by decide⟩, by decide, by decide, by decide, by decide,
    fun b hb => ?_, by decide, by decide⟩
  · revert a; decide
  · revert a; decide
  · revert a; decide
  · revert a; decide
  · have hb : b < 63 := hb
    show (BitVec.ofBool true ++ 7#63).getLsbD b = (7#63).getLsbD b
    rw [BitVec.getLsbD_append, if_pos hb]

/-- `satp` from S, with TVM set and clear, and from M at XLEN = 32. -/
theorem witness_Satp :
    (∃ f, csrForm (sys .S 0x100000#64 0#16 0#64 0#64) (readCsr 0x180#12) = some f ∧ f.csr = 0x180#12
      ∧ (sys .S 0x100000#64 0#16 0#64 0#64).priv ≠ .U ∧ stTvm (sys .S 0x100000#64 0#16 0#64 0#64).csr.status = true)
    ∧ (∃ f, csrForm timerS (readCsr 0x180#12) = some f ∧ f.csr = 0x180#12 ∧ timerS.priv ≠ .U
      ∧ stTvm timerS.csr.status = false ∧ timerS.xlen = .x64)
    ∧ ∃ f, csrForm r32 (readCsr 0x180#12) = some f ∧ f.csr = 0x180#12 ∧ r32.priv ≠ .U
      ∧ stTvm r32.csr.status = false ∧ r32.xlen = .x32 :=
  ⟨⟨_, rfl, rfl, by decide, by decide⟩, ⟨_, rfl, rfl, by decide, by decide, by decide⟩, _, rfl, rfl, by decide, by decide, by decide⟩

/-- One state for each clause: `stimecmp` from S and, at XLEN = 32, from M; `stimecmph`; `time`, `timeh` and `seed` from M. -/
theorem witness_TimerAndEntropyCsrs :
    (∃ f, csrForm timerS (readCsr 0x14D#12) = some f ∧ f.csr = 0x14D#12 ∧ timerS.priv ≠ .U
      ∧ timerS.csr.m.envcfg.getLsbD 63 = true ∧ timerS.xlen = .x64)
    ∧ (∃ f g, csrForm timerM32 (readCsr 0x14D#12) = some f ∧ f.csr = 0x14D#12 ∧ csrForm timerM32 (readCsr 0x15D#12) = some g
      ∧ g.csr = 0x15D#12 ∧ timerM32.priv ≠ .U ∧ timerM32.csr.m.envcfg.getLsbD 63 = true ∧ timerM32.xlen = .x32)
    ∧ (∃ f, csrForm r64 (readCsr 0xC01#12) = some f ∧ f.csr = 0xC01#12 ∧ f.operand = 0#64 ∧ csrOpen r64 .time)
    ∧ (∃ f, csrForm r32 (readCsr 0xC81#12) = some f ∧ f.csr = 0xC81#12 ∧ f.operand = 0#64 ∧ csrOpen r32 .timeh
      ∧ r32.xlen = .x32)
    ∧ ∃ f, csrForm r64 (readCsr 0x015#12) = some f ∧ f.csr = 0x015#12 ∧ csrOpen r64 .seed :=
  ⟨⟨_, rfl, rfl, by decide, by decide, by decide⟩, ⟨_, _, rfl, rfl, rfl, rfl, by decide, by decide, by decide⟩,
   ⟨_, rfl, rfl, rfl, fun h => absurd rfl h, fun h => by cases h⟩,
   ⟨_, rfl, rfl, rfl, ⟨fun h => absurd rfl h, fun h => by cases h⟩, by decide⟩,
   _, rfl, rfl, (fun h => by cases h), (fun h => by cases h)⟩

/-- The hypotheses of `OtherCsrs` on a state and an address. -/
abbrev OtherPremises (s : State) (a : Nat) : Prop :=
  ∃ f, csrForm s (readCsr (BitVec.ofNat 12 a)) = some f ∧ a = f.csr.toNat ∧ a / 256 % 4 ≤ s.priv.toNat
    ∧ (a / 1024 = 3 → f.operand = 0#64)

theorem otherPremises {s : State} {a : Nat} (h1 : a = (BitVec.ofNat 12 a).toNat) (h2 : a / 256 % 4 ≤ s.priv.toNat) :
    OtherPremises s a := ⟨_, rfl, h1, h2, fun _ => by simp [State.x]⟩

/-- M at XLEN = 64: `misa`, the constants, the ends of the ranges of zeros, and the masked registers. -/
theorem witness_OtherCsrs_m64 :
    (∀ a, a ∈ [0x301, 0xF11, 0xF12, 0xF13, 0xF14, 0xF15, 0x320, 0x323, 0x33F, 0x3A0, 0x3EF, 0xB00, 0xB02, 0xB1F, 0xC00, 0xC02,
      0xC1F, 0x306, 0x106, 0x30A, 0x10A, 0x747] → OtherPremises invState a)
    ∧ invState.xlen = .x64 ∧ invState.csr.misaExt = 0x141105#26 ∧ invState.hw.wf = true ∧ BankInv invState := by
  refine ⟨fun a h => otherPremises ?_ ?_, by decide, by decide, by decide, witness_Invariants.2.2.2.1⟩
  · revert a; decide
  · revert a; decide

/-- M at XLEN = 32: the views of the upper halves and the zeros that exist there only. -/
theorem witness_OtherCsrs_m32 :
    (∀ a, a ∈ [0x301, 0x30A, 0x31A, 0x310, 0x747, 0x757, 0xB80, 0xB82, 0xB9F, 0xC80, 0xC82, 0xC9F] → OtherPremises r32 a)
    ∧ r32.xlen = .x32 ∧ r32.csr.mxl = .x32 ∧ r32.csr.misaExt = 0x141105#26 ∧ BankInv r32 := by
  refine ⟨fun a h => otherPremises ?_ ?_, by decide, by decide, by decide, ?_⟩
  · revert a; decide
  · revert a; decide
  · constructor <;> decide

/-- The counters that read as zero from U, the registers of S from S, and `fcsr` and its views with an FPU. -/
theorem witness_OtherCsrs_low :
    (∀ a, a ∈ [0xC00, 0xC02, 0xC1F] → OtherPremises (sys .U 0#64 0#16 0#64 0#64) a)
    ∧ (∀ a, a ∈ [0x106, 0x10A] → OtherPremises timerS a)
    ∧ (∀ a, a ∈ [0x001, 0x002, 0x003] → OtherPremises fpuM a) ∧ csrOpen fpuM .fcsr := by
  refine ⟨fun a h => otherPremises ?_ ?_, fun a h => otherPremises ?_ ?_, fun a h => otherPremises ?_ ?_, by decide, by decide⟩ <;>
    revert a <;> decide

end Sys2Proof.Tests
end

section
/-! SUPPORT. Whatever the decoder accepts is a term some word encodes: the other half of the round trip's well-formedness
(30_encoding R204, R205, R222, R227). -/

namespace Sys2Proof

/-- If the decoder's answer is an instruction, the instruction is well-formed. -/
def AnswersWf (x : Xlen) (r : Except Reject Instr) : Prop := ∀ i, r = .ok i → i.wf x = true

@[simp] theorem answersWf_ok (x : Xlen) (i : Instr) : AnswersWf x (.ok i) ↔ i.wf x = true := by
  simp [AnswersWf]

@[simp] theorem answersWf_error (x : Xlen) (r : Reject) : AnswersWf x (.error r) := fun _ h => nomatch h

@[simp] theorem answersWf_ite (x : Xlen) (c : Prop) [Decidable c] (a b : Except Reject Instr) :
    AnswersWf x (if c then a else b) ↔ (c → AnswersWf x a) ∧ (¬ c → AnswersWf x b) := by
  split <;> simp [*]

@[simp] theorem answersWf_only64 (x : Xlen) (i : Instr) : AnswersWf x (only64 x i) ↔ (x.is64 = true → i.wf x = true) := by
  simp [only64]

@[simp] theorem answersWf_decodeShift (x : Xlen) (sh : BitVec 6) (i : Instr) :
    AnswersWf x (decodeShift x sh i) ↔ (shamtFits x sh = true → i.wf x = true) := by
  simp [decodeShift]

/-! ### The immediates that end in zeros -/

theorem lowBits_append_zero {m : Nat} (k : Nat) (v : BitVec m) : (v ++ 0#k).extractLsb' 0 k = 0#k := by
  ext i hi
  simp [hi, BitVec.getLsbD_append]

theorem evenBits_append_zero {m : Nat} (v : BitVec m) : evenBits (v ++ 0#1) = true := by
  simp [evenBits, BitVec.getElem_append]

@[simp] theorem immB_even (w : BitVec 32) : evenBits (immB w) = true := evenBits_append_zero _
@[simp] theorem immJ_even (w : BitVec 32) : evenBits (immJ w) = true := evenBits_append_zero _
@[simp] theorem cOffJ_even (w : BitVec 16) : evenBits (cOffJ w) = true := evenBits_append_zero _
@[simp] theorem cOffB_even (w : BitVec 16) : evenBits (cOffB w) = true := evenBits_append_zero _
@[simp] theorem cImmAddi4spn_mult4 (w : BitVec 16) : mult4 (cImmAddi4spn w) = true :=
  beq_iff_eq.2 (lowBits_append_zero 2 _)
@[simp] theorem cImmW_mult4 (w : BitVec 16) : mult4 (cImmW w) = true := beq_iff_eq.2 (lowBits_append_zero 2 _)
@[simp] theorem cImmD_mult8 (w : BitVec 16) : mult8 (cImmD w) = true := beq_iff_eq.2 (lowBits_append_zero 3 _)
@[simp] theorem cImmAddi16sp_mult16 (w : BitVec 16) : mult16 (cImmAddi16sp w) = true :=
  beq_iff_eq.2 (lowBits_append_zero 4 _)
@[simp] theorem cImmLwsp_mult4 (w : BitVec 16) : mult4 (cImmLwsp w) = true := beq_iff_eq.2 (lowBits_append_zero 2 _)
@[simp] theorem cImmLdsp_mult8 (w : BitVec 16) : mult8 (cImmLdsp w) = true := beq_iff_eq.2 (lowBits_append_zero 3 _)
@[simp] theorem cImmSwsp_mult4 (w : BitVec 16) : mult4 (cImmSwsp w) = true := beq_iff_eq.2 (lowBits_append_zero 2 _)
@[simp] theorem cImmSdsp_mult8 (w : BitVec 16) : mult8 (cImmSdsp w) = true := beq_iff_eq.2 (lowBits_append_zero 3 _)

/-! ### One lemma for each table of the decoder -/

theorem decodeLoad_wf (x : Xlen) (w : BitVec 32) : AnswersWf x (decodeLoad x w) := by
  unfold decodeLoad; split <;> simp [Instr.wf]

theorem decodeMiscMem_wf (x : Xlen) (w : BitVec 32) : AnswersWf x (decodeMiscMem w) := by
  unfold decodeMiscMem; split <;> simp [Instr.wf]

theorem decodeOpImm_wf (x : Xlen) (w : BitVec 32) : AnswersWf x (decodeOpImm x w) := by
  unfold decodeOpImm
  split
  case h_2 | h_6 => split <;> simp [Instr.wf]
  all_goals simp [Instr.wf]

theorem decodeOpImm32_wf (x : Xlen) (w : BitVec 32) : AnswersWf x (decodeOpImm32 x w) := by
  unfold decodeOpImm32
  split
  case h_2 | h_3 => split <;> simp [Instr.wf]
  all_goals simp [Instr.wf]

theorem decodeStore_wf (x : Xlen) (w : BitVec 32) : AnswersWf x (decodeStore x w) := by
  unfold decodeStore; split <;> simp [Instr.wf]

theorem decodeAmoW_wf (x : Xlen) (w : BitVec 32) : AnswersWf x (decodeAmoW w) := by
  unfold decodeAmoW; split <;> simp [Instr.wf]

theorem decodeAmoD_wf (x : Xlen) (w : BitVec 32) : AnswersWf x (decodeAmoD x w) := by
  unfold decodeAmoD; split <;> simp [Instr.wf]

theorem decodeAmo_wf (x : Xlen) (w : BitVec 32) : AnswersWf x (decodeAmo x w) := by
  unfold decodeAmo
  split
  · exact decodeAmoW_wf x w
  · exact decodeAmoD_wf x w
  · exact answersWf_error x _

theorem decodeOpBase_wf (x : Xlen) (w : BitVec 32) : AnswersWf x (decodeOpBase w) := by
  unfold decodeOpBase; split <;> simp [Instr.wf]

theorem decodeMulDiv_wf (x : Xlen) (w : BitVec 32) : AnswersWf x (decodeMulDiv w) := by
  unfold decodeMulDiv; split <;> simp [Instr.wf]

theorem decodeOp_wf (x : Xlen) (w : BitVec 32) : AnswersWf x (decodeOp w) := by
  unfold decodeOp
  split
  · exact decodeOpBase_wf x w
  · exact decodeMulDiv_wf x w
  · split <;> simp [Instr.wf]
  · exact answersWf_error x _

theorem decodeOp32_wf (x : Xlen) (w : BitVec 32) : AnswersWf x (decodeOp32 x w) := by
  unfold decodeOp32
  split
  case h_4 => exact answersWf_error x _
  all_goals split <;> simp [Instr.wf]

theorem decodeBranch_wf (x : Xlen) (w : BitVec 32) : AnswersWf x (decodeBranch w) := by
  unfold decodeBranch; split <;> simp [Instr.wf]

theorem decodePriv_wf (x : Xlen) (w : BitVec 32) : AnswersWf x (decodePriv w) := by
  simp [decodePriv, Instr.wf]

theorem decodeSystem_wf (x : Xlen) (w : BitVec 32) : AnswersWf x (decodeSystem w) := by
  unfold decodeSystem
  split
  case h_1 => exact decodePriv_wf x w
  all_goals simp [Instr.wf]

theorem decode32_wf (x : Xlen) (w : BitVec 32) : AnswersWf x (decode32 x w) := by
  unfold decode32
  split
  · exact decodeLoad_wf x w
  case h_4 => exact decodeMiscMem_wf x w
  case h_5 => exact decodeOpImm_wf x w
  case h_7 => exact decodeOpImm32_wf x w
  case h_8 => exact decodeStore_wf x w
  case h_11 => exact decodeAmo_wf x w
  case h_12 => exact decodeOp_wf x w
  case h_14 => exact decodeOp32_wf x w
  case h_21 => exact decodeBranch_wf x w
  case h_22 => split <;> simp [Instr.wf]
  case h_24 => exact decodeSystem_wf x w
  all_goals simp [Instr.wf]

theorem decodeQ0_wf (x : Xlen) (w : BitVec 16) : AnswersWf x (decodeQ0 x w) := by
  unfold decodeQ0; split <;> simp +contextual [Instr.wf]

theorem decodeQ1Alu_wf (x : Xlen) (w : BitVec 16) : AnswersWf x (decodeQ1Alu x w) := by
  unfold decodeQ1Alu
  split
  case h_4 => split <;> simp [Instr.wf]
  all_goals simp [Instr.wf]

theorem decodeQ1_wf (x : Xlen) (w : BitVec 16) : AnswersWf x (decodeQ1 x w) := by
  unfold decodeQ1
  split
  case h_5 => exact decodeQ1Alu_wf x w
  all_goals simp +contextual [Instr.wf]

theorem decodeQ2Jump_wf (x : Xlen) (w : BitVec 16) : AnswersWf x (decodeQ2Jump w) := by
  unfold decodeQ2Jump; split <;> simp [Instr.wf]

theorem decodeQ2_wf (x : Xlen) (w : BitVec 16) : AnswersWf x (decodeQ2 x w) := by
  unfold decodeQ2
  split
  case h_5 => exact decodeQ2Jump_wf x w
  all_goals simp +contextual [Instr.wf]

theorem decode16_wf (x : Xlen) (w : BitVec 16) : AnswersWf x (decode16 x w) := by
  unfold decode16
  split
  · exact decodeQ0_wf x w
  · exact decodeQ1_wf x w
  · exact decodeQ2_wf x w
  · exact answersWf_error x _

/-- An instruction the decoder reads at XLEN `x` is well-formed at XLEN `x`. -/
theorem decode_wf {x : Xlen} {e : Encoded} {i : Instr} (h : decode x e = .ok i) : i.wf x = true := by
  cases e with
  | c16 w => exact decode16_wf x w i h
  | c32 w => exact decode32_wf x w i h

end Sys2Proof
end
section
/-! SUPPORT. What every step keeps. A predicate that external events, the preparation of a fetch, the effects of
instructions, traps and returns keep is kept by every step; the invariants of the machine are such. -/

namespace Sys2Proof.Machine

/-- The predicate is kept by each part a step is made of (40_fetch_decode R240). -/
structure StepKeeps (P : State → Prop) : Prop where
  /-- The removal of an external event from the schedule. -/
  inbox : ∀ {s : State} (rest : List (Nat × Event)), P s → P { s with inbox := rest }
  /-- The effect of an external event. -/
  event : ∀ {s : State} (e : Event), P s → P (s.event e)
  /-- Time, waiting, the interrupt check and the fetch. -/
  prelude : ∀ {s t : State}, Prelude s t → P s → P t
  /-- The data effects of an instruction. -/
  data : ∀ {s u : State}, Data s u → P s → P u
  /-- The effects of a CSR access. -/
  csr : ∀ {s u : State}, CsrEffect s u → P s → P u
  /-- A register write. -/
  setX : ∀ {n : Nat} {s : State} (rd : Reg) (v : BitVec n), P s → P (s.setX rd v)
  /-- A new pc, which is even if the old one is. -/
  setPc : ∀ {n : Nat} {s : State} {p : BitVec n}, (s.pc.getLsbD 0 = false → p.getLsbD 0 = false) → P s → P (s.setPc p)
  /-- A trap. -/
  trap : ∀ {s : State} (int : Bool) (c : Nat) (tv : Word), P s → P (s.takeTrap int c tv)
  /-- A return from a trap of M. -/
  mret : ∀ {s : State}, P s → P s.returnM
  /-- A return from a trap of S. -/
  sret : ∀ {s : State}, P s → P s.returnS

theorem Data.pc {s u : State} (h : Data s u) : u.pc = s.pc := by rw [h.frame]

theorem CsrEffect.pc {s u : State} (h : CsrEffect s u) : u.pc = s.pc := by rw [h.frame]

namespace StepKeeps

variable {P : State → Prop} {s t : State}

/-- Executing a well-formed instruction keeps the predicate. -/
theorem exec (k : StepKeeps P) {i : Instr} (hi : i.wf .x64 = true ∨ i.wf .x32 = true) (hs : P s)
    (h : exec i s = .next t) : P t := by
  have r := exec_runs i s
  rw [h] at r
  cases r with
  | retires u rd v p hu even =>
    exact k.setPc (fun he => even hi (by simpa [hu.pc] using he)) (k.setX rd v (k.data hu hs))
  | traps u c tv hu => exact k.trap false c tv (k.data hu hs)
  | csr a v op rd old u hu =>
    have e := csrAccess_effect hu
    exact k.setPc (fun he => bit0_nextPc rfl (by simpa [e.pc] using he)) (k.setX rd _ (k.csr e hs))
  | mret => exact k.mret hs
  | sret => exact k.sret hs

/-- A step keeps the predicate. -/
theorem step (k : StepKeeps P) (hs : P s) (h : step s = .next t) : P t := by
  have b := preStep_before s
  unfold Machine.step at h
  generalize preStep s = p at b h
  cases b with
  | bad | refused => cases h
  | event e rest => cases h; exact k.event e (k.inbox rest hs)
  | waits u hu => cases h; exact k.prelude hu hs
  | traps u int c tv hu => cases h; exact k.trap int c tv (k.prelude hu hs)
  | run i u e hu hd =>
    have hw := decode_wf hd
    refine k.exec ?_ (k.prelude hu hs) h
    cases hx : u.xlen <;> rw [hx] at hw
    · exact .inr hw
    · exact .inl hw

end StepKeeps

/-! ### The bank after a trap and after a return -/

theorem enterM_csr (s : State) (int : Bool) (c : Nat) (tv : Word) :
    (s.enterM int c tv).csr =
      { s.csr with
        status := validate s.hw (statusToM s.csr.status s.priv)
        m := s.csr.m.saved s.vpc int c tv } := by
  simp [State.enterM]

theorem enterS_csr (s : State) (int : Bool) (c : Nat) (tv : Word) :
    (s.enterS int c tv).csr =
      { s.csr with
        status := validate s.hw (statusToS s.csr.status s.priv)
        s := s.csr.s.saved s.vpc int c tv } := by
  simp [State.enterS]

theorem returnM_csr (s : State) : s.returnM.csr =
    { s.csr with status := validate s.hw (statusMret s.csr.status (privOfCode (stMpp s.csr.status))) } := by
  simp [State.returnM]

theorem returnS_csr (s : State) : s.returnS.csr =
    { s.csr with status := validate s.hw (statusSret s.csr.status) } := by
  simp [State.returnS]

/-- A property of both entries is one of the trap. -/
theorem takeTrap_of_entries {P : State → Prop} {s : State} {int : Bool} {c : Nat} {tv : Word}
    (hm : P (s.enterM int c tv)) (hs : P (s.enterS int c tv)) : P (s.takeTrap int c tv) := by
  unfold State.takeTrap
  split
  · exact hs
  · exact hm

/-! ### The pc and the saved pcs (10_state R27) -/

theorem setPc_even {n : Nat} {s : State} {p : BitVec n} (h : p.getLsbD 0 = false) : (s.setPc p).pc.getLsbD 0 = false := by
  rw [State.setPc_pc, bit0_setWidth 64 p (by decide), h]

theorem jumpTo_even {s : State} {v : Word} (h : v.getLsbD 0 = false) : (s.jumpTo v).pc.getLsbD 0 = false := by
  have hx := s.xw_eq
  exact setPc_even (by rw [bit0_setWidth s.xw v (by omega), h])

theorem trapVector_even (tvec : Word) (int : Bool) (c : Nat) : (trapVector tvec int c).getLsbD 0 = false := by
  have hb : (tvec &&& ~~~3#64).getLsbD 0 = false := by simp
  unfold trapVector
  split
  · exact bit0_add _ _ hb (bit0_ofNat _ (by omega))
  · exact hb

theorem vpc_even {s : State} (h : s.pc.getLsbD 0 = false) : s.vpc.getLsbD 0 = false := by
  unfold State.vpc
  rw [bit0_setWidth 64 s.pcX (by decide), bit0_pcX h]

theorem PcInv.congr {s t : State} (h : PcInv s) (hpc : t.pc = s.pc) (hcsr : t.csr = s.csr) : PcInv t :=
  ⟨hpc ▸ h.pc, hcsr ▸ h.mepc, hcsr ▸ h.sepc⟩

theorem PcInv.takeTrap {s : State} (h : PcInv s) (int : Bool) (c : Nat) (tv : Word) : PcInv (s.takeTrap int c tv) := by
  apply takeTrap_of_entries
  · refine ⟨jumpTo_even (trapVector_even _ _ _), ?_, ?_⟩ <;> rw [enterM_csr]
    · exact vpc_even h.pc
    · exact h.sepc
  · refine ⟨jumpTo_even (trapVector_even _ _ _), ?_, ?_⟩ <;> rw [enterS_csr]
    · exact h.mepc
    · exact vpc_even h.pc

theorem pcInv_stepKeeps : StepKeeps PcInv where
  inbox _ h := h.congr rfl rfl
  event e h := h.congr (by simp) (by simp)
  prelude hu h := h.congr (by rw [hu.frame]) (by rw [hu.frame])
  data hu h := h.congr (by rw [hu.frame]) (by rw [hu.frame])
  csr e h := ⟨by rw [e.pc]; exact h.pc, e.mepc h.mepc, e.sepc h.sepc⟩
  setX rd v h := h.congr (by simp) (by simp)
  setPc he h := ⟨setPc_even (he h.pc), h.mepc, h.sepc⟩
  trap int c tv h := h.takeTrap int c tv
  mret h := ⟨jumpTo_even h.mepc, by rw [returnM_csr]; exact h.mepc, by rw [returnM_csr]; exact h.sepc⟩
  sret h := ⟨jumpTo_even h.sepc, by rw [returnS_csr]; exact h.mepc, by rw [returnS_csr]; exact h.sepc⟩

/-- Settles O19: every part of a step keeps the three addresses even; a jump's offset is even because the decoder's is. -/
theorem pcInvariant : Obligations.PcInvariant := by
  unfold Obligations.PcInvariant
  intro s t hs h
  exact pcInv_stepKeeps.step hs h

/-! ### The bank (15_csr R80 to R91) -/

theorem BankInv.congr {s t : State} (h : BankInv s) (hhw : t.hw = s.hw) (hcsr : t.csr = s.csr)
    (hirq : t.irqPending &&& ~~~0xAAA#12 = 0#12) (hroot : t.rootPageTable = s.rootPageTable)
    (hmmu : t.mmuMode = s.mmuMode) : BankInv t where
  ie := hcsr ▸ h.ie
  ip := hcsr ▸ h.ip
  irq := hirq
  medeleg := hcsr ▸ h.medeleg
  mideleg := hcsr ▸ h.mideleg
  menvcfg := hcsr ▸ h.menvcfg
  senvcfg := hcsr ▸ h.senvcfg
  mseccfg := hcsr ▸ h.mseccfg
  misaExt := hcsr ▸ h.misaExt
  mxl := by rw [hhw, hcsr]; exact h.mxl
  root := hroot ▸ h.root
  mmu := by rw [hhw, hmmu]; exact h.mmu

/-- The status word and what a trap saves hold none of the bits the invariant speaks of. -/
theorem BankInv.withTrap {s : State} (h : BankInv s) (w : Word) (m s' : TrapRegs) (hm : m.envcfg = s.csr.m.envcfg)
    (hs : s'.envcfg = s.csr.s.envcfg) : BankInv { s with csr := { s.csr with status := w, m := m, s := s' } } where
  ie := h.ie
  ip := h.ip
  irq := h.irq
  medeleg := h.medeleg
  mideleg := h.mideleg
  menvcfg := hm ▸ h.menvcfg
  senvcfg := hs ▸ h.senvcfg
  mseccfg := h.mseccfg
  misaExt := h.misaExt
  mxl := h.mxl
  root := h.root
  mmu := h.mmu

theorem BankInv.takeTrap {s : State} (h : BankInv s) (int : Bool) (c : Nat) (tv : Word) :
    BankInv (s.takeTrap int c tv) := by
  apply takeTrap_of_entries
  · exact (h.withTrap _ (s.csr.m.saved s.vpc int c tv) s.csr.s rfl rfl).congr (by simp) (enterM_csr s int c tv)
      (by simpa using h.irq) (by simp) (by simp)
  · exact (h.withTrap _ s.csr.m (s.csr.s.saved s.vpc int c tv) rfl rfl).congr (by simp) (enterS_csr s int c tv)
      (by simpa using h.irq) (by simp) (by simp)

theorem BankInv.event {s : State} (h : BankInv s) (e : Event) : BankInv (s.event e) := by
  refine h.congr (by simp) (by simp) ?_ (by simp) (by simp)
  cases e with
  | post c => exact setIrq_clear s true (by cases c <;> decide) h.irq
  | clear c => exact setIrq_clear s false (by cases c <;> decide) h.irq
  | brk => exact h.irq
  | ramWrite pa bytes => exact h.irq

theorem bankInv_stepKeeps : StepKeeps BankInv where
  inbox _ h := h.congr rfl rfl h.irq rfl rfl
  event e h := h.event e
  prelude hu h := h.congr (by rw [hu.frame]) (by rw [hu.frame]) (hu.irq h.irq) (by rw [hu.frame]) (by rw [hu.frame])
  data hu h := h.congr (by rw [hu.frame]) (by rw [hu.frame]) (by rw [hu.frame]; exact h.irq) (by rw [hu.frame])
    (by rw [hu.frame])
  csr e h := e.bank h
  setX rd v h := h.congr (by simp) (by simp) (by simpa using h.irq) (by simp) (by simp)
  setPc _ h := h.congr rfl rfl h.irq rfl rfl
  trap int c tv h := h.takeTrap int c tv
  mret h := (h.withTrap _ _ _ rfl rfl).congr (by simp) (returnM_csr _) (by simpa using h.irq) (by simp) (by simp)
  sret h := (h.withTrap _ _ _ rfl rfl).congr (by simp) (returnS_csr _) (by simpa using h.irq) (by simp) (by simp)

/-! ### The reservation (10_state R38), x0 (R22) and the parameters -/

theorem ReservationInv.congr {s t : State} (h : ReservationInv s) (hhw : t.hw = s.hw)
    (hres : t.reservation = s.reservation) : ReservationInv t := by
  unfold ReservationInv
  rw [hhw, hres]
  exact h

/-- An event ends a reservation or leaves it. -/
theorem ReservationInv.event {s : State} (h : ReservationInv s) (e : Event) : ReservationInv (s.event e) := by
  cases e with
  | post | clear | brk => exact h.congr rfl rfl
  | ramWrite pa bytes =>
    intro r hr
    exact h r (Option.filter_eq_some_iff.1 hr).1

theorem reservationInv_stepKeeps : StepKeeps ReservationInv where
  inbox _ h := h.congr rfl rfl
  event e h := h.event e
  prelude hu h := h.congr (by rw [hu.frame]) (by rw [hu.frame])
  data hu h := hu.res h
  csr e h := h.congr (by rw [e.frame]) (by rw [e.frame])
  setX rd v h := h.congr (by simp) (by simp)
  setPc _ h := h.congr rfl rfl
  trap int c tv h := h.congr (by simp) (by simp)
  mret h := h.congr (by simp) (by simp)
  sret h := h.congr (by simp) (by simp)

theorem X0Inv.congr {s t : State} (h : X0Inv s) (hregs : t.regs = s.regs) : X0Inv t := by
  unfold X0Inv
  rw [hregs]
  exact h

/-- A register write never reaches `x0`. -/
theorem X0Inv.setX {n : Nat} {s : State} (h : X0Inv s) (rd : Reg) (v : BitVec n) : X0Inv (s.setX rd v) := by
  have hne : ¬ (0#5 = rd ∧ rd ≠ 0#5) := fun hc => hc.2 hc.1.symm
  have hget := setX_get s rd v 0#5
  rw [if_neg hne] at hget
  exact hget.trans h

theorem x0Inv_stepKeeps : StepKeeps X0Inv where
  inbox _ h := h.congr rfl
  event e h := h.congr (by simp)
  prelude hu h := h.congr (by rw [hu.frame])
  data hu h := h.congr (by rw [hu.frame])
  csr e h := h.congr (by rw [e.frame])
  setX rd v h := h.setX rd v
  setPc _ h := h.congr rfl
  trap int c tv h := h.congr (by simp)
  mret h := h.congr (by simp)
  sret h := h.congr (by simp)

/-- Every part of a step leaves the parameters alone. -/
theorem hw_stepKeeps (p : Params) : StepKeeps fun s => s.hw = p where
  inbox _ h := h
  event e h := by simpa using h
  prelude hu h := by rw [hu.frame]; exact h
  data hu h := by rw [hu.frame]; exact h
  csr e h := by rw [e.frame]; exact h
  setX rd v h := by simpa using h
  setPc _ h := h
  trap int c tv h := by simpa using h
  mret h := by simpa using h
  sret h := by simpa using h

theorem step_hw {s t : State} (h : step s = .next t) : t.hw = s.hw := (hw_stepKeeps s.hw).step rfl h

/-- Settles O21: each part of the invariant is kept by every part of a step, independently of the others. -/
theorem bankInvariant : Obligations.BankInvariant := by
  unfold Obligations.BankInvariant
  intro s t hbank hres hx0 h
  exact ⟨bankInv_stepKeeps.step hbank h, reservationInv_stepKeeps.step hres h, x0Inv_stepKeeps.step hx0 h, step_hw h⟩

end Sys2Proof.Machine
end

section
/-! SUPPORT. The state after reset (10_state R45, R46). -/

namespace Sys2Proof.Machine

theorem resetOf_xlen (p : Params) : (State.resetOf p).xlen = if p.rv64 then .x64 else .x32 := by
  cases h : p.rv64 <;> simp [State.xlen, State.xlenIn, xlenFor, State.resetOf, CsrBank.reset, h]

theorem resetOf_regs_of_ne_zero (p : Params) {i : Reg} (hi : i ≠ 0#5) :
    (State.resetOf p).regs.get i.toFin = p.resetRegs.get i.toFin := by
  have hne : 0 ≠ i.toNat := fun h => hi (BitVec.eq_of_toNat_eq h.symm)
  exact Vector.getElem_set_ne (by decide) i.isLt hne

theorem resetOf_x0Inv (p : Params) : X0Inv (State.resetOf p) := Vector.getElem_set_self _

theorem resetOf_memInv (p : Params) : MemInv (State.resetOf p) where
  canonical := ⟨List.Pairwise.nil, fun _ h => nomatch h⟩
  inWindow _ h := nomatch h

theorem resetOf_pcInv {p : Params} (h : p.wf = true) : PcInv (State.resetOf p) where
  pc := by
    simp only [Params.wf, Bool.and_eq_true, Bool.not_eq_true'] at h
    tauto
  mepc := BitVec.getLsbD_zero
  sepc := BitVec.getLsbD_zero

theorem resetOf_status (p : Params) :
    (State.resetOf p).csr.status = if p.rv64 then 0x0000000A00000000#64 else 0#64 := rfl

theorem resetOf_stFs (p : Params) : stFs (State.resetOf p).csr.status = 0#2 := by
  rw [resetOf_status]; cases p.rv64 <;> decide

/-- Only UXL and SXL are set, to 64 bits, and only where MAXLEN is 64. -/
theorem resetOf_statusInv (p : Params) : StatusInv (State.resetOf p) where
  mpp := by rw [resetOf_status]; cases p.rv64 <;> decide
  vs := by rw [resetOf_status]; cases p.rv64 <;> decide
  xs := by rw [resetOf_status]; cases p.rv64 <;> decide
  fs _ := resetOf_stFs p
  uxl (h : p.rv64 = true) := by rw [resetOf_status, if_pos h]; decide
  dirty _ _ := .inl (resetOf_stFs p)
  sxl (h : p.rv64 = true) := by rw [resetOf_status, if_pos h]; decide
  reserved := by
    rw [resetOf_status]
    change _ &&& ~~~(mstatusWm p.rv64 ||| _) = _
    cases p.rv64 <;> decide

theorem resetOf_bankInv (p : Params) : BankInv (State.resetOf p) := by
  constructor
  case mxl => exact fun (h : p.rv64 = false) => if_neg (by simp [h])
  case mmu => exact fun _ => .inl rfl
  case senvcfg | misaExt | root => rfl
  all_goals exact BitVec.zero_and

theorem resetOf_inv {p : Params} (h : p.wf = true) : Inv (State.resetOf p) where
  params := h
  mem := resetOf_memInv p
  tlb := .of_empty rfl
  pc := resetOf_pcInv h
  status := resetOf_statusInv p
  bank := resetOf_bankInv p
  reservation _ h := nomatch h
  x0 := resetOf_x0Inv p

/-- Settles O22: the record `State.resetOf` gives each value; XLEN follows from MAXLEN and `isa.MXL`. -/
theorem resetValues : Obligations.ResetValues := by
  unfold Obligations.ResetValues
  rintro p s - rfl
  exact ⟨rfl, fun _ hi => resetOf_regs_of_ne_zero p hi, rfl, rfl, resetOf_xlen p, rfl, rfl, rfl, rfl, rfl, rfl, rfl, rfl,
    rfl, rfl, rfl, rfl, rfl, rfl, rfl, fun l => by cases l <;> rfl, rfl, rfl, rfl⟩

/-- Settles O23: `State.reset` is the reset of the default machine, which is one of 00_scope R7. -/
theorem resetMeetsInvariants : Obligations.ResetMeetsInvariants := by
  unfold Obligations.ResetMeetsInvariants
  exact ⟨resetOf_inv (by decide : Params.default.wf = true), fun p h => resetOf_inv h⟩

end Sys2Proof.Machine
end

section
/-! SUPPORT. The status word stays legal (15_csr R70, R71): every write of it is validated, and every word written has its
reserved bits clear. -/

namespace Sys2Proof.Machine

theorem StatusInv.congr {s t : State} (h : StatusInv s) (hhw : t.hw = s.hw) (hst : t.csr.status = s.csr.status) :
    StatusInv t where
  mpp := hst ▸ h.mpp
  vs := hst ▸ h.vs
  xs := hst ▸ h.xs
  fs := by rw [hhw, hst]; exact h.fs
  uxl := by rw [hhw, hst]; exact h.uxl
  dirty := by rw [hhw, hst]; exact h.dirty
  sxl := by rw [hhw, hst]; exact h.sxl
  reserved := by rw [hhw, hst]; exact h.reserved

/-- A state whose status is the validation of a word with its reserved bits clear has a legal one. -/
theorem StatusInv.of_validate {s t : State} {w : Word} (hc : StatusClear s.hw.rv64 w) (hhw : t.hw = s.hw)
    (hst : t.csr.status = validate s.hw w) : StatusInv t :=
  (writeStatus_inv hc).congr (by simpa using hhw) (by simpa using hst)

/-- The one-bit fields that traps and returns write are writable. -/
theorem StatusClear.putFlag {r : Bool} {w : Word} (h : StatusClear r w) {i : Nat} (x : Bool)
    (hi : i ∈ [1, 3, 5, 7, 8, 17]) : StatusClear r (Machine.putBit w i x) := by
  have h64 : ∀ i ∈ [1, 3, 5, 7, 8, 17], i < 64 := by decide
  exact h.putBit x (h64 i hi) (mstatusWm_bit r hi)

theorem StatusClear.statusToM {r : Bool} {w : Word} (h : StatusClear r w) (old : Priv) :
    StatusClear r (statusToM w old) :=
  ((h.putMpp old.code).putFlag _ (by decide)).putFlag _ (by decide)

theorem StatusClear.statusToS {r : Bool} {w : Word} (h : StatusClear r w) (old : Priv) :
    StatusClear r (statusToS w old) :=
  ((h.putFlag _ (by decide)).putFlag _ (by decide)).putFlag _ (by decide)

theorem StatusClear.statusMret {r : Bool} {w : Word} (h : StatusClear r w) (p : Priv) :
    StatusClear r (statusMret w p) := by
  have hv : StatusClear r (putBits (Machine.putBit (Machine.putBit w 3 (stMpie w)) 7 true) 11 0#2) :=
    ((h.putFlag _ (by decide)).putFlag _ (by decide)).putMpp _
  unfold Machine.statusMret
  split
  · exact hv
  · exact hv.putFlag _ (by decide)

theorem StatusClear.statusSret {r : Bool} {w : Word} (h : StatusClear r w) : StatusClear r (statusSret w) :=
  (((h.putFlag _ (by decide)).putFlag _ (by decide)).putFlag _ (by decide)).putFlag _ (by decide)

theorem StatusInv.takeTrap {s : State} (h : StatusInv s) (int : Bool) (c : Nat) (tv : Word) :
    StatusInv (s.takeTrap int c tv) := by
  apply takeTrap_of_entries
  · exact .of_validate (h.clear.statusToM s.priv) (by simp) (by rw [enterM_csr])
  · exact .of_validate (h.clear.statusToS s.priv) (by simp) (by rw [enterS_csr])

theorem statusInv_stepKeeps : StepKeeps StatusInv where
  inbox _ h := h.congr rfl rfl
  event e h := h.congr (by simp) (by simp)
  prelude hu h := h.congr (by rw [hu.frame]) (by rw [hu.frame])
  data hu h := h.congr (by rw [hu.frame]) (by rw [hu.frame])
  csr e h := e.status h
  setX rd v h := h.congr (by simp) (by simp)
  setPc _ h := h.congr rfl rfl
  trap int c tv h := h.takeTrap int c tv
  mret h := .of_validate (h.clear.statusMret _) (by simp) (by rw [returnM_csr])
  sret h := .of_validate h.clear.statusSret (by simp) (by rw [returnS_csr])

/-- Settles O20: traps and returns write only fields that are writable, a CSR write is masked, and each is validated. -/
theorem statusInvariant : Obligations.StatusInvariant := by
  unfold Obligations.StatusInvariant
  intro s t hs h
  exact statusInv_stepKeeps.step hs h

end Sys2Proof.Machine
end

section
/-! SUPPORT. The access protocol of the CSRs (15_csr R60 to R63): when an access is denied, when the rule of a CSR lets it
be accessed, and what an access from U can change. -/

namespace Sys2Proof.Machine

/-! ### Access checks -/

/-- The first two checks deny a write to a read-only address and an address of a higher mode (15_csr R61). -/
theorem csrDenied_of {a : BitVec 12} {v : Word} {p : Priv}
    (h : (a.toNat / 1024 = 3 ∧ v ≠ 0#64) ∨ p.toNat < a.toNat / 256 % 4) : csrDenied a v p = true := by
  have hro : (a.extractLsb' 10 2).toNat = a.toNat / 1024 % 4 := by
    rw [BitVec.extractLsb'_toNat, Nat.shiftRight_eq_div_pow]
  have hlv : (a.extractLsb' 8 2).toNat = a.toNat / 256 % 4 := by
    rw [BitVec.extractLsb'_toNat, Nat.shiftRight_eq_div_pow]
  unfold csrDenied
  rcases h with ⟨ha, hv⟩ | h
  · have h3 : a.extractLsb' 10 2 = 3#2 := BitVec.eq_of_toNat_eq (by rw [hro, ha]; rfl)
    simp [h3, hv]
  · simp [hlv, h]

theorem timeAllowed_iff (s : State) : s.timeAllowed = true ↔ csrOpen s .time := by
  cases h : s.priv <;> simp [State.timeAllowed, csrOpen, h]

theorem seedAllowed_iff (s : State) : s.seedAllowed = true ↔ csrOpen s .seed := by
  cases h : s.priv <;> simp [State.seedAllowed, csrOpen, h]

theorem fpuOn_iff (s : State) : s.fpuOn = true ↔ csrOpen s .fcsr := by
  simp [State.fpuOn, csrOpen]

/-- A CSR can be read exactly if its rule lets it be accessed. -/
theorem csrRead_isSome (x : Xlen) (c : Csr) (s : State) : (csrRead x c s).isSome = true ↔ csrOpen s c := by
  have guarded : ∀ {b : Bool} {v : Word × State}, (if b = true then some v else none).isSome = true ↔ b = true := by
    intro b v; cases b <;> simp
  cases c
  case fflags | frm | fcsr => exact guarded.trans (fpuOn_iff s)
  case seed => exact guarded.trans (seedAllowed_iff s)
  case time | timeh => exact guarded.trans (timeAllowed_iff s)
  case stimecmp | stimecmph => exact guarded
  case satp => cases h : stTvm s.csr.status <;> simp [csrRead, csrOpen, h]
  all_goals exact iff_of_true rfl trivial

theorem csrRead_of_open {x : Xlen} {c : Csr} {s : State} (h : csrOpen s c) : ∃ old t, csrRead x c s = some (old, t) := by
  obtain ⟨⟨old, t⟩, hr⟩ := Option.isSome_iff_exists.1 ((csrRead_isSome x c s).2 h)
  exact ⟨old, t, hr⟩

theorem csrRead_of_not_open {x : Xlen} {c : Csr} {s : State} (h : ¬ csrOpen s c) : csrRead x c s = none := by
  rwa [← csrRead_isSome x c s, Bool.not_eq_true, Option.isSome_eq_false_iff, Option.isNone_iff_eq_none] at h

/-- An access that passes the checks gives what the read gives and leaves what the write leaves. -/
theorem csrAccess_some {a : BitVec 12} {v old : Word} {op : CsrOp} {s t : State} {c : Csr}
    (hd : csrDenied a v s.priv = false) (hm : csrMap s.xlen a = some c) (hr : csrRead s.xlen c s = some (old, t)) :
    csrAccess a v op s = some (old, csrWrite s.xlen c op v (csrNew op old v) t) := by
  simp only [csrAccess, hd, hm, hr, Bool.false_eq_true, if_false]

/-- What an access that succeeds went through. -/
theorem csrAccess_inv {a : BitVec 12} {v old : Word} {op : CsrOp} {s u : State} (h : csrAccess a v op s = some (old, u)) :
    ∃ c t, csrDenied a v s.priv = false ∧ csrMap s.xlen a = some c ∧ csrRead s.xlen c s = some (old, t)
      ∧ u = csrWrite s.xlen c op v (csrNew op old v) t := by
  unfold csrAccess at h
  split at h
  · cases h
  · rename_i hd
    split at h
    · cases h
    · rename_i c hm
      split at h
      · cases h
      · rename_i hr
        cases h
        exact ⟨c, _, by simpa using hd, hm, hr, rfl⟩

/-- A CSR instruction whose access is denied raises illegal instruction with its own bits (15_csr R63, 46_zicsr R421). -/
theorem exec_csr_none {s : State} {i : Instr} {f : CsrForm} (hf : csrForm s i = some f)
    (h : csrAccess f.csr f.operand f.op s = none) :
    exec i s = .next (s.takeTrap false 2 ((encode i).bits.setWidth 64)) := by
  have key : ∀ b, opCsr b f.op f.rd f.csr f.operand s = illegal b s := fun b => by unfold opCsr; rw [h]
  cases i <;> simp only [csrForm, Option.some.injEq, reduceCtorEq] at hf <;> subst hf <;> exact key _

/-- Every mode but U may use an address of S. -/
theorem Priv.one_le {p : Priv} (h : p ≠ .U) : 1 ≤ p.toNat := by
  cases p
  · exact absurd rfl h
  · decide
  · decide

/-- An address of M from M, or of S from S or M, both of them writable. -/
def ReadWriteAt (p : Priv) (a : BitVec 12) : Prop := (p = .M ∧ a.toNat / 256 = 3) ∨ (p ≠ .U ∧ a.toNat / 256 = 1)

/-- A CSR instruction on such an address passes the first two checks. -/
theorem csr_done_readWrite {s t : State} {i : Instr} {f : CsrForm} {c : Csr} {old : Word} (hf : csrForm s i = some f)
    (h : ReadWriteAt s.priv f.csr) (hm : csrMap s.xlen f.csr = some c) (hr : csrRead s.xlen c s = some (old, t)) :
    CsrDone s i f old (csrWrite s.xlen c f.op f.operand (csrNew f.op old f.operand) t) := by
  refine csr_done hf ?_ (fun h3 => ?_) hm hr
  · rcases h with ⟨hp, ha⟩ | ⟨hp, ha⟩
    · rw [hp, ha]; decide
    · rw [ha]; exact Priv.one_le hp
  · rcases h with ⟨-, ha⟩ | ⟨-, ha⟩ <;> omega

/-- The map at an address given as a number. -/
theorem csrMap_of_toNat {x : Xlen} {a : BitVec 12} {n : Nat} {r : Option Csr} (h : a.toNat = n)
    (hn : csrMap x (BitVec.ofNat 12 n) = r) : csrMap x a = r := by
  rw [← hn, ← h, BitVec.ofNat_toNat, BitVec.setWidth_eq]

/-- Settles O53: a CSR whose rule is met can be read, and an access changes neither memory nor registers. -/
theorem csrCompletes : Obligations.CsrCompletes := by
  unfold Obligations.CsrCompletes
  intro i f s c hf hro hp hm ho
  obtain ⟨old, t, hr⟩ := csrRead_of_open (x := s.xlen) ho
  have ha := csrAccess_some (op := f.op) (csrDenied_false hp hro) hm hr
  have he := (csrAccess_effect ha).frame
  exact ⟨old, _, ha, csr_done hf hp hro hm hr, fun a => by rw [he], by rw [he]⟩

/-- Settles O54: each of the four causes makes the access fail, and a failed access raises illegal instruction. -/
theorem csrDenied_traps : Obligations.CsrDenied := by
  unfold Obligations.CsrDenied
  intro i f s hf h
  refine exec_csr_none hf (Option.eq_none_iff_forall_ne_some.2 ?_)
  rintro ⟨old, u⟩ ha
  obtain ⟨c, t, hd, hm, hr, -⟩ := csrAccess_inv ha
  rcases h with h | h | h | ⟨c', hc', hno⟩
  · rw [csrDenied_of (.inl h)] at hd; cases hd
  · rw [csrDenied_of (.inr h)] at hd; cases hd
  · rw [h] at hm; cases hm
  · cases hc'.symm.trans hm
    rw [csrRead_of_not_open hno] at hr; cases hr

/-! ### From U -/

/-- The CSRs of the map at addresses U may use (15_csr R61, R67). -/
def userCsrs : List Csr := [.fflags, .frm, .fcsr, .seed, .time, .timeh, .zero]

/-- A user address names one of them. -/
theorem csrMap_user {x : Xlen} {a : BitVec 12} {c : Csr} (hm : csrMap x a = some c) (ha : a.extractLsb' 8 2 = 0#2) :
    c ∈ userCsrs := by
  have named : ∀ {d}, csrNamed a = some d → d ∈ userCsrs := by
    intro d h
    unfold csrNamed at h
    split at h <;> cases h <;> revert ha <;> decide
  have named32 : ∀ {d}, csrNamed32 a = some d → d ∈ userCsrs := by
    intro d h
    unfold csrNamed32 at h
    split at h <;> cases h <;> revert ha <;> decide
  unfold csrMap at hm
  split at hm
  · rename_i h; cases hm; exact named h
  · split at hm
    · cases hm; decide
    · split at hm
      · cases hm
      · split at hm
        · cases hm; decide
        · exact named32 hm

/-- An access from U on a machine without an FPU takes at most one free value. -/
theorem csrAccess_user {a : BitVec 12} {v old : Word} {op : CsrOp} {s u : State} (hf : s.hw.fpuPresent = false)
    (hp : s.priv = .U) (h : csrAccess a v op s = some (old, u)) : u = { s with draws := u.draws } := by
  obtain ⟨c, t, hd, hm, hr, rfl⟩ := csrAccess_inv h
  have ha : a.extractLsb' 8 2 = 0#2 := by
    have hlevel := (Bool.or_eq_false_iff.1 hd).2
    rw [hp] at hlevel
    exact BitVec.eq_of_toNat_eq (Nat.eq_zero_of_not_pos (of_decide_eq_false hlevel))
  have hfpu : s.fpuOn = false := by simp [State.fpuOn, hf]
  have hc := csrMap_user hm ha
  clear hm
  cases c
  case fflags | frm | fcsr => simp [csrRead, hfpu] at hr
  case seed | time | timeh =>
    simp only [csrRead] at hr
    split at hr <;> cases hr
    rfl
  case zero => cases hr; rfl
  all_goals simp [userCsrs] at hc

/-- A trap goes to S or M (60_exceptions R546). -/
theorem takeTrap_priv_ne_U (s : State) (int : Bool) (c : Nat) (tv : Word) : (s.takeTrap int c tv).priv ≠ .U :=
  takeTrap_of_entries (P := fun t => t.priv ≠ .U) (by simp [State.enterM]) (by simp [State.enterS])

/-- Settles O16: an instruction from U that stays in U retires, and a CSR access from U writes nothing. -/
theorem userModeIsolation : Obligations.UserModeIsolation := by
  unfold Obligations.UserModeIsolation
  intro i s t hf hp h ht
  have r := exec_runs i s
  rw [h] at r
  cases r with
  | retires u rd v p hu _ => simp only [State.setPc_csr, State.setX_csr]; rw [hu.frame]; simp
  | traps u c tv hu => exact absurd ht (takeTrap_priv_ne_U u false c tv)
  | csr a v op rd old u hu => rw [csrAccess_user hf hp hu]; simp
  | mret _ hM => rw [hp] at hM; cases hM
  | sret _ hU => exact absurd hp hU

end Sys2Proof.Machine
end

section
/-! SUPPORT. The bits of a CSR write: under a mask, cut to XLEN, and of a set or clear (15_csr R62, R65). -/

namespace Sys2Proof.Machine

theorem getLsbD_masked {n : Nat} (w m v : BitVec n) (b : Nat) :
    ((w &&& ~~~m) ||| (v &&& m)).getLsbD b = if m.getLsbD b = true then v.getLsbD b else w.getLsbD b := by
  by_cases hb : b < n
  · simp only [BitVec.getLsbD_or, BitVec.getLsbD_and, BitVec.getLsbD_not, hb, decide_true, Bool.true_and]
    cases m.getLsbD b <;> simp
  · simp [BitVec.getLsbD_of_ge _ b (Nat.le_of_not_lt hb)]

theorem getLsbD_maskedWrite (w m v : Word) (b : Nat) :
    (maskedWrite w m v).getLsbD b = if m.getLsbD b = true then v.getLsbD b else w.getLsbD b :=
  getLsbD_masked w m v b

theorem getLsbD_csrView (x : Xlen) (w : Word) (b : Nat) :
    (csrView x w).getLsbD b = (decide (b < x.bits) && w.getLsbD b) := by
  by_cases h64 : b < 64
  · cases x
    · show ((w.setWidth 32).setWidth 64).getLsbD b = (decide (b < 32) && w.getLsbD b)
      simp [h64]
    · show w.getLsbD b = (decide (b < 64) && w.getLsbD b)
      simp [h64]
  · simp [BitVec.getLsbD_of_ge _ b (Nat.le_of_not_lt h64)]

theorem getLsbD_csrStore64 (x : Xlen) (w new : Word) (b : Nat) :
    (csrStore64 x w new).getLsbD b = if b < x.bits then new.getLsbD b else w.getLsbD b := by
  cases x
  case x32 =>
    show (w.extractLsb' 32 32 ++ new.setWidth 32).getLsbD b = if b < 32 then new.getLsbD b else w.getLsbD b
    rw [BitVec.getLsbD_append]
    split
    · rename_i hb; simp [hb]
    · rename_i hb
      rw [BitVec.getLsbD_extractLsb', show 32 + (b - 32) = b by omega]
      by_cases h64 : b < 64
      · simp [show b - 32 < 32 by omega]
      · simp [BitVec.getLsbD_of_ge w b (by omega)]
  case x64 =>
    show new.getLsbD b = if b < 64 then new.getLsbD b else w.getLsbD b
    split
    · rfl
    · rename_i hb
      rw [BitVec.getLsbD_of_ge _ _ (by omega), BitVec.getLsbD_of_ge _ _ (by omega)]

/-- A bit of the new value depends on the same bit of the old one. -/
theorem getLsbD_csrNew_congr (op : CsrOp) {old old' : Word} (v : Word) {b : Nat} (h : old.getLsbD b = old'.getLsbD b) :
    (csrNew op old v).getLsbD b = (csrNew op old' v).getLsbD b := by
  cases op <;> simp [csrNew, h]

/-- A masked update from a word: below the width of the register its bits are the word's. -/
theorem getLsbD_masked_setWidth {n : Nat} (w m : BitVec n) (v : Word) (b : Nat) :
    ((w &&& ~~~m) ||| (v.setWidth n &&& m)).getLsbD b = if m.getLsbD b = true then v.getLsbD b else w.getLsbD b := by
  rw [getLsbD_masked]
  split
  · rename_i hm
    rw [BitVec.getLsbD_setWidth, decide_eq_true (BitVec.lt_of_getLsbD hm), Bool.true_and]
  · rfl

theorem toNat_append_eq_mul {m n : Nat} (a : BitVec m) (b : BitVec n) : (a ++ b).toNat = a.toNat * 2 ^ n + b.toNat := by
  rw [BitVec.toNat_append, ← Nat.shiftLeft_add_eq_or_of_lt b.isLt, Nat.shiftLeft_eq]

theorem toNat_extract_eq_div {w : Nat} (v : BitVec w) (lo len : Nat) :
    (v.extractLsb' lo len).toNat = v.toNat / 2 ^ lo % 2 ^ len := by
  rw [BitVec.extractLsb'_toNat, Nat.shiftRight_eq_div_pow]

theorem getLsbD_iff_div {n : Nat} (v : BitVec n) (i : Nat) : v.getLsbD i = true ↔ v.toNat / 2 ^ i % 2 = 1 := by
  rw [← BitVec.testBit_toNat, Nat.testBit_eq_decide_div_mod_eq, decide_eq_true_iff]

/-! ### The halves of a 64-bit CSR at XLEN = 32 -/

theorem csrView_x32_toNat (w : Word) : (csrView .x32 w).toNat = w.toNat % 2 ^ 32 := by
  show ((w.setWidth 32).setWidth 64).toNat = _
  rw [BitVec.toNat_setWidth, BitVec.toNat_setWidth]
  omega

theorem highHalf_toNat (w : Word) : (highHalf w).toNat = w.toNat / 2 ^ 32 := by
  have hw := w.isLt
  unfold highHalf
  rw [BitVec.toNat_setWidth, toNat_extract_eq_div]
  omega

theorem csrStore64_x32_toNat (w new : Word) :
    (csrStore64 .x32 w new).toNat = w.toNat / 2 ^ 32 * 2 ^ 32 + new.toNat % 2 ^ 32 := by
  have hw := w.isLt
  show (w.extractLsb' 32 32 ++ new.setWidth 32).toNat = _
  rw [toNat_append_eq_mul, toNat_extract_eq_div, BitVec.toNat_setWidth]
  omega

theorem putHighHalf_toNat (w new : Word) :
    (putHighHalf w new).toNat = new.toNat % 2 ^ 32 * 2 ^ 32 + w.toNat % 2 ^ 32 := by
  unfold putHighHalf
  rw [toNat_append_eq_mul, BitVec.toNat_setWidth, BitVec.toNat_setWidth]

/-! ### Registers whose reserved bits are 0 -/

/-- Where the bits that are not written are 0, a masked update is the new value masked. -/
theorem masked_of_clear {n : Nat} {w m : BitVec n} (h : w &&& ~~~m = 0#n) (v : BitVec n) :
    (w &&& ~~~m) ||| (v &&& m) = v &&& m := by
  rw [h, BitVec.zero_or]

theorem bit_of_clear {n : Nat} {w m : BitVec n} (h : w &&& ~~~m = 0#n) {b : Nat} (hm : m.getLsbD b = false) :
    w.getLsbD b = false := by
  have hb := congrArg (BitVec.getLsbD · b) h
  simp only [BitVec.getLsbD_and, BitVec.getLsbD_not, hm, BitVec.getLsbD_zero, Bool.not_false, Bool.and_true,
    Bool.and_eq_false_iff, decide_eq_false_iff_not] at hb
  exact hb.elim id fun hn => BitVec.getLsbD_of_ge w b (Nat.le_of_not_lt hn)

theorem toNat_le_of_clear {n : Nat} {w m : BitVec n} (h : w &&& ~~~m = 0#n) : w.toNat ≤ m.toNat := by
  have hw : w = w &&& m := by
    apply BitVec.eq_of_getLsbD_eq
    intro b _
    rw [BitVec.getLsbD_and]
    cases hm : m.getLsbD b
    · simpa using bit_of_clear h hm
    · simp
  rw [hw, BitVec.toNat_and]
  exact Nat.and_le_right

/-- A view shows the whole of a value of 32 bits. -/
theorem csrView_of_lt {w : Word} (x : Xlen) (h : w.toNat < 2 ^ 32) : csrView x w = w := by
  cases x
  · exact BitVec.eq_of_toNat_eq (by rw [csrView_x32_toNat, Nat.mod_eq_of_lt h])
  · rfl

/-- The bits of a mask below bit 32 are those of the new value at either XLEN. -/
theorem csrStore64_and {x : Xlen} {w new m : Word} (hm : m.toNat < 2 ^ 32) : csrStore64 x w new &&& m = new &&& m := by
  apply BitVec.eq_of_getLsbD_eq
  intro b _
  rw [BitVec.getLsbD_and, BitVec.getLsbD_and, getLsbD_csrStore64]
  split
  · rfl
  · rename_i hb
    have h32 : 32 ≤ b := Nat.le_trans (by cases x <;> decide) (Nat.le_of_not_lt hb)
    have hbit : m.getLsbD b = false :=
      Nat.testBit_lt_two_pow (Nat.lt_of_lt_of_le hm (Nat.pow_le_pow_right (by decide) h32))
    rw [hbit, Bool.and_false, Bool.and_false]

end Sys2Proof.Machine
end

section
/-! SUPPORT. `mstatus` and `sstatus` (15_csr R70 to R75): one word, seen and written through two pairs of masks. -/

namespace Sys2Proof.Machine

/-! ### The value read -/

theorem csrView_eq_and (x : Xlen) (w : Word) :
    csrView x w = w &&& (if x = .x64 then BitVec.allOnes 64 else 0xFFFFFFFF#64) := by
  cases x
  · apply BitVec.eq_of_getLsbD_eq
    intro b hb
    rw [getLsbD_csrView, BitVec.getLsbD_and]
    have : ∀ b, b < 64 → (0xFFFFFFFF#64).getLsbD b = decide (b < 32) := by decide
    rw [if_neg (by decide), this b hb, Bool.and_comm]
    rfl
  · exact (BitVec.and_allOnes (x := w)).symm

/-- Without an FPU nothing is dirty: SD is 0, and its place is a reserved bit of the word. -/
theorem withSd_eq_self {s : State} (h : StatusInv s) (hf : s.hw.fpuPresent = false) {x : Xlen} {v : Word}
    (hv : ∀ b, v.getLsbD b = true → s.csr.status.getLsbD b = true) : withSd x s.csr.status v = v := by
  have hxs : (stXs s.csr.status == 3#2) = false := by rw [h.xs, h.fs hf]; rfl
  have clear : ∀ i, i = 31 ∨ i = 63 → v.getLsbD i = false := fun i hi => by
    have hs : s.csr.status.getLsbD i = false := by
      rcases hi with rfl | rfl <;> exact h.clear _ (by decide) (by cases s.hw.rv64 <;> decide) (by decide)
    exact Bool.eq_false_iff.2 fun ht => by rw [hv i ht] at hs; cases hs
  have same : ∀ i, i = 31 ∨ i = 63 → putBit v i false = v := fun i hi => by
    apply BitVec.eq_of_getLsbD_eq
    intro b _
    rw [getLsbD_putBit _ _ _ _ (by omega)]
    split
    · rename_i hb; rw [hb, clear i hi]
    · rfl
  cases x
  · simp only [withSd, hxs]; exact same 31 (.inl rfl)
  · simp only [withSd, hxs]; exact same 63 (.inr rfl)

/-! ### The word written -/

/-- The masks of the two views. -/
def StatusMask (rv64 : Bool) (wm : Word) : Prop := wm = mstatusWm rv64 ∨ wm = sstatusWm rv64

/-- A mask holds both bits of a field or none, and at MAXLEN = 32 none of the upper half. -/
theorem StatusMask.bits {rv64 : Bool} {wm : Word} (h : StatusMask rv64 wm) :
    wm.getLsbD 12 = wm.getLsbD 11 ∧ wm.getLsbD 33 = wm.getLsbD 32 ∧ wm.getLsbD 35 = wm.getLsbD 34
    ∧ (rv64 = false → wm.getLsbD 32 = false ∧ wm.getLsbD 34 = false) := by
  rcases h with rfl | rfl <;> cases rv64 <;> decide

/-- The word handed to validation: the bits of the view that XLEN reaches are new. -/
def statusWord (x : Xlen) (w wm new : Word) : Word := maskedWrite w wm (csrStore64 x w new)

theorem getLsbD_statusWord (x : Xlen) (w wm new : Word) (b : Nat) :
    (statusWord x w wm new).getLsbD b = if wm.getLsbD b = true ∧ b < x.bits then new.getLsbD b else w.getLsbD b := by
  unfold statusWord
  rw [getLsbD_maskedWrite, getLsbD_csrStore64]
  by_cases h : wm.getLsbD b = true <;> simp [h]

/-- A two-bit field is written as a whole. -/
theorem statusWord_field {x : Xlen} {w wm new : Word} {lo : Nat} (hm : wm.getLsbD (lo + 1) = wm.getLsbD lo)
    (hx : lo + 1 < x.bits ↔ lo < x.bits) :
    (statusWord x w wm new).extractLsb' lo 2 =
      if wm.getLsbD lo = true ∧ lo < x.bits then new.extractLsb' lo 2 else w.extractLsb' lo 2 := by
  split
  · rename_i h
    exact extract2_eq (by rw [getLsbD_statusWord, if_pos h]) (by rw [getLsbD_statusWord, if_pos (by rw [hm, hx]; exact h)])
  · rename_i h
    exact extract2_eq (by rw [getLsbD_statusWord, if_neg h]) (by rw [getLsbD_statusWord, if_neg (by rw [hm, hx]; exact h)])

/-- A width field after a write: kept where the write does not reach it, else 32 bits or, whatever is written, 64 bits. -/
theorem widthField_written {x : Xlen} {rv64 m : Bool} {old new : BitVec 2} (hold : rv64 = true → old = 1#2 ∨ old = 2#2)
    (hm : rv64 = false → m = false) {lo : Nat} (hlo : 32 ≤ lo ∧ lo < 64) {w : BitVec 2}
    (hw : w = if m = true ∧ lo < x.bits then new else old) :
    (if rv64 = false then w else if w = 1#2 then 1#2 else 2#2) =
      if m = false ∨ x = .x32 then old else if new = 1#2 then 1#2 else 2#2 := by
  have hreach : (m = true ∧ lo < x.bits) ↔ ¬ (m = false ∨ x = .x32) := by
    cases x <;> simp [Xlen.bits] <;> omega
  rw [hw]
  by_cases hk : m = false ∨ x = .x32
  · rw [if_neg (fun h => hreach.1 h hk), if_pos hk]
    cases rv64
    · rfl
    · rcases hold rfl with h | h <;> subst h <;> rfl
  · rw [if_pos (hreach.2 hk), if_neg hk]
    cases rv64
    · exact absurd (.inl (hm rfl)) hk
    · rfl

/-- What validation leaves of a word written through a view, without an FPU. -/
theorem statusWord_validated {s : State} (h : StatusInv s) (hf : s.hw.fpuPresent = false) {wm new v : Word}
    (hwm : StatusMask s.hw.rv64 wm) (hv : v = validate s.hw (statusWord s.xlen s.csr.status wm new)) :
    (∀ b, b ∉ [9, 10, 11, 12, 13, 14, 15, 16, 32, 33, 34, 35] → v.getLsbD b =
        if wm.getLsbD b = true ∧ b < s.xw then new.getLsbD b else s.csr.status.getLsbD b)
    ∧ stVs v = 0#2 ∧ stFs v = 0#2 ∧ stXs v = 0#2
    ∧ stMpp v = (if wm.getLsbD 11 = false then stMpp s.csr.status else if stMpp new = 2#2 then 0#2 else stMpp new)
    ∧ stUxl v = (if wm.getLsbD 32 = false ∨ s.xlen = .x32 then stUxl s.csr.status
        else if stUxl new = 1#2 then 1#2 else 2#2)
    ∧ stSxl v = (if wm.getLsbD 34 = false ∨ s.xlen = .x32 then stSxl s.csr.status
        else if stSxl new = 1#2 then 1#2 else 2#2) := by
  obtain ⟨h12, h33, h35, h32⟩ := hwm.bits
  have val := validate_spec s.hw (statusWord s.xlen s.csr.status wm new)
  rw [← hv] at val
  have hfs : stFs v = 0#2 := by rw [val.fs, if_pos hf]
  refine ⟨fun b hb => ?_, val.vs, hfs, val.xs.trans hfs, ?_, ?_, ?_⟩
  · rw [val.other b hb, getLsbD_statusWord]; rfl
  · have hw : stMpp (statusWord s.xlen s.csr.status wm new) = _ :=
      statusWord_field h12 (by cases s.xlen <;> decide)
    have hreach : 11 < s.xlen.bits := by cases s.xlen <;> decide
    rw [val.mpp, hw]
    cases hm : wm.getLsbD 11
    · simp only [Bool.false_eq_true, false_and, if_false, if_true]
      exact if_neg h.mpp
    · simp only [hreach, and_self, if_true, Bool.true_eq_false, if_false]
      rfl
  · rw [val.uxl]
    exact widthField_written h.uxl (fun hr => (h32 hr).1) (by decide)
      (statusWord_field h33 (by cases s.xlen <;> decide))
  · rw [val.sxl]
    exact widthField_written h.sxl (fun hr => (h32 hr).2) (by decide)
      (statusWord_field h35 (by cases s.xlen <;> decide))

/-- A write of the status flushes exactly if MPP, MPRV, SUM or MXR changes. -/
theorem writeStatus_tlb_eq (s : State) (w : Word) {v : Word} (hv : v = validate s.hw w) :
    (s.writeStatus w).tlb = if stMpp v ≠ stMpp s.csr.status ∨ stMprv v ≠ stMprv s.csr.status
      ∨ stSum v ≠ stSum s.csr.status ∨ stMxr v ≠ stMxr s.csr.status then Tlb.empty else s.tlb := by
  subst hv
  obtain ⟨keep, flush⟩ := writeStatus_tlb s w
  split
  · rename_i h
    exact flush fun ⟨h1, h2, h3, h4⟩ => by tauto
  · rename_i h
    simp only [not_or, not_not] at h
    exact keep h

/-- A view of the status word: its address, its CSR and its masks. -/
inductive StatusView (s : State) (f : CsrForm) (rm wm : Word) : Csr → Prop
  | m (hc : f.csr = 0x300#12) (hp : s.priv = .M) (hr : rm = BitVec.allOnes 64) (hw : wm = mstatusWm s.hw.rv64) :
      StatusView s f rm wm .mstatus
  | s (hc : f.csr = 0x100#12) (hp : s.priv ≠ .U) (hr : rm = sstatusRm s.hw.rv64) (hw : wm = sstatusWm s.hw.rv64) :
      StatusView s f rm wm .sstatus

/-- An access through a view reads the word under its mask and writes it through its mask. -/
theorem StatusView.done {s : State} {f : CsrForm} {rm wm old : Word} {c : Csr} {i : Instr} (v : StatusView s f rm wm c)
    (hf : csrForm s i = some f) (h : StatusInv s) (hfpu : s.hw.fpuPresent = false)
    (hold : old = s.csr.status &&& rm &&& (if s.xlen = .x64 then BitVec.allOnes 64 else 0xFFFFFFFF#64)) :
    CsrDone s i f old (s.writeStatus (statusWord s.xlen s.csr.status wm (csrNew f.op old f.operand)))
    ∧ StatusMask s.hw.rv64 wm := by
  have view : ∀ b, (csrView s.xlen s.csr.status).getLsbD b = true → s.csr.status.getLsbD b = true := fun b hb => by
    rw [getLsbD_csrView] at hb; exact (Bool.and_eq_true_iff.1 hb).2
  cases v with
  | m hc hp hr hw =>
    subst hr hw
    have hrw : ReadWriteAt s.priv f.csr := .inl ⟨hp, by rw [hc]; rfl⟩
    refine ⟨csr_done_readWrite hf hrw (c := .mstatus) (by rw [hc]; rfl) ?_, .inl rfl⟩
    show some (withSd _ _ _, s) = _
    rw [withSd_eq_self h hfpu view, hold, BitVec.and_allOnes, csrView_eq_and]
  | s hc hp hr hw =>
    subst hr hw
    have hrw : ReadWriteAt s.priv f.csr := .inr ⟨hp, by rw [hc]; rfl⟩
    refine ⟨csr_done_readWrite hf hrw (c := .sstatus) (by rw [hc]; rfl) ?_, .inr rfl⟩
    show some (withSd _ _ _, s) = _
    rw [withSd_eq_self h hfpu fun b hb => view b (by rw [BitVec.getLsbD_and] at hb; exact (Bool.and_eq_true_iff.1 hb).1),
      hold, csrView_eq_and, BitVec.and_assoc, BitVec.and_assoc, BitVec.and_comm (sstatusRm _)]

/-- Settles O55: the two views are one masked write of the status word, which validation then makes legal. -/
theorem statusCsrs : Obligations.StatusCsrs := by
  unfold Obligations.StatusCsrs
  intro i f s rm wm old new hf h hfpu hview hold hnew
  obtain ⟨c, v⟩ : ∃ c, StatusView s f rm wm c := by
    rcases hview with ⟨hc, hp, hr, hw⟩ | ⟨hc, hp, hr, hw⟩
    · exact ⟨_, .m hc hp hr hw⟩
    · exact ⟨_, .s hc hp hr hw⟩
  obtain ⟨hdone, hwm⟩ := v.done hf h hfpu hold
  rw [← hnew] at hdone
  have hst := writeStatus_status s (statusWord s.xlen s.csr.status wm new)
  obtain ⟨hbits, hvs, hfs, hxs, hmpp, huxl, hsxl⟩ := statusWord_validated h hfpu hwm hst
  exact ⟨_, hdone, by rw [writeStatus_csr]; exact writeStatus_eq s _, hbits, hvs, hfs, hxs, hmpp, huxl, hsxl,
    writeStatus_tlb_eq s _ hst⟩

end Sys2Proof.Machine
end

section
/-! SUPPORT. `mie`, `sie`, `mip` and `sip` (15_csr R88 to R91). -/

namespace Sys2Proof.Machine

/-- The interrupt CSR and the mask by which an address shows `ie`. -/
def IeView (c : Csr) (mask : BitVec 12) : Prop := (c = .mie ∧ mask = mMask) ∨ (c = .sie ∧ mask = sMask)

/-- The interrupt CSR and the mask by which an address shows `ip`. -/
def IpView (c : Csr) (mask : BitVec 12) : Prop := (c = .mip ∧ mask = mMask) ∨ (c = .sip ∧ mask = sMask)

theorem IeView.read {c : Csr} {mask : BitVec 12} (h : IeView c mask) (x : Xlen) (s : State) :
    csrRead x c s = some ((s.csr.ie &&& mask).setWidth 64, s) := by
  rcases h with ⟨rfl, rfl⟩ | ⟨rfl, rfl⟩ <;> rfl

theorem IeView.write {c : Csr} {mask : BitVec 12} (h : IeView c mask) (x : Xlen) (op : CsrOp) (v new : Word) (s : State) :
    csrWrite x c op v new s = s.writeIe mask (new.setWidth 12) := by
  rcases h with ⟨rfl, rfl⟩ | ⟨rfl, rfl⟩ <;> rfl

theorem IpView.read {c : Csr} {mask : BitVec 12} (h : IpView c mask) (x : Xlen) (s : State) :
    csrRead x c s = some (((s.csr.ip ||| s.irqPending) &&& mask).setWidth 64, s) := by
  rcases h with ⟨rfl, rfl⟩ | ⟨rfl, rfl⟩ <;> rfl

theorem IpView.write {c : Csr} {mask : BitVec 12} (h : IpView c mask) (x : Xlen) (op : CsrOp) (v new : Word) (s : State) :
    csrWrite x c op v new s = s.writeIp mask op v := by
  rcases h with ⟨rfl, rfl⟩ | ⟨rfl, rfl⟩ <;> rfl

theorem getLsbD_writeIe (s : State) (mask : BitVec 12) (v : Word) (b : Nat) :
    (s.writeIe mask (v.setWidth 12)).csr.ie.getLsbD b =
      if mask.getLsbD b = true then v.getLsbD b else s.csr.ie.getLsbD b :=
  getLsbD_masked_setWidth _ _ _ _

/-- The masked bits are computed from the stored word, not from what a read shows. -/
theorem getLsbD_writeIp (s : State) (mask : BitVec 12) (op : CsrOp) (v : Word) (b : Nat) :
    (s.writeIp mask op v).csr.ip.getLsbD b =
      if mask.getLsbD b = true then (csrNew op (s.csr.ip.setWidth 64) v).getLsbD b else s.csr.ip.getLsbD b := by
  refine (getLsbD_masked_setWidth _ _ _ _).trans ?_
  split
  · rename_i hm
    exact getLsbD_csrNew_congr op v (by simp +contextual [hm])
  · rfl

/-- Settles O56: both pairs of views are one masked update, of `ie` and of the stored `ip`. -/
theorem interruptCsrs : Obligations.InterruptCsrs := by
  unfold Obligations.InterruptCsrs
  intro i f s mask hf hmask
  have hrw : ReadWriteAt s.priv f.csr := by
    rcases hmask with ⟨ha, hp, -⟩ | ⟨ha, hp, -⟩
    · exact .inl ⟨hp, ha⟩
    · exact .inr ⟨hp, ha⟩
  constructor <;> intro hlow
  · obtain ⟨c, hm, view⟩ : ∃ c, csrMap s.xlen f.csr = some c ∧ IeView c mask := by
      rcases hmask with ⟨ha, -, hk⟩ | ⟨ha, -, hk⟩
      · exact ⟨.mie, csrMap_of_toNat (n := 0x304) (by omega) rfl, .inl ⟨rfl, hk⟩⟩
      · exact ⟨.sie, csrMap_of_toNat (n := 0x104) (by omega) rfl, .inr ⟨rfl, hk⟩⟩
    have hdone := csr_done_readWrite hf hrw hm (view.read s.xlen s)
    rw [view.write] at hdone
    exact ⟨_, _, hdone, rfl, rfl, getLsbD_writeIe s mask _⟩
  · obtain ⟨c, hm, view⟩ : ∃ c, csrMap s.xlen f.csr = some c ∧ IpView c mask := by
      rcases hmask with ⟨ha, -, hk⟩ | ⟨ha, -, hk⟩
      · exact ⟨.mip, csrMap_of_toNat (n := 0x344) (by omega) rfl, .inl ⟨rfl, hk⟩⟩
      · exact ⟨.sip, csrMap_of_toNat (n := 0x144) (by omega) rfl, .inr ⟨rfl, hk⟩⟩
    have hdone := csr_done_readWrite hf hrw hm (view.read s.xlen s)
    rw [view.write] at hdone
    exact ⟨_, _, hdone, rfl, rfl, getLsbD_writeIp s mask _ _⟩

end Sys2Proof.Machine
end

section
/-! SUPPORT. The trap-handling and the delegation registers (15_csr R84, R85, R94 to R98). -/

namespace Sys2Proof.Machine

@[simp] theorem putTrap_at (s : State) (l : Lvl) (r : TrapRegs) : (s.putTrap l r).csr.at l = r := by cases l <;> rfl

/-- The addresses of the trap-handling registers of a level. -/
theorem csrMap_trap {x : Xlen} {l : Lvl} {a : BitVec 12}
    (h : (l = .m ∧ a.toNat / 256 = 3) ∨ (l = .s ∧ a.toNat / 256 = 1)) :
    (a.toNat % 256 = 0x05 → csrMap x a = some (.tvec l)) ∧ (a.toNat % 256 = 0x40 → csrMap x a = some (.scratch l))
    ∧ (a.toNat % 256 = 0x41 → csrMap x a = some (.epc l)) ∧ (a.toNat % 256 = 0x42 → csrMap x a = some (.cause l))
    ∧ (a.toNat % 256 = 0x43 → csrMap x a = some (.tval l)) := by
  rcases h with ⟨rfl, ha⟩ | ⟨rfl, ha⟩
  · exact ⟨fun _ => csrMap_of_toNat (n := 0x305) (by omega) rfl, fun _ => csrMap_of_toNat (n := 0x340) (by omega) rfl,
      fun _ => csrMap_of_toNat (n := 0x341) (by omega) rfl, fun _ => csrMap_of_toNat (n := 0x342) (by omega) rfl,
      fun _ => csrMap_of_toNat (n := 0x343) (by omega) rfl⟩
  · exact ⟨fun _ => csrMap_of_toNat (n := 0x105) (by omega) rfl, fun _ => csrMap_of_toNat (n := 0x140) (by omega) rfl,
      fun _ => csrMap_of_toNat (n := 0x141) (by omega) rfl, fun _ => csrMap_of_toNat (n := 0x142) (by omega) rfl,
      fun _ => csrMap_of_toNat (n := 0x143) (by omega) rfl⟩

/-- All of `xepc` but bit 0 is written (15_csr R96). -/
theorem maskedWrite_epc {w : Word} (h : w.getLsbD 0 = false) (v : Word) :
    maskedWrite w (~~~1#64) v = v &&& 0xFFFFFFFFFFFFFFFE#64 := by
  have hclear : w &&& ~~~(~~~1#64) = 0#64 := by
    rw [BitVec.not_not]
    apply BitVec.eq_of_getLsbD_eq
    intro b hb
    cases b with
    | zero => simpa using h
    | succ b => simp [BitVec.getLsbD_one]
  exact masked_of_clear hclear v

/-! ### `xcause` (15_csr R97) -/

theorem getLsbD_ofBool_append {n : Nat} (int : Bool) (code : BitVec n) (b : Nat) :
    (BitVec.ofBool int ++ code).getLsbD b = if b = n then int else code.getLsbD b := by
  rw [BitVec.getLsbD_append]
  rcases Nat.lt_trichotomy b n with h | rfl | h
  · simp [h, Nat.ne_of_lt h]
  · simp
  · have hhigh : code.getLsbD b = false := BitVec.getLsbD_of_ge _ _ (Nat.le_of_lt h)
    simp [Nat.not_lt_of_lt h, Nat.ne_of_gt h, hhigh, Nat.sub_ne_zero_of_lt h]

theorem getLsbD_causeValue (x : Xlen) (int : Bool) (code : BitVec 63) (b : Nat) :
    (causeValue x int code).getLsbD b = if b = x.bits - 1 then int else (decide (b < x.bits - 1) && code.getLsbD b) := by
  cases x
  case x32 =>
    show ((BitVec.ofBool int ++ code.setWidth 31).setWidth 64).getLsbD b =
      if b = 31 then int else (decide (b < 31) && code.getLsbD b)
    rw [BitVec.getLsbD_setWidth, getLsbD_ofBool_append, BitVec.getLsbD_setWidth]
    by_cases h : b < 64
    · rw [decide_eq_true h, Bool.true_and]
    · simp [h, show b ≠ 31 by omega, show ¬ b < 31 by omega]
  case x64 =>
    show (BitVec.ofBool int ++ code).getLsbD b = if b = 63 then int else (decide (b < 63) && code.getLsbD b)
    rw [getLsbD_ofBool_append]
    by_cases h : b < 63
    · rw [decide_eq_true h, Bool.true_and]
    · rw [BitVec.getLsbD_of_ge code b (Nat.le_of_not_lt h), Bool.and_false]

/-- The value read is the number of XLEN bits that the flag and the low bits of the code make. -/
theorem causeValue_eq {x : Xlen} {int : Bool} {code : BitVec 63} {old : Word}
    (hcode : ∀ b, b < x.bits - 1 → old.getLsbD b = code.getLsbD b) (hint : old.getLsbD (x.bits - 1) = int)
    (hlt : old.toNat < 2 ^ x.bits) : causeValue x int code = old := by
  apply BitVec.eq_of_getLsbD_eq
  intro b _
  rw [getLsbD_causeValue]
  split
  · rename_i h; rw [h, hint]
  · rename_i h
    by_cases hb : b < x.bits - 1
    · simp [hb, hcode]
    · have hhigh : old.getLsbD b = false :=
        Nat.testBit_lt_two_pow (Nat.lt_of_lt_of_le hlt (Nat.pow_le_pow_right (by decide) (by omega)))
      simp [hb, hhigh]

theorem causeIntOf_eq (x : Xlen) (v : Word) : causeIntOf x v = v.getLsbD (x.bits - 1) := by cases x <;> rfl

theorem causeCodeOf_toNat (x : Xlen) (v : Word) : (causeCodeOf x v).toNat = v.toNat % 2 ^ (x.bits - 1) := by
  cases x
  · show ((v.setWidth 31).setWidth 63).toNat = v.toNat % 2 ^ 31
    rw [BitVec.toNat_setWidth, BitVec.toNat_setWidth]
    omega
  · exact BitVec.toNat_setWidth 63 v

/-- Settles O57: each register is read as it is held, and its written bits are those of its mask. -/
theorem trapCsrs : Obligations.TrapCsrs := by
  unfold Obligations.TrapCsrs
  intro i f s l new hf hl hnew
  obtain rfl : new = fun old => csrNew f.op old f.operand := funext hnew
  have hrw : ReadWriteAt s.priv f.csr := by
    rcases hl with ⟨-, hp, ha⟩ | ⟨-, hp, ha⟩
    · exact .inl ⟨hp, ha⟩
    · exact .inr ⟨hp, ha⟩
  obtain ⟨tvec, scratch, epc, cause, tval⟩ := csrMap_trap (x := s.xlen) (l := l) (a := f.csr)
    (hl.imp (fun ⟨h, _, ha⟩ => ⟨h, ha⟩) (fun ⟨h, _, ha⟩ => ⟨h, ha⟩))
  refine ⟨fun h => csr_done_readWrite hf hrw (tvec h) rfl, fun h => csr_done_readWrite hf hrw (scratch h) rfl,
    fun h heven => ?_, fun h old hcode hint hlt => ?_, fun h => csr_done_readWrite hf hrw (tval h) rfl,
    fun h hclear => ?_, fun h hclear => ?_⟩
  · rw [← maskedWrite_epc heven]
    exact csr_done_readWrite hf hrw (epc h) rfl
  · have hread : csrRead s.xlen (.cause l) s = some (old, s) :=
      congrArg (fun v => some (v, s)) (causeValue_eq hcode hint hlt)
    refine ⟨_, csr_done_readWrite hf hrw (cause h) hread, ?_⟩
    simp [csrWrite, causeIntOf_eq, causeCodeOf_toNat, State.xw]
  · rw [← masked_of_clear hclear]
    exact csr_done_readWrite hf hrw (by rw [h]; rfl) rfl
  · rw [← masked_of_clear hclear]
    exact csr_done_readWrite hf hrw (by rw [h]; rfl) rfl

end Sys2Proof.Machine
end

section
/-! SUPPORT. `satp` (15_csr R106 to R108): the value read and the mode and root written, as numbers. -/

namespace Sys2Proof.Machine

theorem satpValue_x64_toNat (m : MmuMode) (root : BitVec 56) :
    (satpValue .x64 m root).toNat =
      (match m with | .bare => 0 | .sv32 => 1 | .sv39 => 8 | .sv48 => 9 | .sv57 => 10) * 2 ^ 60 + root.toNat / 4096 := by
  have hr := root.isLt
  show (m.code ++ 0#16 ++ root.extractLsb' 12 44).toNat = _
  rw [toNat_append_eq_mul, toNat_append_eq_mul, toNat_extract_eq_div]
  cases m <;> simp only [MmuMode.code, BitVec.toNat_ofNat] <;> omega

theorem satpValue_x32_toNat (m : MmuMode) (root : BitVec 56) :
    (satpValue .x32 m root).toNat = (if m = .sv32 then 2 ^ 31 else 0) + root.toNat / 4096 % 2 ^ 22 := by
  show ((BitVec.ofBool (m == .sv32) ++ 0#9 ++ root.extractLsb' 12 22).setWidth 64).toNat = _
  rw [BitVec.toNat_setWidth, toNat_append_eq_mul, toNat_append_eq_mul, toNat_extract_eq_div, BitVec.toNat_ofBool]
  by_cases hm : m = .sv32
  · simp only [hm, beq_self_eq_true, Bool.toNat_true, BitVec.toNat_ofNat, if_true]; omega
  · simp only [hm, beq_eq_false_iff_ne.2 hm, Bool.toNat_false, BitVec.toNat_ofNat, if_false]; omega

theorem toNat_satpRoot64 (v : Word) : (satpRoot .x64 v).toNat = v.toNat % 2 ^ 44 * 4096 := by
  show (v.extractLsb' 0 44 ++ 0#12).toNat = _
  rw [toNat_append_eq_mul, toNat_extract_eq_div]
  simp

theorem toNat_satpRoot32 (v : Word) : (satpRoot .x32 v).toNat = v.toNat % 2 ^ 22 * 4096 := by
  show ((v.extractLsb' 0 22 ++ 0#12).setWidth 56).toNat = _
  rw [BitVec.toNat_setWidth, toNat_append_eq_mul, toNat_extract_eq_div, BitVec.toNat_ofNat]
  omega

theorem satpMode_x64 (v : Word) :
    satpMode .x64 v = if v.toNat / 2 ^ 60 = 8 then .sv39 else if v.toNat / 2 ^ 60 = 9 then .sv48
      else if v.toNat / 2 ^ 60 = 10 then .sv57 else .bare := by
  have hv := v.isLt
  have hcode : v.toNat / 2 ^ 60 = (v.extractLsb' 60 4).toNat := by rw [toNat_extract_eq_div]; omega
  rw [hcode]
  unfold satpMode
  dsimp only
  generalize v.extractLsb' 60 4 = code
  revert code
  decide

theorem satpMode_x32 (v : Word) : satpMode .x32 v = if v.toNat / 2 ^ 31 % 2 = 1 then .sv32 else .bare :=
  if_congr (getLsbD_iff_div v 31) rfl rfl

@[simp] theorem writeSatp_mmuMode (x : Xlen) (s : State) (v : Word) : (State.writeSatp x s v).mmuMode = satpMode x v := by
  unfold State.writeSatp; dsimp only; split <;> rfl

@[simp] theorem writeSatp_rootPageTable (x : Xlen) (s : State) (v : Word) :
    (State.writeSatp x s v).rootPageTable = satpRoot x v := by
  unfold State.writeSatp; dsimp only; split <;> rfl

/-- The TLB is emptied exactly if paging turns on or off (15_csr R107). -/
theorem writeSatp_tlb (x : Xlen) (s : State) (v : Word) :
    (State.writeSatp x s v).tlb = if (satpMode x v = .bare) ↔ (s.mmuMode = .bare) then s.tlb else Tlb.empty := by
  unfold State.writeSatp; dsimp only; split <;> rfl

/-- Settles O58: TVM closes the CSR; else it is read and written as the fields of the two formats say. -/
theorem satp : Obligations.Satp := by
  unfold Obligations.Satp
  intro i f s hf hc hp
  have hm : csrMap s.xlen f.csr = some .satp := by rw [hc]; rfl
  have hrw : ReadWriteAt s.priv f.csr := .inr ⟨hp, by rw [hc]; rfl⟩
  refine ⟨fun htvm => ?_, fun htvm => ?_⟩
  · have hclosed : ¬ csrOpen s .satp := by simp [csrOpen, htvm]
    exact csrDenied_traps i f s hf (.inr (.inr (.inr ⟨_, hm, hclosed⟩)))
  · have hr : csrRead s.xlen .satp s = some (satpValue s.xlen s.mmuMode s.rootPageTable, s) := by simp [csrRead, htvm]
    refine ⟨_, _, _, csr_done_readWrite hf hrw hm hr, rfl, State.writeSatp_frame _ _ _, ?_, fun hx => ?_, fun hx => ?_⟩
    · simpa [csrWrite] using writeSatp_tlb ..
    · simp only [hx, csrWrite, writeSatp_mmuMode, writeSatp_rootPageTable]
      exact ⟨satpValue_x64_toNat _ _, toNat_satpRoot64 _, satpMode_x64 _⟩
    · simp only [hx, csrWrite, writeSatp_mmuMode, writeSatp_rootPageTable]
      exact ⟨satpValue_x32_toNat _ _, toNat_satpRoot32 _, satpMode_x32 _⟩

end Sys2Proof.Machine
end

section
/-! SUPPORT. `stimecmp`, `time` and `seed` (15_csr R65, R66, R110, R117, R118). -/

namespace Sys2Proof.Machine

/-! ### The comparator -/

/-- Setting or clearing a bit of `irq_pending` changes that bit only. -/
theorem getLsbD_setIrq (s : State) {c b : Nat} (v : Bool) (hb : b < 12) :
    (s.setIrq c v).irqPending.getLsbD b = if b = c then v else s.irqPending.getLsbD b := by
  have hbit : (1#12 <<< c).getLsbD b = decide (b = c) := by
    simp only [BitVec.getLsbD_shiftLeft, BitVec.getLsbD_one, hb, decide_true, Bool.true_and]
    by_cases h : b = c
    · simp [h]
    · simp [h]; omega
  unfold State.setIrq
  cases v
  · simp only [Bool.false_eq_true, if_false, BitVec.getLsbD_and, BitVec.getLsbD_not, hbit, hb]
    by_cases h : b = c <;> simp [h]
  · simp only [if_true, BitVec.getLsbD_or, hbit]
    by_cases h : b = c <;> simp [h]

/-- A write of the comparator sets or clears STIP at once (15_csr R110). -/
theorem getLsbD_writeStimecmp (s : State) (v : Word) {b : Nat} (hb : b < 12) :
    (s.writeStimecmp v).irqPending.getLsbD b =
      if b = 5 then decide ((s.writeStimecmp v).stimecmp.toNat ≤ s.time.toNat) else s.irqPending.getLsbD b :=
  getLsbD_setIrq { s with stimecmp := v } _ hb

/-- What a read of the comparator needs. -/
theorem csrRead_stimecmp {x : Xlen} {s : State} (h : s.csr.m.envcfg.getLsbD 63 = true) :
    csrRead x .stimecmp s = some (csrView x s.stimecmp, s) ∧ csrRead x .stimecmph s = some (highHalf s.stimecmp, s) :=
  ⟨if_pos h, if_pos h⟩

theorem csrRead_time {x : Xlen} {s : State} (h : csrOpen s .time) :
    csrRead x .time s = some (csrView x s.time, s) ∧ csrRead x .timeh s = some (highHalf s.time, s) :=
  ⟨if_pos ((timeAllowed_iff s).2 h), if_pos ((timeAllowed_iff s).2 h)⟩

theorem csrRead_seed {x : Xlen} {s : State} (h : csrOpen s .seed) :
    csrRead x .seed s = some ((0x8000#16 ++ Config.entropy s.draws).setWidth 64, { s with draws := s.draws + 1 }) :=
  if_pos ((seedAllowed_iff s).2 h)

theorem seed_value (e : BitVec 16) : (0x8000#16 ++ e).setWidth 64 = BitVec.ofNat 64 (2 ^ 31 + e.toNat) := by
  have he := e.isLt
  apply BitVec.eq_of_toNat_eq
  rw [BitVec.toNat_setWidth, toNat_append_eq_mul, BitVec.toNat_ofNat, BitVec.toNat_ofNat]
  omega

/-- Settles O59: each view reads and writes its half of the comparator; `time` and `seed` are read only. -/
theorem timerAndEntropyCsrs : Obligations.TimerAndEntropyCsrs := by
  unfold Obligations.TimerAndEntropyCsrs
  intro i f s hf
  refine ⟨fun hc hp hstce hx => ?_, fun hc hp hstce hx => ?_, fun hc hp hstce hx => ?_, fun hc hop ho => ?_,
    fun hc hop ho hx => ?_, fun hc ho => ?_⟩
  · have hd := csr_done_readWrite hf (.inr ⟨hp, by rw [hc]; rfl⟩) (by rw [hc]; rfl) (csrRead_stimecmp hstce).1
    rw [hx] at hd
    exact ⟨_, hd, rfl, fun b hb => getLsbD_writeStimecmp s _ hb⟩
  · have hd := csr_done_readWrite hf (.inr ⟨hp, by rw [hc]; rfl⟩) (by rw [hc]; rfl) (csrRead_stimecmp hstce).1
    rw [hx] at hd
    exact ⟨_, _, hd, csrView_x32_toNat _, rfl, csrStore64_x32_toNat _ _, fun b hb => getLsbD_writeStimecmp s _ hb⟩
  · have hd := csr_done_readWrite hf (.inr ⟨hp, by rw [hc]; rfl⟩) (by rw [hc, hx]; rfl) (csrRead_stimecmp hstce).2
    exact ⟨_, _, hd, highHalf_toNat _, rfl, putHighHalf_toNat _ _, fun b hb => getLsbD_writeStimecmp s _ hb⟩
  · exact csr_done hf (by rw [hc]; exact Nat.zero_le _) (fun _ => hop) (by rw [hc]; rfl) (csrRead_time ho).1
  · have hv : highHalf s.time = BitVec.ofNat 64 (s.time.toNat / 2 ^ 32) := by
      rw [← highHalf_toNat, BitVec.ofNat_toNat, BitVec.setWidth_eq]
    rw [← hv]
    exact csr_done hf (by rw [hc]; exact Nat.zero_le _) (fun _ => hop) (by rw [hc, hx]; rfl)
      (csrRead_time ho).2
  · rw [← seed_value]
    exact csr_done hf (by rw [hc]; exact Nat.zero_le _) (fun h3 => absurd h3 (by rw [hc]; decide)) (by rw [hc]; rfl)
      (csrRead_seed ho)

end Sys2Proof.Machine
end

section
/-! SUPPORT. The other CSRs (15_csr R64 to R66, R74, R80, R81, R100 to R103, R112 to R114, R120 to R122). -/

namespace Sys2Proof.Machine

/-! ### Addresses that read as zero (15_csr R121) -/

/-- The addresses of the CSRs that are not of kind zero, at either XLEN (15_csr R67). -/
def namedAddresses : List Nat :=
  [0x001, 0x002, 0x003, 0x015, 0x100, 0x104, 0x105, 0x106, 0x10A, 0x140, 0x141, 0x142, 0x143, 0x144, 0x14D, 0x180, 0x300,
    0x301, 0x302, 0x303, 0x304, 0x305, 0x306, 0x30A, 0x340, 0x341, 0x342, 0x343, 0x344, 0x747, 0xC01, 0xF11, 0xF12, 0xF13,
    0xF14]

theorem csrNamed_eq_none {a : BitVec 12} (h : a.toNat ∉ namedAddresses) : csrNamed a = none := by
  cases hd : csrNamed a with
  | none => rfl
  | some c =>
    refine absurd ?_ h
    unfold csrNamed at hd
    split at hd <;> cases hd <;> decide

/-- The addresses of kind zero, as numbers. -/
def ZeroAddress (x : Xlen) (a : Nat) : Prop :=
  a ∈ [0x320, 0xB00, 0xC00, 0xF15] ∨ (0x323 ≤ a ∧ a ≤ 0x33F) ∨ (0x3A0 ≤ a ∧ a ≤ 0x3EF) ∨ (0xB02 ≤ a ∧ a ≤ 0xB1F)
    ∨ (0xC02 ≤ a ∧ a ≤ 0xC1F)
    ∨ (x = .x32 ∧ (a ∈ [0x310, 0x757, 0xB80, 0xC80] ∨ (0xB82 ≤ a ∧ a ≤ 0xB9F) ∨ (0xC82 ≤ a ∧ a ≤ 0xC9F)))

theorem ZeroAddress.not_named {x : Xlen} {a : Nat} (h : ZeroAddress x a) : a ∉ namedAddresses := by
  simp only [ZeroAddress, List.mem_cons, List.not_mem_nil, or_false] at h
  simp only [namedAddresses, List.mem_cons, List.not_mem_nil, or_false]
  omega

theorem ZeroAddress.csrZero {x : Xlen} {a : BitVec 12} (h : ZeroAddress x a.toNat) :
    csrZero a = true ∨ (x = .x32 ∧ csrZero32 a = true) := by
  simp only [ZeroAddress, List.mem_cons, List.not_mem_nil, or_false] at h
  simp only [Machine.csrZero, csrZero32, inRange, Bool.or_eq_true, Bool.and_eq_true, decide_eq_true_iff]
  rcases h with h | h | h | h | h | ⟨hx, h⟩
  case inr.inr.inr.inr.inr => exact .inr ⟨hx, by omega⟩
  all_goals exact .inl (by omega)

theorem csrMap_zero {x : Xlen} {a : BitVec 12} (h : ZeroAddress x a.toNat) : csrMap x a = some .zero := by
  unfold csrMap
  rw [csrNamed_eq_none h.not_named]
  rcases h.csrZero with hz | ⟨rfl, hz⟩
  · exact if_pos hz
  · dsimp only
    rw [if_pos hz, ite_self]

/-! ### `misa` (15_csr R80, R81) -/

theorem mxl_of_x64 {s : State} (h : s.xlen = .x64) : s.csr.mxl = .x64 := by
  cases hm : s.csr.mxl
  · simp [State.xlen, State.xlenIn, xlenFor, hm] at h
  · rfl

theorem writeMisa_x64 (s : State) (v : Word) : State.writeMisa .x64 s v =
    if v.toNat / 2 ^ 62 = 1 then { s with csr := { s.csr with mxl := .x32 }, tlb := Tlb.empty } else s := by
  have hv := v.isLt
  refine if_congr ?_ rfl rfl
  rw [← BitVec.toNat_inj, toNat_extract_eq_div, BitVec.toNat_ofNat]
  omega

theorem writeMisa_x32 (s : State) (v : Word) : State.writeMisa .x32 s v =
    if v.toNat / 2 ^ 30 % 4 = 2 ∧ s.hw.rv64 = true then { s with csr := { s.csr with mxl := .x64 }, tlb := Tlb.empty }
    else s := by
  refine if_congr (and_congr_left' ?_) rfl rfl
  rw [← BitVec.toNat_inj, toNat_extract_eq_div]
  rfl

/-! ### `menvcfg`: STCE, bit 63, alone (15_csr R101) -/

theorem stceMask_bit (b : Nat) : (0x8000000000000000#64).getLsbD b = decide (b = 63) := by
  rw [show (0x8000000000000000#64) = BitVec.twoPow 64 63 from by decide, BitVec.getLsbD_twoPow]
  simp [eq_comm]

theorem toNat_and_stceMask (w : Word) : (w &&& 0x8000000000000000#64).toNat = w.toNat / 2 ^ 63 * 2 ^ 63 := by
  have hw := w.isLt
  show w.toNat &&& 2 ^ 63 = _
  rw [Nat.and_two_pow, Nat.testBit_eq_decide_div_mod_eq]
  by_cases h : w.toNat / 2 ^ 63 % 2 = 1
  · rw [decide_eq_true h, Bool.toNat_true]; omega
  · rw [decide_eq_false h, Bool.toNat_false]; omega

/-- At XLEN = 32 the low half shows none of it and changes none of it. -/
theorem menvcfg_x32 {w : Word} (h : w &&& ~~~0x8000000000000000#64 = 0#64) (new : Word) :
    csrView .x32 w = 0#64 ∧ maskedWrite w 0x8000000000000000#64 (csrStore64 .x32 w new) = w := by
  constructor <;> apply BitVec.eq_of_getLsbD_eq <;> intro b _
  · rw [getLsbD_csrView, BitVec.getLsbD_zero]
    by_cases hb : b < 32
    · rw [bit_of_clear h (by rw [stceMask_bit]; exact decide_eq_false (by omega)), Bool.and_false]
    · exact Bool.and_eq_false_imp.2 fun h32 => absurd (of_decide_eq_true h32) hb
  · rw [getLsbD_maskedWrite, getLsbD_csrStore64, stceMask_bit]
    by_cases hb : b = 63
    · subst hb; rfl
    · simp [hb]

/-- The upper half writes it from bit 31. -/
theorem menvcfgh_toNat {w : Word} (h : w &&& ~~~0x8000000000000000#64 = 0#64) (new : Word) :
    (maskedWrite w 0x8000000000000000#64 (putHighHalf w new)).toNat = new.toNat / 2 ^ 31 % 2 * 2 ^ 63 := by
  have hval : (maskedWrite w 0x8000000000000000#64 (putHighHalf w new)).toNat = _ :=
    (congrArg BitVec.toNat (masked_of_clear h _)).trans (toNat_and_stceMask _)
  rw [hval, putHighHalf_toNat]
  omega

/-! ### `fcsr` and its views (15_csr R112 to R114) -/

theorem csrRead_fp {x : Xlen} {s : State} (h : csrOpen s .fcsr) :
    csrRead x .fcsr s = some (s.accrueFp.csr.fcsr.setWidth 64, s.accrueFp)
    ∧ csrRead x .fflags s = some ((s.accrueFp.csr.fcsr.extractLsb' 0 5).setWidth 64, s.accrueFp)
    ∧ csrRead x .frm s = some ((s.accrueFp.csr.fcsr.extractLsb' 5 3).setWidth 64, s.accrueFp) :=
  ⟨if_pos ((fpuOn_iff s).2 h), if_pos ((fpuOn_iff s).2 h), if_pos ((fpuOn_iff s).2 h)⟩

theorem writeFcsr_fpAccrued (s : State) (v : BitVec 8) :
    (s.writeFcsr v).fpAccrued = if s.fpAccrued &&& ~~~(v.setWidth 5) = 0#5 then s.fpAccrued else 0#5 := by
  have hv : v.extractLsb' 0 5 = v.setWidth 5 := BitVec.eq_of_toNat_eq rfl
  rw [← hv]
  rfl

/-- A write of `frm` keeps the accrued flags, which the read has put into `fcsr`. -/
theorem frm_fpAccrued (s : State) (rm : BitVec 3) :
    (s.accrueFp.writeFcsr (rm ++ s.accrueFp.csr.fcsr.extractLsb' 0 5)).fpAccrued = s.fpAccrued := by
  refine if_pos ?_
  rw [BitVec.extractLsb'_append_eq_right]
  apply BitVec.eq_of_getLsbD_eq
  intro b hb
  have hacc : (s.accrueFp.csr.fcsr.extractLsb' 0 5).getLsbD b = (s.csr.fcsr.getLsbD b || s.fpAccrued.getLsbD b) := by
    have h8 : b < 8 := by omega
    simp [State.accrueFp, hb, h8]
  rw [BitVec.getLsbD_and, BitVec.getLsbD_not, hacc, State.accrueFp_fpAccrued]
  cases s.fpAccrued.getLsbD b <;> simp

theorem frm_frame (s : State) (rm : BitVec 3) :
    let u := s.accrueFp.writeFcsr (rm ++ s.accrueFp.csr.fcsr.extractLsb' 0 5)
    u = { s with csr := { s.csr with fcsr := u.csr.fcsr } } := by
  apply State.eq_of_fields
  case hfp => exact frm_fpAccrued s rm
  all_goals rfl

theorem flags_toNat (v : BitVec 8) : ((v.extractLsb' 0 5).setWidth 64 : Word).toNat = v.toNat % 32 := by
  rw [BitVec.toNat_setWidth, toNat_extract_eq_div]; omega

theorem roundingMode_toNat (v : BitVec 8) : ((v.extractLsb' 5 3).setWidth 64 : Word).toNat = v.toNat / 32 := by
  have hv := v.isLt
  rw [BitVec.toNat_setWidth, toNat_extract_eq_div]; omega

theorem withFlags_toNat (v : BitVec 8) (new : Word) :
    (v.extractLsb' 5 3 ++ new.extractLsb' 0 5).toNat = v.toNat / 32 * 32 + new.toNat % 32 := by
  have hv := v.isLt
  rw [toNat_append_eq_mul, toNat_extract_eq_div, toNat_extract_eq_div]; omega

theorem withRoundingMode_toNat (v : BitVec 8) (new : Word) :
    (new.extractLsb' 0 3 ++ v.extractLsb' 0 5).toNat = new.toNat % 8 * 32 + v.toNat % 32 := by
  rw [toNat_append_eq_mul, toNat_extract_eq_div, toNat_extract_eq_div]; omega

/-- Settles O60: each address by its CSR, whose read and write are its rule's. -/
theorem otherCsrs : Obligations.OtherCsrs := by
  unfold Obligations.OtherCsrs
  rintro i f s a hf rfl hp ho
  have done : ∀ {n : Nat} {c : Csr} {old : Word} {t : State}, f.csr.toNat = n →
      csrMap s.xlen (BitVec.ofNat 12 n) = some c → csrRead s.xlen c s = some (old, t) →
      CsrDone s i f old (csrWrite s.xlen c f.op f.operand (csrNew f.op old f.operand) t) :=
    fun hn hm hr => csr_done hf hp ho (csrMap_of_toNat hn hm) hr
  refine ⟨fun h hext => ⟨fun hx => ?misa64, fun hx hmxl => ?misa32⟩, fun h => done h rfl rfl, fun h => done h rfl rfl,
    fun h => done h rfl rfl, fun h hwf => ?mhartid, fun h => csr_done hf hp ho (csrMap_zero h) rfl,
    fun h => done h rfl rfl, fun h => done h rfl rfl, fun h hb => ⟨fun hx => ?menvcfg64, fun hx => ?menvcfg32⟩,
    fun h hb hx => ?menvcfgh, fun h hb => ?senvcfg, fun h hb => ?mseccfg, ?fcsr⟩
  case misa64 =>
    have hr : csrRead s.xlen .misa s = some (0x8000000000141105#64, s) := by
      simp only [csrRead, hx, mxl_of_x64 hx, hext]; rfl
    have hd := done h rfl hr
    rw [hx] at hd
    exact ⟨_, hd, writeMisa_x64 _ _⟩
  case misa32 =>
    have hr : csrRead s.xlen .misa s = some (0x40141105#64, s) := by
      simp only [csrRead, hx, hmxl, hext]; rfl
    have hd := done h rfl hr
    rw [hx] at hd
    exact ⟨_, hd, writeMisa_x32 _ _⟩
  case mhartid =>
    have hlt : (BitVec.ofNat 64 s.hw.hartId).toNat < 2 ^ 32 := by
      simp only [Params.wf, Bool.and_eq_true, decide_eq_true_iff] at hwf
      rw [BitVec.toNat_ofNat]
      omega
    have hd := done (c := .mhartid) h rfl rfl
    rwa [csrView_of_lt _ hlt] at hd
  case menvcfg64 =>
    have hd := done (c := .menvcfg) h rfl rfl
    rw [hx] at hd
    rw [← masked_of_clear hb.menvcfg]
    exact hd
  case menvcfg32 =>
    have hd := done (c := .menvcfg) h rfl rfl
    rw [hx] at hd
    obtain ⟨hread, hwrite⟩ := menvcfg_x32 hb.menvcfg (csrNew f.op (csrView .x32 s.csr.m.envcfg) f.operand)
    simp only [csrWrite, hwrite] at hd
    rw [hread] at hd
    exact hd
  case menvcfgh =>
    have hd := done (c := .menvcfgh) h (by rw [hx]; rfl) rfl
    exact ⟨_, _, hd, highHalf_toNat _, rfl, menvcfgh_toNat hb.menvcfg _⟩
  case senvcfg =>
    have hd := done (c := .senvcfg) h rfl rfl
    rwa [hb.senvcfg, csrView_of_lt _ (by decide)] at hd
  case mseccfg =>
    have hlt : s.csr.mseccfg.toNat < 2 ^ 32 := Nat.lt_of_le_of_lt (toNat_le_of_clear hb.mseccfg) (by decide)
    have hd := done (c := .mseccfg) h rfl rfl
    rw [csrView_of_lt _ hlt] at hd
    rw [← csrStore64_and (x := s.xlen) (w := s.csr.mseccfg) (by decide), ← masked_of_clear hb.mseccfg]
    exact hd
  case fcsr =>
    rintro acc rfl hopen
    obtain ⟨hfcsr, hfflags, hfrm⟩ := csrRead_fp (x := s.xlen) hopen
    refine ⟨fun h => ?_, fun h => ?_, fun h => ?_⟩
    · exact ⟨_, done h rfl hfcsr, rfl, writeFcsr_fpAccrued _ _⟩
    · exact ⟨_, _, done h rfl hfflags, flags_toNat _, rfl, withFlags_toNat _ _, writeFcsr_fpAccrued _ _⟩
    · exact ⟨_, _, done h rfl hfrm, roundingMode_toNat _, frm_frame s _, withRoundingMode_toNat _ _⟩

end Sys2Proof.Machine
end

section
/-! SUPPORT. Memory and the TLB under traps, returns and steps: what empties the TLB (20_memory R179), and the forms that
every step keeps (20_memory R150, R172, R174). -/

namespace Sys2Proof.Machine

/-! ### The TLB where the mode or the status word changes -/

/-- The TLB is as it was, and so is all that a flush goes by (20_memory R179); or the TLB was emptied. -/
def KeptOrFlushed (s t : State) : Prop :=
  (t.tlb = s.tlb ∧ t.priv = s.priv ∧ SameFlushBits t.csr.status s.csr.status) ∨ t.tlb = Tlb.empty

/-- What traps and returns have in common: a write of the status, a change of mode, a jump. -/
theorem writeStatus_setPriv_jumpTo_flushes (s : State) (w : Word) (p : Priv) (v : Word) :
    KeptOrFlushed s (((s.writeStatus w).setPriv p).jumpTo v) := by
  unfold KeptOrFlushed
  simp only [State.jumpTo_tlb, State.jumpTo_priv, State.jumpTo_csr, State.setPriv_tlb, State.setPriv_priv,
    State.setPriv_csr, State.writeStatus_priv, writeStatus_status]
  by_cases hp : p = s.priv
  · rw [if_pos hp]
    obtain ⟨keep, flush⟩ := writeStatus_tlb s w
    by_cases hb : SameFlushBits (validate s.hw w) s.csr.status
    · exact .inl ⟨keep hb, hp, hb⟩
    · exact .inr (flush hb)
  · exact .inr (if_neg hp)

theorem takeTrap_flushes (s : State) (int : Bool) (c : Nat) (tv : Word) : KeptOrFlushed s (s.takeTrap int c tv) :=
  takeTrap_of_entries (writeStatus_setPriv_jumpTo_flushes _ _ _ _) (writeStatus_setPriv_jumpTo_flushes _ _ _ _)

theorem returnS_flushes (s : State) : KeptOrFlushed s s.returnS := writeStatus_setPriv_jumpTo_flushes _ _ _ _

theorem takeTrap_mxl (s : State) (int : Bool) (c : Nat) (tv : Word) : (s.takeTrap int c tv).csr.mxl = s.csr.mxl :=
  takeTrap_of_entries (P := fun t => t.csr.mxl = s.csr.mxl) (by rw [enterM_csr]) (by rw [enterS_csr])

/-! ### The invariants -/

theorem TlbInv.of_keptOrFlushed {s t : State} (h : TlbInv s) (hhw : t.hw = s.hw) (hk : KeptOrFlushed s t) : TlbInv t := by
  rcases hk with ⟨htlb, -, -⟩ | htlb
  · exact h.congr htlb hhw
  · exact .of_empty htlb

/-- Another agent's bytes are stored in canonical form, and only those inside RAM. -/
theorem MemInv.event {s : State} (h : MemInv s) (e : Event) : MemInv (s.event e) := by
  cases e with
  | post | clear | brk => exact h.congr rfl rfl
  | ramWrite pa bytes =>
    refine ⟨storeBytes_wf _ _ _ h.canonical, fun c hc => ?_⟩
    rcases mem_storeBytes _ _ hc with hin | hold
    · exact hin
    · exact h.inWindow c hold

theorem memInv_stepKeeps : StepKeeps MemInv where
  inbox _ h := h.congr rfl rfl
  event e h := h.event e
  prelude hu h := hu.mem h
  data hu h := hu.mem h
  csr e h := h.congr (by rw [e.frame]) (by rw [e.frame])
  setX rd v h := h.congr (by simp) (by simp)
  setPc _ h := h.congr rfl rfl
  trap int c tv h := h.congr (by simp) (by simp)
  mret h := h.congr (by simp) (by simp)
  sret h := h.congr (by simp) (by simp)

theorem tlbInv_stepKeeps : StepKeeps TlbInv where
  inbox _ h := h.congr rfl rfl
  event e h := h.congr (by simp) (by simp)
  prelude hu h := hu.tlb h
  data hu h := hu.tlb h
  csr e h := e.tlb.elim (fun ht => h.congr ht (by rw [e.frame])) .of_empty
  setX rd v h := h.congr (by simp) (by simp)
  setPc _ h := h.congr rfl rfl
  trap int c tv h := h.of_keptOrFlushed (by simp) (takeTrap_flushes _ int c tv)
  mret h := .of_empty rfl
  sret h := h.of_keptOrFlushed (by simp) (returnS_flushes _)

/-- Settles O18: stores and fills keep the two forms, whatever step they are part of, and a flush leaves nothing to keep. -/
theorem memoryAndTlbInvariant : Obligations.MemoryAndTlbInvariant := by
  unfold Obligations.MemoryAndTlbInvariant
  exact ⟨fun _ _ hs h => memInv_stepKeeps.step hs h, fun _ _ hs h => tlbInv_stepKeeps.step hs h⟩

/-! ### Flush points -/

/-- Something a flush goes by differs: the mode, MPP, MPRV, SUM or MXR, paging on or off, MXL (20_memory R179). -/
def FlushPoint (s t : State) : Prop :=
  t.priv ≠ s.priv ∨ ¬ SameFlushBits t.csr.status s.csr.status ∨ (t.mmuMode = .bare ↔ s.mmuMode ≠ .bare)
    ∨ t.csr.mxl ≠ s.csr.mxl

theorem not_flushPoint_of_eq {s t : State} (hpriv : t.priv = s.priv) (hcsr : t.csr = s.csr)
    (hmmu : t.mmuMode = s.mmuMode) : ¬ FlushPoint s t := by
  simp [FlushPoint, SameFlushBits, hpriv, hcsr, hmmu]

/-- Where neither MXL nor the paging mode changes, an update that keeps the TLB passes no flush point. -/
theorem KeptOrFlushed.tlb_empty {s t : State} (h : KeptOrFlushed s t) (hmmu : t.mmuMode = s.mmuMode)
    (hmxl : t.csr.mxl = s.csr.mxl) (hp : FlushPoint s t) : t.tlb = Tlb.empty := by
  rcases h with ⟨-, hpriv, hbits⟩ | hempty
  · rcases hp with hp | hp | hp | hp
    · exact absurd hpriv hp
    · exact absurd hbits hp
    · exact absurd (hmmu ▸ hp) iff_not_self
    · exact absurd hmxl hp
  · exact hempty

theorem Data.priv {s u : State} (h : Data s u) : u.priv = s.priv := by rw [h.frame]
theorem Data.csr {s u : State} (h : Data s u) : u.csr = s.csr := by rw [h.frame]
theorem Data.mmuMode {s u : State} (h : Data s u) : u.mmuMode = s.mmuMode := by rw [h.frame]

/-- What a flush goes by does not differ after the data effects of an instruction. -/
theorem Data.flushPoint_iff {s u t : State} (h : Data s u) : FlushPoint u t ↔ FlushPoint s t := by
  simp only [FlushPoint, h.priv, h.csr, h.mmuMode]

/-- An instruction that passes a flush point traps, returns or writes a CSR, and each of these flushes. -/
theorem exec_tlb_of_flushPoint {i : Instr} {s t : State} (h : exec i s = .next t) (hp : FlushPoint s t) :
    t.tlb = Tlb.empty := by
  have r := exec_runs i s
  rw [h] at r
  cases r with
  | retires u rd v p hu =>
    exact absurd (hu.flushPoint_iff.2 hp) (not_flushPoint_of_eq (by simp) (by simp) (by simp))
  | traps u c tv hu =>
    exact (takeTrap_flushes u false c tv).tlb_empty (by simp) (takeTrap_mxl u false c tv) (hu.flushPoint_iff.2 hp)
  | csr a v op rd old u hu =>
    have e := csrAccess_effect hu
    have hpriv : u.priv = s.priv := by rw [e.frame]
    simpa using e.flush (by simpa [FlushPoint, hpriv] using hp)
  | mret => rfl
  | sret => exact (returnS_flushes s).tlb_empty (by simp) (by rw [returnS_csr]) hp

/-- Settles O17: of the five ways an instruction ends a retirement passes no flush point, and the others flush at one. -/
theorem tlbFlushPoints : Obligations.TlbFlushPoints := by
  unfold Obligations.TlbFlushPoints
  intro i s t h hp
  refine exec_tlb_of_flushPoint h ?_
  unfold FlushPoint SameFlushBits
  tauto

end Sys2Proof.Machine
end

section
/-! SUPPORT. Translation: its frame, the TLB before and after it, and what a walk gives (20_memory R165 to R188). -/

namespace Sys2Proof.Machine

/-! ### What a translation changes and reports (20_memory R165, R187) -/

theorem svMode_of_walks {s : State} {acc : Acc} (h : identityMapped s acc = false) : ∃ m, svMode s.mmuMode = some m := by
  unfold identityMapped at h
  cases hm : s.mmuMode with
  | bare => simp [hm] at h
  | sv32 | sv39 | sv48 | sv57 => exact ⟨_, rfl⟩

theorem translate_mem_of_identity {acc : Acc} {va : Word} {s u : State} {pa : Nat} (h : translate acc va s = .ok pa u)
    (hi : identityMapped s acc = true) : u.mem = s.mem := by
  rcases translate_ok h with ⟨p, -, -, rfl⟩ | ⟨-, -, rfl⟩ | ⟨p, l, hw, -⟩
  · rfl
  · simp
  · rw [hi] at hw; cases hw

/-- A byte that a translation changes belongs to an entry its walk comes to (20_memory R185). -/
theorem translate_changed_byte {acc : Acc} {va : Word} {s u : State} {pa b : Nat} (h : translate acc va s = .ok pa u)
    (hb : u.mem.readByte b ≠ s.mem.readByte b) :
    ∃ (m : SvMode) (i a : Nat), svMode s.mmuMode = some m ∧ WalkReaches s m va i a
      ∧ pteAddr m va i a ≤ b ∧ b < pteAddr m va i a + m.size := by
  rcases translate_ok h with ⟨p, -, -, rfl⟩ | ⟨-, -, rfl⟩ | ⟨p, l, hi, hl, -, -, -, rfl⟩
  · exact absurd rfl hb
  · simp at hb
  · obtain ⟨m, hm⟩ := svMode_of_walks hi
    obtain ⟨htop, -, hsize, -⟩ := svMode_some hm
    obtain ⟨a, hr, haddr, -⟩ := reaches_of_walkFrom hm .root (htop ▸ hl)
    rw [State.tlbInstall_mem] at hb
    have hin := touchPte_bytes hb
    rw [haddr, ← hsize] at hin
    exact ⟨m, l.level, a, hm, hr, hin⟩

/-- Settles O41: an answer comes from the TLB, the identity or a walk, of which the walk alone writes, to its leaf entry. -/
theorem translationFrame : Obligations.TranslationFrame := by
  unfold Obligations.TranslationFrame
  refine fun acc va s => ⟨fun pa u h => ⟨translate_frame h, translate_mod h, fun hi a => ?_, fun b hb => ?_⟩,
    fun e tv u h => ?_⟩
  · rw [translate_mem_of_identity h hi]
  · exact translate_changed_byte h hb
  · obtain ⟨hu, htv, he⟩ := translate_exc h
    obtain ⟨hpage, haccess⟩ := acc_codes acc
    refine ⟨hu, htv, he.imp ?_ ?_⟩ <;> rintro rfl <;> assumption

/-! ### Translation with the TLB emptied -/

theorem walkFrom_withTlb (s : State) (tl : Tlb) (va : Word) (acc : Acc) (i a : Nat) :
    walkFrom { s with tlb := tl } va acc i a = walkFrom s va acc i a := by
  induction i generalizing a with
  | zero => rw [walkFrom, walkFrom]
  | succ j ih => rw [walkFrom, walkFrom]; simp only [ih]

theorem touchPte_withTlb (s : State) (tl : Tlb) (l : Leaf) (acc : Acc) :
    State.touchPte { s with tlb := tl } l acc = { s.touchPte l acc with tlb := tl } := by
  unfold State.touchPte
  dsimp only
  split <;> rfl

theorem walk_withTlb (s : State) (tl : Tlb) (va : Word) (acc : Acc) (eff : Priv) :
    walk { s with tlb := tl } va acc eff = (walk s va acc eff).map fun r => (r.1, { r.2 with tlb := tl }) := by
  unfold walk
  simp only [walkFrom_withTlb, touchPte_withTlb]
  split
  · rfl
  · cases walkFrom s va acc s.mmuMode.top s.rootPageTable.toNat with
    | error e => rfl
    | ok l =>
      dsimp only
      split
      · rfl
      · split <;> rfl

/-- What the page tables say does not depend on the TLB. -/
theorem newTranslation_withTlb (acc : Acc) (va : Word) (s : State) (tl : Tlb) :
    newTranslation acc va { s with tlb := tl } =
      (newTranslation acc va s).map fun r => (r.1, { r.2 with tlb := tl }) := by
  have heff : State.effPriv { s with tlb := tl } acc = s.effPriv acc := by cases acc <;> rfl
  unfold newTranslation
  rw [heff, walk_withTlb]
  dsimp only
  by_cases hi : s.mmuMode = .bare ∨ s.effPriv acc = .M
  · rw [if_pos hi, if_pos hi]; rfl
  · rw [if_neg hi, if_neg hi]

theorem tlbHit_eq_none {acc : Acc} {va : Word} {s : State} (h : ∀ e, ¬ Kept s acc va e) :
    s.tlbHit (vpnOf va) acc = none := by
  refine Option.eq_none_iff_forall_ne_some.2 fun p hp => ?_
  obtain ⟨e, he, -⟩ := mem_keptPages.1 (tlbHit_kept hp)
  exact h e he

/-- Where nothing was translated since the last flush a translation is what the page tables say, and fills the TLB. -/
theorem translate_of_not_kept {acc : Acc} {va : Word} {s : State} (h : ∀ e, ¬ Kept s acc va e) :
    (∀ e, newTranslation acc va s = .error e → translate acc va s = .exc e va s)
    ∧ ∀ p t, newTranslation acc va s = .ok (p, t) →
      translate acc va s = .ok (physAddr p va) (t.tlbInstall (vpnOf va) p acc) := by
  rw [translate_settled fun e he => absurd he (h e), tlbHit_eq_none h]
  exact ⟨fun e hn => by simp only [hn], fun p t hn => by simp only [hn]⟩

theorem not_kept_of_empty (s : State) (acc : Acc) (va : Word) (e : TlbEntry) :
    ¬ Kept { s with tlb := Tlb.empty } acc va e := by
  simp [Kept, assocGet]

theorem translate_empty (acc : Acc) (va : Word) (s : State) :
    (∀ e, newTranslation acc va s = .error e →
      ∃ v, translate acc va { s with tlb := Tlb.empty } = .exc e va v)
    ∧ ∀ p t, newTranslation acc va s = .ok (p, t) →
      ∃ v, translate acc va { s with tlb := Tlb.empty } = .ok (physAddr p va) v := by
  obtain ⟨onError, onOk⟩ := translate_of_not_kept (not_kept_of_empty s acc va)
  have hn := newTranslation_withTlb acc va s Tlb.empty
  exact ⟨fun e h => ⟨_, onError e (by rw [hn, h]; rfl)⟩, fun p t h => ⟨_, onOk p _ (by rw [hn, h]; rfl)⟩⟩

/-- An access uses what was translated since the last flush, or what it would use with the TLB empty
(70_reset_and_hazards R592). -/
theorem translate_old_or_new (acc : Acc) (va : Word) (s : State) :
    (∃ e : TlbEntry, Kept s acc va e ∧ translate acc va s = .ok (e.ppn.toNat * 4096 + va.toNat % 4096) s)
    ∨ (∃ (pa : Nat) (u v : State), translate acc va s = .ok pa u
        ∧ translate acc va { s with tlb := Tlb.empty } = .ok pa v)
    ∨ ∃ (e : Exc) (v : State), translate acc va s = .exc e va s
        ∧ translate acc va { s with tlb := Tlb.empty } = .exc e va v := by
  have old : ∀ p, p ∈ s.keptPages (vpnOf va) acc → translate acc va s = .ok (physAddr p va) s →
      ∃ e : TlbEntry, Kept s acc va e ∧ translate acc va s = .ok (e.ppn.toNat * 4096 + va.toNat % 4096) s := by
    intro p hp ht
    obtain ⟨e, he, rfl⟩ := mem_keptPages.1 hp
    exact ⟨e, he, ht⟩
  obtain ⟨emptyError, emptyOk⟩ := translate_empty acc va s
  cases hold : (oldPages acc va s)[Config.oldTranslation s.draws acc.code va]? with
  | some p =>
    exact .inl (old p (mem_oldPages.1 (List.mem_of_getElem? hold)).1 (by unfold translate; rw [hold]))
  | none =>
    cases hn : newTranslation acc va s with
    | error e =>
      obtain ⟨v, hv⟩ := emptyError e hn
      exact .inr (.inr ⟨e, v, by unfold translate; rw [hold, hn], hv⟩)
    | ok r =>
      obtain ⟨p, t⟩ := r
      by_cases hh : s.tlbHit (vpnOf va) acc = some p
      · exact .inl (old p (tlbHit_kept hh) (by unfold translate; rw [hold, hn]; exact if_pos hh))
      · obtain ⟨v, hv⟩ := emptyOk p t hn
        exact .inr (.inl ⟨_, _, v, by unfold translate; rw [hold, hn]; exact if_neg hh, hv⟩)

/-! ### Lookup and fill (20_memory R173, R174) -/

/-- Of the access kinds an addition of one leaves the others as they are. -/
theorem has_add_iff (e : TlbEntry) (acc b : Acc) : (e.add acc).has b = true ↔ b = acc ∨ e.has b = true := by
  cases acc <;> cases b <;> simp [TlbEntry.add, TlbEntry.has]

theorem has_fresh_iff (v p : BitVec 52) (acc b : Acc) : (TlbEntry.fresh v p acc).has b = true ↔ b = acc := by
  rw [TlbEntry.fresh, has_add_iff]
  cases b <;> simp [TlbEntry.has]

/-- A fill allows its own kind of access and those that an entry of the same page to the same page allowed before. -/
theorem tlbFilled_has_iff (s : State) (v p : BitVec 52) (acc b : Acc) :
    (s.tlbFilled v p acc).has b = true ↔ b = acc ∨ ∃ d, assocGet s.tlb.slots (s.tlbSlot v) = some d
      ∧ d.vpn = v ∧ d.ppn = p ∧ d.has b = true := by
  unfold State.tlbFilled
  cases assocGet s.tlb.slots (s.tlbSlot v) with
  | none => simp [has_fresh_iff]
  | some d =>
    simp only [Option.some.injEq, exists_eq_left']
    split
    · rename_i h; simp [has_add_iff, h]
    · rename_i h; rw [has_fresh_iff]; tauto

/-- What a translation of page `v` to page `p` leaves in the slots: an entry for it where `p` is in RAM, else nothing new. -/
structure Filled (acc : Acc) (s u : State) (v p : BitVec 52) : Prop where
  ram : Params.inRam s.hw (p.toNat * 4096) 4096 = true → ∃ e, assocGet u.tlb.slots (s.tlbSlot v) = some e
    ∧ e.vpn = v ∧ e.ppn = p ∧ ∀ b, e.has b = true ↔ b = acc ∨ ∃ d, assocGet s.tlb.slots (s.tlbSlot v) = some d
      ∧ d.vpn = e.vpn ∧ d.ppn = e.ppn ∧ d.has b = true
  others : ∀ k, k ≠ s.tlbSlot v → assocGet u.tlb.slots k = assocGet s.tlb.slots k
  notRam : Params.inRam s.hw (p.toNat * 4096) 4096 = false → u.tlb = s.tlb

theorem Filled.of_hit {acc : Acc} {s : State} {v p : BitVec 52} (h : s.tlbHit v acc = some p) : Filled acc s s v p := by
  obtain ⟨e, hget, rfl, hhas, rfl⟩ := tlbHit_some.1 h
  refine ⟨fun _ => ⟨e, hget, rfl, rfl, fun b => ⟨fun hb => .inr ⟨e, hget, rfl, rfl, hb⟩, ?_⟩⟩, fun _ _ => rfl, fun _ => rfl⟩
  rintro (rfl | ⟨d, hd, -, -, hb⟩)
  · exact hhas
  · rw [hget] at hd; cases hd; exact hb

theorem Filled.of_install (acc : Acc) (s : State) (v p : BitVec 52) : Filled acc s (s.tlbInstall v p acc) v p := by
  obtain ⟨hv, hp, -⟩ := tlbFilled_spec s v p acc
  refine ⟨fun hr => ⟨s.tlbFilled v p acc, ?_, hv, hp, fun b => ?_⟩, fun k hk => ?_, fun hr => ?_⟩
  · rw [State.tlbInstall_tlb, if_pos hr, assocGet_put, if_pos rfl]
  · rw [hv, hp]; exact tlbFilled_has_iff s v p acc b
  · rw [State.tlbInstall_tlb]
    split
    · rw [assocGet_put, if_neg hk]
    · rfl
  · rw [State.tlbInstall_tlb, if_neg (by simp [hr])]

/-- The slots before count, and the parameters; nothing else of the state a fill begins in does. -/
theorem Filled.congr {acc : Acc} {s t u : State} {v p : BitVec 52} (h : Filled acc t u v p) (htlb : t.tlb = s.tlb)
    (hhw : t.hw = s.hw) : Filled acc s u v p := by
  obtain ⟨ram, others, notRam⟩ := h
  unfold State.tlbSlot at ram others
  rw [htlb, hhw] at *
  exact ⟨ram, others, notRam⟩

theorem newTranslation_tlb_hw {acc : Acc} {va : Word} {s t : State} {p : BitVec 52}
    (h : newTranslation acc va s = .ok (p, t)) : t.tlb = s.tlb ∧ t.hw = s.hw := by
  rcases newTranslation_ok h with ⟨-, -, rfl⟩ | ⟨l, -, -, -, -, rfl⟩
  · exact ⟨rfl, rfl⟩
  · simp

theorem translate_filled {acc : Acc} {va : Word} {s u : State} {pa : Nat} (hs : MappingSettled s acc va)
    (h : translate acc va s = .ok pa u) : ∃ p, pa = physAddr p va ∧ Filled acc s u (vpnOf va) p := by
  rw [translate_settled hs] at h
  cases hh : s.tlbHit (vpnOf va) acc with
  | some p => rw [hh] at h; cases h; exact ⟨p, rfl, .of_hit hh⟩
  | none =>
    cases hn : newTranslation acc va s with
    | error e => rw [hh, hn] at h; cases h
    | ok r =>
      obtain ⟨p, t⟩ := r
      obtain ⟨htlb, hhw⟩ := newTranslation_tlb_hw hn
      rw [hh, hn] at h; cases h
      exact ⟨p, rfl, (Filled.of_install acc t (vpnOf va) p).congr htlb hhw⟩

theorem newTranslation_identity {acc : Acc} {va : Word} {s : State} (h : identityMapped s acc = true) :
    newTranslation acc va s = .ok (vpnOf va, s) :=
  if_pos (by simpa [identityMapped] using h)

theorem newTranslation_walks {acc : Acc} {va : Word} {s : State} (h : identityMapped s acc = false) :
    newTranslation acc va s = walk s va acc (s.effPriv acc) :=
  if_neg (by simpa [identityMapped] using h)

/-- A page number of an entry is that of the address exactly if it is the number of its page. -/
theorem vpn_toNat_iff (e : TlbEntry) (va : Word) : e.vpn.toNat = va.toNat / 4096 ↔ e.vpn = vpnOf va := by
  rw [← vpnOf_toNat, BitVec.toNat_inj]

theorem tlbSlot_vpnOf (s : State) (va : Word) : s.tlbSlot (vpnOf va) = va.toNat / 4096 % 2 ^ s.hw.tlbBits := by
  rw [State.tlbSlot, vpnOf_toNat]

/-- Settles O42: while the mapping is settled a translation is a hit, or what the page tables say and a fill; in every state
it is one kept since the last flush or what the page tables say, which does not depend on the TLB. -/
theorem tlbLookupAndFill : Obligations.TlbLookupAndFill := by
  unfold Obligations.TlbLookupAndFill
  refine fun acc va s => ⟨fun hs => ?_, translate_old_or_new acc va s⟩
  simp only [← tlbSlot_vpnOf, vpn_toNat_iff, ne_eq]
  refine ⟨fun e hget hvpn hhas => ?_, fun pa u h => ?_, fun hmiss hi => ?_⟩
  · rw [translate_settled hs, tlbHit_some.2 ⟨e, hget, hvpn, hhas, rfl⟩]; rfl
  · obtain ⟨p, rfl, hf⟩ := translate_filled hs h
    rw [physAddr_div]
    refine ⟨fun hr => ?_, hf.others, hf.notRam⟩
    obtain ⟨e, hget, hvpn, rfl, hhas⟩ := hf.ram hr
    exact ⟨e, hget, hvpn, rfl, hhas⟩
  · have hnone : s.tlbHit (vpnOf va) acc = none := by
      refine Option.eq_none_iff_forall_ne_some.2 fun p hp => ?_
      obtain ⟨e, hget, hvpn, hhas, -⟩ := tlbHit_some.1 hp
      rcases hmiss e hget with hne | hno
      · exact hne hvpn
      · rw [hhas] at hno; cases hno
    rw [translate_settled hs, hnone, newTranslation_identity hi]
    exact ⟨_, congrArg (Res.ok · _) (physAddr_vpnOf va)⟩

/-! ### What a walk gives (20_memory R182 to R186) -/

theorem translationFaults_of_walk {acc : Acc} {va : Word} {s : State} {e : Exc} (hi : identityMapped s acc = false)
    (hk : ∀ e, ¬ Kept s acc va e) (h : walk s va acc (s.effPriv acc) = .error e) : TranslationFaults acc va s e.code :=
  ⟨e, (translate_of_not_kept hk).1 e ((newTranslation_walks hi).trans h), rfl⟩

theorem ptePpn_toNat (pte : Word) : (ptePpn pte).toNat = ppnOf pte := by
  rw [ptePpn, BitVec.extractLsb'_toNat, Nat.shiftRight_eq_div_pow, ppnOf]

theorem walk_of_not_canonical {s : State} {m : SvMode} {va : Word} (acc : Acc) (hm : svMode s.mmuMode = some m)
    (hc : ¬ Canonical m va) (eff : Priv) : walk s va acc eff = .error acc.pageFault :=
  if_pos (by rwa [← canonical_iff hm, Bool.not_eq_true] at hc)

theorem walk_of_walkFrom_error {s : State} {m : SvMode} {va : Word} {acc : Acc} {i a : Nat} {e : Exc}
    (hm : svMode s.mmuMode = some m) (hc : Canonical m va) (hr : WalkReaches s m va i a)
    (h : walkFrom s va acc i a = .error e) (eff : Priv) : walk s va acc eff = .error e := by
  unfold walk
  rw [(canonical_iff hm va).2 hc, walkFrom_reaches hm acc hr, h]
  rfl

/-- The checks after the loop, at the leaf the loop ends in (20_memory R184, R186). -/
theorem walk_of_leaf {s : State} {m : SvMode} {va : Word} {acc : Acc} {i a : Nat} {l : Leaf}
    (hm : svMode s.mmuMode = some m) (hc : Canonical m va) (hr : WalkReaches s m va i a)
    (h : walkFrom s va acc i a = .ok l) (eff : Priv) :
    (¬ LeafPermits s.csr.status l.pte acc eff ∨ ppnOf l.pte % 2 ^ (l.level * m.bits) ≠ 0 →
      walk s va acc eff = .error acc.pageFault)
    ∧ (LeafPermits s.csr.status l.pte acc eff → ppnOf l.pte % 2 ^ (l.level * m.bits) = 0 →
      walk s va acc eff = .ok (BitVec.ofNat 52 (leafPpn s.mmuMode va l), s.touchPte l acc)) := by
  obtain ⟨-, hbits, -, -⟩ := svMode_some hm
  unfold walk
  rw [(canonical_iff hm va).2 hc, walkFrom_reaches hm acc hr, h, hbits, ← ptePpn_toNat, ← permitted_iff]
  by_cases hp : permitted s.csr.status l.pte acc eff = true <;> simp +contextual [hp]

/-- The loop at an entry it comes to, where it does not go on (20_memory R183). -/
theorem walkFrom_at_entry {s : State} {m : SvMode} {va : Word} {i a : Nat} {pte : Word} (acc : Acc)
    (hm : svMode s.mmuMode = some m) (hp : PteIs s m va i a pte) :
    (pteV pte = false ∨ (pteR pte = false ∧ pteW pte = true) → walkFrom s va acc i a = .error acc.pageFault)
    ∧ (i = 0 → pteR pte = false → pteX pte = false → walkFrom s va acc i a = .error acc.pageFault)
    ∧ (pteV pte = true → pteR pte = true ∨ (pteW pte = false ∧ pteX pte = true) →
        walkFrom s va acc i a = .ok ⟨i, pteAddr m va i a, pte⟩) := by
  rw [walkFrom_level hm, if_pos hp.1, pteIs_load hp]
  dsimp only
  refine ⟨fun hinvalid => if_pos hinvalid, fun hi hr hx => ?_, fun hv hleaf => ?_⟩
  · subst hi; simp [hr, hx]
  · rw [if_neg, if_pos]
    · tauto
    · rintro (hv' | ⟨hr, hw⟩) <;> simp_all

/-! ### The leaf that grants the access (20_memory R183, R185) -/

/-- The loop comes to no level above the highest, so a superpage covers at most 2^36 pages. -/
theorem reaches_bits_le {s : State} {k : MmuMode} {m : SvMode} {va : Word} {i a : Nat} (hm : svMode k = some m)
    (hr : WalkReaches s m va i a) : i * m.bits ≤ 36 := by
  have hi : i ≤ m.levels - 1 := by
    induction hr with
    | root => exact Nat.le_refl _
    | next pte here entry valid r w x ih => omega
  have htop : (m.levels - 1) * m.bits ≤ 36 := by
    cases k <;> simp only [svMode, Option.some.injEq, reduceCtorEq] at hm <;> subst hm <;> decide
  exact (Nat.mul_le_mul_right _ hi).trans htop

/-- The page of a leaf whose low PPN fields are 0: these come from the address. -/
theorem leafPpn_toNat {s : State} {m : SvMode} {va : Word} {i a addr : Nat} {pte : Word}
    (hm : svMode s.mmuMode = some m) (hr : WalkReaches s m va i a) (hz : ppnOf pte % 2 ^ (i * m.bits) = 0) :
    (BitVec.ofNat 52 (leafPpn s.mmuMode va ⟨i, addr, pte⟩)).toNat = ppnOf pte + va.toNat / 4096 % 2 ^ (i * m.bits) := by
  obtain ⟨-, hbits, -, -⟩ := svMode_some hm
  have heq : leafPpn s.mmuMode va ⟨i, addr, pte⟩ = ppnOf pte + va.toNat / 4096 % 2 ^ (i * m.bits) := by
    simp only [leafPpn, ptePpn_toNat, vpnOf_toNat, ← hbits]
    rw [Nat.div_mul_cancel (Nat.dvd_of_mod_eq_zero hz)]
  have hppn : ppnOf pte < 2 ^ 44 := Nat.mod_lt _ (by decide)
  have hlow : va.toNat / 4096 % 2 ^ (i * m.bits) < 2 ^ (i * m.bits) := Nat.mod_lt _ (Nat.two_pow_pos _)
  have hpow : 2 ^ (i * m.bits) ≤ 2 ^ 36 := Nat.pow_le_pow_right (by decide) (reaches_bits_le hm hr)
  rw [heq, BitVec.toNat_ofNat, Nat.mod_eq_of_lt (by omega)]

theorem getLsbD_pteTouched (pte : Word) (acc : Acc) (b : Nat) :
    (pteTouched pte acc).getLsbD b = (pte.getLsbD b || decide (b = 6) || (decide (b = 7) && decide (acc = .write))) := by
  have hbits : (0xC0#64).getLsbD b = (decide (b = 6) || decide (b = 7)) ∧ (0x40#64).getLsbD b = decide (b = 6) := by
    rcases Nat.lt_or_ge b 64 with hb | hb
    · revert b; decide
    · rw [BitVec.getLsbD_of_ge _ _ hb, BitVec.getLsbD_of_ge _ _ hb]; simp; omega
  cases acc <;> simp [pteTouched, hbits, Bool.or_assoc]

/-- The bits set lie in the lowest byte, so an SV32 entry stays one. -/
theorem pteTouched_lt {pte : Word} {n : Nat} (acc : Acc) (hn : 0 < n) (h : pte.toNat < 256 ^ n) :
    (pteTouched pte acc).toNat < 256 ^ n := by
  have hbyte : 256 ≤ 256 ^ n := Nat.le_self_pow (by omega) 256
  have h256 : 256 ^ n = 2 ^ (8 * n) := by rw [Nat.pow_mul]
  have bits : ∀ k : Word, k.toNat < 256 → (pte ||| k).toNat < 256 ^ n := fun k hk => by
    rw [BitVec.toNat_or, h256]
    exact Nat.or_lt_two_pow (h256 ▸ h) (h256 ▸ hk.trans_le hbyte)
  cases acc <;> exact bits _ (by decide)

/-- The entry after the walker has set A and D. -/
theorem touchPte_entry {s : State} {m : SvMode} {va : Word} {i a : Nat} {pte : Word} (acc : Acc)
    (hm : svMode s.mmuMode = some m) (hp : PteIs s m va i a pte) :
    bytesAt (s.touchPte ⟨i, pteAddr m va i a, pte⟩ acc).mem (pteAddr m va i a) m.size = (pteTouched pte acc).toNat := by
  obtain ⟨-, -, hsize, -⟩ := svMode_some hm
  have hlt : pte.toNat < 256 ^ m.size := by rw [hp.2, ← load_eq_bytesAt]; exact load_lt _ _ _
  have hpos : 0 < m.size := by rw [hsize]; cases s.mmuMode <;> decide
  rw [State.touchPte_mem]
  split
  · rename_i hsame; rw [← hp.2, hsame]
  · rw [← load_eq_bytesAt, ← hsize, load_store, Nat.mod_eq_of_lt (pteTouched_lt acc hpos hlt)]

/-- A granting leaf gives its page, and A and, for a write, D are set in its entry. -/
theorem translate_of_granting_leaf {s : State} {m : SvMode} {va : Word} {acc : Acc} {i a : Nat} {pte : Word}
    (hi : identityMapped s acc = false) (hk : ∀ e, ¬ Kept s acc va e) (hm : svMode s.mmuMode = some m)
    (hr : WalkReaches s m va i a) (hp : PteIs s m va i a pte) (hz : ppnOf pte % 2 ^ (i * m.bits) = 0)
    (hw : walk s va acc (s.effPriv acc) = .ok (BitVec.ofNat 52 (leafPpn s.mmuMode va ⟨i, pteAddr m va i a, pte⟩),
      s.touchPte ⟨i, pteAddr m va i a, pte⟩ acc)) :
    ∃ (u : State) (w : Word),
      translate acc va s = .ok ((ppnOf pte + va.toNat / 4096 % 2 ^ (i * m.bits)) * 4096 + va.toNat % 4096) u
      ∧ w.toNat = bytesAt u.mem (pteAddr m va i a) m.size
      ∧ pteA w = true ∧ pteD w = (pteD pte || decide (acc = .write))
      ∧ (∀ b, b ≠ 6 → b ≠ 7 → w.getLsbD b = pte.getLsbD b)
      ∧ ∀ b, b < pteAddr m va i a ∨ pteAddr m va i a + m.size ≤ b → u.mem.readByte b = s.mem.readByte b := by
  obtain ⟨-, -, hsize, -⟩ := svMode_some hm
  refine ⟨(s.touchPte ⟨i, pteAddr m va i a, pte⟩ acc).tlbInstall (vpnOf va)
      (BitVec.ofNat 52 (leafPpn s.mmuMode va ⟨i, pteAddr m va i a, pte⟩)) acc,
    pteTouched pte acc, ?_, ?_, ?_, ?_, fun b h6 h7 => ?_, fun b hb => ?_⟩
  · rw [(translate_of_not_kept hk).2 _ _ ((newTranslation_walks hi).trans hw), physAddr, leafPpn_toNat hm hr hz, pageOff]
  · rw [State.tlbInstall_mem, touchPte_entry acc hm hp]
  · rw [pteA, getLsbD_pteTouched]; simp
  · rw [pteD, pteD, getLsbD_pteTouched]; simp
  · simp [getLsbD_pteTouched, h6, h7]
  · rw [State.tlbInstall_mem]
    by_contra hne
    have hin := touchPte_bytes hne
    rw [← hsize] at hin
    dsimp only at hin
    omega

/-- Settles O43: with nothing kept a translation is a walk, whose loop comes to where `WalkReaches` does and ends there. -/
theorem walkGrants : Obligations.WalkGrants := by
  unfold Obligations.WalkGrants
  intro acc va s m hi hk hm
  obtain ⟨hpage, haccess⟩ := acc_codes acc
  have fault : walk s va acc (s.effPriv acc) = .error acc.pageFault → TranslationFaults acc va s (pageFaultCode acc) :=
    fun h => hpage ▸ translationFaults_of_walk hi hk h
  refine ⟨fun hc => fault (walk_of_not_canonical acc hm hc _), fun hc i a hr => ⟨fun hram => ?_, fun pte hp => ?_⟩⟩
  · have hf : walkFrom s va acc i a = .error acc.accessFault := by rw [walkFrom_level hm, if_neg (by simp [hram])]
    exact haccess ▸ translationFaults_of_walk hi hk (walk_of_walkFrom_error hm hc hr hf _)
  · obtain ⟨invalid, pointer, leaf⟩ := walkFrom_at_entry acc hm hp
    refine ⟨fun h => fault (walk_of_walkFrom_error hm hc hr (invalid h) _),
      fun h0 hR hX => fault (walk_of_walkFrom_error hm hc hr (pointer h0 hR hX) _), fun hV hRX => ?_⟩
    obtain ⟨denied, granted⟩ := walk_of_leaf hm hc hr (leaf hV hRX) (s.effPriv acc)
    exact ⟨fun hbad => fault (denied hbad),
      fun hperm hz => translate_of_granting_leaf hi hk hm hr hp hz (granted hperm hz)⟩

end Sys2Proof.Machine
end

section
/-! SUPPORT. Loads and stores part by part: in a device region, and across two pages (20_memory R143, R146, R152, R160 to
R163). -/

namespace Sys2Proof.Machine

/-! ### The width of a form -/

/-- A form of more than 4 bytes exists at XLEN = 64 only, so an access is never wider than a register. -/
theorem memForm_bits_le {i : Instr} {f : MemForm} {s : State} (hf : loadForm i = some f ∨ storeForm i = some f)
    (hw : widthOk s f.only64) : 8 * f.n ≤ s.xw ∧ f.n ≤ 8 := by
  have hform : f.n ≤ 4 ∨ (f.n = 8 ∧ f.only64 = true) := by
    rcases hf with hf | hf <;> cases i <;> simp only [loadForm, storeForm, Option.some.injEq, reduceCtorEq] at hf <;>
      subst hf <;> simp
  rcases hform with h4 | ⟨h8, h64⟩
  · have := s.xw_eq; omega
  · rw [State.xw_x64 (hw h64), h8]; decide

/-- The value of a load is extended from its own width. -/
theorem extendTo_extended {w n x : Nat} (signed : Bool) (hx : x < 256 ^ n) (hw : 8 * n ≤ w) :
    Extended (extendTo w n signed x) n x signed := by
  have h256 : 256 ^ n = 2 ^ (8 * n) := by rw [Nat.pow_mul]
  rw [h256] at hx
  refine ⟨fun hs => ?_, fun hs => ?_⟩ <;> subst hs
  · simp only [extendTo, if_true]
    rw [BitVec.toInt_signExtend_of_le hw, BitVec.toInt_ofNat', h256]
  · simp only [extendTo, Bool.false_eq_true, if_false]
    rw [BitVec.toNat_setWidth, BitVec.toNat_ofNat, Nat.mod_eq_of_lt hx,
      Nat.mod_eq_of_lt (hx.trans_le (Nat.pow_le_pow_right (by decide) hw))]

/-- The value of a part has the width of the part. -/
theorem PartRead.lt {s t : State} {pa n v : Nat} (h : PartRead s pa n v t) : v < 256 ^ n := by
  rcases h with ⟨-, rfl, -⟩ | ⟨-, r, -, rfl, -⟩
  · rw [← load_eq_bytesAt]; exact load_lt _ _ _
  · exact Nat.mod_lt _ (Nat.pow_pos (by decide))

/-- A store takes the low bytes of the register. -/
theorem x_toNat_eq_mod {n : Nat} (s : State) (rd : Reg) (hn : n ≤ 8) :
    (s.x (8 * n) rd).toNat = (s.x 64 rd).toNat % 256 ^ n := by
  have h256 : 256 ^ n = 2 ^ (8 * n) := by rw [Nat.pow_mul]
  unfold State.x
  split
  · simp
  · rw [BitVec.toNat_setWidth, BitVec.toNat_setWidth, h256, Nat.mod_mod_of_dvd _ (Nat.pow_dvd_pow 2 (by omega))]

/-! ### Writing parts -/

/-- What `PartWritten` says of a part that is written. -/
theorem writePart_written {s : State} {p : Part} (v : Nat) (h : Accessible s.hw p.pa p.n) :
    PartWritten s p.pa p.n v (writePart p v s) := by
  unfold writePart
  cases hr : Params.inRam s.hw p.pa p.n with
  | true =>
    rw [target_ram.2 hr]
    exact .inl ⟨hr, store_bytesStored _ _ _ _, rfl⟩
  | false =>
    obtain ⟨r, hreg⟩ := Option.ne_none_iff_exists'.1 (h.resolve_left (by simp [hr]))
    rw [target_device.2 ⟨hr, hreg⟩]
    refine .inr ⟨hr, r, hreg, ?_⟩
    rw [show (256 : Nat) = 2 ^ 8 from rfl, ← pow_mul]

/-- A number modulo `256 ^ n` has the same low `n` bytes. -/
theorem byte_eq_of_mod_eq {n v v' k : Nat} (hv : v % 256 ^ n = v' % 256 ^ n) (hk : k < n) :
    v / 256 ^ k % 256 = v' / 256 ^ k % 256 := by
  have hdvd : 256 ∣ 256 ^ (n - k) := dvd_pow_self 256 (by omega)
  have hsplit : 256 ^ n = 256 ^ k * 256 ^ (n - k) := by rw [← Nat.pow_add]; congr 1; omega
  have byte : ∀ x, x / 256 ^ k % 256 = x % 256 ^ n / 256 ^ k % 256 := fun x => by
    rw [hsplit, Nat.mod_mul_right_div_self, Nat.mod_mod_of_dvd _ hdvd]
  rw [byte v, byte v', hv]

/-- Only the low bytes of the value count, as many as the part has. -/
theorem PartWritten.congr {s t : State} {pa n v v' : Nat} (h : PartWritten s pa n v t) (hv : v % 256 ^ n = v' % 256 ^ n) :
    PartWritten s pa n v' t := by
  rcases h with ⟨hr, hb, ht⟩ | ⟨hr, r, hreg, ht⟩
  · refine .inl ⟨hr, fun a => ?_, ht⟩
    rw [hb a]
    split
    · rename_i hin
      exact BitVec.eq_of_toNat_eq (by simpa using byte_eq_of_mod_eq hv (by omega : a - pa < n))
    · rfl
  · exact .inr ⟨hr, r, hreg, hv ▸ ht⟩

theorem PartWritten.frame {s t : State} {pa n v : Nat} (h : PartWritten s pa n v t) :
    t = { s with mem := t.mem, devLog := t.devLog } := by
  rcases h with ⟨-, -, ht⟩ | ⟨-, r, -, ht⟩ <;> rw [ht]

/-- A part in a device region is one call of the device. -/
theorem PartWritten.of_region {s t : State} {pa n v : Nat} {r : Region} (h : PartWritten s pa n v t)
    (hram : Params.inRam s.hw pa n = false) (hreg : Params.region s.hw pa n = some r) :
    t = { s with devLog := .write r.dev (pa - r.base) n (v % 256 ^ n) :: s.devLog } := by
  rcases h with ⟨hram', -⟩ | ⟨-, r', hreg', ht⟩
  · rw [hram] at hram'; cases hram'
  · rw [hreg] at hreg'; cases hreg'; exact ht

theorem badPart_eq_none {p : Params} {ps : List Part} (h : ∀ q ∈ ps, Accessible p q.pa q.n) : badPart p ps = none := by
  refine List.find?_eq_none.2 fun q hq => ?_
  simpa using accessible_iff.1 (h q hq)

theorem translate_hw {acc : Acc} {va : Word} {s u : State} {pa : Nat} (h : translate acc va s = .ok pa u) :
    u.hw = s.hw := by rw [translate_frame h]

theorem translate_xw {acc : Acc} {va : Word} {s u : State} {pa : Nat} (h : translate acc va s = .ok pa u) :
    u.xw = s.xw :=
  State.xw_congr (translate_hw h) (by rw [translate_frame h]) (by rw [translate_frame h])

/-! ### One part -/

theorem memRead_one {va : Word} {n pa v : Nat} {s u t : State} (h : pageOff va + n ≤ 4096)
    (ht : translate .read va s = .ok pa u) (hp : PartRead u pa n v t) : memRead va n s = .ok v t := by
  unfold memRead
  rw [translateParts_one h, ht]
  simpa using (readParts_cons (p := ⟨va, pa, n⟩) (ps := []) hp).1 0 t rfl

theorem memWrite_one {va : Word} {n pa : Nat} {s u : State} (v : Nat) (h : pageOff va + n ≤ 4096)
    (ht : translate .write va s = .ok pa u) (ha : Accessible u.hw pa n) :
    ∃ t, memWrite va n v s = .ok () t ∧ PartWritten u pa n v t := by
  refine ⟨_, ?_, writePart_written (p := ⟨va, pa, n⟩) v ha⟩
  unfold memWrite
  rw [translateParts_one h, ht]
  dsimp only
  rw [badPart_eq_none (by simpa using ha)]
  rfl

/-! ### Two parts -/

theorem memRead_two {va : Word} {n k pa pa' a b : Nat} {s u w w1 w2 : State} (hk : k = 4096 - pageOff va) (h : k < n)
    (ht : translate .read va s = .ok pa u) (ht' : translate .read (s.vaPlus va k) u = .ok pa' w)
    (hp : PartRead w pa k a w1) (hp' : PartRead w1 pa' (n - k) b w2) :
    memRead va n s = .ok (a + 256 ^ k * b) w2 := by
  unfold memRead
  rw [translateParts_two hk h, ht]
  dsimp only
  rw [ht']
  dsimp only
  have hhigh := (readParts_cons (p := ⟨s.vaPlus va k, pa', n - k⟩) (ps := []) hp').1 0 w2 rfl
  rw [(readParts_cons (p := ⟨va, pa, k⟩) hp).1 _ _ hhigh, Nat.mul_zero, Nat.add_zero, Nat.pow_mul]

theorem memWrite_two {va : Word} {n k pa pa' : Nat} {s u w : State} (v : Nat) (hk : k = 4096 - pageOff va) (h : k < n)
    (ht : translate .write va s = .ok pa u) (ht' : translate .write (s.vaPlus va k) u = .ok pa' w)
    (ha : Accessible w.hw pa k) (ha' : Accessible w.hw pa' (n - k)) :
    ∃ w1 w2, memWrite va n v s = .ok () w2 ∧ PartWritten w pa k v w1 ∧ PartWritten w1 pa' (n - k) (v / 256 ^ k) w2 := by
  have hlow := writePart_written (p := ⟨va, pa, k⟩) v ha
  have hhw : (writePart ⟨va, pa, k⟩ v w).hw = w.hw := by rw [hlow.frame]
  refine ⟨_, _, ?_, hlow, writePart_written (p := ⟨s.vaPlus va k, pa', n - k⟩) _ (hhw ▸ ha')⟩
  unfold memWrite
  rw [translateParts_two hk h, ht]
  dsimp only
  rw [ht']
  dsimp only
  rw [badPart_eq_none (by simpa using ⟨ha, ha'⟩)]
  simp only [writeParts, Nat.pow_mul]

/-! ### The instructions -/

/-- A load whose read succeeds writes the extended value and retires. -/
theorem exec_load_retires {i : Instr} {f : MemForm} {s u : State} {x : Nat} (hf : loadForm i = some f)
    (hw : widthOk s f.only64) (hx : x < 256 ^ f.n) (hr : memRead (s.ea f.rs1 f.imm) f.n s = .ok x u) :
    ∃ (t : State) (v : BitVec s.xw), exec i s = .next t ∧ Retires s u t f.len f.reg v ∧ Extended v f.n x f.signed := by
  obtain ⟨t, ht, hret⟩ := retire_setX s u f.len f.reg (extendTo s.xw f.n f.signed x)
  refine ⟨t, _, ?_, hret, extendTo_extended f.signed hx (memForm_bits_le (.inl hf) hw).1⟩
  rw [exec_load hf hw, opLoad, hr]
  exact ht

/-- A store whose write succeeds retires. -/
theorem exec_store_retires {i : Instr} {f : MemForm} {s u : State} (hf : storeForm i = some f) (hw : widthOk s f.only64)
    (hr : memWrite (s.ea f.rs1 f.imm) f.n (s.x (8 * f.n) f.reg).toNat s = .ok () u) :
    exec i s = .next (u.setPc (s.nextPc f.len)) := by
  rw [exec_store hf hw, opStore, hr]
  rfl

/-- What a retirement leaves, seen from the state its other effects leave. -/
theorem setPc_nextPc_goes {s u : State} (len : Nat) (hxw : u.xw = s.xw) :
    Goes u (u.setPc (s.nextPc len)) (s.vpc.toNat + len) := by
  refine ⟨?_, fun _ => rfl, rfl⟩
  rw [State.setPc_pc, nextPc_toNat, hxw]
  push_cast
  rfl

/-- Settles O48: an access inside one page is one part, and a part in a device region is one call. -/
theorem deviceAccesses : Obligations.DeviceAccesses := by
  unfold Obligations.DeviceAccesses
  intro i f s u pa r hw hpage hram hreg
  refine ⟨fun hf ht => ?_, fun hf ht => ?_⟩
  · rw [← translate_hw ht] at hram hreg
    have hp : PartRead u pa f.n _ _ := .inr ⟨hram, r, hreg, rfl, rfl⟩
    exact exec_load_retires hf hw hp.lt (memRead_one hpage ht hp)
  · rw [← translate_hw ht] at hram hreg
    obtain ⟨t, hwrite, hpart⟩ := memWrite_one (s.x (8 * f.n) f.reg).toNat hpage ht (.inr (by simp [hreg]))
    refine ⟨_, exec_store_retires hf hw hwrite, ?_⟩
    rw [hpart.of_region hram hreg, x_toNat_eq_mod s f.reg (memForm_bits_le (.inr hf) hw).2, Nat.mod_mod]
    have hxw : u.xw = s.xw := translate_xw ht
    exact setPc_nextPc_goes f.len hxw

/-- Two parts together have the width of the access. -/
theorem split_value_lt {n k a b : Nat} (hk : k < n) (ha : a < 256 ^ k) (hb : b < 256 ^ (n - k)) :
    a + 256 ^ k * b < 256 ^ n := by
  calc a + 256 ^ k * b < 256 ^ k * (b + 1) := by rw [Nat.mul_succ]; omega
    _ ≤ 256 ^ k * 256 ^ (n - k) := Nat.mul_le_mul_left _ hb
    _ = 256 ^ n := by rw [← Nat.pow_add]; congr 1; omega

/-- Settles O46: an access across two pages is two parts, each read or written as one in its own page is. -/
theorem splitAccesses : Obligations.SplitAccesses := by
  unfold Obligations.SplitAccesses
  intro i f s u w pa pa' k hwidth hk hlt
  refine ⟨fun hf ht ht' a b w1 w2 hp hp' => ?_, fun hf ht ht' ha ha' => ?_⟩
  · exact exec_load_retires hf hwidth (split_value_lt hlt hp.lt hp'.lt) (memRead_two hk hlt ht ht' hp hp')
  · rw [← translate_hw ht, ← translate_hw ht'] at ha ha'
    obtain ⟨w1, w2, hwrite, hlow, hhigh⟩ := memWrite_two (s.x (8 * f.n) f.reg).toNat hk hlt ht ht' ha ha'
    have hx := x_toNat_eq_mod s f.reg (memForm_bits_le (.inr hf) hwidth).2
    have hpow : 256 ^ f.n = 256 ^ k * 256 ^ (f.n - k) := by rw [← Nat.pow_add]; congr 1; omega
    have hpc : w2.pc = w1.pc := by rw [hhigh.frame]
    refine ⟨_, w1, exec_store_retires hf hwidth hwrite, hlow.congr ?_, ?_, nextPc_toNat s f.len⟩
    · rw [hx, hpow, Nat.mod_mul_right_mod]
    · rw [← hpc]
      refine hhigh.congr ?_
      rw [hx, hpow, Nat.mod_mul_right_div_self, Nat.mod_mod]

end Sys2Proof.Machine
end

section
/-! SUPPORT. A word is what its format makes of its fields (30_encoding R201 to R205): one lemma for each format. Fields an
instruction may fix are variables, with the value the word has in them as a hypothesis. -/

namespace Sys2Proof

/-! ### Words of 32 bits (R201, R202, R204) -/

section

variable {w : BitVec 32}

theorem encR_of_fields {f7 : BitVec 7} {f3 : BitVec 3} {rd : Reg} {op : BitVec 7}
    (h7 : fFunct7 w = f7) (h3 : fFunct3 w = f3) (hd : fRd w = rd) (ho : fOpcode w = op) :
    encR f7 (fRs2 w) (fRs1 w) f3 rd op = w := by
  apply BitVec.eq_of_getLsbD_eq; intro i hi
  rw [encR, ← h7, ← h3, ← hd, ← ho]
  simp only [fFunct7, fRs2, fRs1, fFunct3, fRd, fOpcode, BitVec.getLsbD_append, BitVec.getLsbD_extractLsb']
  interval_cases i <;> simp

theorem encI_of_fields {f3 : BitVec 3} {op : BitVec 7} (h3 : fFunct3 w = f3) (ho : fOpcode w = op) :
    encI (immI w) (fRs1 w) f3 (fRd w) op = w := by
  apply BitVec.eq_of_getLsbD_eq; intro i hi
  rw [encI, ← h3, ← ho]
  simp only [immI, fRs1, fFunct3, fRd, fOpcode, BitVec.getLsbD_append, BitVec.getLsbD_extractLsb']
  interval_cases i <;> simp

theorem encS_of_fields {f3 : BitVec 3} {op : BitVec 7} (h3 : fFunct3 w = f3) (ho : fOpcode w = op) :
    encS (immS w) (fRs2 w) (fRs1 w) f3 op = w := by
  apply BitVec.eq_of_getLsbD_eq; intro i hi
  rw [encS, ← h3, ← ho]
  simp only [immS, fRs2, fRs1, fFunct3, fOpcode, BitVec.getLsbD_append, BitVec.getLsbD_extractLsb']
  interval_cases i <;> simp

theorem encB_of_fields {f3 : BitVec 3} {op : BitVec 7} (h3 : fFunct3 w = f3) (ho : fOpcode w = op) :
    encB (immB w) (fRs2 w) (fRs1 w) f3 op = w := by
  apply BitVec.eq_of_getLsbD_eq; intro i hi
  rw [encB, ← h3, ← ho]
  simp only [immB, fRs2, fRs1, fFunct3, fOpcode, BitVec.getLsbD_append, BitVec.getLsbD_extractLsb']
  interval_cases i <;> simp

theorem encU_of_fields {op : BitVec 7} (ho : fOpcode w = op) : encU (immU w) (fRd w) op = w := by
  apply BitVec.eq_of_getLsbD_eq; intro i hi
  rw [encU, ← ho]
  simp only [immU, fRd, fOpcode, BitVec.getLsbD_append, BitVec.getLsbD_extractLsb']
  interval_cases i <;> simp

theorem encJ_of_fields {op : BitVec 7} (ho : fOpcode w = op) : encJ (immJ w) (fRd w) op = w := by
  apply BitVec.eq_of_getLsbD_eq; intro i hi
  rw [encJ, ← ho]
  simp only [immJ, fRd, fOpcode, BitVec.getLsbD_append, BitVec.getLsbD_extractLsb']
  interval_cases i <;> simp

theorem encShift_of_fields {f6 : BitVec 6} {f3 : BitVec 3} {op : BitVec 7}
    (h6 : fFunct6 w = f6) (h3 : fFunct3 w = f3) (ho : fOpcode w = op) :
    encShift f6 (fShamt w) (fRs1 w) f3 (fRd w) op = w := by
  apply BitVec.eq_of_getLsbD_eq; intro i hi
  rw [encShift, ← h6, ← h3, ← ho]
  simp only [fFunct6, fShamt, fRs1, fFunct3, fRd, fOpcode, BitVec.getLsbD_append, BitVec.getLsbD_extractLsb']
  interval_cases i <;> simp

theorem encA_of_fields {f5 : BitVec 5} {rs2 : Reg} {f3 : BitVec 3}
    (h5 : fFunct5 w = f5) (h2 : fRs2 w = rs2) (h3 : fFunct3 w = f3) (ho : fOpcode w = 0x2F#7) :
    encA f5 (fAq w) (fRl w) rs2 (fRs1 w) f3 (fRd w) = w := by
  apply BitVec.eq_of_getLsbD_eq; intro i hi
  rw [encA, ← h5, ← h2, ← h3, ← ho]
  simp only [fFunct5, fAq, fRl, fRs2, fRs1, fFunct3, fRd, fOpcode, BitVec.getLsbD_append, BitVec.getLsbD_extractLsb']
  interval_cases i <;> simp

theorem encFence_of_fields (h3 : fFunct3 w = 0#3) (ho : fOpcode w = 0x0F#7) :
    encFence (w.extractLsb' 28 4) (w.extractLsb' 24 4) (w.extractLsb' 20 4) (fRs1 w) (fRd w) = w := by
  apply BitVec.eq_of_getLsbD_eq; intro i hi
  rw [encFence, ← h3, ← ho]
  simp only [fRs1, fFunct3, fRd, fOpcode, BitVec.getLsbD_append, BitVec.getLsbD_extractLsb']
  interval_cases i <;> simp

end

/-! ### Words of 16 bits (R203, R205) -/

section

variable {w : BitVec 16}

theorem encCR_of_fields {f4 : BitVec 4} {rd rs2 : Reg} {op : BitVec 2}
    (h4 : w.extractLsb' 12 4 = f4) (hd : gRd w = rd) (h2 : gRs2 w = rs2) (ho : gOp w = op) :
    encCR f4 rd rs2 op = w := by
  apply BitVec.eq_of_getLsbD_eq; intro i hi
  rw [encCR, ← h4, ← hd, ← h2, ← ho]
  simp only [gRd, gRs2, gOp, BitVec.getLsbD_append, BitVec.getLsbD_extractLsb']
  interval_cases i <;> simp

theorem encCI_of_fields {f3 : BitVec 3} {rd : Reg} {op : BitVec 2}
    (h3 : gFunct3 w = f3) (hd : gRd w = rd) (ho : gOp w = op) :
    encCI f3 (cImm6 w) rd op = w := by
  apply BitVec.eq_of_getLsbD_eq; intro i hi
  rw [encCI, ← h3, ← hd, ← ho]
  simp only [gFunct3, cImm6, gRd, gOp, BitVec.getLsbD_append, BitVec.getLsbD_extractLsb']
  interval_cases i <;> simp

theorem encCAddi4spn_of_fields (h3 : gFunct3 w = 0#3) (ho : gOp w = 0#2) :
    encCAddi4spn (cImmAddi4spn w) (gRs2c w) = w := by
  apply BitVec.eq_of_getLsbD_eq; intro i hi
  rw [encCAddi4spn, ← h3, ← ho]
  simp only [gFunct3, cImmAddi4spn, gRs2c, gOp, BitVec.getLsbD_append, BitVec.getLsbD_extractLsb']
  interval_cases i <;> simp

theorem encCW_of_fields {f3 : BitVec 3} (h3 : gFunct3 w = f3) (ho : gOp w = 0#2) :
    encCW f3 (cImmW w) (gRs1c w) (gRs2c w) = w := by
  apply BitVec.eq_of_getLsbD_eq; intro i hi
  rw [encCW, ← h3, ← ho]
  simp only [gFunct3, cImmW, gRs1c, gRs2c, gOp, BitVec.getLsbD_append, BitVec.getLsbD_extractLsb']
  interval_cases i <;> simp

theorem encCD_of_fields {f3 : BitVec 3} (h3 : gFunct3 w = f3) (ho : gOp w = 0#2) :
    encCD f3 (cImmD w) (gRs1c w) (gRs2c w) = w := by
  apply BitVec.eq_of_getLsbD_eq; intro i hi
  rw [encCD, ← h3, ← ho]
  simp only [gFunct3, cImmD, gRs1c, gRs2c, gOp, BitVec.getLsbD_append, BitVec.getLsbD_extractLsb']
  interval_cases i <;> simp

theorem encCAddi16sp_of_fields (h3 : gFunct3 w = 3#3) (hd : gRd w = 2#5) (ho : gOp w = 1#2) :
    encCAddi16sp (cImmAddi16sp w) = w := by
  apply BitVec.eq_of_getLsbD_eq; intro i hi
  rw [encCAddi16sp, ← h3, ← hd, ← ho]
  simp only [gFunct3, cImmAddi16sp, gRd, gOp, BitVec.getLsbD_append, BitVec.getLsbD_extractLsb']
  interval_cases i <;> simp

theorem encCBimm_of_fields {sel : BitVec 2} (h3 : gFunct3 w = 4#3) (hs : gSel w = sel) (ho : gOp w = 1#2) :
    encCBimm sel (cImm6 w) (gRs1c w) = w := by
  apply BitVec.eq_of_getLsbD_eq; intro i hi
  rw [encCBimm, ← h3, ← hs, ← ho]
  simp only [gFunct3, gSel, cImm6, gRs1c, gOp, BitVec.getLsbD_append, BitVec.getLsbD_extractLsb']
  interval_cases i <;> simp

theorem encCA_of_fields {b12 : BitVec 1} {f2 : BitVec 2}
    (h3 : gFunct3 w = 4#3) (hb : gBit12 w = b12) (hs : gSel w = 3#2) (h2 : gFunct2 w = f2) (ho : gOp w = 1#2) :
    encCA b12 f2 (gRs1c w) (gRs2c w) = w := by
  apply BitVec.eq_of_getLsbD_eq; intro i hi
  rw [encCA, ← h3, ← hb, ← hs, ← h2, ← ho]
  simp only [gFunct3, gBit12, gSel, gRs1c, gFunct2, gRs2c, gOp, BitVec.getLsbD_append, BitVec.getLsbD_extractLsb']
  interval_cases i <;> simp

theorem encCJ_of_fields {f3 : BitVec 3} (h3 : gFunct3 w = f3) (ho : gOp w = 1#2) : encCJ f3 (cOffJ w) = w := by
  apply BitVec.eq_of_getLsbD_eq; intro i hi
  rw [encCJ, ← h3, ← ho]
  simp only [gFunct3, cOffJ, gOp, BitVec.getLsbD_append, BitVec.getLsbD_extractLsb']
  interval_cases i <;> simp

theorem encCB_of_fields {f3 : BitVec 3} (h3 : gFunct3 w = f3) (ho : gOp w = 1#2) :
    encCB f3 (cOffB w) (gRs1c w) = w := by
  apply BitVec.eq_of_getLsbD_eq; intro i hi
  rw [encCB, ← h3, ← ho]
  simp only [gFunct3, cOffB, gRs1c, gOp, BitVec.getLsbD_append, BitVec.getLsbD_extractLsb']
  interval_cases i <;> simp

theorem encCLwsp_of_fields (h3 : gFunct3 w = 2#3) (ho : gOp w = 2#2) : encCLwsp (cImmLwsp w) (gRd w) = w := by
  apply BitVec.eq_of_getLsbD_eq; intro i hi
  rw [encCLwsp, ← h3, ← ho]
  simp only [gFunct3, cImmLwsp, gRd, gOp, BitVec.getLsbD_append, BitVec.getLsbD_extractLsb']
  interval_cases i <;> simp

theorem encCLdsp_of_fields (h3 : gFunct3 w = 3#3) (ho : gOp w = 2#2) : encCLdsp (cImmLdsp w) (gRd w) = w := by
  apply BitVec.eq_of_getLsbD_eq; intro i hi
  rw [encCLdsp, ← h3, ← ho]
  simp only [gFunct3, cImmLdsp, gRd, gOp, BitVec.getLsbD_append, BitVec.getLsbD_extractLsb']
  interval_cases i <;> simp

theorem encCSwsp_of_fields (h3 : gFunct3 w = 6#3) (ho : gOp w = 2#2) : encCSwsp (cImmSwsp w) (gRs2 w) = w := by
  apply BitVec.eq_of_getLsbD_eq; intro i hi
  rw [encCSwsp, ← h3, ← ho]
  simp only [gFunct3, cImmSwsp, gRs2, gOp, BitVec.getLsbD_append, BitVec.getLsbD_extractLsb']
  interval_cases i <;> simp

theorem encCSdsp_of_fields (h3 : gFunct3 w = 7#3) (ho : gOp w = 2#2) : encCSdsp (cImmSdsp w) (gRs2 w) = w := by
  apply BitVec.eq_of_getLsbD_eq; intro i hi
  rw [encCSdsp, ← h3, ← ho]
  simp only [gFunct3, cImmSdsp, gRs2, gOp, BitVec.getLsbD_append, BitVec.getLsbD_extractLsb']
  interval_cases i <;> simp

end

end Sys2Proof
end

section
/-! SUPPORT. The round trip from a word: what the decoder reads from it encodes to it (30_encoding R201 to R205). -/

namespace Sys2Proof

/-- If the decoder's answer is an instruction, the instruction's encoding is `e`. -/
def AnswersFor (e : Encoded) (r : Except Reject Instr) : Prop := ∀ i, r = .ok i → encode i = e

@[simp] theorem answersFor_ok (e : Encoded) (i : Instr) : AnswersFor e (.ok i) ↔ encode i = e := by
  simp [AnswersFor]

@[simp] theorem answersFor_error (e : Encoded) (r : Reject) : AnswersFor e (.error r) := fun _ h => nomatch h

@[simp] theorem answersFor_ite (e : Encoded) (c : Prop) [Decidable c] (a b : Except Reject Instr) :
    AnswersFor e (if c then a else b) ↔ (c → AnswersFor e a) ∧ (¬ c → AnswersFor e b) := by
  split <;> simp [*]

@[simp] theorem answersFor_only64 (e : Encoded) (x : Xlen) (i : Instr) :
    AnswersFor e (only64 x i) ↔ (x.is64 = true → encode i = e) := by
  simp [only64]

@[simp] theorem answersFor_decodeShift (e : Encoded) (x : Xlen) (sh : BitVec 6) (i : Instr) :
    AnswersFor e (decodeShift x sh i) ↔ (shamtFits x sh = true → encode i = e) := by
  simp [decodeShift]

theorem fCsr_eq_immI (w : BitVec 32) : fCsr w = immI w := rfl

/-- The last value of a three-bit field. -/
theorem eq_seven_of_ne {f : BitVec 3} (h0 : f = 0#3 → False) (h1 : f = 1#3 → False) (h2 : f = 2#3 → False)
    (h3 : f = 3#3 → False) (h4 : f = 4#3 → False) (h5 : f = 5#3 → False) (h6 : f = 6#3 → False) : f = 7#3 := by
  revert f; decide

/-- The last value of a two-bit field. -/
theorem eq_three_of_ne {f : BitVec 2} (h0 : f = 0#2 → False) (h1 : f = 1#2 → False) (h2 : f = 2#2 → False) : f = 3#2 := by
  revert f; decide

/-- The last value of a one-bit field. -/
theorem eq_one_of_ne {f : BitVec 1} (h0 : f = 0#1 → False) : f = 1#1 := by
  revert f; decide

/-! ### One lemma for each table of 32-bit words -/

section

variable {w : BitVec 32}

theorem decodeLoad_encodes (x : Xlen) (ho : fOpcode w = 0x03#7) : AnswersFor (.c32 w) (decodeLoad x w) := by
  unfold decodeLoad; split <;> simp [encode, encI_of_fields, *]

theorem decodeMiscMem_encodes (ho : fOpcode w = 0x0F#7) : AnswersFor (.c32 w) (decodeMiscMem w) := by
  unfold decodeMiscMem; split <;> simp [encode, encI_of_fields, encFence_of_fields, *]

theorem decodeOpImm_encodes (x : Xlen) (ho : fOpcode w = 0x13#7) : AnswersFor (.c32 w) (decodeOpImm x w) := by
  unfold decodeOpImm
  split
  case h_2 | h_6 => split <;> simp [encode, encShift_of_fields, *]
  case h_8 h0 h1 h2 h3 h4 h5 h6 => simp [encode, encI_of_fields (eq_seven_of_ne h0 h1 h2 h3 h4 h5 h6) ho]
  all_goals simp [encode, encI_of_fields, *]

theorem decodeOpImm32_encodes (x : Xlen) (ho : fOpcode w = 0x1B#7) : AnswersFor (.c32 w) (decodeOpImm32 x w) := by
  unfold decodeOpImm32
  split
  case h_2 | h_3 => split <;> simp [encode, encR_of_fields, *]
  all_goals simp [encode, encI_of_fields, *]

theorem decodeStore_encodes (x : Xlen) (ho : fOpcode w = 0x23#7) : AnswersFor (.c32 w) (decodeStore x w) := by
  unfold decodeStore; split <;> simp [encode, encS_of_fields, *]

theorem decodeAmoW_encodes (ho : fOpcode w = 0x2F#7) (h3 : fFunct3 w = 2#3) : AnswersFor (.c32 w) (decodeAmoW w) := by
  unfold decodeAmoW; split <;> simp +contextual [encode, encA_of_fields, *]

theorem decodeAmoD_encodes (x : Xlen) (ho : fOpcode w = 0x2F#7) (h3 : fFunct3 w = 3#3) :
    AnswersFor (.c32 w) (decodeAmoD x w) := by
  unfold decodeAmoD; split <;> simp +contextual [encode, encA_of_fields, *]

theorem decodeAmo_encodes (x : Xlen) (ho : fOpcode w = 0x2F#7) : AnswersFor (.c32 w) (decodeAmo x w) := by
  unfold decodeAmo
  split
  next h3 => exact decodeAmoW_encodes ho h3
  next h3 => exact decodeAmoD_encodes x ho h3
  next => exact answersFor_error _ _

theorem decodeOpBase_encodes (ho : fOpcode w = 0x33#7) (h7 : fFunct7 w = 0x00#7) :
    AnswersFor (.c32 w) (decodeOpBase w) := by
  unfold decodeOpBase
  split
  case h_8 h0 h1 h2 h3 h4 h5 h6 => simp [encode, encR_of_fields h7 (eq_seven_of_ne h0 h1 h2 h3 h4 h5 h6) rfl ho]
  all_goals simp [encode, encR_of_fields, *]

theorem decodeMulDiv_encodes (ho : fOpcode w = 0x33#7) (h7 : fFunct7 w = 0x01#7) :
    AnswersFor (.c32 w) (decodeMulDiv w) := by
  unfold decodeMulDiv
  split
  case h_8 h0 h1 h2 h3 h4 h5 h6 => simp [encode, encR_of_fields h7 (eq_seven_of_ne h0 h1 h2 h3 h4 h5 h6) rfl ho]
  all_goals simp [encode, encR_of_fields, *]

theorem decodeOp_encodes (ho : fOpcode w = 0x33#7) : AnswersFor (.c32 w) (decodeOp w) := by
  unfold decodeOp
  split
  next h7 => exact decodeOpBase_encodes ho h7
  next h7 => exact decodeMulDiv_encodes ho h7
  next => split <;> simp [encode, encR_of_fields, *]
  next => exact answersFor_error _ _

theorem decodeOp32_encodes (x : Xlen) (ho : fOpcode w = 0x3B#7) : AnswersFor (.c32 w) (decodeOp32 x w) := by
  unfold decodeOp32
  split
  case h_4 => exact answersFor_error _ _
  all_goals split <;> simp [encode, encR_of_fields, *]

theorem decodeBranch_encodes (ho : fOpcode w = 0x63#7) : AnswersFor (.c32 w) (decodeBranch w) := by
  unfold decodeBranch; split <;> simp [encode, encB_of_fields, *]

theorem decodePriv_encodes (ho : fOpcode w = 0x73#7) (h3 : fFunct3 w = 0#3) : AnswersFor (.c32 w) (decodePriv w) := by
  simp +contextual [decodePriv, encode, encR_of_fields, *]

theorem decodeSystem_encodes (ho : fOpcode w = 0x73#7) : AnswersFor (.c32 w) (decodeSystem w) := by
  unfold decodeSystem
  split
  next h3 => exact decodePriv_encodes ho h3
  all_goals simp [encode, fCsr_eq_immI, encI_of_fields, *]

theorem decode32_encodes (x : Xlen) (w : BitVec 32) : AnswersFor (.c32 w) (decode32 x w) := by
  unfold decode32
  split
  case h_1 ho => exact decodeLoad_encodes x ho
  case h_4 ho => exact decodeMiscMem_encodes ho
  case h_5 ho => exact decodeOpImm_encodes x ho
  case h_7 ho => exact decodeOpImm32_encodes x ho
  case h_8 ho => exact decodeStore_encodes x ho
  case h_11 ho => exact decodeAmo_encodes x ho
  case h_12 ho => exact decodeOp_encodes ho
  case h_14 ho => exact decodeOp32_encodes x ho
  case h_21 ho => exact decodeBranch_encodes ho
  case h_22 => split <;> simp [encode, encI_of_fields, *]
  case h_24 ho => exact decodeSystem_encodes ho
  all_goals simp [encode, encU_of_fields, encJ_of_fields, *]

end

/-! ### One lemma for each table of 16-bit words -/

section

variable {w : BitVec 16}

theorem decodeQ0_encodes (x : Xlen) (ho : gOp w = 0#2) : AnswersFor (.c16 w) (decodeQ0 x w) := by
  unfold decodeQ0
  split
  case h_8 h0 h1 h2 h3 h4 h5 h6 => simp [encode, encCD_of_fields (eq_seven_of_ne h0 h1 h2 h3 h4 h5 h6) ho]
  all_goals simp [encode, encCAddi4spn_of_fields, encCW_of_fields, encCD_of_fields, *]

theorem decodeQ1Alu_encodes (x : Xlen) (ho : gOp w = 1#2) (h3 : gFunct3 w = 4#3) :
    AnswersFor (.c16 w) (decodeQ1Alu x w) := by
  unfold decodeQ1Alu
  split
  case h_4 s0 s1 s2 =>
    have hs := eq_three_of_ne s0 s1 s2
    split
    case h_4 f0 f1 f2 => simp [encode, encCA_of_fields h3 ‹_› hs (eq_three_of_ne f0 f1 f2) ho]
    case h_5 f2 hb => simp [encode, encCA_of_fields h3 (eq_one_of_ne hb) hs f2 ho]
    case h_6 f2 hb => simp [encode, encCA_of_fields h3 (eq_one_of_ne hb) hs f2 ho]
    all_goals simp [encode, encCA_of_fields, *]
  all_goals simp [encode, encCBimm_of_fields, *]

theorem decodeQ1_encodes (x : Xlen) (ho : gOp w = 1#2) : AnswersFor (.c16 w) (decodeQ1 x w) := by
  unfold decodeQ1
  split
  case h_5 h3 => exact decodeQ1Alu_encodes x ho h3
  case h_8 h0 h1 h2 h3 h4 h5 h6 => simp [encode, encCB_of_fields (eq_seven_of_ne h0 h1 h2 h3 h4 h5 h6) ho]
  all_goals simp +contextual [encode, encCI_of_fields, encCJ_of_fields, encCAddi16sp_of_fields, encCB_of_fields, *]

/-- CR: `funct4` is `funct3` and bit 12. -/
theorem funct4_eq (w : BitVec 16) : w.extractLsb' 12 4 = gFunct3 w ++ gBit12 w := by
  rw [gFunct3, gBit12, BitVec.extractLsb'_append_extractLsb'_eq_extractLsb' (by rfl)]

theorem decodeQ2Jump_encodes (ho : gOp w = 2#2) (h3 : gFunct3 w = 4#3) : AnswersFor (.c16 w) (decodeQ2Jump w) := by
  unfold decodeQ2Jump
  split
  next hb =>
    have h4 : w.extractLsb' 12 4 = 8#4 := by rw [funct4_eq, h3, hb]; rfl
    simp +contextual [encode, encCR_of_fields h4, ho]
  next hb =>
    have h4 : w.extractLsb' 12 4 = 9#4 := by rw [funct4_eq, h3, eq_one_of_ne hb]; rfl
    simp +contextual [encode, encCR_of_fields h4, ho]

theorem decodeQ2_encodes (x : Xlen) (ho : gOp w = 2#2) : AnswersFor (.c16 w) (decodeQ2 x w) := by
  unfold decodeQ2
  split
  case h_5 h3 => exact decodeQ2Jump_encodes ho h3
  case h_8 h0 h1 h2 h3 h4 h5 h6 => simp [encode, encCSdsp_of_fields (eq_seven_of_ne h0 h1 h2 h3 h4 h5 h6) ho]
  all_goals simp [encode, encCI_of_fields, encCLwsp_of_fields, encCLdsp_of_fields, encCSwsp_of_fields, *]

theorem decode16_encodes (x : Xlen) (w : BitVec 16) : AnswersFor (.c16 w) (decode16 x w) := by
  unfold decode16
  split
  next ho => exact decodeQ0_encodes x ho
  next ho => exact decodeQ1_encodes x ho
  next ho => exact decodeQ2_encodes x ho
  next => exact answersFor_error _ _

end

/-- A word that decodes is the encoding of the instruction read. -/
theorem encode_of_decode {x : Xlen} {e : Encoded} {i : Instr} (h : decode x e = .ok i) : encode i = e := by
  cases e with
  | c16 w => exact decode16_encodes x w i h
  | c32 w => exact decode32_encodes x w i h

/-- Settles O2: a word is rebuilt from the fields the decoder took from it and those that named the instruction. -/
theorem decodedWordIsEncoding : Obligations.DecodedWordIsEncoding := by
  unfold Obligations.DecodedWordIsEncoding
  exact fun x e i h => ⟨decode_wf h, encode_of_decode h⟩

end Sys2Proof
end

section
/-! SUPPORT. The round trip from an instruction: its word, and its bytes in memory, are read as it (30_encoding R200;
20_memory R142). -/

namespace Sys2Proof

/-- No exact pattern of funct3 = 000 (R211) is an `SFENCE.VMA`: its funct7 is another. -/
theorem sfenceVma_ne (rs1 rs2 : Reg) {v : BitVec 32} (h : fFunct7 v ≠ 0x09#7) : encR 0x09#7 rs2 rs1 0#3 0#5 0x73#7 ≠ v :=
  ne_of_apply_ne fFunct7 (by simpa using h.symm)

theorem decodePriv_sfenceVma (rs1 rs2 : Reg) :
    decodePriv (encR 0x09#7 rs2 rs1 0#3 0#5 0x73#7) = .ok (.sfenceVma rs1 rs2) := by
  unfold decodePriv
  iterate 5 rw [if_neg (sfenceVma_ne rs1 rs2 (by decide))]
  simp

/-- The decoder reads the encoding of a well-formed instruction as that instruction. -/
theorem decode_encode {x : Xlen} {i : Instr} (h : i.wf x = true) : decode x (encode i) = .ok i := by
  cases i with
  | ecall | ebreak | mret | sret | wfi | cEbreak => rfl
  | sfenceVma rs1 rs2 => simpa [encode, decode, decode32, decodeSystem] using decodePriv_sfenceVma rs1 rs2
  | lui | auipc | jal | jalr => simp_all [encode, decode, decode32, Instr.wf]
  | lb | lh | lw | lbu | lhu | lwu | ld => simp_all [encode, decode, decode32, decodeLoad, only64, Instr.wf]
  | sb | sh | sw | sd => simp_all [encode, decode, decode32, decodeStore, only64, Instr.wf]
  | fence | fenceI => simp [encode, decode, decode32, decodeMiscMem]
  | addi | slti | sltiu | xori | ori | andi | slli | srli | srai =>
    simp_all [encode, decode, decode32, decodeOpImm, decodeShift, Instr.wf]
  | addiw | slliw | srliw | sraiw => simp_all [encode, decode, decode32, decodeOpImm32, only64, Instr.wf]
  | add | sll | slt | sltu | xor | srl | or | and => simp [encode, decode, decode32, decodeOp, decodeOpBase]
  | mul | mulh | mulhsu | mulhu | div | divu | rem | remu => simp [encode, decode, decode32, decodeOp, decodeMulDiv]
  | sub | sra => simp [encode, decode, decode32, decodeOp]
  | addw | subw | sllw | srlw | sraw | mulw | divw | divuw | remw | remuw =>
    simp_all [encode, decode, decode32, decodeOp32, only64, Instr.wf]
  | beq | bne | blt | bge | bltu | bgeu => simp_all [encode, decode, decode32, decodeBranch, Instr.wf]
  | csrrw | csrrs | csrrc | csrrwi | csrrsi | csrrci => simp [encode, decode, decode32, decodeSystem]
  | lrW | scW | amoswapW | amoaddW | amoxorW | amoandW | amoorW | amominW | amomaxW | amominuW | amomaxuW =>
    simp [encode, decode, decode32, decodeAmo, decodeAmoW]
  | lrD | scD | amoswapD | amoaddD | amoxorD | amoandD | amoorD | amominD | amomaxD | amominuD | amomaxuD =>
    simp_all [encode, decode, decode32, decodeAmo, decodeAmoD, only64, Instr.wf]
  | cAddi4spn | cLw | cLd | cSw | cSd => simp_all [encode, decode, decode16, decodeQ0, Instr.wf]
  | cSrli | cSrai | cAndi | cSub | cXor | cOr | cAnd | cSubw | cAddw =>
    simp_all [encode, decode, decode16, decodeQ1, decodeQ1Alu, decodeShift, only64, Instr.wf]
  | cNop | cAddi | cJal | cAddiw | cLi | cAddi16sp | cLui | cJ | cBeqz | cBnez =>
    simp_all [encode, decode, decode16, decodeQ1, Instr.wf]
  | cJr | cMv | cJalr | cAdd => simp_all [encode, decode, decode16, decodeQ2, decodeQ2Jump, Instr.wf]
  | cSlli | cLwsp | cLdsp | cSwsp | cSdsp => simp_all [encode, decode, decode16, decodeQ2, decodeShift, Instr.wf]

/-! ### Bytes -/

/-- A word that is an instruction of 16 bits is not the first half of one of 32. -/
theorem isShort_of_decode16 {x : Xlen} {w : BitVec 16} {i : Instr} (h : decode16 x w = .ok i) : isShort w = true := by
  refine Laws.Length.short_of fun ho => ?_
  simp [decode16, ho] at h

/-- The opcodes of the instructions of 32 bits end in `11` (R200). -/
theorem isLong_of_decode32 {x : Xlen} {w : BitVec 32} {i : Instr} (h : decode32 x w = .ok i) :
    isShort (w.extractLsb' 0 16) = false := by
  refine Laws.Length.long_of ?_
  unfold decode32 at h
  split at h
  case h_26 => cases h
  all_goals (rename_i ho; rw [ho]; rfl)

/-- The two bytes of a word of 16 bits, put together. -/
theorem bytes16_append (w : BitVec 16) : w.extractLsb' 8 8 ++ w.extractLsb' 0 8 = w := by
  rw [BitVec.extractLsb'_append_extractLsb'_eq_extractLsb' (by rfl)]
  exact BitVec.extractLsb'_eq_self

/-- The four bytes of a word of 32 bits, put together. -/
theorem bytes32_append (w : BitVec 32) :
    w.extractLsb' 24 8 ++ w.extractLsb' 16 8 ++ w.extractLsb' 8 8 ++ w.extractLsb' 0 8 = w := by
  iterate 3 rw [BitVec.extractLsb'_append_extractLsb'_eq_extractLsb' (by rfl)]
  exact BitVec.extractLsb'_eq_self

/-- Bytes that begin with those of a word that decodes are read as its instruction (20_memory R142). -/
theorem decodeBytes_of_decode {x : Xlen} {e : Encoded} {i : Instr} (h : decode x e = .ok i) (rest : List Byte) :
    decodeBytes x (e.bytes ++ rest) = .ok (i, rest) := by
  cases e with
  | c16 w => simp [Encoded.bytes, decodeBytes, bytes16_append, isShort_of_decode16 h, h, Except.map]
  | c32 w =>
    have hlow : w.extractLsb' 8 8 ++ w.extractLsb' 0 8 = w.extractLsb' 0 16 :=
      BitVec.extractLsb'_append_extractLsb'_eq_extractLsb' rfl
    simp [Encoded.bytes, decodeBytes, hlow, bytes32_append, isLong_of_decode32 h, h, Except.map]

/-- Settles O1: each decoder table reads the fields the encoder's format puts where it looks. -/
theorem decodeOfEncode : Obligations.DecodeOfEncode := by
  unfold Obligations.DecodeOfEncode
  exact fun x i h => ⟨decode_encode h, decodeBytes_of_decode (decode_encode h)⟩

end Sys2Proof
end

section
/-! SUPPORT. What the machine does with bits that are no instruction (30_encoding R220, R226; 40_fetch_decode R240). -/

namespace Sys2Proof.Machine

theorem decodeStep_of_error {e : Encoded} {s : State} {r : Reject} (h : decode s.xlen e = .error r)
    (hr : r ≠ .floatingPoint ∨ s.hw.fpuPresent = false) :
    decodeStep e s = .stop (.next (s.takeTrap false 2 (e.bits.setWidth 64))) := by
  unfold decodeStep
  rw [h]
  cases r with
  | floatingPoint =>
    have hf : s.hw.fpuPresent = false := hr.resolve_left (absurd rfl)
    simp only [hf]
    rfl
  | truncated | unrecognised | reserved | custom | wrongXlen => rfl

theorem decodeStep_of_floatingPoint {e : Encoded} {s : State} (h : decode s.xlen e = .error .floatingPoint)
    (hf : s.hw.fpuPresent = true) : decodeStep e s = .stop (.refused .floatingPoint) := by
  unfold decodeStep
  rw [h]
  exact if_pos hf

theorem RaisesIllegal.of_error {x : Xlen} {e : Encoded} {r : Reject} (h : decode x e = .error r)
    (hr : r ≠ .floatingPoint) : RaisesIllegal x e :=
  fun s hx => decodeStep_of_error (by rw [hx, h]) (.inl hr)

theorem RaisesIllegal.of_reserved {x : Xlen} {e : Encoded} (h : decode x e = .error .reserved) : RaisesIllegal x e :=
  .of_error h (by decide)

theorem RaisesIllegalNoFpu.of_error {x : Xlen} {e : Encoded} {r : Reject} (h : decode x e = .error r) :
    RaisesIllegalNoFpu x e :=
  fun s hx hf => decodeStep_of_error (by rw [hx, h]) (.inr hf)

/-! ### The step -/

/-- With no event due, awake and without an interrupt, the hart goes on to its fetch. -/
theorem preStep_of_readyToFetch {s t : State} (h : ReadyToFetch s t) : preStep s = fetchStep t := by
  unfold preStep
  rw [if_neg (by simp [h.params])]
  split
  next e rest hi => exact absurd hi (h.quiet e rest)
  next => rw [hartStep, h.awake]

theorem fetchStep_of_fetch {t u : State} {e : Encoded} (hi : t.pendingInt = none) (hf : fetch t = .ok e u) :
    fetchStep t = decodeStep e u := by
  rw [fetchStep, hi]
  dsimp only
  rw [hf]

/-- Settles O9: a step that is ready to fetch comes to the decoder, whose rejection is the trap. -/
theorem stepIllegalInstruction : Obligations.StepIllegalInstruction := by
  unfold Obligations.StepIllegalInstruction
  intro s t u e r hs hf hd hr
  rw [step, preStep_of_readyToFetch hs, fetchStep_of_fetch hs.noInt hf, decodeStep_of_error hd hr]

/-! ### Floating-point encodings -/

theorem decode_floatingPoint32 (x : Xlen) {w : BitVec 32}
    (h : fOpcode w ∈ [0x07#7, 0x27#7, 0x43#7, 0x47#7, 0x4B#7, 0x4F#7, 0x53#7]) :
    decode x (.c32 w) = .error .floatingPoint := by
  simp only [List.mem_cons, List.not_mem_nil, or_false] at h
  obtain h | h | h | h | h | h | h := h <;> simp [decode, decode32, h]

theorem decode_floatingPoint16 {x : Xlen} {w : BitVec 16} (ho : gOp w = 0#2 ∨ gOp w = 2#2)
    (h3 : gFunct3 w ∈ [1#3, 5#3] ∨ (x = .x32 ∧ gFunct3 w ∈ [3#3, 7#3])) :
    decode x (.c16 w) = .error .floatingPoint := by
  simp only [List.mem_cons, List.not_mem_nil, or_false] at h3
  obtain (h3 | h3) | ⟨rfl, h3 | h3⟩ := h3 <;> obtain ho | ho := ho <;>
    simp [decode, decode16, decodeQ0, decodeQ2, Xlen.is64, ho, h3]

/-- Settles O5: the decoder rejects each of them as floating-point. -/
theorem floatingPointEncodings : Obligations.FloatingPointEncodings := by
  unfold Obligations.FloatingPointEncodings
  intro x e he
  have hd : decode x e = .error .floatingPoint := by
    obtain ⟨w, rfl, ho⟩ | ⟨w, rfl, ho, h3⟩ := he
    · exact decode_floatingPoint32 x ho
    · exact decode_floatingPoint16 ho h3
  exact ⟨.of_error hd, fun s hx hf => decodeStep_of_floatingPoint (by rw [hx, hd]) hf⟩

end Sys2Proof.Machine
end

section
/-! SUPPORT. The reserved encodings (30_encoding R222, R224, R225): from the bits that mark each to the fields the decoder
looks at. -/

namespace Sys2Proof

/-! ### Slices and bits -/

/-- A one-bit slice is its bit. -/
theorem slice_one {n : Nat} (w : BitVec n) (k : Nat) : w.extractLsb' k 1 = BitVec.ofBool (w.getLsbD k) := by
  ext i hi
  obtain rfl : i = 0 := by omega
  simp

/-- A slice within a slice that is known. -/
theorem slice_of_slice {n lo len : Nat} {w : BitVec n} {v : BitVec len} (h : w.extractLsb' lo len = v) (a m : Nat)
    (ha : a + m ≤ len) : w.extractLsb' (lo + a) m = v.extractLsb' a m := by
  subst h
  ext i hi
  simp [show a + i < len by omega, Nat.add_assoc]

theorem two_bits_of_high_false {v : BitVec 2} (h : v.getLsbD 1 = false) : v = 0#2 ∨ v = 1#2 := by
  revert v; decide

theorem two_bits_of_high_true {v : BitVec 2} (h : v.getLsbD 1 = true) : v = 2#2 ∨ v = 3#2 := by
  revert v; decide

section

variable {w : BitVec 16}

theorem cImmAddi4spn_eq_zero (h : w.extractLsb' 5 8 = 0#8) : cImmAddi4spn w = 0#10 := by
  rw [cImmAddi4spn, slice_of_slice h 2 4 (by decide), slice_of_slice h 6 2 (by decide), slice_of_slice h 0 1 (by decide),
    slice_of_slice h 1 1 (by decide)]
  rfl

theorem cImm6_eq_zero (hb : gBit12 w = 0#1) (h2 : gRs2 w = 0#5) : cImm6 w = 0#6 := by
  show gBit12 w ++ gRs2 w = _
  rw [hb, h2]
  rfl

theorem cImmAddi16sp_eq_zero (hb : gBit12 w = 0#1) (h2 : gRs2 w = 0#5) : cImmAddi16sp w = 0#10 := by
  rw [gBit12] at hb
  rw [cImmAddi16sp, hb, slice_of_slice h2 1 2 (by decide), slice_of_slice h2 3 1 (by decide),
    slice_of_slice h2 0 1 (by decide), slice_of_slice h2 4 1 (by decide)]
  rfl

/-- Bit 12 is bit 5 of a compressed shift amount (R222). -/
theorem cImm6_shamt32 (hb : w.getLsbD 12 = true) : shamtFits .x32 (cImm6 w) = false := by
  have h5 : (cImm6 w).getLsbD 5 = true := by
    rw [cImm6, BitVec.getLsbD_append]
    simpa using hb
  rw [shamtFits, h5]
  rfl

end

/-! ### One lemma for each table -/

theorem decode_shift32 {w : BitVec 32} (ho : fOpcode w = 0x13#7) (h3 : fFunct3 w = 1#3 ∨ fFunct3 w = 5#3)
    (h25 : w.getLsbD 25 = true) : decode .x32 (.c32 w) = .error .reserved := by
  have hs : shamtFits .x32 (fShamt w) = false := by simp [shamtFits, fShamt, h25]
  obtain h3 | h3 := h3
  all_goals
    simp only [decode, decode32, ho, decodeOpImm, h3]
    split <;> simp [decodeShift, hs]

theorem decode_lr_rs2 (x : Xlen) {w : BitVec 32} (ho : fOpcode w = 0x2F#7) (h3 : fFunct3 w = 2#3 ∨ fFunct3 w = 3#3)
    (h5 : fFunct5 w = 0x02#5) (h2 : fRs2 w ≠ 0#5) : decode x (.c32 w) = .error .reserved := by
  obtain h3 | h3 := h3 <;> simp [decode, decode32, decodeAmo, decodeAmoW, decodeAmoD, ho, h3, h5, h2]

theorem decode_q1_nzimm_zero (x : Xlen) {w : BitVec 16} (ho : gOp w = 1#2) (h3 : gFunct3 w = 3#3) (hb : gBit12 w = 0#1)
    (h2 : gRs2 w = 0#5) : decode x (.c16 w) = .error .reserved := by
  simp [decode, decode16, decodeQ1, ho, h3, cImm6_eq_zero hb h2, cImmAddi16sp_eq_zero hb h2]

theorem decode_q1_shamt32 {w : BitVec 16} (ho : gOp w = 1#2) (h3 : gFunct3 w = 4#3) (h11 : w.getLsbD 11 = false)
    (h12 : w.getLsbD 12 = true) : decode .x32 (.c16 w) = .error .reserved := by
  have hs : gSel w = 0#2 ∨ gSel w = 1#2 := two_bits_of_high_false (by simpa [gSel] using h11)
  obtain hs | hs := hs <;>
    simp [decode, decode16, decodeQ1, decodeQ1Alu, decodeShift, ho, h3, hs, cImm6_shamt32 h12]

theorem decode_q1_funct2 (x : Xlen) {w : BitVec 16} (ho : gOp w = 1#2) (h3 : gFunct3 w = 4#3)
    (h10 : w.extractLsb' 10 3 = 7#3) (h6 : w.getLsbD 6 = true) : decode x (.c16 w) = .error .reserved := by
  have hs : gSel w = 3#2 := slice_of_slice h10 0 2 (by decide)
  have hb : gBit12 w = 1#1 := slice_of_slice h10 2 1 (by decide)
  have hf : gFunct2 w = 2#2 ∨ gFunct2 w = 3#2 := two_bits_of_high_true (by simpa [gFunct2] using h6)
  obtain hf | hf := hf <;> simp [decode, decode16, decodeQ1, decodeQ1Alu, ho, h3, hs, hb, hf]

theorem decode_q2_cr_zero (x : Xlen) {w : BitVec 16} (ho : gOp w = 2#2) (h4 : w.extractLsb' 12 4 = 8#4)
    (h10 : w.extractLsb' 2 10 = 0#10) : decode x (.c16 w) = .error .reserved := by
  have h3 : gFunct3 w = 4#3 := slice_of_slice h4 1 3 (by decide)
  have hb : gBit12 w = 0#1 := slice_of_slice h4 0 1 (by decide)
  have hd : gRd w = 0#5 := slice_of_slice h10 5 5 (by decide)
  have h2 : gRs2 w = 0#5 := slice_of_slice h10 0 5 (by decide)
  simp [decode, decode16, decodeQ2, decodeQ2Jump, ho, h3, hb, hd, h2]

end Sys2Proof

namespace Sys2Proof.Machine

theorem unusedOpcode_raisesIllegal (x : Xlen) {w : BitVec 32} (ho : fOpcode w ∈ [0x0B#7, 0x2B#7, 0x5B#7, 0x7B#7, 0x57#7,
    0x6B#7, 0x77#7, 0x1F#7, 0x3F#7, 0x5F#7, 0x7F#7]) : RaisesIllegal x (.c32 w) := by
  simp only [List.mem_cons, List.not_mem_nil, or_false] at ho
  obtain ho | ho | ho | ho | ho | ho | ho | ho | ho | ho | ho := ho
  iterate 4 exact .of_error (r := .custom) (by simp [decode, decode32, ho]) (by decide)
  iterate 7 exact .of_error (r := .unrecognised) (by simp [decode, decode32, ho]) (by decide)

/-- Settles O4: the decoder rejects each of them, and not as floating-point. The clauses stand in the order of the statement;
each hypothesis is named as the field it speaks of. -/
theorem reservedEncodings : Obligations.ReservedEncodings := by
  unfold Obligations.ReservedEncodings
  refine ⟨?_, ?_, ?_, ?_, ?_, ?_, ?_, ?_, ?_, ?_, ?_, ?_, ?_, ?_, ?_, ?_, ?_, ?_⟩
  · intro x w (ho : fOpcode w = _) (h3 : fFunct3 w = _) (h6 : fFunct6 w ≠ _)
    exact .of_reserved (by simp [decode, decode32, decodeOpImm, ho, h3])
  · intro x w (ho : fOpcode w = _) (h3 : fFunct3 w = _) (h6 : fFunct6 w ≠ _) (h6' : fFunct6 w ≠ _)
    exact .of_reserved (by simp [decode, decode32, decodeOpImm, ho, h3])
  · exact fun w ho h3 h25 => .of_reserved (decode_shift32 ho h3 h25)
  · intro x w (ho : fOpcode w = _) (h3 : fFunct3 w = _) (h7 : fFunct7 w ≠ _)
    exact .of_reserved (by simp [decode, decode32, decodeOpImm32, ho, h3])
  · intro x w (ho : fOpcode w = _) (h3 : fFunct3 w = _) (h7 : fFunct7 w ≠ _) (h7' : fFunct7 w ≠ _)
    exact .of_reserved (by simp [decode, decode32, decodeOpImm32, ho, h3])
  · exact fun x w ho h3 h5 h2 => .of_reserved (decode_lr_rs2 x ho h3 h5 h2)
  · intro x w (ho : gOp w = _) (h3 : gFunct3 w = _) hi
    exact .of_reserved (by simp [decode, decode16, decodeQ0, ho, h3, cImmAddi4spn_eq_zero hi])
  · intro x w ho h3 hb h2 hd
    exact .of_reserved (decode_q1_nzimm_zero x ho h3 (by rw [gBit12, slice_one, hb]; rfl) h2)
  · intro x w (ho : gOp w = _) (h3 : gFunct3 w = _) (hd : gRd w = _)
    exact .of_reserved (by simp [decode, decode16, decodeQ2, ho, h3, hd])
  · intro w (ho : gOp w = _) (h3 : gFunct3 w = _) (hd : gRd w = _)
    exact .of_reserved (by simp [decode, decode16, decodeQ2, Xlen.is64, ho, h3, hd])
  · exact fun x w ho h4 h10 => .of_reserved (decode_q2_cr_zero x ho h4 h10)
  · intro w (ho : gOp w = _) (h3 : gFunct3 w = _) (hd : gRd w = _)
    exact .of_reserved (by simp [decode, decode16, decodeQ1, Xlen.is64, ho, h3, hd])
  · intro w (ho : gOp w = _) (h3 : gFunct3 w = _) hb
    exact .of_reserved (by simp [decode, decode16, decodeQ2, decodeShift, ho, h3, cImm6_shamt32 hb])
  · exact fun w ho h3 h11 h12 => .of_reserved (decode_q1_shamt32 ho h3 h11 h12)
  · intro x w (ho : gOp w = _) (h3 : gFunct3 w = _)
    exact .of_reserved (by simp [decode, decode16, decodeQ0, ho, h3])
  · exact fun x w ho h3 h10 h6 => .of_reserved (decode_q1_funct2 x ho h3 h10 h6)
  · exact fun x => ⟨.of_reserved rfl, .of_error (r := .unrecognised) rfl (by decide)⟩
  · exact fun x w ho => unusedOpcode_raisesIllegal x ho

end Sys2Proof.Machine
end

section
/-! SUPPORT. The instructions of XLEN = 64 only, decoded and executed at XLEN = 32 (30_encoding R222, R227; log 12). -/

namespace Sys2Proof.Machine

theorem need64_x32 {s : State} (hx : s.xlen = .x32) (b : BitVec 32) (k : Result) : need64 b s k = illegal b s :=
  if_neg (by rw [hx]; decide)

theorem opShift_of_not_fits {s : State} {sh : BitVec 6} (h : shamtFits s.xlen sh = false) (len : Nat) (b : BitVec 32)
    (f : (n : Nat) → BitVec n → Nat → BitVec n) (rd rs1 : Reg) : opShift len b f rd rs1 sh s = illegal b s :=
  if_neg (by simp [h])

/-- At XLEN = 32 executing an instruction of XLEN = 64 only raises illegal instruction with its word (log 12). -/
theorem exec_not_wf_x32 {i : Instr} {s : State} (h64 : i.wf .x64 = true) (h32 : i.wf .x32 = false) (hx : s.xlen = .x32) :
    exec i s = illegal (encode i).bits s := by
  cases i with
  | slli | srli | srai | cSrli | cSrai | cSlli => exact opShift_of_not_fits (by rw [hx]; exact h32) _ _ _ _ _
  | addiw | slliw | srliw | sraiw | addw | subw | sllw | srlw | sraw | mulw | divw | divuw | remw | remuw | lwu | ld | sd
  | lrD | scD | amoswapD | amoaddD | amoxorD | amoandD | amoorD | amominD | amomaxD | amominuD | amomaxuD
  | cLd | cSd | cAddiw | cSubw | cAddw | cLdsp | cSdsp => exact need64_x32 hx _ _
  | _ => simp_all [Instr.wf, Xlen.is64] -- of both widths, or `C.JAL`: the hypotheses exclude each other

/-- Only `C.JAL` is an instruction of XLEN = 32 alone (R227). -/
theorem wf_x64_of_wf_x32 {i : Instr} (h : i.wf .x32 = true) (hi : ∀ offset, i ≠ .cJal offset) : i.wf .x64 = true := by
  cases i with
  | cJal offset => exact absurd rfl (hi offset)
  | _ => simp_all [Instr.wf, Xlen.is64, shamtFits]

/-- At XLEN = 64 the word of `C.JAL` is `C.ADDIW` or none (48_compressed R459, R460). -/
theorem decode_x64_cJal {i : Instr} {offset : BitVec 12} (h : decode .x64 (encode (.cJal offset)) = .ok i) :
    ∃ rd imm, i = .cAddiw rd imm := by
  simp only [encode, decode, decode16, encCJ_gOp, decodeQ1, encCJ_gFunct3, Xlen.is64, beq_self_eq_true, if_true] at h
  split at h <;> cases h
  exact ⟨_, _, rfl⟩

/-- At XLEN = 32 the word of an instruction of XLEN = 64 only is none, unless it is that of `C.ADDIW`: an instruction it
decoded to would be of both widths, and so the same one, or `C.JAL`. -/
theorem decode_not_wf_x32 {i : Instr} (h64 : i.wf .x64 = true) (h32 : i.wf .x32 = false)
    (hi : ∀ rd imm, i ≠ .cAddiw rd imm) : ∃ r, decode .x32 (encode i) = .error r := by
  cases hd : decode .x32 (encode i) with
  | error r => exact ⟨r, rfl⟩
  | ok j =>
    have hj : decode .x64 (encode j) = .ok i := by rw [encode_of_decode hd, decode_encode h64]
    have hj64 : j.wf .x64 = true := by
      refine wf_x64_of_wf_x32 (decode_wf hd) ?_
      rintro offset rfl
      obtain ⟨rd, imm, hc⟩ := decode_x64_cJal hj
      exact hi rd imm hc
    rw [decode_encode hj64] at hj
    cases hj
    rw [decode_wf hd] at h32
    cases h32

/-- Settles O6: at XLEN = 32 the decoder rejects the word, and the meaning answers illegal instruction with it. -/
theorem onlyAtXlen64 : Obligations.OnlyAtXlen64 := by
  unfold Obligations.OnlyAtXlen64
  refine fun i h64 h32 => ⟨fun hi => ?_, ?_, fun s hx => exec_not_wf_x32 h64 h32 hx⟩
  · obtain ⟨r, hr⟩ := decode_not_wf_x32 h64 h32 hi
    exact .of_error hr
  · rintro rd imm rfl
    exact ⟨cOffJ (encCI 1#3 imm rd 1#2), by simp [encode, decode, decode16, decodeQ1, Xlen.is64]⟩

end Sys2Proof.Machine
end

section
/-! SUPPORT. The fetch of an instruction, halfword by halfword (40_fetch_decode R241): what each translation and each
halfword in RAM, or not in RAM, makes of it. -/

namespace Sys2Proof.Machine

/-! ### One halfword -/

/-- What lies within a range of RAM is in RAM. -/
theorem inRam_part {p : Params} {pa n a m : Nat} (h : Params.inRam p pa n = true) (h1 : pa ≤ a) (h2 : a + m ≤ pa + n) :
    Params.inRam p a m = true := by
  simp only [Params.inRam, Bool.and_eq_true, decide_eq_true_eq] at *; omega

theorem ramHalf_of_inRam {pa : Nat} {s : State} (va : Word) (h : Params.inRam s.hw pa 2 = true) :
    ramHalf va pa s = .ok (BitVec.ofNat 16 (bytesAt s.mem pa 2)) s := by
  rw [ramHalf, if_pos h, load_eq_bytesAt]

theorem ramHalf_of_not_inRam {pa : Nat} {s : State} (va : Word) (h : Params.inRam s.hw pa 2 = false) :
    ramHalf va pa s = .exc .instrAccessFault va s := by
  rw [ramHalf, if_neg (by simp [h])]

theorem fetchHalf_of_translate {va : Word} {s t : State} {pa : Nat} (h : translate .exec va s = .ok pa t) :
    fetchHalf va s = ramHalf va pa t := by
  rw [fetchHalf, h]

/-- A halfword that does not translate raises with its own address, and the state is as it was (20_memory R187). -/
theorem fetchHalf_of_fault {va tv : Word} {s t : State} {x : Exc} (h : translate .exec va s = .exc x tv t) :
    fetchHalf va s = .exc x va s := by
  obtain ⟨rfl, rfl, -⟩ := translate_exc h
  rw [fetchHalf, h]

theorem isLong_of_mod_four {n : Nat} (h : n % 4 = 3) : isShort (BitVec.ofNat 16 n) = false := by
  have h2 : (BitVec.ofNat 16 n).extractLsb' 0 2 = 3#2 := by
    apply BitVec.eq_of_toNat_eq
    rw [BitVec.extractLsb'_toNat, BitVec.toNat_ofNat, BitVec.toNat_ofNat, Nat.shiftRight_zero]
    omega
  rw [isShort, h2]
  rfl

/-- Two bytes of a word in memory are its halfword, as a number (20_memory R142). -/
theorem bytesAt_two_of_bytes {n k pa : Nat} {w : BitVec n} {m : Memory} (h0 : m.readByte pa = w.extractLsb' k 8)
    (h1 : m.readByte (pa + 1) = w.extractLsb' (k + 8) 8) : BitVec.ofNat 16 (bytesAt m pa 2) = w.extractLsb' k 16 := by
  have hcat : m.readByte (pa + 1) ++ m.readByte pa = w.extractLsb' k 16 := by
    rw [h0, h1, BitVec.extractLsb'_append_extractLsb'_eq_extractLsb' rfl]
  have hlow := (m.readByte pa).isLt
  rw [← hcat, ← load_eq_bytesAt]
  apply BitVec.eq_of_toNat_eq
  rw [BitVec.toNat_append, Nat.shiftLeft_eq, Nat.mul_comm, ← Nat.two_pow_add_eq_or_of_lt hlow]
  simp only [Memory.load, BitVec.toNat_ofNat]
  omega

/-- The two halfwords of a word of 32 bits, put together. -/
theorem halves_append (w : BitVec 32) : w.extractLsb' 16 16 ++ w.extractLsb' 0 16 = w := by
  rw [BitVec.extractLsb'_append_extractLsb'_eq_extractLsb' (by rfl)]
  exact BitVec.extractLsb'_eq_self

theorem ofNat_low_half (w : BitVec 32) : BitVec.ofNat 16 (w.toNat % 65536) = w.extractLsb' 0 16 :=
  BitVec.eq_of_toNat_eq (by simp)

theorem ofNat_high_half (w : BitVec 32) : BitVec.ofNat 16 (w.toNat / 65536) = w.extractLsb' 16 16 :=
  BitVec.eq_of_toNat_eq (by simp [Nat.shiftRight_eq_div_pow])

/-! ### The fetch -/

theorem fetch_of_fault {s t : State} {x : Exc} {tv : Word} (h : translate .exec s.vpc s = .exc x tv t) :
    fetch s = .exc x s.vpc s := by
  obtain ⟨rfl, rfl, -⟩ := translate_exc h
  rw [fetch, h]

section

variable {s t : State} {pa : Nat} (ht : translate .exec s.vpc s = .ok pa t)
include ht

theorem fetch_of_not_inRam (hr : Params.inRam t.hw pa 2 = false) : fetch s = .exc .instrAccessFault s.vpc t := by
  simp only [fetch, ht, ramHalf_of_not_inRam _ hr]

variable {lo : BitVec 16} (hlo : ramHalf s.vpc pa t = .ok lo t)
include hlo

theorem fetch_short (hs : isShort lo = true) : fetch s = .ok (.c16 lo) t := by
  simp only [fetch, ht, hlo, if_pos hs]

variable (hs : isShort lo = false)
include hs

/-- Within a page the second halfword is the next one of RAM. -/
theorem fetch_long_onePage {hi : BitVec 16} (hp : pageOff s.vpc ≠ 4094)
    (hhi : ramHalf (s.vaPlus s.vpc 2) (pa + 2) t = .ok hi t) : fetch s = .ok (.c32 (hi ++ lo)) t := by
  simp only [fetch, ht, hlo, hs, Bool.false_eq_true, if_false, if_neg hp, hhi]

/-- At the end of a page the second halfword has a translation of its own. -/
theorem fetch_long_twoPages {hi : BitVec 16} {v : State} (hp : pageOff s.vpc = 4094)
    (hhi : fetchHalf (s.vaPlus s.vpc 2) t = .ok hi v) : fetch s = .ok (.c32 (hi ++ lo)) v := by
  simp only [fetch, ht, hlo, hs, Bool.false_eq_true, if_false, if_pos hp, hhi]

theorem fetch_second_fault {x : Exc} {tv : Word} {v : State} (hp : pageOff s.vpc = 4094)
    (hhi : fetchHalf (s.vaPlus s.vpc 2) t = .exc x tv v) : fetch s = .exc x tv v := by
  simp only [fetch, ht, hlo, hs, Bool.false_eq_true, if_false, if_pos hp, hhi]

end

/-! ### The bytes of an instruction at the pc -/

/-- An instruction whose bytes lie in one page of RAM is fetched. -/
theorem fetch_of_bytes {s t : State} {pa : Nat} {e : Encoded} {x : Xlen} {i : Instr}
    (ht : translate .exec s.vpc s = .ok pa t) (hp : pageOff s.vpc + e.len ≤ 4096)
    (hr : Params.inRam t.hw pa e.len = true) (hb : ∀ k, k < e.len → e.bytes[k]? = some (t.mem.readByte (pa + k)))
    (hd : decode x e = .ok i) : fetch s = .ok e t := by
  cases e with
  | c16 w =>
    have byte (k : Nat) (hk : k < 2) : some (t.mem.readByte (pa + k)) = (Encoded.c16 w).bytes[k]? := (hb k hk).symm
    have hw : BitVec.ofNat 16 (bytesAt t.mem pa 2) = w.extractLsb' 0 16 :=
      bytesAt_two_of_bytes (Option.some.inj (byte 0 (by decide))) (Option.some.inj (byte 1 (by decide)))
    rw [BitVec.extractLsb'_eq_self] at hw
    exact fetch_short ht (hw ▸ ramHalf_of_inRam _ hr) (isShort_of_decode16 hd)
  | c32 w =>
    have byte (k : Nat) (hk : k < 4) : some (t.mem.readByte (pa + k)) = (Encoded.c32 w).bytes[k]? := (hb k hk).symm
    have hlo : BitVec.ofNat 16 (bytesAt t.mem pa 2) = w.extractLsb' 0 16 :=
      bytesAt_two_of_bytes (Option.some.inj (byte 0 (by decide))) (Option.some.inj (byte 1 (by decide)))
    have hhi : BitVec.ofNat 16 (bytesAt t.mem (pa + 2) 2) = w.extractLsb' 16 16 :=
      bytesAt_two_of_bytes (Option.some.inj (byte 2 (by decide))) (Option.some.inj (byte 3 (by decide)))
    have hr4 : Params.inRam t.hw pa 4 = true := hr
    have hoff : pageOff s.vpc + 4 ≤ 4096 := hp
    rw [fetch_long_onePage ht (hlo ▸ ramHalf_of_inRam _ (inRam_part hr4 (by omega) (by omega)))
      (isLong_of_decode32 hd) (by omega) (hhi ▸ ramHalf_of_inRam _ (inRam_part hr4 (by omega) (by omega))), halves_append]

/-- An instruction of 32 bits whose halfwords lie in two pages is fetched through both translations. -/
theorem fetch_of_halves {s t v : State} {pa pa' : Nat} {w : BitVec 32} {x : Xlen} {i : Instr}
    (ht : translate .exec s.vpc s = .ok pa t) (hp : pageOff s.vpc = 4094) (hr : Params.inRam t.hw pa 2 = true)
    (hv : translate .exec (s.vaPlus s.vpc 2) t = .ok pa' v) (hr' : Params.inRam v.hw pa' 2 = true)
    (hlo : bytesAt t.mem pa 2 = w.toNat % 65536) (hhi : bytesAt v.mem pa' 2 = w.toNat / 65536)
    (hd : decode x (.c32 w) = .ok i) : fetch s = .ok (.c32 w) v := by
  have hlo' : ramHalf s.vpc pa t = .ok (w.extractLsb' 0 16) t := by
    rw [ramHalf_of_inRam _ hr, hlo, ofNat_low_half]
  have hhi' : fetchHalf (s.vaPlus s.vpc 2) t = .ok (w.extractLsb' 16 16) v := by
    rw [fetchHalf_of_translate hv, ramHalf_of_inRam _ hr', hhi, ofNat_high_half]
  rw [fetch_long_twoPages ht hlo' (isLong_of_decode32 hd) hp hhi', halves_append]

end Sys2Proof.Machine
end

section
/-! SUPPORT. From the fetch to the step (40_fetch_decode R240, R243; 60_exceptions R520). -/

namespace Sys2Proof.Machine

theorem step_of_fetch {s t u : State} {e : Encoded} {i : Instr} (hs : ReadyToFetch s t) (hf : fetch t = .ok e u)
    (hd : decode u.xlen e = .ok i) : step s = exec i u := by
  rw [step, preStep_of_readyToFetch hs, fetchStep_of_fetch hs.noInt hf, decodeStep, hd]

theorem step_of_fetch_fault {s t u : State} {x : Exc} {tv : Word} (hs : ReadyToFetch s t) (hf : fetch t = .exc x tv u) :
    step s = .next (u.takeTrap false x.code tv) := by
  rw [step, preStep_of_readyToFetch hs, fetchStep, hs.noInt]
  dsimp only
  rw [hf]
  rfl

/-- Settles O10: each fault of a halfword is the fault of the fetch, and the step raises it. -/
theorem fetchFaults : Obligations.FetchFaults := by
  unfold Obligations.FetchFaults
  intro s t hs
  refine ⟨fun x tv u ht => ⟨?_, step_of_fetch_fault hs (fetch_of_fault ht)⟩, fun pa u ht hr => ?_, ?_, ?_⟩
  · obtain ⟨-, -, hx⟩ := translate_exc ht
    exact hx
  · exact step_of_fetch_fault hs (fetch_of_not_inRam ht hr)
  · intro pa pa' u v ht hr hlong hp hv hr'
    have hhalf : fetchHalf (t.vaPlus t.vpc 2) u = .exc .instrAccessFault (t.vaPlus t.vpc 2) v := by
      rw [fetchHalf_of_translate hv, ramHalf_of_not_inRam _ hr']
    exact step_of_fetch_fault hs
      (fetch_second_fault ht (ramHalf_of_inRam _ hr) (isLong_of_mod_four hlong) hp hhalf)
  · intro pa u v x tv ht hr hlong hp hv
    exact step_of_fetch_fault hs
      (fetch_second_fault ht (ramHalf_of_inRam _ hr) (isLong_of_mod_four hlong) hp (fetchHalf_of_fault hv))

/-- Settles O7: the bytes are fetched, from one page or from two, and what they decode to is executed. -/
theorem stepRunsDecoded : Obligations.StepRunsDecoded := by
  unfold Obligations.StepRunsDecoded
  intro s t u pa i hs ht
  exact ⟨fun e hp hr hb hd => step_of_fetch hs (fetch_of_bytes ht hp hr hb hd) hd,
    fun v pa' w hp hr hv hr' hlo hhi hd => step_of_fetch hs (fetch_of_halves ht hp hr hv hr' hlo hhi hd) hd⟩

end Sys2Proof.Machine
end

section
/-! SUPPORT. The values of the integer operations, at any width (41_integer_alu R261), as arithmetic on the operands. -/

namespace Sys2Proof.Machine

/-! ### Immediates -/

/-- A sign-extended value as a natural number, at any width. -/
theorem signExtend_toNat {m : Nat} (n : Nat) (imm : BitVec m) :
    ((imm.signExtend n).toNat : Int) = imm.toInt % 2 ^ n := by
  have hpos : (0 : Int) < 2 ^ n := Int.pow_pos (by decide)
  rw [BitVec.signExtend.eq_1, BitVec.toNat_ofInt, Int.natCast_pow]
  exact Int.toNat_of_nonneg (Int.emod_nonneg _ hpos.ne')

/-- Bits from the sign bit on are copies of it. -/
theorem getLsbD_signExtend_min {m n k : Nat} (imm : BitVec (m + 1)) (hk : k < n) :
    (imm.signExtend n).getLsbD k = imm.getLsbD (min k m) := by
  rw [BitVec.getLsbD_signExtend, decide_eq_true hk, Bool.true_and]
  split
  · rw [Nat.min_eq_left (by omega)]
  · rw [Nat.min_eq_right (by omega), BitVec.msb_eq_getLsbD_last, Nat.add_sub_cancel]

/-- An upper immediate counts units of 4096 (R262, R263). -/
theorem upper_toInt {m n : Nat} (imm : BitVec m) (hn : m + 12 ≤ n) :
    ((imm ++ 0#12).signExtend n).toInt = imm.toInt * 4096 := by
  rw [BitVec.toInt_signExtend_of_le hn, BitVec.toInt_append_zero, Int.mul_comm]
  rfl

/-- A zero-extended value has no sign. -/
theorem toInt_setWidth_of_lt {m n : Nat} (u : BitVec m) (h : m < n) : (u.setWidth n).toInt = u.toNat := by
  rw [← BitVec.setWidth'_eq h.le, BitVec.toInt_setWidth'_of_lt h]

variable {n m : Nat} (a b : BitVec n) (imm : BitVec m)

/-! ### Addition and subtraction -/

theorem aluAdd_toNat : (aluAdd n a b).toNat = (a.toNat + b.toNat) % 2 ^ n := BitVec.toNat_add a b

theorem aluAdd_signExtend_toNat :
    ((aluAdd n a (imm.signExtend n)).toNat : Int) = (a.toNat + imm.toInt) % 2 ^ n := by
  rw [aluAdd_toNat]
  push_cast
  rw [signExtend_toNat, Int.add_emod_emod]

theorem aluSub_toNat : ((aluSub n a b).toNat : Int) = ((a.toNat : Int) - b.toNat) % 2 ^ n := by
  have hb : b.toNat ≤ 2 ^ n := b.isLt.le
  rw [aluSub, BitVec.toNat_sub]
  push_cast [hb]
  rw [show (2 ^ n - b.toNat + a.toNat : Int) = a.toNat - b.toNat + 2 ^ n by omega, Int.add_emod_right]

/-! ### Comparisons -/

/-- The truth value of a comparison as a register value. -/
theorem ite_one_zero_toNat (p : Prop) [Decidable p] (hn : 0 < n) :
    (if p then 1#n else 0#n).toNat = if p then 1 else 0 := by
  split
  · rw [BitVec.toNat_ofNat, Nat.mod_eq_of_lt (Nat.one_lt_two_pow hn.ne')]
  · exact BitVec.toNat_zero

theorem aluSlt_toNat (hn : 0 < n) : (aluSlt n a b).toNat = if a.toInt < b.toInt then 1 else 0 :=
  ite_one_zero_toNat _ hn

theorem aluSlt_signExtend_toNat (hn : 0 < n) (hm : m ≤ n) :
    (aluSlt n a (imm.signExtend n)).toNat = if a.toInt < imm.toInt then 1 else 0 := by
  rw [aluSlt_toNat _ _ hn, BitVec.toInt_signExtend_of_le hm]

theorem aluSltu_toNat (hn : 0 < n) : (aluSltu n a b).toNat = if a.toNat < b.toNat then 1 else 0 :=
  ite_one_zero_toNat _ hn

theorem aluSltu_signExtend_toNat (hn : 0 < n) :
    (aluSltu n a (imm.signExtend n)).toNat = if (a.toNat : Int) < imm.toInt % 2 ^ n then 1 else 0 := by
  simp only [aluSltu_toNat _ _ hn, ← signExtend_toNat, Int.ofNat_lt]

/-! ### Bitwise operations -/

theorem aluXor_getLsbD (k : Nat) : (aluXor n a b).getLsbD k = (a.getLsbD k ^^ b.getLsbD k) := BitVec.getLsbD_xor

theorem aluOr_getLsbD (k : Nat) : (aluOr n a b).getLsbD k = (a.getLsbD k || b.getLsbD k) := BitVec.getLsbD_or

theorem aluAnd_getLsbD (k : Nat) : (aluAnd n a b).getLsbD k = (a.getLsbD k && b.getLsbD k) := BitVec.getLsbD_and

/-! ### Shifts -/

theorem shiftLeft_toNat (k : Nat) : (shiftLeft n a k).toNat = a.toNat * 2 ^ k % 2 ^ n := by
  rw [shiftLeft, BitVec.toNat_shiftLeft, Nat.shiftLeft_eq]

theorem shiftRight_toNat (k : Nat) : (shiftRight n a k).toNat = a.toNat / 2 ^ k := by
  rw [shiftRight, BitVec.toNat_ushiftRight, Nat.shiftRight_eq_div_pow]

theorem shiftRightArith_toInt (k : Nat) : (shiftRightArith n a k).toInt = a.toInt / 2 ^ k := by
  rw [shiftRightArith, BitVec.toInt_sshiftRight, Int.shiftRight_eq_div_pow, Int.natCast_pow]
  rfl

end Sys2Proof.Machine
end

section
/-! SUPPORT. The forms of the integer instructions: when each of them retires, and the operands it takes. -/

namespace Sys2Proof.Machine

/-! ### Operands -/

theorem State.thirtyTwo_le_xw (s : State) : 32 ≤ s.xw := by have := s.xw_eq; omega

/-- Register `x0` reads as zero (10_state R21). -/
theorem State.x_zero (s : State) (n : Nat) : s.x n 0#5 = 0#n := if_pos rfl

/-- The low word of a register is the operand of a word instruction. -/
theorem State.eq_x_word {s : State} {r : Reg} {a : BitVec 32} (h : a.toNat = (s.x 64 r).toNat % 2 ^ 32) :
    a = s.x 32 r :=
  BitVec.eq_of_toNat_eq (h.trans (x_toNat_eq_mod (n := 4) s r (by decide)).symm)

/-- The pc and its address are the same number. -/
theorem State.vpc_toNat (s : State) : s.vpc.toNat = s.pcX.toNat :=
  BitVec.toNat_setWidth_of_le (by have := s.xw_eq; omega)

theorem State.pcPlus_toNat {m : Nat} (s : State) (offset : BitVec m) :
    ((s.pcPlus offset).toNat : Int) = (s.vpc.toNat + offset.toInt) % 2 ^ s.xw := by
  rw [s.vpc_toNat]
  exact aluAdd_signExtend_toNat s.pcX offset

/-- At XLEN = 32 a shift amount is below 32, at XLEN = 64 it is any (30_encoding R222, R227). -/
theorem shamtFits_iff {x : Xlen} {sh : BitVec 6} : shamtFits x sh = true ↔ (x = .x32 → sh.toNat < 32) := by
  cases x with
  | x64 => simp [shamtFits]
  | x32 => simp only [shamtFits, forall_const]; revert sh; decide

/-! ### Forms -/

theorem need64_x64 {s : State} (hx : s.xlen = .x64) (b : BitVec 32) (k : Result) : need64 b s k = k := if_pos hx

theorem opShift_of_fits {s : State} {sh : BitVec 6} (h : s.xlen = .x32 → sh.toNat < 32) (len : Nat) (b : BitVec 32)
    (f : (n : Nat) → BitVec n → Nat → BitVec n) (rd rs1 : Reg) :
    opShift len b f rd rs1 sh s = retire s (s.setX rd (f s.xw (s.x s.xw rs1) sh.toNat)) len :=
  if_pos (shamtFits_iff.2 h)

/-- An instruction whose meaning is one register write and its retirement retires with that value. -/
theorem exec_retires_with {n len : Nat} {i : Instr} {s : State} {rd : Reg} {v : BitVec n} {P : BitVec n → Prop}
    (h : exec i s = retire s (s.setX rd v) len) (hv : P v) :
    ∃ (t : State) (v : BitVec n), exec i s = .next t ∧ Retires s s t len rd v ∧ P v := by
  obtain ⟨t, ht, hret⟩ := retire_setX s s len rd v
  exact ⟨t, v, h.trans ht, hret, hv⟩

end Sys2Proof.Machine
end

section
/-! SUPPORT. The integer computational instructions and their compressed forms (41_integer_alu, 48_compressed): each
retires with the value of its operation. -/

namespace Sys2Proof.Machine

/-- Settles O31: each retires with its immediate, or with the pc and its immediate added. -/
theorem upperImmediates : Obligations.UpperImmediates := by
  unfold Obligations.UpperImmediates
  intro s rd
  have hxw := s.thirtyTwo_le_xw
  refine ⟨fun imm => exec_retires_with rfl (upper_toInt imm (by omega)), fun imm => exec_retires_with rfl ?_,
    fun imm => exec_retires_with rfl (upper_toInt imm (by omega)), fun imm => exec_retires_with rfl ?_⟩
  · rw [s.pcPlus_toNat, BitVec.toInt_append_zero, Int.mul_comm]
    rfl
  · rw [aluAdd, s.x_zero, BitVec.zero_add, BitVec.toInt_signExtend_of_le (by omega)]

/-- Settles O32: each retires with its operation's value on the register and the sign-extended immediate. -/
theorem registerImmediate : Obligations.RegisterImmediate := by
  unfold Obligations.RegisterImmediate
  rintro s rd rs1 imm a rfl
  have hxw := s.thirtyTwo_le_xw
  refine ⟨exec_retires_with rfl (aluAdd_signExtend_toNat _ imm),
    exec_retires_with rfl (aluSlt_signExtend_toNat _ imm (by omega) (by omega)),
    exec_retires_with rfl (aluSltu_signExtend_toNat _ imm (by omega)),
    exec_retires_with rfl fun k hk => ?xori,
    exec_retires_with rfl fun k hk => ?ori,
    exec_retires_with rfl fun k hk => ?andi,
    fun rc u => exec_retires_with rfl ?cAddi4spn,
    fun j => exec_retires_with rfl (aluAdd_signExtend_toNat _ j),
    fun j => exec_retires_with rfl (aluAdd_signExtend_toNat _ j),
    fun rc j => exec_retires_with rfl fun k hk => ?cAndi⟩
  case xori => rw [aluXor_getLsbD, getLsbD_signExtend_min imm hk]
  case ori => rw [aluOr_getLsbD, getLsbD_signExtend_min imm hk]
  case andi => rw [aluAnd_getLsbD, getLsbD_signExtend_min imm hk]
  case cAndi => rw [aluAnd_getLsbD, getLsbD_signExtend_min j hk]
  case cAddi4spn =>
    have h := aluAdd_signExtend_toNat (s.x s.xw 2#5) (u.setWidth 12)
    rw [toInt_setWidth_of_lt u (by decide)] at h
    exact_mod_cast h

/-- Settles O33: the shift amount fits, so each retires with the shifted register. -/
theorem shiftImmediate : Obligations.ShiftImmediate := by
  unfold Obligations.ShiftImmediate
  intro s sh hfits
  refine ⟨?_, ?_⟩
  · rintro rd rs1 a rfl
    exact ⟨exec_retires_with (opShift_of_fits hfits ..) (shiftLeft_toNat _ _),
      exec_retires_with (opShift_of_fits hfits ..) (shiftRight_toNat _ _),
      exec_retires_with (opShift_of_fits hfits ..) (shiftRightArith_toInt _ _),
      exec_retires_with (opShift_of_fits hfits ..) (shiftLeft_toNat _ _)⟩
  · rintro rc a rfl
    exact ⟨exec_retires_with (opShift_of_fits hfits ..) (shiftRight_toNat _ _),
      exec_retires_with (opShift_of_fits hfits ..) (shiftRightArith_toInt _ _)⟩

/-- Settles O34: each retires with its operation's value on the two registers; `C.MV` adds `x0`. -/
theorem registerRegister : Obligations.RegisterRegister := by
  unfold Obligations.RegisterRegister
  refine ⟨?_, ?_, ?_⟩
  · rintro s rd rs1 rs2 a b rfl rfl
    have hxw : 0 < s.xw := by have := s.thirtyTwo_le_xw; omega
    exact ⟨exec_retires_with rfl (aluAdd_toNat _ _),
      exec_retires_with rfl (aluSub_toNat _ _),
      exec_retires_with rfl (shiftLeft_toNat _ _),
      exec_retires_with rfl (aluSlt_toNat _ _ hxw),
      exec_retires_with rfl (aluSltu_toNat _ _ hxw),
      exec_retires_with rfl (aluXor_getLsbD _ _),
      exec_retires_with rfl (shiftRight_toNat _ _),
      exec_retires_with rfl (shiftRightArith_toInt _ _),
      exec_retires_with rfl (aluOr_getLsbD _ _),
      exec_retires_with rfl (aluAnd_getLsbD _ _)⟩
  · rintro s rc rc2 a b rfl rfl
    exact ⟨exec_retires_with rfl (aluSub_toNat _ _),
      exec_retires_with rfl (aluXor_getLsbD _ _),
      exec_retires_with rfl (aluOr_getLsbD _ _),
      exec_retires_with rfl (aluAnd_getLsbD _ _)⟩
  · rintro s rd rs2 a b rfl rfl
    refine ⟨exec_retires_with rfl (aluAdd_toNat _ _), ?_⟩
    have hmv : exec (.cMv rd rs2) s = retire s (s.setX rd (s.x s.xw 0#5 + s.x s.xw rs2)) 2 := rfl
    rw [s.x_zero, BitVec.zero_add] at hmv
    rw [hmv]
    exact retire_setX s s 2 rd _

/-- Settles O35: at XLEN = 64 each retires with its operation's value on the low words. -/
theorem wordInstructions : Obligations.WordInstructions := by
  unfold Obligations.WordInstructions
  refine ⟨?_, ?_⟩
  · intro s rd rs1 rs2 a b hx ha hb
    obtain rfl := State.eq_x_word ha
    obtain rfl := State.eq_x_word hb
    exact ⟨fun imm => exec_retires_with (need64_x64 hx _ _) (aluAdd_signExtend_toNat _ imm),
      fun sh => exec_retires_with (need64_x64 hx _ _) (shiftLeft_toNat _ _),
      fun sh => exec_retires_with (need64_x64 hx _ _) (shiftRight_toNat _ _),
      fun sh => exec_retires_with (need64_x64 hx _ _) (shiftRightArith_toInt _ _),
      exec_retires_with (need64_x64 hx _ _) (aluAdd_toNat _ _),
      exec_retires_with (need64_x64 hx _ _) (aluSub_toNat _ _),
      exec_retires_with (need64_x64 hx _ _) (shiftLeft_toNat _ _),
      exec_retires_with (need64_x64 hx _ _) (shiftRight_toNat _ _),
      exec_retires_with (need64_x64 hx _ _) (shiftRightArith_toInt _ _),
      fun imm => exec_retires_with (need64_x64 hx _ _) (aluAdd_signExtend_toNat _ imm)⟩
  · intro s rc rc2 a b hx ha hb
    obtain rfl := State.eq_x_word ha
    obtain rfl := State.eq_x_word hb
    exact ⟨exec_retires_with (need64_x64 hx _ _) (aluAdd_toNat _ _),
      exec_retires_with (need64_x64 hx _ _) (aluSub_toNat _ _)⟩

end Sys2Proof.Machine
end

section
/-! SUPPORT. The forms of the control transfer instructions: where the pc goes, and the link. -/

namespace Sys2Proof.Machine

/-! ### Targets -/

/-- A pc of XLEN bits is held unchanged (10_state R25). -/
theorem toNat_setWidth_xw {s : State} (p : BitVec s.xw) : (p.setWidth 64).toNat = p.toNat :=
  BitVec.toNat_setWidth_of_le (by have := s.xw_eq; omega)

/-- Clearing bit 0 rounds down to an even number. -/
theorem and_not_one_toNat {n : Nat} (v : BitVec n) : (v &&& ~~~1#n).toNat = v.toNat / 2 * 2 := by
  have hshift : v &&& ~~~1#n = v >>> 1 <<< 1 := by
    ext i hi
    cases i with
    | zero => simp
    | succ k => simp [Nat.add_comm 1 k, BitVec.getLsbD_eq_getElem hi]
  have hlt : v.toNat / 2 * 2 < 2 ^ n := (Nat.div_mul_le_self _ _).trans_lt v.isLt
  rw [hshift, BitVec.toNat_shiftLeft, BitVec.toNat_ushiftRight, Nat.shiftLeft_eq, Nat.shiftRight_eq_div_pow, pow_one,
    Nat.mod_eq_of_lt hlt]

/-- The target of a register jump (42_control_transfer R322). -/
theorem jalrTarget_toNat {n m : Nat} (a : BitVec n) (imm : BitVec m) :
    (((a + imm.signExtend n) &&& ~~~1#n).toNat : Int) = (a.toNat + imm.toInt) % 2 ^ n / 2 * 2 := by
  rw [and_not_one_toNat, ← aluAdd_signExtend_toNat]
  rfl

/-- A value of `n` bits, as an integer modulo `2 ^ n`. -/
theorem toNat_emod_two_pow {n : Nat} (p : BitVec n) : (p.toNat : Int) % 2 ^ n = p.toNat :=
  mod_cast p.toNat_mod_cancel

/-- The link is the address `len` bytes further on (R321). -/
theorem State.eq_nextPc {s : State} {len : Nat} {l : BitVec s.xw} (h : l.toNat = (s.vpc.toNat + len) % 2 ^ s.xw) :
    l = s.nextPc len :=
  BitVec.eq_of_toNat_eq (by rw [h, ← nextPc_toNat, toNat_setWidth_xw])

/-! ### Writing the pc -/

theorem setPc_goes {s : State} {p : BitVec s.xw} {target : Int} (h : (p.toNat : Int) = target % 2 ^ s.xw) :
    Goes s (s.setPc p) target where
  pc := by rw [State.setPc_pc, toNat_setWidth_xw, h]
  mem _ := rfl
  rest := rfl

theorem setX_setPc_links {n : Nat} {s : State} {p : BitVec s.xw} {target : Int} (rd : Reg) (v : BitVec n)
    (h : (p.toNat : Int) = target % 2 ^ s.xw) : Links s ((s.setX rd v).setPc p) target rd v where
  regs := setX_get s rd v
  pc := (setPc_goes h).pc
  mem _ := by simp
  rest := by apply State.eq_of_fields <;> simp

/-- A jump whose link register is `x0` changes only the pc. -/
theorem Links.goes {n : Nat} {s t : State} {target : Int} {v : BitVec n} (h : Links s t target 0#5 v) :
    Goes s t target where
  pc := h.pc
  mem := h.mem
  rest := by
    have hregs : t.regs = s.regs := Vector.ext fun k hk => (h.regs (BitVec.ofFin ⟨k, hk⟩)).trans (if_neg fun ⟨_, hne⟩ => hne rfl)
    rw [← hregs]
    exact h.rest

/-! ### Forms -/

theorem opJal_links {m : Nat} (len : Nat) (rd : Reg) (offset : BitVec m) (s : State) :
    ∃ t, opJal len rd offset s = .next t ∧ Links s t (s.vpc.toNat + offset.toInt) rd (s.nextPc len) :=
  ⟨_, rfl, setX_setPc_links rd _ (s.pcPlus_toNat offset)⟩

theorem opJalr_links (len : Nat) (rd rs1 : Reg) (imm : BitVec 12) (s : State) :
    ∃ t, opJalr len rd rs1 imm s = .next t
      ∧ Links s t (((s.x s.xw rs1).toNat + imm.toInt) % 2 ^ s.xw / 2 * 2) rd (s.nextPc len) :=
  ⟨_, rfl, setX_setPc_links rd _ (by rw [← jalrTarget_toNat, toNat_emod_two_pow])⟩

/-- The compressed register jumps add nothing to the register (48_compressed R479, R482). -/
theorem opJalr_zero_links (len : Nat) (rd rs1 : Reg) (s : State) :
    ∃ t, opJalr len rd rs1 0#12 s = .next t
      ∧ Links s t ((s.x s.xw rs1).toNat / 2 * 2 : Nat) rd (s.nextPc len) := by
  have h := opJalr_links len rd rs1 0#12 s
  rw [BitVec.toInt_zero, Int.add_zero, toNat_emod_two_pow] at h
  exact_mod_cast h

/-- A branch whose condition holds exactly when `q` does (R323). -/
theorem opBranch_goes {m len : Nat} {offset : BitVec m} {s : State} {p q : Prop} [Decidable p] [Decidable q]
    (h : p ↔ q) :
    ∃ t, opBranch len (decide p) offset s = .next t
      ∧ Goes s t (if q then s.vpc.toNat + offset.toInt else s.vpc.toNat + len) := by
  by_cases hp : p
  · exact ⟨s.setPc (s.pcPlus offset), if_pos (decide_eq_true hp), by
      rw [if_pos (h.1 hp)]
      exact setPc_goes (s.pcPlus_toNat offset)⟩
  · exact ⟨s.setPc (s.nextPc len), if_neg (by simpa using hp), by
      rw [if_neg (mt h.2 hp)]
      exact setPc_nextPc_goes len rfl⟩

end Sys2Proof.Machine
end

section
/-! SUPPORT. The control transfer instructions and their compressed forms (42_control_transfer, 48_compressed). -/

namespace Sys2Proof.Machine

/-- Settles O38: each links the next instruction's address and goes to the pc or the old register with its offset added. -/
theorem jumps : Obligations.Jumps := by
  unfold Obligations.Jumps
  rintro s rd rs1 l4 l2 a h4 h2 rfl
  obtain rfl := State.eq_nextPc h4
  obtain rfl := State.eq_nextPc h2
  exact ⟨fun off => opJal_links 4 rd off s,
    fun imm => opJalr_links 4 rd rs1 imm s,
    fun off => (opJal_links 2 0#5 off s).imp fun _ => And.imp_right Links.goes,
    fun _ off => opJal_links 2 1#5 off s,
    (opJalr_zero_links 2 0#5 rs1 s).imp fun _ => And.imp_right Links.goes,
    opJalr_zero_links 2 1#5 rs1 s⟩

/-- Settles O39: each condition is the comparison of the operands' values; `C.BEQZ` and `C.BNEZ` compare with `x0`. -/
theorem branches : Obligations.Branches := by
  unfold Obligations.Branches
  refine ⟨?_, ?_⟩
  · rintro s rs1 rs2 off a b rfl rfl
    exact ⟨opBranch_goes BitVec.toNat_inj.symm,
      opBranch_goes BitVec.toNat_inj.symm.not,
      opBranch_goes Iff.rfl,
      opBranch_goes Iff.rfl,
      opBranch_goes Iff.rfl,
      opBranch_goes Iff.rfl⟩
  · rintro s rc off a rfl
    have hzero : s.x s.xw (creg rc) = s.x s.xw 0#5 ↔ (s.x s.xw (creg rc)).toNat = 0 := by
      rw [s.x_zero, ← BitVec.toNat_inj, BitVec.toNat_zero]
    exact ⟨opBranch_goes hzero, opBranch_goes hzero.not⟩

end Sys2Proof.Machine
end

section
/-! SUPPORT. Loads and stores that trap: on the fault of a translation, and on a part that is in neither RAM nor one device
region (20_memory R153, R160, R161, R163, R165). -/

namespace Sys2Proof.Machine

/-! ### Faults of the translations -/

/-- When the low part does not translate, its fault is that of the access, and the state is as it was. -/
theorem translateParts_of_fault {acc : Acc} {va tv : Word} {n : Nat} {s t : State} {e : Exc}
    (h : translate acc va s = .exc e tv t) : translateParts acc va n s = .exc e va s := by
  obtain ⟨rfl, rfl, -⟩ := translate_exc h
  unfold translateParts
  rw [h]

/-- When the high part does not translate, it is reported unless the low one is not accessible (R163; log 10). -/
theorem translateParts_of_second_fault {acc : Acc} {va tv : Word} {n k pa : Nat} {s u w : State} {e : Exc}
    (hk : k = 4096 - pageOff va) (h : k < n) (ht : translate acc va s = .ok pa u)
    (ht' : translate acc (s.vaPlus va k) u = .exc e tv w) :
    (Accessible s.hw pa k → translateParts acc va n s = .exc e (s.vaPlus va k) u)
    ∧ (¬ Accessible s.hw pa k → translateParts acc va n s = .exc acc.accessFault va u) := by
  obtain ⟨rfl, rfl, -⟩ := translate_exc ht'
  rw [translateParts_two hk h, ht]
  dsimp only
  rw [ht', accessible_iff]
  exact ⟨fun ha => if_neg ha, fun ha => if_pos (not_not.1 ha)⟩

/-! ### Parts that are not accessible -/

theorem readParts_of_bad {va : Word} {pa n : Nat} {ps : List Part} {s : State} (h : ¬ Accessible s.hw pa n) :
    readParts (⟨va, pa, n⟩ :: ps) s = .exc .loadAccessFault va s := by
  rw [readParts, not_not.1 (mt accessible_iff.2 h)]

theorem badPart_cons {p : Params} {va : Word} {pa n : Nat} {ps : List Part} :
    (Accessible p pa n → badPart p (⟨va, pa, n⟩ :: ps) = badPart p ps)
    ∧ (¬ Accessible p pa n → badPart p (⟨va, pa, n⟩ :: ps) = some ⟨va, pa, n⟩) := by
  rw [accessible_iff]
  exact ⟨fun h => List.find?_cons_of_neg (by simpa using h), fun h => List.find?_cons_of_pos (by simpa using h)⟩

theorem PartRead.hw {s t : State} {pa n v : Nat} (h : PartRead s pa n v t) : t.hw = s.hw := by
  rcases h with ⟨-, -, rfl⟩ | ⟨-, r, -, -, rfl⟩ <;> rfl

/-! ### The instructions -/

/-- A load whose read raises takes that trap. -/
theorem exec_load_raises {i : Instr} {f : MemForm} {s t : State} {e : Exc} {tv : Word} (hf : loadForm i = some f)
    (hw : widthOk s f.only64) (hr : memRead (s.ea f.rs1 f.imm) f.n s = .exc e tv t) :
    exec i s = .next (t.takeTrap false e.code tv) := by
  rw [exec_load hf hw, opLoad, hr]
  rfl

/-- A store whose write raises takes that trap. -/
theorem exec_store_raises {i : Instr} {f : MemForm} {s t : State} {e : Exc} {tv : Word} (hf : storeForm i = some f)
    (hw : widthOk s f.only64)
    (hr : memWrite (s.ea f.rs1 f.imm) f.n (s.x (8 * f.n) f.reg).toNat s = .exc e tv t) :
    exec i s = .next (t.takeTrap false e.code tv) := by
  rw [exec_store hf hw, opStore, hr]
  rfl

section

variable {i : Instr} {f : MemForm} {s t : State} (hw : widthOk s f.only64)
include hw

section

variable {acc : Acc} (hf : (acc = .read ∧ loadForm i = some f) ∨ (acc = .write ∧ storeForm i = some f))
include hf

/-- A load or store whose parts do not translate takes the trap of that. -/
theorem exec_raises_of_translateParts {e : Exc} {tv : Word}
    (h : translateParts acc (s.ea f.rs1 f.imm) f.n s = .exc e tv t) : exec i s = .next (t.takeTrap false e.code tv) := by
  rcases hf with ⟨rfl, hf⟩ | ⟨rfl, hf⟩
  · exact exec_load_raises hf hw (by rw [memRead, h])
  · exact exec_store_raises hf hw (by rw [memWrite, h])

/-- A load or store whose low part is not accessible raises the access fault, with the address of that part. -/
theorem exec_raises_of_first_bad {va : Word} {pa n : Nat} {ps : List Part}
    (h : translateParts acc (s.ea f.rs1 f.imm) f.n s = .ok (⟨va, pa, n⟩ :: ps) t) (hp : ¬ Accessible t.hw pa n) :
    exec i s = .next (t.takeTrap false (accessFaultCode acc) va) := by
  rcases hf with ⟨rfl, hf⟩ | ⟨rfl, hf⟩
  · exact exec_load_raises (e := .loadAccessFault) hf hw (by rw [memRead, h]; exact readParts_of_bad hp)
  · exact exec_store_raises (e := .storeAccessFault) hf hw (by rw [memWrite, h]; simp only [badPart_cons.2 hp])

end

variable {va va' : Word} {pa pa' n n' : Nat}

/-- A load whose high part is not accessible raises after the low one is read (R160). -/
theorem exec_load_of_second_bad (hf : loadForm i = some f) {a : Nat} {w : State}
    (h : translateParts .read (s.ea f.rs1 f.imm) f.n s = .ok [⟨va, pa, n⟩, ⟨va', pa', n'⟩] t)
    (hlow : PartRead t pa n a w) (hhigh : ¬ Accessible t.hw pa' n') : exec i s = .next (w.takeTrap false 5 va') := by
  have hread : readParts [⟨va, pa, n⟩, ⟨va', pa', n'⟩] t = .exc .loadAccessFault va' w :=
    (readParts_cons (p := ⟨va, pa, n⟩) hlow).2 _ _ _ (readParts_of_bad (by rw [hlow.hw]; exact hhigh))
  exact exec_load_raises (e := .loadAccessFault) hf hw (by rw [memRead, h]; exact hread)

/-- A store whose high part is not accessible raises before anything is written (R161, R165). -/
theorem exec_store_of_second_bad (hf : storeForm i = some f)
    (h : translateParts .write (s.ea f.rs1 f.imm) f.n s = .ok [⟨va, pa, n⟩, ⟨va', pa', n'⟩] t)
    (hlow : Accessible t.hw pa n) (hhigh : ¬ Accessible t.hw pa' n') :
    exec i s = .next (t.takeTrap false 7 va') := by
  have hbad : badPart t.hw [⟨va, pa, n⟩, ⟨va', pa', n'⟩] = some ⟨va', pa', n'⟩ :=
    (badPart_cons.1 hlow).trans (badPart_cons.2 hhigh)
  exact exec_store_raises (e := .storeAccessFault) hf hw (by rw [memWrite, h]; simp only [hbad])

end

/-- Settles O47: the translations raise first, but for a low part that is not accessible (log 10); then the parts in address
order, which a store checks before it writes. -/
theorem dataFaults : Obligations.DataFaults := by
  unfold Obligations.DataFaults
  rintro i f acc s u _ k hw rfl hk hf
  refine ⟨fun e tv ht => exec_raises_of_translateParts hw hf (translateParts_of_fault ht),
    fun pa ht => ⟨fun hone hbad => ?one, fun e tv w hlt ht' => ?secondFault, fun pa' w hlt ht' => ?two⟩⟩
  case one =>
    have hpage : pageOff (s.ea f.rs1 f.imm) + f.n ≤ 4096 := by rw [pageOff]; omega
    have hparts : translateParts acc (s.ea f.rs1 f.imm) f.n s = .ok [⟨s.ea f.rs1 f.imm, pa, f.n⟩] u := by
      rw [translateParts_one hpage, ht]
    exact exec_raises_of_first_bad hw hf hparts (by rw [translate_hw ht, ← hone]; exact hbad)
  all_goals have hk : k = 4096 - pageOff (s.ea f.rs1 f.imm) := by rw [pageOff]; omega
  case secondFault =>
    obtain ⟨high, low⟩ := translateParts_of_second_fault hk hlt ht ht'
    refine ⟨fun ha => exec_raises_of_translateParts hw hf (high ha), fun ha => ?_⟩
    rw [← (acc_codes acc).2]
    exact exec_raises_of_translateParts hw hf (low ha)
  case two =>
    have hparts : translateParts acc (s.ea f.rs1 f.imm) f.n s =
        .ok [⟨s.ea f.rs1 f.imm, pa, k⟩, ⟨s.vaPlus (s.ea f.rs1 f.imm) k, pa', f.n - k⟩] w := by
      rw [translateParts_two hk hlt, ht]
      dsimp only
      rw [ht']
    rw [← (translate_hw ht').trans (translate_hw ht)]
    refine ⟨exec_raises_of_first_bad hw hf hparts, fun hbad ha => ⟨?_, ?_⟩⟩
    · rintro rfl
      exact exec_store_of_second_bad hw (by simpa using hf) hparts ha hbad
    · rintro rfl a w1 hread
      exact exec_load_of_second_bad hw (by simpa using hf) hparts hread hbad

end Sys2Proof.Machine
end

section
/-! SUPPORT. Loads and stores of RAM in one page, and the fences (43_load_store R340 to R357). -/

namespace Sys2Proof.Machine

/-- A part in RAM is a store of its bytes. -/
theorem PartWritten.of_inRam {s t : State} {pa n v : Nat} (h : PartWritten s pa n v t)
    (hram : Params.inRam s.hw pa n = true) : BytesStored s.mem t.mem pa n v ∧ t = { s with mem := t.mem } := by
  rcases h with ⟨-, hbytes, ht⟩ | ⟨hram', -⟩
  · exact ⟨hbytes, ht⟩
  · rw [hram] at hram'; cases hram'

/-- Settles O44: the access is one part, in RAM, and the load retires with its value extended. -/
theorem loadsFromRam : Obligations.LoadsFromRam := by
  unfold Obligations.LoadsFromRam
  intro i f s u pa hf hw ht hpage hram
  rw [← translate_hw ht] at hram
  have hpart : PartRead u pa f.n (bytesAt u.mem pa f.n) u := .inl ⟨hram, rfl, rfl⟩
  exact ⟨ea_toNat s f.rs1 f.imm (by decide), exec_load_retires hf hw hpart.lt (memRead_one hpage ht hpart)⟩

/-- Settles O45: the access is one part, in RAM, and the store writes the low bytes of the register there. -/
theorem storesToRam : Obligations.StoresToRam := by
  unfold Obligations.StoresToRam
  intro i f s u pa hf hw ht hpage hram
  rw [← translate_hw ht] at hram
  obtain ⟨t, hwrite, hpart⟩ := memWrite_one (s.x (8 * f.n) f.reg).toNat hpage ht (.inl hram)
  have hlow : (s.x (8 * f.n) f.reg).toNat % 256 ^ f.n = (s.x 64 f.reg).toNat % 256 ^ f.n := by
    rw [x_toNat_eq_mod s f.reg (memForm_bits_le (.inr hf) hw).2, Nat.mod_mod]
  obtain ⟨hbytes, hframe⟩ := (hpart.congr hlow).of_inRam hram
  refine ⟨ea_toNat s f.rs1 f.imm (by decide), _, exec_store_retires hf hw hwrite, hbytes, nextPc_toNat s f.len, ?_⟩
  rw [hframe]
  rfl

/-- Settles O40: each retires in the state it began in. -/
theorem fencesAndNop : Obligations.FencesAndNop := by
  unfold Obligations.FencesAndNop
  intro s
  exact ⟨fun _ _ _ _ _ => ⟨_, rfl, setPc_nextPc_goes 4 rfl⟩, fun _ _ _ => ⟨_, rfl, setPc_nextPc_goes 4 rfl⟩,
    fun _ => ⟨_, rfl, setPc_nextPc_goes 2 rfl⟩⟩

end Sys2Proof.Machine
end

section
/-! SUPPORT. The values of the multiplications and divisions, at any width (44_muldiv R371 to R384), as arithmetic on the
operands. -/

namespace Sys2Proof.Machine

variable {n : Nat} (a b : BitVec n)

/-! ### Multiplication -/

theorem mulLow_toNat : (mulLow n a b).toNat = a.toNat * b.toNat % 2 ^ n := BitVec.toNat_mul a b

/-- The high half of a product fits in `n` signed bits when the other factor is below `2 ^ n` in magnitude, as an operand
is with either reading. -/
theorem toInt_ofInt_mul_ediv (hn : 0 < n) {c : Int} (hc : |c| < 2 ^ n) :
    (BitVec.ofInt n (a.toInt * c / 2 ^ n)).toInt = a.toInt * c / 2 ^ n := by
  have hpos (k : Nat) : (0 : Int) < 2 ^ k := Int.pow_pos (by decide)
  have ha : |a.toInt| ≤ 2 ^ (n - 1) := abs_le.2 ⟨a.le_toInt, a.toInt_lt.le⟩
  have hprod : |a.toInt * c| < 2 ^ (n - 1) * 2 ^ n := by
    rw [abs_mul]
    exact mul_lt_mul' ha hc (abs_nonneg c) (hpos _)
  obtain ⟨hlo, hhi⟩ := abs_lt.1 hprod
  rw [← Int.neg_mul] at hlo
  exact BitVec.toInt_ofInt_eq_self hn (Int.le_ediv_of_mul_le (hpos n) hlo.le) (Int.ediv_lt_of_lt_mul (hpos n) hhi)

theorem mulHigh_toInt (hn : 0 < n) : (mulHigh n a b).toInt = a.toInt * b.toInt / 2 ^ n := by
  have hlo : -2 ^ n ≤ 2 * b.toInt := b.le_two_mul_toInt
  have hhi : 2 * b.toInt < 2 ^ n := b.two_mul_toInt_lt
  exact toInt_ofInt_mul_ediv a hn (abs_lt.2 (by omega))

theorem mulHighSU_toInt (hn : 0 < n) : (mulHighSU n a b).toInt = a.toInt * b.toNat / 2 ^ n :=
  toInt_ofInt_mul_ediv a hn (by rw [Nat.abs_cast]; exact_mod_cast b.isLt)

theorem mulHighU_toNat : (mulHighU n a b).toNat = a.toNat * b.toNat / 2 ^ n := by
  have hlt : a.toNat * b.toNat / 2 ^ n < 2 ^ n := Nat.div_lt_of_lt_mul (Nat.mul_lt_mul'' a.isLt b.isLt)
  rw [mulHighU, BitVec.toNat_ofNat, Nat.mod_eq_of_lt hlt]

/-! ### The operands of the special cases (R384) -/

theorem eq_zero_iff_toInt : b = 0#n ↔ b.toInt = 0 := by rw [← BitVec.toInt_inj, BitVec.toInt_zero]

theorem eq_zero_iff_toNat : b = 0#n ↔ b.toNat = 0 := by rw [← BitVec.toNat_inj, BitVec.toNat_zero]

/-- The only quotient that does not fit is that of the least value by -1. -/
theorem overflow_iff_toInt (hn : 0 < n) :
    a = BitVec.intMin n ∧ b = BitVec.allOnes n ↔ a.toInt = -2 ^ (n - 1) ∧ b.toInt = -1 := by
  rw [← BitVec.toInt_inj, ← BitVec.toInt_inj, BitVec.toInt_intMin_of_pos hn, BitVec.toInt_allOnes, if_pos hn]

/-! ### Division and remainder -/

theorem divS_toInt (hn : 0 < n) :
    (divS n a b).toInt = if b.toInt = 0 then -1
      else if a.toInt = -2 ^ (n - 1) ∧ b.toInt = -1 then -2 ^ (n - 1) else a.toInt.tdiv b.toInt := by
  simp only [divS, ← eq_zero_iff_toInt, ← overflow_iff_toInt a b hn]
  split_ifs with hzero hover
  · rw [BitVec.toInt_allOnes, if_pos hn]
  · rw [hover.1, BitVec.toInt_intMin_of_pos hn]
  · rw [← BitVec.neg_one_eq_allOnes] at hover
    rw [← BitVec.toInt_sdiv_of_ne_or_ne a b (not_and_or.1 hover), BitVec.ofInt_toInt]

theorem divU_toNat : (divU n a b).toNat = if b.toNat = 0 then 2 ^ n - 1 else a.toNat / b.toNat := by
  simp only [divU, ← eq_zero_iff_toNat]
  split_ifs with hzero
  · exact BitVec.toNat_allOnes
  · rw [BitVec.toNat_ofNat, Nat.mod_eq_of_lt ((Nat.div_le_self _ _).trans_lt a.isLt)]

theorem remS_toInt (hn : 0 < n) :
    (remS n a b).toInt = if b.toInt = 0 then a.toInt
      else if a.toInt = -2 ^ (n - 1) ∧ b.toInt = -1 then 0 else a.toInt - b.toInt * a.toInt.tdiv b.toInt := by
  simp only [remS, ← eq_zero_iff_toInt, ← overflow_iff_toInt a b hn]
  split_ifs with hzero hover
  · rfl
  · exact BitVec.toInt_zero
  · rw [← Int.tmod_def, ← BitVec.toInt_srem, BitVec.ofInt_toInt]

theorem remU_toNat : (remU n a b).toNat = if b.toNat = 0 then a.toNat else a.toNat % b.toNat := by
  simp only [remU, ← eq_zero_iff_toNat]
  split_ifs with hzero
  · rfl
  · rw [BitVec.toNat_ofNat, Nat.mod_eq_of_lt ((Nat.mod_le _ _).trans_lt a.isLt)]

end Sys2Proof.Machine
end

section
/-! SUPPORT. The multiply and divide instructions (44_muldiv): none traps, each retires with the value of its operation. -/

namespace Sys2Proof.Machine

/-- Settles O36: each retires with its half of the product of the two registers, `MULW` with that of the low words. -/
theorem multiplication : Obligations.Multiplication := by
  unfold Obligations.Multiplication
  refine ⟨?_, ?_⟩
  · rintro s rd rs1 rs2 a b rfl rfl
    have hxw : 0 < s.xw := by have := s.thirtyTwo_le_xw; omega
    exact ⟨exec_retires_with rfl (mulLow_toNat _ _),
      exec_retires_with rfl (mulHigh_toInt _ _ hxw),
      exec_retires_with rfl (mulHighSU_toInt _ _ hxw),
      exec_retires_with rfl (mulHighU_toNat _ _)⟩
  · intro s rd rs1 rs2 a b hx ha hb
    obtain rfl := State.eq_x_word ha
    obtain rfl := State.eq_x_word hb
    exact exec_retires_with (need64_x64 hx _ _) (mulLow_toNat _ _)

/-- Settles O37: each retires with its operation's value, the fixed ones included, on the two registers or their low
words. -/
theorem division : Obligations.Division := by
  unfold Obligations.Division
  refine ⟨?_, ?_⟩
  · rintro s rd rs1 rs2 a b rfl rfl
    have hxw : 0 < s.xw := by have := s.thirtyTwo_le_xw; omega
    exact ⟨exec_retires_with rfl (divS_toInt _ _ hxw),
      exec_retires_with rfl (divU_toNat _ _),
      exec_retires_with rfl (remS_toInt _ _ hxw),
      exec_retires_with rfl (remU_toNat _ _)⟩
  · intro s rd rs1 rs2 a b hx ha hb
    obtain rfl := State.eq_x_word ha
    obtain rfl := State.eq_x_word hb
    exact ⟨exec_retires_with (need64_x64 hx _ _) (divS_toInt _ _ (by decide)),
      exec_retires_with (need64_x64 hx _ _) (divU_toNat _ _),
      exec_retires_with (need64_x64 hx _ _) (remS_toInt _ _ (by decide)),
      exec_retires_with (need64_x64 hx _ _) (remU_toNat _ _)⟩

end Sys2Proof.Machine
end

section
/-! SUPPORT. The atomics: their common checks, and the operations they run (45_atomics R390 to R397). -/

namespace Sys2Proof.Machine

/-! ### The checks (R392) -/

theorem State.xa_toNat (s : State) (rs1 : Reg) : (s.xa rs1).toNat = (s.x s.xw rs1).toNat :=
  BitVec.toNat_setWidth_of_le (by have := s.xw_eq; omega)

section

variable {acc : Acc} {n pa : Nat} {rs1 : Reg} {s u : State}

theorem atomicAddr_of_misaligned (ha : (s.x s.xw rs1).toNat % n ≠ 0) :
    atomicAddr acc (s.xa rs1) n s = .exc acc.misaligned (s.xa rs1) s :=
  if_pos (by rwa [State.xa_toNat])

theorem xa_aligned (ha : (s.x s.xw rs1).toNat % n = 0) : ¬ (s.xa rs1).toNat % n ≠ 0 := by
  rw [State.xa_toNat]
  exact not_not.2 ha

theorem atomicAddr_of_fault {e : Exc} {tv : Word} (ha : (s.x s.xw rs1).toNat % n = 0)
    (ht : translate acc (s.xa rs1) s = .exc e tv u) : atomicAddr acc (s.xa rs1) n s = .exc e (s.xa rs1) s := by
  obtain ⟨rfl, rfl, -⟩ := translate_exc ht
  rw [atomicAddr, if_neg (xa_aligned ha), ht]

theorem atomicAddr_of_inRam (ha : (s.x s.xw rs1).toNat % n = 0) (ht : translate acc (s.xa rs1) s = .ok pa u)
    (hram : Params.inRam s.hw pa n = true) : atomicAddr acc (s.xa rs1) n s = .ok pa u := by
  rw [atomicAddr, if_neg (xa_aligned ha), ht]
  exact if_pos (translate_hw ht ▸ hram)

theorem atomicAddr_of_not_inRam (ha : (s.x s.xw rs1).toNat % n = 0) (ht : translate acc (s.xa rs1) s = .ok pa u)
    (hram : Params.inRam s.hw pa n = false) : atomicAddr acc (s.xa rs1) n s = .exc acc.accessFault (s.xa rs1) u := by
  rw [atomicAddr, if_neg (xa_aligned ha), ht]
  exact if_neg (by rw [translate_hw ht, hram]; decide)

end

/-! ### The operations of the AMOs (R398 to R415) -/

/-- The model's function for a kind of AMO. -/
def AmoOp.meaning : AmoOp → (w : Nat) → BitVec w → BitVec w → BitVec w
  | .swap => amoSwap
  | .add  => aluAdd
  | .xor  => aluXor
  | .and  => aluAnd
  | .or   => aluOr
  | .min  => amoMin
  | .max  => amoMax
  | .minu => amoMinu
  | .maxu => amoMaxu

variable {w : Nat} (a b : BitVec w)

theorem amoMin_eq_ofInt : amoMin w a b = BitVec.ofInt w (min a.toInt b.toInt) := by
  unfold amoMin
  split
  · rw [min_eq_left (by omega), BitVec.ofInt_toInt]
  · rw [min_eq_right (by omega), BitVec.ofInt_toInt]

theorem amoMax_eq_ofInt : amoMax w a b = BitVec.ofInt w (max a.toInt b.toInt) := by
  unfold amoMax
  split
  · rw [max_eq_left (by omega), BitVec.ofInt_toInt]
  · rw [max_eq_right (by omega), BitVec.ofInt_toInt]

theorem amoMinu_eq_ofNat : amoMinu w a b = BitVec.ofNat w (min a.toNat b.toNat) := by
  unfold amoMinu
  split
  · rw [min_eq_left (by omega), BitVec.ofNat_toNat, BitVec.setWidth_eq]
  · rw [min_eq_right (by omega), BitVec.ofNat_toNat, BitVec.setWidth_eq]

theorem amoMaxu_eq_ofNat : amoMaxu w a b = BitVec.ofNat w (max a.toNat b.toNat) := by
  unfold amoMaxu
  split
  · rw [max_eq_left (by omega), BitVec.ofNat_toNat, BitVec.setWidth_eq]
  · rw [max_eq_right (by omega), BitVec.ofNat_toNat, BitVec.setWidth_eq]

/-- The model's function is the one the statement writes. -/
theorem AmoOp.meaning_eq_value (o : AmoOp) : o.meaning w a b = o.value a b := by
  cases o with
  | swap | xor | and | or => rfl
  | add => exact BitVec.add_def a b
  | min => exact amoMin_eq_ofInt a b
  | max => exact amoMax_eq_ofInt a b
  | minu => exact amoMinu_eq_ofNat a b
  | maxu => exact amoMaxu_eq_ofNat a b

/-! ### The forms -/

/-- An atomic of 8 bytes exists at XLEN = 64 only, so its value is never wider than a register. -/
theorem atomic_bits_le {n : Nat} {s : State} (hn : n = 4 ∨ n = 8 ∧ s.xlen = .x64) : 8 * n ≤ s.xw ∧ n ≤ 8 := by
  rcases hn with rfl | ⟨rfl, hx⟩
  · exact ⟨s.thirtyTwo_le_xw, by decide⟩
  · exact ⟨(State.xw_x64 hx).ge, le_rfl⟩

section

variable {i : Instr} {n : Nat} {rd rs1 rs2 : Reg} {aq rl : Bool} {s : State}

theorem exec_lr (hi : (i = .lrW rd rs1 aq rl ∧ n = 4) ∨ (i = .lrD rd rs1 aq rl ∧ n = 8 ∧ s.xlen = .x64)) :
    exec i s = opLr n rd rs1 s := by
  rcases hi with ⟨rfl, rfl⟩ | ⟨rfl, rfl, hx⟩
  · rfl
  · exact need64_x64 hx _ _

theorem exec_sc (hi : (i = .scW rd rs1 rs2 aq rl ∧ n = 4) ∨ (i = .scD rd rs1 rs2 aq rl ∧ n = 8 ∧ s.xlen = .x64)) :
    exec i s = opSc n rd rs1 rs2 s := by
  rcases hi with ⟨rfl, rfl⟩ | ⟨rfl, rfl, hx⟩
  · rfl
  · exact need64_x64 hx _ _

/-- An AMO has 4 bytes or 8, and runs the one AMO operation, of its form's operands. -/
theorem exec_amo {f : AmoForm} (hf : amoForm i = some f) (hx : f.n = 8 → s.xlen = .x64) :
    (f.n = 4 ∨ f.n = 8) ∧ exec i s = opAmo f.n f.op.meaning f.rd f.rs1 f.rs2 s := by
  cases i <;> simp only [amoForm, Option.some.injEq, reduceCtorEq] at hf <;> subst hf
  case amoswapW | amoaddW | amoxorW | amoandW | amoorW | amominW | amomaxW | amominuW | amomaxuW =>
    exact ⟨.inl rfl, rfl⟩
  case amoswapD | amoaddD | amoxorD | amoandD | amoorD | amominD | amomaxD | amominuD | amomaxuD =>
    exact ⟨.inr rfl, need64_x64 (hx rfl) _ _⟩

end

/-! ### What an `SC` stores and what it writes (R395, R396) -/

/-- The bytes stored are the low ones of the register. -/
theorem store_x_bytesStored {n : Nat} (m : Memory) (pa : Nat) (s : State) (rs2 : Reg) (hn : n ≤ 8) :
    BytesStored m (m.store pa n (s.x (8 * n) rs2).toNat) pa n (s.x 64 rs2).toNat := by
  intro a
  rw [store_bytesStored n m pa _ a, x_toNat_eq_mod s rs2 hn]
  split
  case isTrue hin =>
    exact BitVec.eq_of_toNat_eq (by simpa using byte_eq_of_mod_eq (Nat.mod_mod _ _) (by omega : a - pa < n))
  case isFalse => rfl

/-- A register write sees only the sign-extended value. -/
theorem setX_congr {m n : Nat} {v : BitVec m} {v' : BitVec n} (h : v.signExtend 64 = v'.signExtend 64) (s : State)
    (rd : Reg) : s.setX rd v = s.setX rd v' := by
  rw [State.setX, State.setX, h]

/-- The result of an `SC` is the same number at both XLENs. -/
theorem zero_one_signExtend (s : State) :
    (0#s.xw).signExtend 64 = (0#64).signExtend 64 ∧ (1#s.xw).signExtend 64 = (1#64).signExtend 64 := by
  rcases s.xw_eq with h | h <;> rw [h] <;> decide

/-! ### Traps -/

/-- An atomic whose checks raise takes that trap. -/
theorem exec_atomic_raises {i : Instr} {acc : Acc} {n : Nat} {rs1 : Reg} {s t : State} {e : Exc} {tv : Word}
    (hf : atomicForm i = some (acc, n, rs1)) (hx : n = 8 → s.xlen = .x64)
    (h : atomicAddr acc (s.xa rs1) n s = .exc e tv t) : exec i s = .next (t.takeTrap false e.code tv) := by
  unfold atomicForm at hf
  split at hf
  case h_5 =>
    obtain ⟨f, hamo, he⟩ := Option.map_eq_some_iff.1 hf
    cases he
    rw [(exec_amo hamo hx).2, opAmo, h]
    rfl
  all_goals cases hf
  · rw [exec_lr (.inl ⟨rfl, rfl⟩), opLr, h]; rfl
  · rw [exec_lr (.inr ⟨rfl, rfl, hx rfl⟩), opLr, h]; rfl
  · rw [exec_sc (.inl ⟨rfl, rfl⟩), opSc, h]; rfl
  · rw [exec_sc (.inr ⟨rfl, rfl, hx rfl⟩), opSc, h]; rfl

theorem misaligned_code (acc : Acc) : acc.misaligned.code = if acc = .read then 4 else 6 := by
  cases acc <;> rfl

/-- No atomic is an instruction fetch, so its access fault is that of a load or a store. -/
theorem accessFault_code_of_atomicForm {i : Instr} {acc : Acc} {n : Nat} {rs1 : Reg}
    (hf : atomicForm i = some (acc, n, rs1)) : acc.accessFault.code = if acc = .read then 5 else 7 := by
  unfold atomicForm at hf
  split at hf
  case h_5 => obtain ⟨f, -, he⟩ := Option.map_eq_some_iff.1 hf; cases he; rfl
  all_goals cases hf; rfl

end Sys2Proof.Machine
end

section
/-! SUPPORT. The atomic memory instructions (45_atomics). -/

namespace Sys2Proof.Machine

/-- Settles O49: the checks pass, and the load retires with its value extended and its bytes reserved. -/
theorem loadReserved : Obligations.LoadReserved := by
  unfold Obligations.LoadReserved
  intro i n rd rs1 aq rl s u pa hi ha ht hram
  have hwidth := (atomic_bits_le (hi.imp And.right And.right)).1
  have hvalue := (extendTo_extended true (load_lt n u.mem pa) hwidth).1 rfl
  obtain ⟨t, hretire, hret⟩ :=
    retire_setX s { u with reservation := some ⟨pa, n⟩ } 4 rd (extendTo s.xw n true (u.mem.load pa n))
  refine ⟨t, _, ?_, hret, by rw [hvalue, load_eq_bytesAt]⟩
  rw [exec_lr hi, opLr, atomicAddr_of_inRam ha ht hram]
  exact hretire

/-- Settles O50: the checks pass, and the translation changes neither the reservation nor the count of free values, on which
the store depends. -/
theorem storeConditional : Obligations.StoreConditional := by
  unfold Obligations.StoreConditional
  intro i n rd rs1 rs2 aq rl s u pa hi ha ht hram
  have hdraws : u.draws = s.draws := by rw [translate_frame ht]
  have hres : u.reservation = s.reservation := by rw [translate_frame ht]
  have hbytes := store_x_bytesStored u.mem pa s rs2 (atomic_bits_le (hi.imp And.right And.right)).2
  rw [exec_sc hi, opSc, atomicAddr_of_inRam ha ht hram]
  dsimp only
  rw [hres, hdraws, setX_congr (zero_one_signExtend s).1, setX_congr (zero_one_signExtend s).2]
  split
  case isTrue hok =>
    obtain ⟨hheld, hspurious⟩ := hok
    obtain ⟨t, hretire, hret⟩ := retire_setX s
      { u with mem := u.mem.store pa n (s.x (8 * n) rs2).toNat, reservation := none, draws := s.draws + 1 } 4 rd (0#64)
    exact ⟨t, hretire, .inl ⟨hheld, hspurious, _, hbytes, hret⟩⟩
  case isFalse hfail =>
    obtain ⟨t, hretire, hret⟩ := retire_setX s { u with reservation := none, draws := s.draws + 1 } 4 rd (1#64)
    exact ⟨t, hretire, .inr ⟨(not_and_or.1 hfail).imp_right Bool.eq_true_of_not_eq_false, hret⟩⟩

/-- Settles O51: the checks pass, and the AMO retires with the old value extended and the operation of it stored. -/
theorem atomicOperations : Obligations.AtomicOperations := by
  unfold Obligations.AtomicOperations
  intro i f s u pa old b hf hx ha ht hram hold hb
  obtain ⟨hn, hexec⟩ := exec_amo hf hx
  obtain ⟨hbits, hn8⟩ := atomic_bits_le (hn.imp_right fun h => ⟨h, hx h⟩)
  obtain rfl : b = s.x (8 * f.n) f.rs2 := BitVec.eq_of_toNat_eq (hb.trans (x_toNat_eq_mod s f.rs2 hn8).symm)
  have hload : BitVec.ofNat (8 * f.n) (u.mem.load pa f.n) = old := by
    rw [load_eq_bytesAt, ← hold, BitVec.ofNat_toNat, BitVec.setWidth_eq]
  rw [hexec, opAmo, atomicAddr_of_inRam ha ht hram]
  dsimp only
  rw [hload, AmoOp.meaning_eq_value]
  obtain ⟨t, hretire, hret⟩ := retire_setX s
    { u with mem := u.mem.store pa f.n (f.op.value old (s.x (8 * f.n) f.rs2)).toNat } 4 f.rd (old.signExtend s.xw)
  exact ⟨t, _, _, hretire, BitVec.toInt_signExtend_of_le hbits, store_bytesStored _ _ _ _, hret⟩

/-- Settles O52: the checks raise in the order of R392, each with the address of the atomic. -/
theorem atomicFaults : Obligations.AtomicFaults := by
  unfold Obligations.AtomicFaults
  intro i acc n rs1 s hf hx
  rw [← misaligned_code, ← accessFault_code_of_atomicForm hf]
  exact ⟨fun ha => exec_atomic_raises hf hx (atomicAddr_of_misaligned ha),
    fun ha => ⟨fun e tv u ht => exec_atomic_raises hf hx (atomicAddr_of_fault ha ht),
      fun pa u ht hram => exec_atomic_raises hf hx (atomicAddr_of_not_inRam ha ht hram)⟩⟩

end Sys2Proof.Machine
end

section
/-! SUPPORT. The status word after a return from a trap (47_system R434, R435): its fields, and that validation leaves it as
it is where the old one was legal. -/

namespace Sys2Proof.Machine

/-! ### A legal word is stored as it is -/

/-- Equal two-bit fields have equal bits. -/
theorem getLsbD_eq_of_extract2_eq {v w : Word} {lo b : Nat} (h : v.extractLsb' lo 2 = w.extractLsb' lo 2)
    (hb : b = lo ∨ b = lo + 1) : v.getLsbD b = w.getLsbD b := by
  have hbit : ∀ i, i < 2 → v.getLsbD (lo + i) = w.getLsbD (lo + i) := fun i hi => by
    simpa [hi] using congrArg (fun x => BitVec.getLsbD x i) h
  rcases hb with rfl | rfl
  · exact hbit 0 (by decide)
  · exact hbit 1 (by decide)

/-- A word is its fields that validation concerns and its other bits (15_csr R71). -/
theorem status_eq_of_fields {v w : Word} (hvs : stVs v = stVs w) (hmpp : stMpp v = stMpp w) (hfs : stFs v = stFs w)
    (hxs : stXs v = stXs w) (huxl : stUxl v = stUxl w) (hsxl : stSxl v = stSxl w)
    (hother : ∀ b, b ∉ [9, 10, 11, 12, 13, 14, 15, 16, 32, 33, 34, 35] → v.getLsbD b = w.getLsbD b) : v = w := by
  apply BitVec.eq_of_getLsbD_eq
  intro b _
  by_cases hb : b ∈ [9, 10, 11, 12, 13, 14, 15, 16, 32, 33, 34, 35]
  · simp only [List.mem_cons, List.not_mem_nil, or_false] at hb
    obtain hb | hb | hb | hb | hb | hb : (b = 9 ∨ b = 10) ∨ (b = 11 ∨ b = 12) ∨ (b = 13 ∨ b = 14) ∨ (b = 15 ∨ b = 16)
      ∨ (b = 32 ∨ b = 33) ∨ (b = 34 ∨ b = 35) := by omega
    · exact getLsbD_eq_of_extract2_eq hvs hb
    · exact getLsbD_eq_of_extract2_eq hmpp hb
    · exact getLsbD_eq_of_extract2_eq hfs hb
    · exact getLsbD_eq_of_extract2_eq hxs hb
    · exact getLsbD_eq_of_extract2_eq huxl hb
    · exact getLsbD_eq_of_extract2_eq hsxl hb
  · exact hother b hb

/-- The validation of UXL and SXL keeps a legal width. -/
theorem validWidth_eq {rv64 : Bool} {x : BitVec 2} (h : rv64 = true → x = 1#2 ∨ x = 2#2) :
    (if rv64 = false then x else if x = 1#2 then 1#2 else 2#2) = x := by
  cases rv64
  · rfl
  · rcases h rfl with rfl | rfl <;> rfl

/-- The validation of FS keeps a legal one. -/
theorem StatusInv.validFs_eq {s : State} (h : StatusInv s) :
    (if s.hw.fpuPresent = false then 0#2
      else if s.hw.preciseFs = false ∧ stFs s.csr.status ≠ 0#2 then 3#2 else stFs s.csr.status) = stFs s.csr.status := by
  cases hf : s.hw.fpuPresent
  · exact (h.fs hf).symm
  · rw [if_neg (by decide)]
    split
    next hd => exact ((h.dirty hf hd.1).resolve_left hd.2).symm
    next => rfl

/-- The bits of VS, FS, XS, UXL and SXL: what validation may change beside MPP (15_csr R71). -/
def validatedBits : List Nat := [9, 10, 13, 14, 15, 16, 32, 33, 34, 35]

/-- Validation does not change a word that has these fields of a legal one, and in MPP a mode. -/
theorem StatusInv.validate_eq {s : State} (h : StatusInv s) {w : Word} (hmpp : stMpp w ≠ 2#2)
    (hw : ∀ b ∈ validatedBits, w.getLsbD b = s.csr.status.getLsbD b) : validate s.hw w = w := by
  obtain ⟨vvs, vfs, vxs, vmpp, vuxl, vsxl, vother, -⟩ := validate_spec s.hw w
  have hvs : stVs w = stVs s.csr.status := extract2_eq (hw 9 (by decide)) (hw 10 (by decide))
  have hfs : stFs w = stFs s.csr.status := extract2_eq (hw 13 (by decide)) (hw 14 (by decide))
  have hxs : stXs w = stXs s.csr.status := extract2_eq (hw 15 (by decide)) (hw 16 (by decide))
  have huxl : stUxl w = stUxl s.csr.status := extract2_eq (hw 32 (by decide)) (hw 33 (by decide))
  have hsxl : stSxl w = stSxl s.csr.status := extract2_eq (hw 34 (by decide)) (hw 35 (by decide))
  have keepFs : stFs (validate s.hw w) = stFs w := by rw [vfs, hfs, h.validFs_eq]
  refine status_eq_of_fields ?_ ?_ keepFs ?_ ?_ ?_ vother
  · rw [vvs, hvs, h.vs]
  · rw [vmpp, if_neg hmpp]
  · rw [vxs, keepFs, hfs, hxs, h.xs]
  · rw [vuxl, huxl, validWidth_eq h.uxl]
  · rw [vsxl, hsxl, validWidth_eq h.sxl]

/-! ### After `MRET` (47_system R434) -/

theorem getLsbD_statusMret (w : Word) (p : Priv) (b : Nat) : (statusMret w p).getLsbD b =
    if b = 17 ∧ p ≠ .M then false
    else if 11 ≤ b ∧ b < 13 then false
    else if b = 7 then true
    else if b = 3 then stMpie w
    else w.getLsbD b := by
  have hv : (putBits (putBit (putBit w 3 (stMpie w)) 7 true) 11 0#2).getLsbD b =
      if 11 ≤ b ∧ b < 13 then false else if b = 7 then true else if b = 3 then stMpie w else w.getLsbD b := by
    rw [getLsbD_putBits _ _ _ _ (by decide), getLsbD_putBit _ _ _ _ (by decide), getLsbD_putBit _ _ _ _ (by decide),
      BitVec.getLsbD_zero]
  unfold statusMret
  by_cases hp : p = .M
  · simp [hp, hv]
  · simp [hp, getLsbD_putBit, hv]

@[simp] theorem stMie_statusMret (w : Word) (p : Priv) : stMie (statusMret w p) = stMpie w :=
  (getLsbD_statusMret w p 3).trans (by simp)

@[simp] theorem stMpie_statusMret (w : Word) (p : Priv) : stMpie (statusMret w p) = true :=
  (getLsbD_statusMret w p 7).trans (by simp)

@[simp] theorem stMpp_statusMret (w : Word) (p : Priv) : stMpp (statusMret w p) = 0#2 :=
  extract2_eq (w' := 0#64) ((getLsbD_statusMret w p 11).trans (by simp)) ((getLsbD_statusMret w p 12).trans (by simp))

@[simp] theorem stMprv_statusMret (w : Word) (p : Priv) :
    stMprv (statusMret w p) = if p = .M then stMprv w else false :=
  (getLsbD_statusMret w p 17).trans (by by_cases hp : p = .M <;> simp [hp, stMprv])

/-- No other bit changes. -/
theorem getLsbD_statusMret_of_not_mem (w : Word) (p : Priv) {b : Nat} (hb : b ∉ [3, 7, 11, 12, 17]) :
    (statusMret w p).getLsbD b = w.getLsbD b := by
  simp only [List.mem_cons, List.not_mem_nil, or_false, not_or] at hb
  rw [getLsbD_statusMret, if_neg (by omega), if_neg (by omega), if_neg (by omega), if_neg (by omega)]

theorem StatusInv.validate_statusMret {s : State} (h : StatusInv s) (p : Priv) :
    validate s.hw (statusMret s.csr.status p) = statusMret s.csr.status p :=
  h.validate_eq (by rw [stMpp_statusMret]; decide) fun _ hb =>
    getLsbD_statusMret_of_not_mem _ _ ((by decide : ∀ b ∈ validatedBits, b ∉ [3, 7, 11, 12, 17]) _ hb)

/-! ### After `SRET` (47_system R435) -/

theorem getLsbD_statusSret (w : Word) (b : Nat) : (statusSret w).getLsbD b =
    if b = 17 then false
    else if b = 8 then false
    else if b = 5 then true
    else if b = 1 then stSpie w
    else w.getLsbD b := by
  simp only [statusSret, getLsbD_putBit, Nat.reduceLT]

@[simp] theorem stSie_statusSret (w : Word) : stSie (statusSret w) = stSpie w :=
  (getLsbD_statusSret w 1).trans (by simp)

@[simp] theorem stSpie_statusSret (w : Word) : stSpie (statusSret w) = true :=
  (getLsbD_statusSret w 5).trans (by simp)

@[simp] theorem stSpp_statusSret (w : Word) : stSpp (statusSret w) = false :=
  (getLsbD_statusSret w 8).trans (by simp)

@[simp] theorem stMprv_statusSret (w : Word) : stMprv (statusSret w) = false :=
  (getLsbD_statusSret w 17).trans (by simp)

/-- No other bit changes. -/
theorem getLsbD_statusSret_of_not_mem (w : Word) {b : Nat} (hb : b ∉ [1, 5, 8, 17]) :
    (statusSret w).getLsbD b = w.getLsbD b := by
  simp only [List.mem_cons, List.not_mem_nil, or_false, not_or] at hb
  rw [getLsbD_statusSret, if_neg (by omega), if_neg (by omega), if_neg (by omega), if_neg (by omega)]

@[simp] theorem stMpp_statusSret (w : Word) : stMpp (statusSret w) = stMpp w :=
  extract2_eq (getLsbD_statusSret_of_not_mem w (by decide)) (getLsbD_statusSret_of_not_mem w (by decide))

/-- Of what a flush goes by only MPRV can change, and it does if it was set. -/
theorem sameFlushBits_statusSret (w : Word) : SameFlushBits (statusSret w) w ↔ stMprv w = false := by
  have hsum : stSum (statusSret w) = stSum w := getLsbD_statusSret_of_not_mem w (by decide)
  have hmxr : stMxr (statusSret w) = stMxr w := getLsbD_statusSret_of_not_mem w (by decide)
  unfold SameFlushBits
  rw [stMpp_statusSret, stMprv_statusSret, hsum, hmxr]
  exact ⟨fun ⟨_, h, _⟩ => h.symm, fun h => ⟨rfl, h.symm, rfl, rfl⟩⟩

theorem StatusInv.validate_statusSret {s : State} (h : StatusInv s) :
    validate s.hw (statusSret s.csr.status) = statusSret s.csr.status :=
  h.validate_eq (by rw [stMpp_statusSret]; exact h.mpp) fun _ hb =>
    getLsbD_statusSret_of_not_mem _ ((by decide : ∀ b ∈ validatedBits, b ∉ [1, 5, 8, 17]) _ hb)

end Sys2Proof.Machine
end

section
/-! SUPPORT. Traps and returns as operations on the state: the mode, the saved words, the pc and the TLB they leave
(60_exceptions R546, R547; 47_system R434, R435). -/

namespace Sys2Proof.Machine

/-! ### The mode and the words a trap saves -/

@[simp] theorem State.enterM_priv (s : State) (int : Bool) (c : Nat) (tv : Word) : (s.enterM int c tv).priv = .M := by
  simp [State.enterM]

@[simp] theorem State.enterS_priv (s : State) (int : Bool) (c : Nat) (tv : Word) : (s.enterS int c tv).priv = .S := by
  simp [State.enterS]

theorem takeTrap_eq_enterM {s : State} {int : Bool} {c : Nat} {tv : Word} (h : (s.takeTrap int c tv).priv = .M) :
    s.takeTrap int c tv = s.enterM int c tv := by
  unfold State.takeTrap at h ⊢
  split at h
  · simp at h
  · next hs => exact if_neg hs

theorem takeTrap_eq_enterS {s : State} {int : Bool} {c : Nat} {tv : Word} (h : (s.takeTrap int c tv).priv = .S) :
    s.takeTrap int c tv = s.enterS int c tv := by
  unfold State.takeTrap at h ⊢
  split at h
  · next hs => exact if_pos hs
  · simp at h

/-- What a trap to M saves, and that it leaves the words of S (60_exceptions R547). -/
theorem takeTrap_saved_m {s : State} {int : Bool} {c : Nat} {tv : Word} (h : (s.takeTrap int c tv).priv = .M) :
    (s.takeTrap int c tv).csr.m = s.csr.m.saved s.vpc int c tv ∧ (s.takeTrap int c tv).csr.s = s.csr.s := by
  rw [takeTrap_eq_enterM h, enterM_csr]
  exact ⟨rfl, rfl⟩

/-- What a trap to S saves, and that it leaves the words of M (60_exceptions R547). -/
theorem takeTrap_saved_s {s : State} {int : Bool} {c : Nat} {tv : Word} (h : (s.takeTrap int c tv).priv = .S) :
    (s.takeTrap int c tv).csr.s = s.csr.s.saved s.vpc int c tv ∧ (s.takeTrap int c tv).csr.m = s.csr.m := by
  rw [takeTrap_eq_enterS h, enterS_csr]
  exact ⟨rfl, rfl⟩

/-- A trap never lowers the mode: it goes to S only from S or U (60_exceptions R546). -/
theorem toNat_le_takeTrap_priv (s : State) (int : Bool) (c : Nat) (tv : Word) :
    s.priv.toNat ≤ (s.takeTrap int c tv).priv.toNat := by
  unfold State.takeTrap
  split
  case isTrue h =>
    have hM : s.priv ≠ .M := by simp only [trapToS, Bool.and_eq_true, bne_iff_ne] at h; exact h.1
    rw [State.enterS_priv]
    revert hM; cases s.priv <;> decide
  case isFalse =>
    rw [State.enterM_priv]
    cases s.priv <;> decide

/-! ### The pc and the TLB after a return -/

/-- The pc is loaded with the address cut to the XLEN of the mode the hart is then in (60_exceptions R548). -/
theorem jumpTo_pc_toNat (s : State) (v : Word) : (s.jumpTo v).pc.toNat = v.toNat % 2 ^ (s.jumpTo v).xw := by
  rw [State.xw_congr (s.jumpTo_hw v) (s.jumpTo_csr v) (s.jumpTo_priv v), State.jumpTo_pc, toNat_setWidth_xw,
    BitVec.toNat_setWidth]

/-- The TLB is emptied exactly if the mode changes, or if one of MPP, MPRV, SUM and MXR does, which `q` says
(20_memory R179). -/
theorem writeStatus_setPriv_tlb {s : State} {w : Word} (p : Priv) {q : Prop} [Decidable q]
    (hq : q ↔ ¬ SameFlushBits (validate s.hw w) s.csr.status) :
    ((s.writeStatus w).setPriv p).tlb = if p ≠ s.priv ∨ q then Tlb.empty else s.tlb := by
  obtain ⟨keep, flush⟩ := writeStatus_tlb s w
  rw [State.setPriv_tlb, State.writeStatus_priv]
  by_cases hp : p = s.priv
  · by_cases h : q
    · rw [if_pos hp, if_pos (.inr h), flush (hq.1 h)]
    · rw [if_pos hp, if_neg (not_or.2 ⟨not_not.2 hp, h⟩), keep (not_not.1 (mt hq.2 h))]
  · rw [if_neg hp, if_pos (.inl hp)]

/-- A code that names a mode is the code of that mode (10_state R28). -/
theorem privOfCode_code {c : BitVec 2} (h : c ≠ 2#2) : (privOfCode c).code = c := by
  revert c; decide

@[simp] theorem State.returnM_priv (s : State) : s.returnM.priv = privOfCode (stMpp s.csr.status) := by
  simp [State.returnM]

@[simp] theorem State.returnS_priv (s : State) : s.returnS.priv = privOfSpp (stSpp s.csr.status) := by
  simp [State.returnS]

theorem StatusInv.returnM_csr {s : State} (h : StatusInv s) :
    s.returnM.csr = { s.csr with status := statusMret s.csr.status s.returnM.priv } := by
  rw [Machine.returnM_csr, h.validate_statusMret, State.returnM_priv]

theorem StatusInv.returnS_csr {s : State} (h : StatusInv s) :
    s.returnS.csr = { s.csr with status := statusSret s.csr.status } := by
  rw [Machine.returnS_csr, h.validate_statusSret]

theorem StatusInv.returnS_tlb {s : State} (h : StatusInv s) :
    s.returnS.tlb = if s.returnS.priv ≠ s.priv ∨ stMprv s.csr.status = true then Tlb.empty else s.tlb := by
  have hflush : stMprv s.csr.status = true ↔ ¬ SameFlushBits (validate s.hw (statusSret s.csr.status)) s.csr.status := by
    rw [h.validate_statusSret, sameFlushBits_statusSret, Bool.not_eq_false]
  rw [State.returnS_priv]
  exact writeStatus_setPriv_tlb _ hflush

end Sys2Proof.Machine
end

section
/-! SUPPORT. The system instructions (47_system R430 to R437) and what a waiting hart does. -/

namespace Sys2Proof.Machine

/-- Settles O15: of the five ways an instruction ends, a retirement and a CSR access keep the mode and a trap does not
lower it. -/
theorem onlyReturnsLowerPrivilege : Obligations.OnlyReturnsLowerPrivilege := by
  unfold Obligations.OnlyReturnsLowerPrivilege
  intro i s t h hlt
  have r := exec_runs i s
  rw [h] at r
  cases r with
  | retires u rd v p hu _ => simp [hu.priv] at hlt
  | traps u c tv hu =>
    have hle := toNat_le_takeTrap_priv u false c tv
    rw [hu.priv] at hle
    omega
  | csr a v op rd old u hu =>
    have hpriv : u.priv = s.priv := by rw [(csrAccess_effect hu).frame]
    simp [hpriv] at hlt
  | mret hi _ => exact .inl hi
  | sret hi _ => exact .inr hi

/-! ### `MRET` and `SRET` -/

/-- The check of TSR and TVM lets M through, and S where the bit is clear. -/
theorem not_trapped_of_M_or_S {p : Priv} {b : Bool} (h : p = .M ∨ (p = .S ∧ b = false)) :
    ¬ (p = .U ∨ (p = .S ∧ b = true)) := by
  rcases h with rfl | ⟨rfl, rfl⟩ <;> simp

/-- Settles O27: the word the return writes is legal, so validation keeps it. -/
theorem mret : Obligations.Mret := by
  unfold Obligations.Mret
  refine ⟨fun x => decode_encode (i := .mret) rfl, fun s hp => if_pos hp, fun s hp hs => ⟨s.returnM, ?_, ?_⟩⟩
  · exact if_neg (not_not.2 hp)
  have hcsr := hs.returnM_csr
  refine ⟨?_, ?_, ?_, ?_, ?_, fun b hb => ?_, ?_, rfl, fun a => by rw [State.returnM_mem], ?_⟩
  · rw [State.returnM_priv, privOfCode_code hs.mpp]
  · rw [hcsr, stMie_statusMret]
  · rw [hcsr, stMpie_statusMret]
  · rw [hcsr, stMpp_statusMret]
  · rw [hcsr, stMprv_statusMret]
  · rw [hcsr, getLsbD_statusMret_of_not_mem _ _ hb]
  · exact jumpTo_pc_toNat _ _
  · have hstatus : { s.csr with status := s.returnM.csr.status } = s.returnM.csr := by rw [hcsr]
    rw [hstatus]
    exact s.returnM_frame

/-- Settles O28: as `MRET`, and of what a flush goes by only the mode and MPRV can change. -/
theorem sret : Obligations.Sret := by
  unfold Obligations.Sret
  refine ⟨fun x => decode_encode (i := .sret) rfl, fun s hp => if_pos hp, fun s hp hs => ⟨s.returnS, ?_, ?_⟩⟩
  · exact if_neg (not_trapped_of_M_or_S hp)
  have hcsr := hs.returnS_csr
  refine ⟨s.returnS_priv, ?_, ?_, ?_, ?_, fun b hb => ?_, ?_, hs.returnS_tlb, fun a => by rw [State.returnS_mem], ?_⟩
  · rw [hcsr, stSie_statusSret]
  · rw [hcsr, stSpie_statusSret]
  · rw [hcsr, stSpp_statusSret]
  · rw [hcsr, stMprv_statusSret]
  · rw [hcsr, getLsbD_statusSret_of_not_mem _ hb]
  · exact jumpTo_pc_toNat _ _
  · have hstatus : { s.csr with status := s.returnS.csr.status } = s.returnS.csr := by rw [hcsr]
    rw [hstatus]
    exact s.returnS_frame

/-! ### `ECALL` and `EBREAK` -/

/-- The saved cause is the code of the exception. -/
theorem saved_causeCode_toNat (r : TrapRegs) (pc : Word) (int : Bool) (e : Exc) (tv : Word) :
    (r.saved pc int e.code tv).causeCode.toNat = e.code := by
  cases e <;> rfl

/-- Settles O29: each raises one exception, whose code is the cause. -/
theorem environmentCallAndBreakpoint : Obligations.EnvironmentCallAndBreakpoint := by
  unfold Obligations.EnvironmentCallAndBreakpoint
  intro i s code h
  obtain ⟨e, hexec, rfl⟩ : ∃ e : Exc, exec i s = raise e 0#64 s ∧ e.code = code := by
    rcases h with ⟨rfl, hcode⟩ | ⟨rfl | rfl, rfl⟩
    · refine ⟨ecallExc s.priv, rfl, ?_⟩
      rw [hcode]
      cases s.priv <;> rfl
    · exact ⟨.breakpoint, rfl, rfl⟩
    · exact ⟨.breakpoint, rfl, rfl⟩
  refine ⟨_, hexec, rfl, fun hM => ?_, fun hS => ?_, State.takeTrap_regs .., fun a => by rw [State.takeTrap_mem]⟩
  · obtain ⟨hm, hs⟩ := takeTrap_saved_m hM
    rw [hm]
    exact ⟨rfl, rfl, saved_causeCode_toNat .., rfl, hs⟩
  · obtain ⟨hs, hm⟩ := takeTrap_saved_s hS
    rw [hs]
    exact ⟨rfl, rfl, saved_causeCode_toNat .., rfl, hm⟩

/-! ### `WFI` and `SFENCE.VMA` -/

/-- Settles O30: where the check does not trap, each retires in the state its one effect leaves. -/
theorem waitAndTranslationFence : Obligations.WaitAndTranslationFence := by
  unfold Obligations.WaitAndTranslationFence
  intro s
  refine ⟨fun h => if_pos h, fun h => ⟨_, if_neg ?_, setPc_nextPc_goes 4 rfl⟩, fun rs1 rs2 =>
    ⟨fun h => if_pos h, fun h => ⟨_, if_neg (not_trapped_of_M_or_S h), setPc_nextPc_goes 4 rfl⟩⟩⟩
  rintro ⟨hp, htw⟩
  exact h.elim hp (ne_false_of_eq_true htw)

/-! ### Waiting -/

/-- With no event due the step is the hart's own. -/
theorem preStep_of_quiet {s : State} (hwf : s.hw.wf = true) (hq : ∀ e rest, s.inbox ≠ (0, e) :: rest) :
    preStep s = hartStep ({ s with inbox := tick s.inbox }.sampleTime.compareTime) := by
  unfold preStep
  rw [if_neg (by simp [hwf])]
  split
  next e rest hi => exact absurd hi (hq e rest)
  next => rfl

/-- A waiting hart with nothing to wake it stays as it is, unless it wakes for no reason (47_system R436; log 5). -/
theorem wake_of_not_wakeable {t : State} (hw : t.waiting = true) (h : t.wakeable = 0#12) :
    wake t = if Config.spuriousWake t.draws = true then some { t with waiting := false, draws := t.draws + 1 }
      else none := by
  unfold wake
  rw [if_neg (by simp [hw]), if_neg (not_not.2 h)]

theorem wake_of_wakeable {t : State} (hw : t.waiting = true) (h : t.wakeable ≠ 0#12) :
    wake t = some { t with waiting := false } := by
  unfold wake
  rw [if_neg (by simp [hw]), if_pos h]

/-- Settles O12: time and the comparator leave the hart waiting, and waking asks only for `wakeable`. -/
theorem waitRule : Obligations.WaitRule := by
  unfold Obligations.WaitRule
  intro s t hwf hq hwait ht
  have hwt : t.waiting = true := by rw [ht]; simpa using hwait
  refine ⟨?frame, fun h => wake_of_wakeable hwt h, fun h => ?stay⟩
  case frame => subst ht; apply State.eq_of_fields <;> simp
  case stay =>
    have hwake := wake_of_not_wakeable hwt h
    cases hsp : Config.spuriousWake t.draws
    · refine .inl ⟨rfl, ?_⟩
      rw [hsp] at hwake
      rw [step, preStep_of_quiet hwf hq, ← ht, hartStep, hwake]
      rfl
    · rw [hsp] at hwake
      exact .inr ⟨rfl, hwake⟩

end Sys2Proof.Machine
end

section
/-! SUPPORT. Taking a trap (60_exceptions R546 to R548): the mode it goes to, the words and the TLB it leaves, and the
address control goes to. -/

namespace Sys2Proof.Machine

/-! ### The mode (R546) -/

theorem trapToS_iff {s : State} {int : Bool} {code : Nat} : trapToS s int code = true ↔
    s.priv ≠ .M ∧ (if int then s.csr.mideleg.getLsbD code else s.csr.medeleg.getLsbD code) = true := by
  rw [trapToS, Bool.and_eq_true, bne_iff_ne]

theorem takeTrap_priv (s : State) (int : Bool) (code : Nat) (tval : Word) :
    (s.takeTrap int code tval).priv = trapTarget s int code := by
  unfold State.takeTrap trapTarget
  split
  · exact State.enterS_priv ..
  · exact State.enterM_priv ..

/-! ### The status word (R547) -/

theorem getLsbD_statusToM (w : Word) (old : Priv) (b : Nat) : (statusToM w old).getLsbD b =
    if b = 3 then false
    else if b = 7 then stMie w
    else if 11 ≤ b ∧ b < 13 then old.code.getLsbD (b - 11)
    else w.getLsbD b := by
  rw [statusToM, getLsbD_putBit _ _ _ _ (by decide), getLsbD_putBit _ _ _ _ (by decide),
    getLsbD_putBits _ _ _ _ (by decide)]

@[simp] theorem stMie_statusToM (w : Word) (old : Priv) : stMie (statusToM w old) = false :=
  (getLsbD_statusToM w old 3).trans (by simp)

@[simp] theorem stMpie_statusToM (w : Word) (old : Priv) : stMpie (statusToM w old) = stMie w :=
  (getLsbD_statusToM w old 7).trans (by simp)

@[simp] theorem stMpp_statusToM (w : Word) (old : Priv) : stMpp (statusToM w old) = old.code :=
  (extract2_putBits_ne _ (by decide) (by decide)).trans
    ((extract2_putBits_ne _ (by decide) (by decide)).trans (extract2_putBits _ (by decide)))

/-- No other bit changes. -/
theorem getLsbD_statusToM_of_not_mem (w : Word) (old : Priv) {b : Nat} (hb : b ∉ [3, 7, 11, 12]) :
    (statusToM w old).getLsbD b = w.getLsbD b := by
  simp only [List.mem_cons, List.not_mem_nil, or_false, not_or] at hb
  rw [getLsbD_statusToM, if_neg (by omega), if_neg (by omega), if_neg (by omega)]

theorem code_ne_two (p : Priv) : p.code ≠ 2#2 := by cases p <;> decide

theorem StatusInv.validate_statusToM {s : State} (h : StatusInv s) (old : Priv) :
    validate s.hw (statusToM s.csr.status old) = statusToM s.csr.status old :=
  h.validate_eq (by rw [stMpp_statusToM]; exact code_ne_two old) fun _ hb =>
    getLsbD_statusToM_of_not_mem _ _ ((by decide : ∀ b ∈ validatedBits, b ∉ [3, 7, 11, 12]) _ hb)

theorem getLsbD_statusToS (w : Word) (old : Priv) (b : Nat) : (statusToS w old).getLsbD b =
    if b = 1 then false
    else if b = 5 then stSie w
    else if b = 8 then decide (old = .S)
    else w.getLsbD b := by
  simp only [statusToS, getLsbD_putBit, Nat.reduceLT, beq_eq_decide]

@[simp] theorem stSie_statusToS (w : Word) (old : Priv) : stSie (statusToS w old) = false :=
  (getLsbD_statusToS w old 1).trans (by simp)

@[simp] theorem stSpie_statusToS (w : Word) (old : Priv) : stSpie (statusToS w old) = stSie w :=
  (getLsbD_statusToS w old 5).trans (by simp)

@[simp] theorem stSpp_statusToS (w : Word) (old : Priv) : stSpp (statusToS w old) = decide (old = .S) :=
  (getLsbD_statusToS w old 8).trans (by simp)

/-- No other bit changes. -/
theorem getLsbD_statusToS_of_not_mem (w : Word) (old : Priv) {b : Nat} (hb : b ∉ [1, 5, 8]) :
    (statusToS w old).getLsbD b = w.getLsbD b := by
  simp only [List.mem_cons, List.not_mem_nil, or_false, not_or] at hb
  rw [getLsbD_statusToS, if_neg (by omega), if_neg (by omega), if_neg (by omega)]

@[simp] theorem stMpp_statusToS (w : Word) (old : Priv) : stMpp (statusToS w old) = stMpp w :=
  extract2_eq (getLsbD_statusToS_of_not_mem w old (by decide)) (getLsbD_statusToS_of_not_mem w old (by decide))

theorem StatusInv.validate_statusToS {s : State} (h : StatusInv s) (old : Priv) :
    validate s.hw (statusToS s.csr.status old) = statusToS s.csr.status old :=
  h.validate_eq (by rw [stMpp_statusToS]; exact h.mpp) fun _ hb =>
    getLsbD_statusToS_of_not_mem _ _ ((by decide : ∀ b ∈ validatedBits, b ∉ [1, 5, 8]) _ hb)

/-! ### The bank and the TLB (R547) -/

theorem StatusInv.enterM_csr {s : State} (h : StatusInv s) (int : Bool) (code : Nat) (tval : Word) :
    (s.enterM int code tval).csr =
      { s.csr with status := statusToM s.csr.status s.priv, m := s.csr.m.saved s.vpc int code tval } := by
  rw [Machine.enterM_csr, h.validate_statusToM]

theorem StatusInv.enterS_csr {s : State} (h : StatusInv s) (int : Bool) (code : Nat) (tval : Word) :
    (s.enterS int code tval).csr =
      { s.csr with status := statusToS s.csr.status s.priv, s := s.csr.s.saved s.vpc int code tval } := by
  rw [Machine.enterS_csr, h.validate_statusToS]

/-- A legal word that leaves MPRV, SUM and MXR as they were flushes exactly if MPP or the mode changes. -/
theorem writeStatus_setPriv_tlb_of_mpp {s : State} {w : Word} (p : Priv) (hv : validate s.hw w = w)
    (hw : ∀ b ∈ [17, 18, 19], w.getLsbD b = s.csr.status.getLsbD b) :
    ((s.writeStatus w).setPriv p).tlb =
      if p ≠ s.priv ∨ stMpp w ≠ stMpp s.csr.status then Tlb.empty else s.tlb := by
  refine writeStatus_setPriv_tlb p ?_
  rw [hv]
  exact not_congr ⟨fun hmpp => ⟨hmpp, hw 17 (by decide), hw 18 (by decide), hw 19 (by decide)⟩, fun hsame => hsame.1⟩

/-- A trap empties the TLB exactly if it changes the mode or MPP (20_memory R179). -/
theorem StatusInv.takeTrap_tlb {s : State} (h : StatusInv s) (int : Bool) (code : Nat) (tval : Word) :
    (s.takeTrap int code tval).tlb =
      if (s.takeTrap int code tval).priv ≠ s.priv
          ∨ stMpp (s.takeTrap int code tval).csr.status ≠ stMpp s.csr.status
        then Tlb.empty else s.tlb := by
  refine takeTrap_of_entries
    (P := fun t => t.tlb = if t.priv ≠ s.priv ∨ stMpp t.csr.status ≠ stMpp s.csr.status then Tlb.empty else s.tlb) ?M ?S
  case M =>
    rw [State.enterM_priv, h.enterM_csr]
    exact writeStatus_setPriv_tlb_of_mpp .M (h.validate_statusToM s.priv) fun b hb =>
      getLsbD_statusToM_of_not_mem _ _ ((by decide : ∀ b ∈ [17, 18, 19], b ∉ [3, 7, 11, 12]) b hb)
  case S =>
    rw [State.enterS_priv, h.enterS_csr]
    exact writeStatus_setPriv_tlb_of_mpp .S (h.validate_statusToS s.priv) fun b hb =>
      getLsbD_statusToS_of_not_mem _ _ ((by decide : ∀ b ∈ [17, 18, 19], b ∉ [1, 5, 8]) b hb)

/-- Settles O25: the word each entry writes to the status is legal where the old one was, so validation keeps it. -/
theorem trapEntry : Obligations.TrapEntry := by
  unfold Obligations.TrapEntry
  rintro s t int code tval hs rfl
  refine ⟨?mode, fun hM => ?M, fun hS => ?S, hs.takeTrap_tlb int code tval, fun a => by rw [State.takeTrap_mem],
    State.takeTrap_frame ..⟩
  case mode =>
    rw [takeTrap_priv]
    exact if_congr trapToS_iff rfl rfl
  case M =>
    rw [takeTrap_eq_enterM hM, hs.enterM_csr]
    exact ⟨rfl, rfl, stMpp_statusToM .., stMpie_statusToM .., stMie_statusToM ..,
      fun b hb => getLsbD_statusToM_of_not_mem _ _ hb⟩
  case S =>
    rw [takeTrap_eq_enterS hS, hs.enterS_csr]
    exact ⟨rfl, rfl, stSpp_statusToS .., stSpie_statusToS .., stSie_statusToS ..,
      fun b hb => getLsbD_statusToS_of_not_mem _ _ hb⟩

/-! ### The address (R548) -/

/-- Clearing the low two bits rounds down to a multiple of 4. -/
theorem and_not_three_toNat (v : Word) : (v &&& ~~~3#64).toNat = v.toNat / 4 * 4 := by
  have hmask : ∀ i, i < 64 → (3#64).getLsbD i = decide (i < 2) := by decide
  have hshift : v &&& ~~~3#64 = v >>> 2 <<< 2 := by
    apply BitVec.eq_of_getLsbD_eq
    intro i hi
    simp only [BitVec.getLsbD_and, BitVec.getLsbD_not, BitVec.getLsbD_shiftLeft, BitVec.getLsbD_ushiftRight, hmask i hi,
      hi, decide_true, Bool.true_and]
    by_cases h2 : i < 2
    · simp [h2]
    · simp [h2, Nat.add_sub_cancel' (Nat.le_of_not_lt h2)]
  have hlt : v.toNat / 4 * 4 < 2 ^ 64 := (Nat.div_mul_le_self _ _).trans_lt v.isLt
  rw [hshift, BitVec.toNat_shiftLeft, BitVec.toNat_ushiftRight, Nat.shiftLeft_eq, Nat.shiftRight_eq_div_pow,
    Nat.mod_eq_of_lt hlt]

theorem trapVector_toNat (tvec : Word) (int : Bool) (code : Nat) : (trapVector tvec int code).toNat =
    (if int = true ∧ tvec.getLsbD 0 = true then tvec.toNat / 4 * 4 + 4 * code else tvec.toNat / 4 * 4) % 2 ^ 64 := by
  unfold trapVector
  simp only [Bool.and_eq_true]
  split
  · rw [BitVec.toNat_add, and_not_three_toNat, BitVec.toNat_ofNat, Nat.add_mod_mod]
  · rw [← and_not_three_toNat, Nat.mod_eq_of_lt (BitVec.isLt _)]

/-- The pc a jump to a trap vector leaves. -/
theorem jumpTo_trapVector_pc_toNat (s : State) (tvec : Word) (int : Bool) (code : Nat) :
    (s.jumpTo (trapVector tvec int code)).pc.toNat =
      (if int = true ∧ tvec.getLsbD 0 = true then tvec.toNat / 4 * 4 + 4 * code else tvec.toNat / 4 * 4)
        % 2 ^ (s.jumpTo (trapVector tvec int code)).xw := by
  have hx := (s.jumpTo (trapVector tvec int code)).xw_eq
  rw [jumpTo_pc_toNat, trapVector_toNat, Nat.mod_mod_of_dvd _ (Nat.pow_dvd_pow 2 (by omega))]

end Sys2Proof.Machine

namespace Sys2Proof

open Machine

/-! ### The statements named as the model's own functions are -/

/-- Settles O24: the target is that of `trapTarget`, which goes to S only from S or U. -/
theorem trapTarget : Obligations.TrapTarget := by
  unfold Obligations.TrapTarget
  intro s int code tval d T
  have hT : T = Machine.trapTarget s int code := takeTrap_priv s int code tval
  refine ⟨fun h => hT.trans (if_pos (trapToS_iff.2 h)), fun h => hT.trans (if_neg (mt trapToS_iff.1 ?_)),
    toNat_le_takeTrap_priv s int code tval, takeTrap_priv_ne_U s int code tval⟩
  rintro ⟨hM, hd⟩
  exact h.elim hM (ne_false_of_eq_true hd)

/-- Settles O26: each entry ends with the jump, in the mode the trap goes to. -/
theorem trapVector : Obligations.TrapVector := by
  unfold Obligations.TrapVector
  rintro s t int code tval tvec rfl hM hS
  cases hp : (s.takeTrap int code tval).priv
  case U => exact absurd hp (takeTrap_priv_ne_U s int code tval)
  case S => rw [hS hp, takeTrap_eq_enterS hp]; exact jumpTo_trapVector_pc_toNat ..
  case M => rw [hM hp, takeTrap_eq_enterM hp]; exact jumpTo_trapVector_pc_toNat ..

end Sys2Proof
end

section
/-! SUPPORT. What comes before the fetch: the interrupt check (60_exceptions R543, R544), time and the comparator (R560,
R561), and the events from outside (R540; log 8). -/

namespace Sys2Proof.Machine

/-! ### The interrupt check (R543, R544) -/

theorem getLsbD_mMask (c : Nat) : mMask.getLsbD c = decide (c ∈ [1, 3, 5, 7, 9, 11]) := by
  by_cases h : c < 12
  · revert c; decide
  · rw [BitVec.getLsbD_of_ge _ _ (by omega)]
    symm; simp; omega

theorem State.mEnabled_eq (t : State) : t.mEnabled = (decide (t.priv ≠ .M) || t.csr.status.getLsbD 3) := by
  rw [decide_not, ← beq_eq_decide]
  rfl

theorem State.sEnabled_eq (t : State) :
    t.sEnabled = (decide (t.priv = .U) || (decide (t.priv = .S) && t.csr.status.getLsbD 1)) := by
  unfold State.sEnabled
  cases t.priv <;> rfl

/-- A candidate is pending, enabled in `ie`, and let through by the enable of the mode it goes to. -/
theorem getLsbD_intCandidates (t : State) (c : Nat) : t.intCandidates.getLsbD c =
    (decide (c ∈ [1, 3, 5, 7, 9, 11]) && (t.csr.ip.getLsbD c || t.irqPending.getLsbD c) && t.csr.ie.getLsbD c
      && (if t.csr.mideleg.getLsbD c then t.sEnabled else t.mEnabled)) := by
  by_cases hc : c < 12
  case neg =>
    have hmem : c ∉ [1, 3, 5, 7, 9, 11] := by simp; omega
    rw [BitVec.getLsbD_of_ge _ _ (by omega), decide_eq_false hmem, Bool.false_and, Bool.false_and, Bool.false_and]
  have hpend : (t.wakeable &&& mMask).getLsbD c =
      (decide (c ∈ [1, 3, 5, 7, 9, 11]) && (t.csr.ip.getLsbD c || t.irqPending.getLsbD c) && t.csr.ie.getLsbD c) := by
    rw [State.wakeable, BitVec.getLsbD_and, BitVec.getLsbD_and, BitVec.getLsbD_or, getLsbD_mMask, Bool.and_comm,
      Bool.and_assoc]
  have hgate : ∀ (b : Bool) (v : BitVec 12), (if b then t.wakeable &&& mMask &&& v else 0#12).getLsbD c =
      (b && ((t.wakeable &&& mMask).getLsbD c && v.getLsbD c)) := fun b v => by
    cases b
    · exact BitVec.getLsbD_zero
    · exact BitVec.getLsbD_and
  rw [State.intCandidates, BitVec.getLsbD_or, hgate, hgate, BitVec.getLsbD_not, hpend, decide_eq_true hc]
  cases t.csr.mideleg.getLsbD c <;> simp [Bool.and_comm]

/-- The first element with `p` is one with only elements without `p` before it. -/
theorem find?_eq_some_of_takeWhile {α : Type} [DecidableEq α] {p : α → Bool} {c : α} (hp : p c = true) {l : List α}
    (hc : c ∈ l) (hl : ∀ d ∈ l.takeWhile (· ≠ c), p d = false) : l.find? p = some c := by
  induction l with
  | nil => cases hc
  | cons a l ih =>
    by_cases ha : a = c
    · rw [ha, List.find?_cons_of_pos hp]
    · rw [List.takeWhile_cons_of_pos (by simpa using ha), List.forall_mem_cons] at hl
      rw [List.find?_cons_of_neg (by simp [hl.1])]
      exact ih ((List.mem_cons.1 hc).resolve_left (Ne.symm ha)) hl.2

/-- The hart is awake and an interrupt is to be taken: the step takes it. -/
theorem step_of_pendingInt {s t : State} {c : Nat} (hwf : s.hw.wf = true) (hq : ∀ e rest, s.inbox ≠ (0, e) :: rest)
    (hw : wake ({ s with inbox := tick s.inbox }.sampleTime.compareTime) = some t) (hc : t.pendingInt = some c) :
    step s = .next (t.takeTrap true c 0#64) := by
  rw [step, preStep_of_quiet hwf hq, hartStep, hw]
  dsimp only
  rw [fetchStep, hc]

/-- Settles O11: the candidates of the statement are those of `intCandidates`, searched in the order of priority; a
delegated candidate is none in M, so its trap goes to S. -/
theorem interruptCheck : Obligations.InterruptCheck := by
  unfold Obligations.InterruptCheck
  intro s t hwf hq hw cand hcand
  have hbit : ∀ c, t.intCandidates.getLsbD c = cand c := fun c => by
    rw [hcand, getLsbD_intCandidates, State.sEnabled_eq, State.mEnabled_eq]
  refine ⟨fun hnone => List.find?_eq_none.2 fun c _ => by simp [hbit, hnone], fun c hc hfirst => ?_⟩
  have hcause := (hcand c).symm.trans hc
  rw [Bool.and_eq_true, Bool.and_eq_true, Bool.and_eq_true, decide_eq_true_iff] at hcause
  obtain ⟨⟨⟨hmem, -⟩, -⟩, hgate⟩ := hcause
  have hprio : c ∈ intPriority := (by decide : ∀ c ∈ [1, 3, 5, 7, 9, 11], c ∈ intPriority) c hmem
  have hnotM : t.csr.mideleg.getLsbD c = true → t.priv ≠ .M := fun hd hM => by
    rw [if_pos hd, hM] at hgate
    cases hgate
  constructor
  · exact step_of_pendingInt hwf hq hw
      (find?_eq_some_of_takeWhile ((hbit c).trans hc) hprio fun d hd => (hbit d).trans (hfirst d hd))
  · rw [takeTrap_priv]
    exact if_congr (trapToS_iff.trans (and_iff_right_of_imp hnotM)) rfl rfl

/-! ### Time and the comparator -/

theorem time_stepKeeps (n : Nat) : StepKeeps fun s => n ≤ s.time.toNat where
  inbox _ h := h
  event e h := by simpa using h
  prelude hu h := h.trans hu.time
  data hu h := by rw [hu.frame]; exact h
  csr e h := by rw [e.frame]; exact h
  setX rd v h := by simpa using h
  setPc _ h := h
  trap int c tv h := by simpa using h
  mret h := by simpa using h
  sret h := by simpa using h

/-- Settles O13: no part of a step lets time fall, and the comparator is one test of the sampled time. -/
theorem timeAndComparator : Obligations.TimeAndComparator := by
  unfold Obligations.TimeAndComparator
  refine ⟨fun s t h => (time_stepKeeps s.time.toNat).step (Nat.le_refl _) h, fun s => ⟨fun hstce hle => ?_, fun h => ?_⟩⟩
  · rw [State.compareTime_irqPending]
    exact if_pos ⟨hstce, hle⟩
  · rw [State.compareTime_irqPending]
    refine if_neg fun ⟨hstce, hle⟩ => ?_
    exact h.elim (ne_false_of_eq_true hstce) (Nat.not_lt.2 hle)

/-! ### Events from outside -/

/-- An event that is due is the whole step. -/
theorem step_of_event {s : State} {e : Event} {rest : List (Nat × Event)} (hwf : s.hw.wf = true)
    (h : s.inbox = (0, e) :: rest) : step s = .next ({ s with inbox := rest }.event e) := by
  rw [step, preStep, if_neg (by simp [hwf]), h]
  rfl

theorem survives_iff {r : Reservation} {pa k : Nat} :
    r.survives pa k = true ↔ pa + k ≤ r.pa ∨ r.pa + r.n ≤ pa := by
  rw [Reservation.survives, Bool.or_eq_true, decide_eq_true_iff, decide_eq_true_iff]

/-- Settles O14: the event is the whole step, so each clause is what `State.event` does to the fields it writes. -/
theorem externalEvents : Obligations.ExternalEvents := by
  unfold Obligations.ExternalEvents
  intro s rest hwf
  refine ⟨fun c h => ⟨_, step_of_event hwf h, rfl, fun b hb => ?post⟩,
    fun c h => ⟨_, step_of_event hwf h, rfl, fun b hb => ?clear⟩, fun h => step_of_event hwf h,
    fun pa bytes h hram => ⟨_, step_of_event hwf h, rfl, fun a => readByte_storeBytes _ _ _ _ _ hram, fun r => ?ramWrite⟩⟩
  case post =>
    refine (getLsbD_setIrq _ true hb).trans ?_
    by_cases hbc : b = c.code <;> simp [hbc]
  case clear =>
    refine (getLsbD_setIrq _ false hb).trans ?_
    by_cases hbc : b = c.code <;> simp [hbc]
  case ramWrite =>
    show s.reservation.filter _ = some r ↔ _
    rw [Option.filter_eq_some_iff, survives_iff]

/-! ### No stop -/

theorem Runs.next {i : Instr} {s : State} {r : Result} (h : Runs i s r) : ∃ t, r = .next t := by
  cases h <;> exact ⟨_, rfl⟩

/-- Settles O8: what comes before execution stops only on parameters of no machine or with an FPU, and every instruction
ends in a next state. -/
theorem stepNeverStops : Obligations.StepNeverStops := by
  unfold Obligations.StepNeverStops
  intro s hwf hfpu
  have b := preStep_before s
  rw [step]
  generalize preStep s = p at b
  cases b with
  | bad h => rw [hwf] at h; cases h
  | refused h => rw [hfpu] at h; cases h
  | event | waits | traps => exact ⟨_, rfl⟩
  | run i t e => exact (exec_runs i t).next

end Sys2Proof.Machine
end

section
/-! SUPPORT. The words the spec writes out (41 to 48, 96). -/

namespace Sys2Proof

theorem decode_of_encode_eq {x : Xlen} {e : Encoded} {i : Instr} (h : i.wf x = true ∧ encode i = e) : decode x e = .ok i :=
  h.2 ▸ decode_encode h.1

/-- Settles O3: each accepted word is the encoding of its well-formed instruction; `LD` at XLEN = 32 is rejected. -/
theorem decodedWords : Obligations.DecodedWords := by
  unfold Obligations.DecodedWords
  refine ⟨?_, ?_, ?_, ?_, ?_, ?_, ?_, rfl, ?_, ?_, ?_, ?_, ?_, ?_⟩
  all_goals exact decode_of_encode_eq (by decide)

end Sys2Proof
end
